-- ==== Sys2Proof/Word.lean ====
section
/-! DEFINITION. The words of the CORE: the widths of `00_scope.md` R9 under their names. -/

namespace Sys2Proof

/-- A byte of input memory (`20_memory.md` R60). -/
abbrev Byte := BitVec 8

/-- A 32-bit register: CMD, P0..P3, R1, SBASE, SLEN, C, BP (`10_state.md` R38). -/
abbrev Word := BitVec 32

end Sys2Proof
end

