-- ==== Sys2Proof/Config.lean ====
section
/-! DEFINITION. What an implementation fixes (the six capacity parameters of `00_scope.md` R10) and the
free values: what the spec leaves "unspecified, any value of its type" (`60_exceptions.md` R426,
`93_implementation_defined.md` U1, U5). A free value is an opaque constant: no proof can see what it is. -/

namespace Sys2Proof

/-- The open parameters of `00_scope.md` R10. They are arguments of the model: State carries them and no step
changes them (log entry 2). -/
structure Params where
  /-- bytes of input memory -/
  inmemSize : Nat
  /-- number of segment-store slots -/
  nslot : Nat
  /-- entries in the reference list REF -/
  refmax : Nat
  /-- largest width x height of one bitmap, in pixels -/
  maxpix : Nat
  /-- largest number of symbols visible to one command -/
  maxsyms : Nat
  /-- largest number of lines of one custom Huffman table -/
  maxlines : Nat
deriving DecidableEq, Repr

/-- The constraints of `00_scope.md` R10. The bound on MAXSYMS is DEDUCED from the 6-bit register IDLEN, which must be
able to hold `ceil_log2(MAXSYMS)` (`10_state.md` R25; log entry 2). -/
abbrev Params.Valid (p : Params) : Prop :=
  1 ≤ p.inmemSize ∧ p.inmemSize ≤ 2 ^ 32 ∧ 1 ≤ p.nslot ∧ p.nslot ≤ 2 ^ 16 ∧ 1 ≤ p.refmax ∧ p.refmax ≤ 2 ^ 16 ∧
    1 ≤ p.maxpix ∧ 1 ≤ p.maxsyms ∧ p.maxsyms ≤ 2 ^ 63 ∧ 3 ≤ p.maxlines

/-- The "suggested" column of `00_scope.md` R10: 2^24, 256, 256, 2^28, 2^20, 2^16. DESIGN CHOICE (log entry 2). -/
def Params.suggested : Params :=
  { inmemSize := 16777216, nslot := 256, refmax := 256, maxpix := 268435456, maxsyms := 1048576, maxlines := 65536 }

namespace Config

/-! The free values. The first argument of those drawn at an error is the number of the error (`State.draws`,
log entry 4); `freeInmem` is applied to the address (log entry 3). -/

/-- SP after an error that leaves it unspecified, before it is brought into 0 .. 8 * SLEN. -/
opaque freeSp : Nat → Nat
/-- R0 after such an error. -/
opaque freeR0 : Nat → BitVec 64
/-- R1 after such an error. -/
opaque freeR1 : Nat → Word
/-- RFLAGS.OOB after such an error. -/
opaque freeOob : Nat → Bool
/-- C after such an error. -/
opaque freeC : Nat → Word
/-- A after such an error. -/
opaque freeA : Nat → BitVec 16
/-- CT after such an error. -/
opaque freeCt : Nat → BitVec 4
/-- B after such an error. -/
opaque freeB : Nat → Byte
/-- BP after such an error. -/
opaque freeBp : Nat → Word
/-- IDLEN after such an error, before it is brought into 0 .. ceil_log2(MAXSYMS). -/
opaque freeIdlen : Nat → Nat
/-- The index I of a context entry after such an error: error number, array number, entry. -/
opaque freeCxIndex : Nat → Nat → Nat → Fin 47
/-- The MPS of a context entry after such an error: error number, array number, entry. -/
opaque freeCxMps : Nat → Nat → Nat → Bool
/-- Whether the standard tables a failing command constructed stay constructed (`60_exceptions.md` R426; log
entry 7). -/
opaque freeKeepBuilt : Nat → Bool
/-- The byte of INMEM at an address the host never wrote (`93_implementation_defined.md` U5; log entry 3). -/
opaque freeInmem : Nat → Byte

end Config

end Sys2Proof
end

