-- ==== Sys2Proof/Syntax.lean ====
section
/-! DEFINITION. The commands of the CORE, one constructor per row of `spec/opcode_table.json`. -/

namespace Sys2Proof

/-- A command of `30_encoding.md` R95 (segment class) or R98 (primitive class). The immediates `a` (8 bits) and `b`
(16 bits) are kept as they stand in the word (R106); a command whose format does not use an immediate has none. -/
inductive Instr where
  /-- `SEG.SD` (`47_symbol_dict.md` R324) -/
  | segSd
  /-- `SEG.TR.INT` (`48_text_region.md` R375) -/
  | segTrInt
  /-- `SEG.TR.IMM` (`48_text_region.md` R375) -/
  | segTrImm
  /-- `SEG.TR.IMML` (`48_text_region.md` R375) -/
  | segTrImml
  /-- `SEG.GR.INT` (`45_generic.md` R266) -/
  | segGrInt
  /-- `SEG.GR.IMM` (`45_generic.md` R266) -/
  | segGrImm
  /-- `SEG.GR.IMML` (`45_generic.md` R266) -/
  | segGrImml
  /-- `SEG.RR.INT` (`46_refinement.md` R296) -/
  | segRrInt
  /-- `SEG.RR.IMM` (`46_refinement.md` R296) -/
  | segRrImm
  /-- `SEG.RR.IMML` (`46_refinement.md` R296) -/
  | segRrImml
  /-- `SEG.TABLES` (`43_huffman.md` R217) -/
  | segTables
  /-- `STRM.BIND` (`40_stream.md` R134) -/
  | strmBind
  /-- `STRM.SEEK` (`40_stream.md` R135) -/
  | strmSeek
  /-- `STRM.READBITS a` (`40_stream.md` R136): a = number of bits -/
  | strmReadbits (a : BitVec 8)
  /-- `STRM.ALIGN` (`40_stream.md` R137) -/
  | strmAlign
  /-- `AD.INIT` (`41_arith.md` R141) -/
  | adInit
  /-- `AD.DECODE a, b` (`41_arith.md` R144): a = ARRSEL, b = entry index -/
  | adDecode (a : BitVec 8) (b : BitVec 16)
  /-- `AD.CXRESET a, b` (`41_arith.md` R146): a = ARRSEL or 0xFF, b = new IDLEN -/
  | adCxreset (a : BitVec 8) (b : BitVec 16)
  /-- `IA.DECODE a` (`42_intdec.md` R170): a = ARRSEL of an integer array -/
  | iaDecode (a : BitVec 8)
  /-- `IAID.DECODE` (`42_intdec.md` R175) -/
  | iaidDecode
  /-- `HT.STD a` (`43_huffman.md` R198): a = number of a standard table -/
  | htStd (a : BitVec 8)
  /-- `HT.DECODE a` (`43_huffman.md` R199): a = number of a standard table, or 0 for the table in slot P0 -/
  | htDecode (a : BitVec 8)
  /-- `BM.COMBINE a` (`44_bitmap.md` R244): a = operator code -/
  | bmCombine (a : BitVec 8)
  /-- `BM.NEW a` (`44_bitmap.md` R242): a = fill -/
  | bmNew (a : BitVec 8)
deriving DecidableEq, Repr

end Sys2Proof
end

