-- ==== Sys2Proof/WellFormed.lean ====
section
/-! DEFINITION. Well-formed commands: the ranges of the immediates that `30_encoding.md` R98 and R99 give, as far as they
do not depend on the state (the index bound of `AD.DECODE` and the IDLEN bound of `AD.CXRESET` do; the meanings
check them). -/

namespace Sys2Proof

/-- The immediates are in the ranges of `30_encoding.md` R98 and the `constraints` of `spec/opcode_table.json`. -/
def Instr.wf : Instr → Bool
  | .segSd => true
  | .segTrInt => true
  | .segTrImm => true
  | .segTrImml => true
  | .segGrInt => true
  | .segGrImm => true
  | .segGrImml => true
  | .segRrInt => true
  | .segRrImm => true
  | .segRrImml => true
  | .segTables => true
  | .strmBind => true
  | .strmSeek => true
  | .strmReadbits a => decide (a.toNat ≤ 32)
  | .strmAlign => true
  | .adInit => true
  | .adDecode a _ => decide (a.toNat ≤ 15)
  | .adCxreset a b => (decide (a.toNat ≤ 14) && decide (b = 0)) || decide (a.toNat = 15) || decide (a.toNat = 255)
  | .iaDecode a => decide (2 ≤ a.toNat) && decide (a.toNat ≤ 14)
  | .iaidDecode => true
  | .htStd a => decide (1 ≤ a.toNat) && decide (a.toNat ≤ 15)
  | .htDecode a => decide (a.toNat ≤ 15)
  | .bmCombine a => decide (a.toNat ≤ 4)
  | .bmNew a => decide (a.toNat ≤ 1)

end Sys2Proof
end

