-- ==== Sys2Proof/Machine/Errors.lean ====
section
/-! DEFINITION. The six errors of `60_exceptions.md` R420. They are no stops of the machine: a command that raises one ends in
a next state with STATUS = ERROR (R424). -/

namespace Sys2Proof.Machine

/-- The errors of `60_exceptions.md` R420. -/
inductive CoreError where
  /-- a segment's data contradicts itself, or a T.88-reserved segment type as opcode -/
  | malformedSegment
  /-- valid per T.88 but not implemented: MMR, reserved bits and values, capacities -/
  | unsupportedFeature
  /-- a read of a stream byte outside the window -/
  | unexpectedEndOfData
  /-- a referred slot is Empty or of the wrong kind -/
  | invalidReference
  /-- a Huffman prefix walk ends without reaching a line -/
  | invalidCode
  /-- the command word or its operands are unusable -/
  | illegalCommand
deriving DecidableEq, Repr

/-- The numeric code of an error, the value ERR takes (`60_exceptions.md` R420). -/
def CoreError.code : CoreError → BitVec 3
  | .malformedSegment => 1
  | .unsupportedFeature => 2
  | .unexpectedEndOfData => 3
  | .invalidReference => 4
  | .invalidCode => 5
  | .illegalCommand => 6

end Sys2Proof.Machine
end

