-- ==== Sys2Proof/Decode.lean ====
section
/-! DEFINITION. Decoding a command word (`30_encoding.md` R91, R107), total on all 32-bit words, and after it the encoder. -/

namespace Sys2Proof

open Machine (CoreError)

/-- `OPC` = CMD[7:0] (`30_encoding.md` R91). -/
def opcField (w : Word) : BitVec 8 := w.extractLsb' 0 8

/-- `a` = CMD[15:8] (`30_encoding.md` R91). -/
def aField (w : Word) : BitVec 8 := w.extractLsb' 8 8

/-- `b` = CMD[31:16] (`30_encoding.md` R91). -/
def bField (w : Word) : BitVec 16 := w.extractLsb' 16 16

/-- The opcode of every command (`30_encoding.md` R95, R98). -/
def Instr.opc : Instr → BitVec 8
  | .segSd => 0x00
  | .segTrInt => 0x04
  | .segTrImm => 0x06
  | .segTrImml => 0x07
  | .segGrInt => 0x24
  | .segGrImm => 0x26
  | .segGrImml => 0x27
  | .segRrInt => 0x28
  | .segRrImm => 0x2A
  | .segRrImml => 0x2B
  | .segTables => 0x35
  | .strmBind => 0x40
  | .strmSeek => 0x41
  | .strmReadbits _ => 0x42
  | .strmAlign => 0x43
  | .adInit => 0x48
  | .adDecode _ _ => 0x49
  | .adCxreset _ _ => 0x4A
  | .iaDecode _ => 0x4B
  | .iaidDecode => 0x4C
  | .htStd _ => 0x50
  | .htDecode _ => 0x52
  | .bmCombine _ => 0x58
  | .bmNew _ => 0x59

/-- Accept a command whose immediates pass the check of its format, else IllegalCommand (`30_encoding.md` R101). -/
def accept (ok : Bool) (i : Instr) : Except CoreError Instr :=
  if ok && i.wf then .ok i else .error .illegalCommand

/-- Format F0 uses neither immediate: both must be zero (`30_encoding.md` R91, R101). -/
def formF0 (a : BitVec 8) (b : BitVec 16) (i : Instr) : Except CoreError Instr :=
  accept (decide (a = 0) && decide (b = 0)) i

/-- Format FA uses `a`: `b` must be zero (`30_encoding.md` R91, R101). -/
def formFA (b : BitVec 16) (i : Instr) : Except CoreError Instr := accept (decide (b = 0)) i

/-- The segment class, opcodes 0x00 .. 0x3F (`30_encoding.md` R95; the refusals are R103's two lists). -/
def decodeSegment (opc a : BitVec 8) (b : BitVec 16) : Except CoreError Instr :=
  match opc.toNat with
  | 0 => formF0 a b .segSd
  | 4 => formF0 a b .segTrInt
  | 6 => formF0 a b .segTrImm
  | 7 => formF0 a b .segTrImml
  | 36 => formF0 a b .segGrInt
  | 38 => formF0 a b .segGrImm
  | 39 => formF0 a b .segGrImml
  | 40 => formF0 a b .segRrInt
  | 42 => formF0 a b .segRrImm
  | 43 => formF0 a b .segRrImml
  | 53 => formF0 a b .segTables
  | n =>
    if n ∈ [16, 20, 22, 23, 48, 49, 50, 51, 52, 62] then .error .unsupportedFeature else .error .malformedSegment

/-- The primitive class, opcodes 0x40 .. 0x7F (`30_encoding.md` R98; every other one is reserved, R102). -/
def decodePrimitive (opc a : BitVec 8) (b : BitVec 16) : Except CoreError Instr :=
  match opc.toNat with
  | 0x40 => formF0 a b .strmBind
  | 0x41 => formF0 a b .strmSeek
  | 0x42 => formFA b (.strmReadbits a)
  | 0x43 => formF0 a b .strmAlign
  | 0x48 => formF0 a b .adInit
  | 0x49 => accept true (.adDecode a b)
  | 0x4A => accept true (.adCxreset a b)
  | 0x4B => formFA b (.iaDecode a)
  | 0x4C => formF0 a b .iaidDecode
  | 0x50 => formFA b (.htStd a)
  | 0x52 => formFA b (.htDecode a)
  | 0x58 => formFA b (.bmCombine a)
  | 0x59 => formFA b (.bmNew a)
  | _ => .error .illegalCommand

/-- Decoding a command word in full (`30_encoding.md` R107): a command, or one of the three refusals. -/
def decode (w : Word) : Except CoreError Instr :=
  let opc := opcField w
  if opc.getLsbD 7 then .error .illegalCommand
  else if opc.getLsbD 6 then decodePrimitive opc (aField w) (bField w)
  else decodeSegment opc (aField w) (bField w)

/-- The immediate `a` of a command, zero where the format has none (`30_encoding.md` R101). -/
def Instr.immA : Instr → BitVec 8
  | .strmReadbits a => a
  | .adDecode a _ => a
  | .adCxreset a _ => a
  | .iaDecode a => a
  | .htStd a => a
  | .htDecode a => a
  | .bmCombine a => a
  | .bmNew a => a
  | .segSd | .segTrInt | .segTrImm | .segTrImml | .segGrInt | .segGrImm | .segGrImml | .segRrInt | .segRrImm
  | .segRrImml | .segTables | .strmBind | .strmSeek | .strmAlign | .adInit | .iaidDecode => 0

/-- The immediate `b` of a command, zero where the format has none (`30_encoding.md` R101). -/
def Instr.immB : Instr → BitVec 16
  | .adDecode _ b => b
  | .adCxreset _ b => b
  | .strmReadbits _ | .iaDecode _ | .htStd _ | .htDecode _ | .bmCombine _ | .bmNew _
  | .segSd | .segTrInt | .segTrImm | .segTrImml | .segGrInt | .segGrImm | .segGrImml | .segRrInt | .segRrImm
  | .segRrImml | .segTables | .strmBind | .strmSeek | .strmAlign | .adInit | .iaidDecode => 0

/-- The word of a command: `(b << 16) | (a << 8) | OPC` (`30_encoding.md` R117). -/
def encode (i : Instr) : Word := i.immB ++ i.immA ++ i.opc

/-- The command the decoder reads from a word numbered as `spec/opcode_table.json` numbers it; every bit at `nbits` and
above is zero. -/
def decodeTableWord (nbits w : Nat) : Option Instr :=
  match decode (BitVec.ofNat 32 (w % 2 ^ nbits)) with
  | .ok i => some i
  | .error _ => none

end Sys2Proof
end

