-- ==== Sys2Proof/Machine/Values.lean ====
section
/-! DEFINITION. The values State holds: context arrays (`10_state.md` R24), bitmaps (R44), Huffman tables
(`43_huffman.md` R190, R191) and segment-store slots (R33). -/

namespace Sys2Proof.Machine

/-- A context entry `(I, MPS)` (`10_state.md` R24): a row of the 47-row probability table and the more probable
symbol. -/
structure CxEntry where
  idx : Fin 47
  mps : Bool
deriving DecidableEq, Repr

/-- What the unlisted entries of a context array are. -/
inductive CxBase where
  /-- `(I = 0, MPS = 0)`, the state of a cleared array (`41_arith.md` R146) -/
  | fresh
  /-- the free values of the error number `draw` for array number `arr` (`60_exceptions.md` R426) -/
  | drawn (draw arr : Nat)
deriving DecidableEq, Repr

/-- A context array: the entries that differ from (or were written over) its base, by rising index. The number of
entries is the selector's (`10_state.md` R24) and, for IAID, IDLEN's (R25). -/
structure CxArray where
  base : CxBase
  cells : List (Nat × CxEntry)
deriving DecidableEq, Repr

/-- The sixteen context arrays by name (`10_state.md` R24; ARRSEL, `30_encoding.md` R99). -/
inductive Arr where
  | gb | gr | iadh | iadw | iaex | iaai | iadt | iafs | iads | iait | iari | iardw | iardh | iardx | iardy | iaid
deriving DecidableEq, Repr

/-- The sixteen context arrays (`10_state.md` R24). -/
structure Contexts where
  gb : CxArray
  gr : CxArray
  iadh : CxArray
  iadw : CxArray
  iaex : CxArray
  iaai : CxArray
  iadt : CxArray
  iafs : CxArray
  iads : CxArray
  iait : CxArray
  iari : CxArray
  iardw : CxArray
  iardh : CxArray
  iardx : CxArray
  iardy : CxArray
  iaid : CxArray
deriving DecidableEq, Repr

/-- A Bitmap `(W, H, PIX)` (`10_state.md` R44). Pixel (x, y) is bit `y * w + x` of `pix`; the packing is the model's own
and carries exactly W * H pixels. The byte image of `20_memory.md` R69 is `Bitmap.image`. -/
structure Bitmap where
  w : Nat
  h : Nat
  pix : BitVec (w * h)
deriving DecidableEq, Repr

/-- The combination operators (`44_bitmap.md` R243). -/
inductive CombOp where
  | or | and | xor | xnor | replace
deriving DecidableEq, Repr

/-- The kind of a Huffman table line (`43_huffman.md` R190). -/
inductive LineKind where
  | plain | lower | upper | oob
deriving DecidableEq, Repr

/-- A line of a Huffman table (`43_huffman.md` R190). `code` is absent when PREFLEN = 0; `rangelow` of an OOB line is
not a value of the table and is never read. -/
structure Line where
  preflen : Nat
  rangelen : Int
  rangelow : Int
  kind : LineKind
  code : Option Nat
deriving DecidableEq, Repr

/-- A Huffman table: its lines in declaration order (`43_huffman.md` R191). -/
abbrev Table := List Line

/-- The offsets of adaptive template pixels, (x, y) pairs (`45_generic.md` R260, `46_refinement.md` R290). -/
abbrev AtPixels := List (Int × Int)

/-- The record RET of retained context arrays (`10_state.md` R33, `47_symbol_dict.md` R331). -/
structure Retained where
  sdrefagg : Bool
  sdtemplate : Fin 4
  sdrtemplate : Bool
  sdat : AtPixels
  sdrat : AtPixels
  gb : CxArray
  gr : CxArray
deriving DecidableEq, Repr

/-- The value of a segment-store slot (`10_state.md` R33). NSYM and NLINES are the lengths of the lists. -/
inductive Slot where
  | empty
  | symDict (syms : List Bitmap) (ret : Option Retained)
  | table (t : Table)
  | region (bm : Bitmap) (x y : Word) (op : CombOp)
deriving DecidableEq, Repr

/-- The registers of the arithmetic decoder (`10_state.md` R23). -/
structure ArithRegs where
  /-- the code register -/
  c : Word
  /-- the interval size -/
  a : BitVec 16
  /-- bits that can still be shifted out of C -/
  ct : BitVec 4
  /-- the byte at position BP -/
  b : Byte
  /-- byte index of B, relative to SBASE -/
  bp : Word
deriving DecidableEq, Repr

end Sys2Proof.Machine
end

