-- ==== Sys2Proof/Machine/State.lean ====
section
/-! DEFINITION. The architectural state of the CORE (`10_state.md` R20), its reset value (R45), the host's moves, and the
stops of the model. -/

namespace Sys2Proof.Machine

/-- STATUS (`10_state.md` R29). BUSY is left out, as R29 allows: a command is one step (log entry 8). -/
inductive Status where
  | idle
  | done
  | error
deriving DecidableEq, Repr

/-- A move of the host, the only inputs of the machine (`00_scope.md` R7, `20_memory.md` R71; log entry 1). -/
inductive HostMove where
  /-- a write of `value` to the register with number `reg` of `10_state.md` R38; reg 0 is CMD and starts a command -/
  | write (reg value : Nat)
  /-- a write of one byte of INMEM (`20_memory.md` R60) -/
  | poke (addr : Nat) (byte : Byte)
  /-- reset (`70_reset_and_hazards.md` R460) -/
  | reset
deriving DecidableEq, Repr

/-- The machine's own stops. No command stops the machine: the spec's errors are next states. -/
inductive Fault where
  /-- Raised by a host move that writes INMEM at an address outside 0 .. INMEM_SIZE-1, which does not exist
  (`20_memory.md` R60). Safe: the model stops where the spec says nothing (log entry 9). -/
  | inmemAddress (addr : Nat)
deriving DecidableEq, Repr

/-- Refusals of the model. -/
inductive Refusal where
  /-- Raised by an arm of `exec` whose instruction has no meaning yet. Safe. No arm does. -/
  | notModelled (mnemonic : String)
deriving DecidableEq, Repr

/-- The listed bytes of INMEM (`20_memory.md` R60), by strictly rising address. An unlisted address is one the host
never wrote: it has no value here, and the CORE reads a free value there (log entry 3). -/
abbrev Memory := List Host.Cell

/-- The architectural state (`10_state.md` R20), and three fields of the model's own: `cfg`, `host`, `draws`. -/
structure State where
  /-- the open parameters (`00_scope.md` R10; log entry 2) -/
  cfg : Params
  /-- CMD (R28) -/
  cmd : Word
  /-- STATUS (R29) -/
  status : Status
  /-- ERR (R30) -/
  err : BitVec 3
  /-- ERRPOS (R31) -/
  errPos : BitVec 36
  /-- FIRSTERR (R34) -/
  firstErr : Word
  /-- P0 (R21) -/
  p0 : Word
  /-- P1 (R21) -/
  p1 : Word
  /-- P2 (R21) -/
  p2 : Word
  /-- P3 (R21) -/
  p3 : Word
  /-- R0, signed (R22) -/
  r0 : BitVec 64
  /-- R1 (R22) -/
  r1 : Word
  /-- RFLAGS.OOB (R27) -/
  oob : Bool
  /-- REFN (R32) -/
  refn : BitVec 16
  /-- REF[0 .. REFMAX-1] (R32): the entries that are not 0, by rising index -/
  ref : List (Nat × BitVec 16)
  /-- SBASE (R26) -/
  sbase : Word
  /-- SLEN (R26) -/
  slen : Word
  /-- SP, a bit cursor (R26) -/
  sp : BitVec 36
  /-- IDLEN (R25) -/
  idlen : BitVec 6
  /-- C, A, CT, B, BP (R23) -/
  ad : ArithRegs
  /-- ADVALID (R37) -/
  advalid : Bool
  /-- the sixteen context arrays (R24) -/
  cx : Contexts
  /-- SEGSTORE[0 .. NSLOT-1] (R33): the slots that are not Empty, by rising handle -/
  segstore : List (Nat × Slot)
  /-- STDTAB[1 .. 15] (R36): the tables constructed so far, by rising number -/
  stdTab : List (Nat × Table)
  /-- INMEM (`20_memory.md` R60) -/
  inmem : Memory
  /-- the host moves not yet taken, the next one first (log entry 1) -/
  host : List HostMove
  /-- how many errors have left state unspecified: the argument of the free values (log entry 4) -/
  draws : Nat
deriving DecidableEq, Repr

/-- A context array with every entry (I = 0, MPS = 0) (`10_state.md` R45, `41_arith.md` R146). -/
def CxArray.cleared : CxArray := { base := .fresh, cells := [] }

/-- All sixteen arrays cleared (`10_state.md` R45). -/
def Contexts.cleared : Contexts :=
  { gb := .cleared, gr := .cleared, iadh := .cleared, iadw := .cleared, iaex := .cleared, iaai := .cleared
    iadt := .cleared, iafs := .cleared, iads := .cleared, iait := .cleared, iari := .cleared, iardw := .cleared
    iardh := .cleared, iardx := .cleared, iardy := .cleared, iaid := .cleared }

/-- The state after reset (`10_state.md` R45) with given parameters. INMEM is not part of the CORE's reset (R45): nothing
is listed until the host writes it. -/
def State.resetWith (p : Params) : State :=
  { cfg := p
    cmd := 0
    status := .idle
    err := 0
    errPos := 0
    firstErr := 0
    p0 := 0
    p1 := 0
    p2 := 0
    p3 := 0
    r0 := 0
    r1 := 0
    oob := false
    refn := 0
    ref := []
    sbase := 0
    slen := 0
    sp := 0
    idlen := 0
    ad := { c := 0, a := 0, ct := 0, b := 0, bp := 0 }
    advalid := false
    cx := .cleared
    segstore := []
    stdTab := []
    inmem := []
    host := []
    draws := 0 }

/-- The machine right after reset (`10_state.md` R45), with the suggested parameters of `00_scope.md` R10 (log entry 2)
and no host move pending. -/
def State.reset : State := State.resetWith Params.suggested

end Sys2Proof.Machine
end

