-- ==== Sys2Proof/Machine/Sparse.lean ====
section
/-! DEFINITION. Sparse data by key in one canonical form, a list of (key, value) pairs by strictly rising key: INMEM, REF,
SEGSTORE, STDTAB and the context arrays are held so. -/

namespace Sys2Proof.Machine

/-- The value listed at key `i`. -/
def sparseFind {α : Type} : List (Nat × α) → Nat → Option α
  | [], _ => none
  | (k, v) :: m, i => if k = i then some v else sparseFind m i

/-- List `v` at key `i`, in place of what was listed there. -/
def sparsePut {α : Type} : List (Nat × α) → Nat → α → List (Nat × α)
  | [], i, v => [(i, v)]
  | (k, u) :: m, i, v =>
    if k = i then (i, v) :: m else if i < k then (i, v) :: (k, u) :: m else (k, u) :: sparsePut m i v

/-- List nothing at key `i`. -/
def sparseDrop {α : Type} : List (Nat × α) → Nat → List (Nat × α)
  | [], _ => []
  | (k, u) :: m, i => if k = i then m else (k, u) :: sparseDrop m i

/-- The value at key `i`, where an unlisted key reads `d`. -/
def sparseGetD {α : Type} (d : α) (m : List (Nat × α)) (i : Nat) : α := (sparseFind m i).getD d

/-- Write `v` at key `i` where an unlisted key reads `d`: writing `d` removes the entry. -/
def sparseSetD {α : Type} [DecidableEq α] (d : α) (m : List (Nat × α)) (i : Nat) (v : α) : List (Nat × α) :=
  if v = d then sparseDrop m i else sparsePut m i v

/-- The keys rise strictly: the canonical form of a sparse list in which any value may be listed. -/
abbrev SparseRising {α : Type} (m : List (Nat × α)) : Prop := m.Pairwise (fun p q => p.1 < q.1)

/-- The canonical form where an unlisted key reads `d`: the keys rise strictly and no entry equals `d`. -/
abbrev SparseWf {α : Type} (d : α) (m : List (Nat × α)) : Prop := SparseRising m ∧ ∀ p ∈ m, p.2 ≠ d

/-- INMEM is in canonical form. No listed byte equals what an unlisted address reads as, since an unlisted address holds
no value (log entry 3). -/
abbrev Memory.wf (m : Memory) : Prop := SparseRising m

end Sys2Proof.Machine
end

