-- ==== Sys2Proof/Machine/Work.lean ====
section
/-! DEFINITION. The working state of a command and the type of its procedures. A command works on a private `Work` and
commits it at completion (`60_exceptions.md` R425); an error carries the working state it was raised in. -/

namespace Sys2Proof.Machine

/-- What a procedure reads and never changes: INMEM, the bound stream's base, the window `[wb, we)` in bytes of the stream
(`40_stream.md` R130), the parameters, and the standard tables constructed before the command. -/
structure Env where
  inmem : Memory
  base : Nat
  wb : Nat
  we : Nat
  cfg : Params
  stdTab : List (Nat × Table)
deriving DecidableEq, Repr

/-- What a procedure may change: the bit cursor SP, the arithmetic decoder's registers, the context arrays, and which
standard tables it used (bit n for table B.n). -/
structure Work where
  sp : Nat
  ad : ArithRegs
  cx : Contexts
  built : BitVec 16
deriving DecidableEq, Repr

/-- Which state a command may write (`10_state.md` R41), beside STATUS, ERR, ERRPOS, FIRSTERR, ADVALID, STDTAB and what its
own rule names: the items that R426 leaves unspecified when it ends in an error other than IllegalCommand. -/
structure Footprint where
  sp : Bool
  r0 : Bool
  r1 : Bool
  oob : Bool
  ad : Bool
  idlen : Bool
  arrs : List Arr
  /-- a segment command of `30_encoding.md` R95: such an error empties SEGSTORE[DST] (`60_exceptions.md` R425) -/
  segment : Bool
deriving DecidableEq, Repr

/-- A procedure of the spec's pseudocode: it changes the working state and yields a value, or raises an error
(`00_scope.md` R12). -/
abbrev Dec (α : Type) := EStateM CoreError Work α

/-- `raise e` unless `c` holds. -/
def require (c : Bool) (e : CoreError) : Dec Unit := if c then pure () else throw e

/-- Run `f i`, `f (i+1)`, ... `count` times, threading a value: `for i in a .. b` of `00_scope.md` R12. -/
def loopM {σ : Type} (f : Nat → σ → Dec σ) : (count i : Nat) → σ → Dec σ
  | 0, _, s => pure s
  | n + 1, i, s => do
    let s' ← f i s
    loopM f n (i + 1) s'

/-- The same loop where the body raises nothing and changes no working state. -/
def loopPure {σ : Type} (f : Nat → σ → σ) : (count i : Nat) → σ → σ
  | 0, _, s => s
  | n + 1, i, s => loopPure f n (i + 1) (f i s)

end Sys2Proof.Machine
end

