-- ==== Sys2Proof/Machine/Operands.lean ====
section
/-! DEFINITION. Operand forms (`30_encoding.md` R93, R96, R99, R106) and the bit-field helpers of `00_scope.md` R11. -/

namespace Sys2Proof.Machine

/-- `v[hi:lo]` of a number (`00_scope.md` R11). -/
def bitField (v hi lo : Nat) : Nat := (v >>> lo) % 2 ^ (hi + 1 - lo)

/-- `sext_n(v)` (`00_scope.md` R11). -/
def sext (n v : Nat) : Int := (BitVec.ofNat n v).toInt

/-- `ceil_log2(n)`, the least k with 2^k ≥ n, and 0 for n ≤ 1 (`00_scope.md` R11). -/
def ceilLog2 (n : Nat) : Nat := if n ≤ 1 then 0 else Nat.log2 (n - 1) + 1

/-- The array an ARRSEL names (`30_encoding.md` R99); none for 16 .. 255. -/
def arrOfSel : Nat → Option Arr
  | 0 => some .gb
  | 1 => some .gr
  | 2 => some .iadh
  | 3 => some .iadw
  | 4 => some .iaex
  | 5 => some .iaai
  | 6 => some .iadt
  | 7 => some .iafs
  | 8 => some .iads
  | 9 => some .iait
  | 10 => some .iari
  | 11 => some .iardw
  | 12 => some .iardh
  | 13 => some .iardx
  | 14 => some .iardy
  | 15 => some .iaid
  | _ => none

/-- The ARRSEL of an array (`30_encoding.md` R99). -/
def arrSel : Arr → Nat
  | .gb => 0
  | .gr => 1
  | .iadh => 2
  | .iadw => 3
  | .iaex => 4
  | .iaai => 5
  | .iadt => 6
  | .iafs => 7
  | .iads => 8
  | .iait => 9
  | .iari => 10
  | .iardw => 11
  | .iardh => 12
  | .iardx => 13
  | .iardy => 14
  | .iaid => 15

/-- The number of entries of an array (`10_state.md` R24); IAID has 2^IDLEN (R25). -/
def arrSize (idlen : Nat) : Arr → Nat
  | .gb => 65536
  | .gr => 8192
  | .iaid => 2 ^ idlen
  | .iadh | .iadw | .iaex | .iaai | .iadt | .iafs | .iads | .iait | .iari | .iardw | .iardh | .iardx | .iardy => 512

/-- The combination operator of a code (`30_encoding.md` R100). -/
def combOpOfCode : Nat → Option CombOp
  | 0 => some .or
  | 1 => some .and
  | 2 => some .xor
  | 3 => some .xnor
  | 4 => some .replace
  | _ => none

/-- DST, or SRC of `HT.DECODE 0`: P0 as `zext_32` (`30_encoding.md` R93). -/
def State.dst (s : State) : Nat := s.p0.toNat

/-- SRC of `BM.COMBINE`: P1 as `zext_32` (`44_bitmap.md` R244). -/
def State.src (s : State) : Nat := s.p1.toNat

/-- DATALEN: P1 as `zext_32` (`30_encoding.md` R93). -/
def State.datalen (s : State) : Nat := s.p1.toNat

/-- REF[i] (`10_state.md` R32). -/
def State.refAt (s : State) (i : Nat) : Nat := (sparseGetD 0 s.ref i).toNat

/-- The handles REF[0 .. REFN-1] (`10_state.md` R32). -/
def State.refHandles (s : State) : List Nat := (List.range s.refn.toNat).map s.refAt

/-- SEGSTORE[h] (`10_state.md` R33). -/
def State.slot (s : State) (h : Nat) : Slot := sparseGetD .empty s.segstore h

/-- The values of the referred slots, in REF order (`10_state.md` R32). -/
def State.refSlots (s : State) : List Slot := s.refHandles.map s.slot

/-- The operand checks (2) to (4) of `30_encoding.md` R96: P0 < NSLOT, SP byte-aligned, the window inside the bound
stream. -/
def State.windowOk (s : State) : Bool :=
  decide (s.dst < s.cfg.nslot) && decide (s.sp.toNat % 8 = 0) && decide (s.sp.toNat / 8 + s.datalen ≤ s.slen.toNat)

/-- The operand check (5) of `30_encoding.md` R96: REFN ≤ REFMAX and every REF[i] < NSLOT. -/
def State.refsOk (s : State) : Bool :=
  decide (s.refn.toNat ≤ s.cfg.refmax) && s.refHandles.all (fun h => decide (h < s.cfg.nslot))

/-- WE of a segment command: `SP / 8 + DATALEN` (`30_encoding.md` R96). -/
def State.windowEnd (s : State) : Nat := s.sp.toNat / 8 + s.datalen

/-- What a primitive command reads: its window is the whole bound stream (`40_stream.md` R130). -/
def State.streamEnv (s : State) : Env :=
  { inmem := s.inmem, base := s.sbase.toNat, wb := 0, we := s.slen.toNat, cfg := s.cfg, stdTab := s.stdTab }

/-- What a segment command reads: its window is the segment data part (`30_encoding.md` R96). -/
def State.segmentEnv (s : State) : Env :=
  { inmem := s.inmem, base := s.sbase.toNat, wb := s.sp.toNat / 8, we := s.windowEnd, cfg := s.cfg
    stdTab := s.stdTab }

end Sys2Proof.Machine
end

