-- ==== Sys2Proof/Machine/Flags.lean ====
section
/-! DEFINITION. The flag RFLAGS.OOB (`10_state.md` R27), the status and error registers (R29, R30, R34), and the register
view STDVALID (R36). -/

namespace Sys2Proof.Machine

/-- The value STATUS reads as (`10_state.md` R29). -/
def Status.code : Status → BitVec 2
  | .idle => 0
  | .done => 2
  | .error => 3

/-- R0 and RFLAGS.OOB after a decode that may be out of band (`10_state.md` R27): OOB sets the flag and writes R0 = 0, a
value clears the flag and is written to R0 as a 64-bit signed number (R22). -/
def State.putDecoded (s : State) (v : Option Int) : State :=
  match v with
  | none => { s with r0 := 0, oob := true }
  | some v => { s with r0 := BitVec.ofInt 64 v, oob := false }

/-- A command that completes without error: STATUS = DONE, ERR = 0 (`30_encoding.md` R90, `10_state.md` R30). -/
def State.completed (s : State) : State := { s with status := .done, err := 0 }

/-- The word FIRSTERR records: `(P0[15:0] << 16) | (OPC << 8) | E` (`60_exceptions.md` R424, `10_state.md` R34). -/
def firstErrWord (p0 : Word) (opc : BitVec 8) (e : CoreError) : Word :=
  p0.extractLsb' 0 16 ++ opc ++ e.code.setWidth 8

/-- STDVALID (`10_state.md` R36): bit n is 1 when STDTAB[n] has been constructed, 1 ≤ n ≤ 15. -/
def State.stdvalid (s : State) : BitVec 16 :=
  loopPure (fun n v => if (sparseFind s.stdTab n).isSome then v ||| BitVec.twoPow 16 n else v) 15 1 0

end Sys2Proof.Machine
end

