-- ==== Sys2Proof/Machine/StdTables.lean ====
section
/-! DEFINITION. Huffman tables as data: code assignment (`43_huffman.md` R191 to R193) and the fifteen standard tables
(R200 to R215). -/

namespace Sys2Proof.Machine

/-- `LENMAX(T)`, the largest PREFLEN, 0 for an empty table (`43_huffman.md` R191). -/
def lenMax (t : Table) : Nat := t.foldr (fun l m => max l.preflen m) 0

/-- `LENCOUNT[j]`, the number of lines with PREFLEN = j, with `LENCOUNT[0]` = 0 (`43_huffman.md` R192). -/
def lenCount (t : Table) (j : Nat) : Nat := if j = 0 then 0 else t.countP (fun l => l.preflen = j)

/-- `FIRSTCODE[j]` (`43_huffman.md` R192). -/
def firstCode (t : Table) : Nat → Nat
  | 0 => 0
  | j + 1 => (firstCode t j + lenCount t j) * 2

/-- The codes of R192: the lines of one length take consecutive codes from `FIRSTCODE` on, in declaration order. `seen` are
the lines before the one at hand. -/
def assignFrom (t : Table) : (seen rest : Table) → Table
  | _, [] => []
  | seen, l :: rest =>
    { l with
      code :=
        if l.preflen = 0 then none
        else some (firstCode t l.preflen + seen.countP (fun m => m.preflen = l.preflen)) } ::
      assignFrom t (seen ++ [l]) rest

/-- The lines of a table with their codes (`43_huffman.md` R192). -/
def codesOf (t : Table) : Table := assignFrom t [] t

/-- 2^LENMAX times the Kraft sum of a table (`43_huffman.md` R193). -/
def kraftScaled (t : Table) : Nat :=
  (t.map (fun l => if l.preflen = 0 then 0 else 2 ^ (lenMax t - l.preflen))).sum

/-- The Kraft sum exceeds 1: no prefix-free assignment exists (`43_huffman.md` R193). -/
def oversubscribed (t : Table) : Bool := decide (2 ^ lenMax t < kraftScaled t)

/-- A plain line: PREFLEN, RANGELEN, RANGELOW (`43_huffman.md` R190). -/
def plainLine (preflen rangelen : Nat) (rangelow : Int) : Line :=
  { preflen := preflen, rangelen := rangelen, rangelow := rangelow, kind := .plain, code := none }

/-- A lower line: PREFLEN, RANGELOW (`43_huffman.md` R190). -/
def lowerLine (preflen : Nat) (rangelow : Int) : Line :=
  { preflen := preflen, rangelen := 32, rangelow := rangelow, kind := .lower, code := none }

/-- An upper line: PREFLEN, RANGELOW (`43_huffman.md` R190). -/
def upperLine (preflen : Nat) (rangelow : Int) : Line :=
  { preflen := preflen, rangelen := 32, rangelow := rangelow, kind := .upper, code := none }

/-- An OOB line: PREFLEN (`43_huffman.md` R190). -/
def oobLine (preflen : Nat) : Line :=
  { preflen := preflen, rangelen := -1, rangelow := 0, kind := .oob, code := none }

/-- Standard table B.1 (`43_huffman.md` R201). -/
def stdLines1 : Table :=
  [plainLine 1 4 0, plainLine 2 8 16, plainLine 3 16 272,
    upperLine 3 65808]

/-- Standard table B.2 (`43_huffman.md` R202). -/
def stdLines2 : Table :=
  [plainLine 1 0 0, plainLine 2 0 1, plainLine 3 0 2,
    plainLine 4 3 3, plainLine 5 6 11, upperLine 6 75,
    oobLine 6]

/-- Standard table B.3 (`43_huffman.md` R203). -/
def stdLines3 : Table :=
  [plainLine 8 8 (-256), plainLine 1 0 0, plainLine 2 0 1,
    plainLine 3 0 2, plainLine 4 3 3, plainLine 5 6 11,
    lowerLine 8 (-257), upperLine 7 75, oobLine 6]

/-- Standard table B.4 (`43_huffman.md` R204). -/
def stdLines4 : Table :=
  [plainLine 1 0 1, plainLine 2 0 2, plainLine 3 0 3,
    plainLine 4 3 4, plainLine 5 6 12, upperLine 5 76]

/-- Standard table B.5 (`43_huffman.md` R205). -/
def stdLines5 : Table :=
  [plainLine 7 8 (-255), plainLine 1 0 1, plainLine 2 0 2,
    plainLine 3 0 3, plainLine 4 3 4, plainLine 5 6 12,
    lowerLine 7 (-256), upperLine 6 76]

/-- Standard table B.6 (`43_huffman.md` R206). -/
def stdLines6 : Table :=
  [plainLine 5 10 (-2048), plainLine 4 9 (-1024), plainLine 4 8 (-512),
    plainLine 4 7 (-256), plainLine 5 6 (-128), plainLine 5 5 (-64),
    plainLine 4 5 (-32), plainLine 2 7 0, plainLine 3 7 128,
    plainLine 3 8 256, plainLine 4 9 512, plainLine 4 10 1024,
    lowerLine 6 (-2049), upperLine 6 2048]

/-- Standard table B.7 (`43_huffman.md` R207). -/
def stdLines7 : Table :=
  [plainLine 4 9 (-1024), plainLine 3 8 (-512), plainLine 4 7 (-256),
    plainLine 5 6 (-128), plainLine 5 5 (-64), plainLine 4 5 (-32),
    plainLine 4 5 0, plainLine 5 5 32, plainLine 5 6 64,
    plainLine 4 7 128, plainLine 3 8 256, plainLine 3 9 512,
    plainLine 3 10 1024, lowerLine 5 (-1025), upperLine 5 2048]

/-- Standard table B.8 (`43_huffman.md` R208). -/
def stdLines8 : Table :=
  [plainLine 8 3 (-15), plainLine 9 1 (-7), plainLine 8 1 (-5),
    plainLine 9 0 (-3), plainLine 7 0 (-2), plainLine 4 0 (-1),
    plainLine 2 1 0, plainLine 5 0 2, plainLine 6 0 3,
    plainLine 3 4 4, plainLine 6 1 20, plainLine 4 4 22,
    plainLine 4 5 38, plainLine 5 6 70, plainLine 5 7 134,
    plainLine 6 7 262, plainLine 7 8 390, plainLine 6 10 646,
    lowerLine 9 (-16), upperLine 9 1670, oobLine 2]

/-- Standard table B.9 (`43_huffman.md` R209). -/
def stdLines9 : Table :=
  [plainLine 8 4 (-31), plainLine 9 2 (-15), plainLine 8 2 (-11),
    plainLine 9 1 (-7), plainLine 7 1 (-5), plainLine 4 1 (-3),
    plainLine 3 1 (-1), plainLine 3 1 1, plainLine 5 1 3,
    plainLine 6 1 5, plainLine 3 5 7, plainLine 6 2 39,
    plainLine 4 5 43, plainLine 4 6 75, plainLine 5 7 139,
    plainLine 5 8 267, plainLine 6 8 523, plainLine 7 9 779,
    plainLine 6 11 1291, lowerLine 9 (-32), upperLine 9 3339,
    oobLine 2]

/-- Standard table B.10 (`43_huffman.md` R210). -/
def stdLines10 : Table :=
  [plainLine 7 4 (-21), plainLine 8 0 (-5), plainLine 7 0 (-4),
    plainLine 5 0 (-3), plainLine 2 2 (-2), plainLine 5 0 2,
    plainLine 6 0 3, plainLine 7 0 4, plainLine 8 0 5,
    plainLine 2 6 6, plainLine 5 5 70, plainLine 6 5 102,
    plainLine 6 6 134, plainLine 6 7 198, plainLine 6 8 326,
    plainLine 6 9 582, plainLine 6 10 1094, plainLine 7 11 2118,
    lowerLine 8 (-22), upperLine 8 4166, oobLine 2]

/-- Standard table B.11 (`43_huffman.md` R211). -/
def stdLines11 : Table :=
  [plainLine 1 0 1, plainLine 2 1 2, plainLine 4 0 4,
    plainLine 4 1 5, plainLine 5 1 7, plainLine 5 2 9,
    plainLine 6 2 13, plainLine 7 2 17, plainLine 7 3 21,
    plainLine 7 4 29, plainLine 7 5 45, plainLine 7 6 77,
    upperLine 7 141]

/-- Standard table B.12 (`43_huffman.md` R212). -/
def stdLines12 : Table :=
  [plainLine 1 0 1, plainLine 2 0 2, plainLine 3 1 3,
    plainLine 5 0 5, plainLine 5 1 6, plainLine 6 1 8,
    plainLine 7 0 10, plainLine 7 1 11, plainLine 7 2 13,
    plainLine 7 3 17, plainLine 7 4 25, plainLine 8 5 41,
    upperLine 8 73]

/-- Standard table B.13 (`43_huffman.md` R213). -/
def stdLines13 : Table :=
  [plainLine 1 0 1, plainLine 3 0 2, plainLine 4 0 3,
    plainLine 5 0 4, plainLine 4 1 5, plainLine 3 3 7,
    plainLine 6 1 15, plainLine 6 2 17, plainLine 6 3 21,
    plainLine 6 4 29, plainLine 6 5 45, plainLine 7 6 77,
    upperLine 7 141]

/-- Standard table B.14 (`43_huffman.md` R214). -/
def stdLines14 : Table :=
  [plainLine 3 0 (-2), plainLine 3 0 (-1), plainLine 1 0 0,
    plainLine 3 0 1, plainLine 3 0 2]

/-- Standard table B.15 (`43_huffman.md` R215). -/
def stdLines15 : Table :=
  [plainLine 7 4 (-24), plainLine 6 2 (-8), plainLine 5 1 (-4),
    plainLine 4 0 (-2), plainLine 3 0 (-1), plainLine 1 0 0,
    plainLine 3 0 1, plainLine 4 0 2, plainLine 5 1 3,
    plainLine 6 2 5, plainLine 7 4 9, lowerLine 7 (-25),
    upperLine 7 25]

/-- The lines of standard table B.n, 1 ≤ n ≤ 15 (`43_huffman.md` R200); no other number names a table. -/
def stdLines : Nat → Table
  | 1 => stdLines1
  | 2 => stdLines2
  | 3 => stdLines3
  | 4 => stdLines4
  | 5 => stdLines5
  | 6 => stdLines6
  | 7 => stdLines7
  | 8 => stdLines8
  | 9 => stdLines9
  | 10 => stdLines10
  | 11 => stdLines11
  | 12 => stdLines12
  | 13 => stdLines13
  | 14 => stdLines14
  | 15 => stdLines15
  | _ => []

/-- The compiled standard table B.n: its lines with the codes of R192 (`43_huffman.md` R198). -/
def stdTable (n : Nat) : Table := codesOf (stdLines n)

end Sys2Proof.Machine
end

