-- ==== Sys2Proof/Machine/Ops.lean ====
section
/-! DEFINITION. The named operations over State: context arrays, slots, taking an error (`60_exceptions.md` R424), committing a
command (R425), the host's register accesses (`10_state.md` R38), INMEM writes and reset. -/

namespace Sys2Proof.Machine

/-- The result of one command or one step. -/
abbrev Outcome := Host.Outcome State Fault Refusal

/-! ## Context arrays -/

/-- Entry `i` of a context array (`10_state.md` R24). -/
def CxArray.entry (x : CxArray) (i : Nat) : CxEntry :=
  match x.base with
  | .fresh => sparseGetD { idx := 0, mps := false } x.cells i
  | .drawn k arr => sparseGetD { idx := Config.freeCxIndex k arr i, mps := Config.freeCxMps k arr i } x.cells i

/-- Write entry `i` of a context array. -/
def CxArray.setEntry (x : CxArray) (i : Nat) (e : CxEntry) : CxArray :=
  match x.base with
  | .fresh => { base := .fresh, cells := sparseSetD { idx := 0, mps := false } x.cells i e }
  | .drawn k arr => { base := .drawn k arr, cells := sparsePut x.cells i e }

/-- The array of a name. -/
def Contexts.arr (c : Contexts) : Arr → CxArray
  | .gb => c.gb
  | .gr => c.gr
  | .iadh => c.iadh
  | .iadw => c.iadw
  | .iaex => c.iaex
  | .iaai => c.iaai
  | .iadt => c.iadt
  | .iafs => c.iafs
  | .iads => c.iads
  | .iait => c.iait
  | .iari => c.iari
  | .iardw => c.iardw
  | .iardh => c.iardh
  | .iardx => c.iardx
  | .iardy => c.iardy
  | .iaid => c.iaid

/-- Replace the array of a name. -/
def Contexts.setArr (c : Contexts) (n : Arr) (x : CxArray) : Contexts :=
  match n with
  | .gb => { c with gb := x }
  | .gr => { c with gr := x }
  | .iadh => { c with iadh := x }
  | .iadw => { c with iadw := x }
  | .iaex => { c with iaex := x }
  | .iaai => { c with iaai := x }
  | .iadt => { c with iadt := x }
  | .iafs => { c with iafs := x }
  | .iads => { c with iads := x }
  | .iait => { c with iait := x }
  | .iari => { c with iari := x }
  | .iardw => { c with iardw := x }
  | .iardh => { c with iardh := x }
  | .iardx => { c with iardx := x }
  | .iardy => { c with iardy := x }
  | .iaid => { c with iaid := x }

/-- Replace every array by a function of its name and value. -/
def Contexts.mapArr (f : Arr → CxArray → CxArray) (c : Contexts) : Contexts :=
  { gb := f .gb c.gb
    gr := f .gr c.gr
    iadh := f .iadh c.iadh
    iadw := f .iadw c.iadw
    iaex := f .iaex c.iaex
    iaai := f .iaai c.iaai
    iadt := f .iadt c.iadt
    iafs := f .iafs c.iafs
    iads := f .iads c.iads
    iait := f .iait c.iait
    iari := f .iari c.iari
    iardw := f .iardw c.iardw
    iardh := f .iardh c.iardh
    iardx := f .iardx c.iardx
    iardy := f .iardy c.iardy
    iaid := f .iaid c.iaid }

/-! ## Slots, standard tables, INMEM -/

/-- `SEGSTORE[h] <- v` (`10_state.md` R33). -/
def State.setSlot (s : State) (h : Nat) (v : Slot) : State :=
  { s with segstore := sparseSetD .empty s.segstore h v }

/-- STDTAB after the tables marked in `built` were constructed: `Std(n)` constructs table n only if STDVALID[n] = 0
(`43_huffman.md` R198). -/
def commitBuilt (built : BitVec 16) (tab : List (Nat × Table)) : List (Nat × Table) :=
  loopPure
    (fun n tab => if built.getLsbD n && (sparseFind tab n).isNone then sparsePut tab n (stdTable n) else tab) 15 1 tab

/-- The byte of INMEM at `addr` (`20_memory.md` R62): what the host wrote there, or a free value where it never wrote
(`93_implementation_defined.md` U5; log entry 3). -/
def memByte (m : Memory) (addr : Nat) : Byte := (sparseFind m addr).getD (Config.freeInmem addr)

/-- A host write of one byte of INMEM (`20_memory.md` R60). -/
def memPoke (m : Memory) (addr : Nat) (v : Byte) : Memory := sparsePut m addr v

/-! ## Taking an error -/

/-- The state that R426 leaves unspecified takes free values of its type: SP in 0 .. 8 * SLEN, IDLEN in
0 .. ceil_log2(MAXSYMS), the rest any value of its width. The items are those the command may write. -/
def State.spoil (s : State) (fp : Footprint) : State :=
  let k := s.draws
  { s with
    sp := if fp.sp then BitVec.ofNat 36 (Config.freeSp k % (8 * s.slen.toNat + 1)) else s.sp
    r0 := if fp.r0 then Config.freeR0 k else s.r0
    r1 := if fp.r1 then Config.freeR1 k else s.r1
    oob := if fp.oob then Config.freeOob k else s.oob
    ad :=
      if fp.ad then
        { c := Config.freeC k, a := Config.freeA k, ct := Config.freeCt k, b := Config.freeB k, bp := Config.freeBp k }
      else s.ad
    idlen :=
      if fp.idlen then BitVec.ofNat 6 (Config.freeIdlen k % (ceilLog2 s.cfg.maxsyms + 1)) else s.idlen
    cx := s.cx.mapArr (fun n x => if n ∈ fp.arrs then { base := .drawn k (arrSel n), cells := [] } else x)
    draws := k + 1 }

/-- What an error other than IllegalCommand does to the state beside the error registers (`60_exceptions.md` R424, R425,
R426): a segment command's DST becomes Empty, ADVALID is cleared, the listed state becomes unspecified, and the standard
tables constructed before the failure are kept or not. -/
def State.abandon (s : State) (fp : Footprint) (built : BitVec 16) : State :=
  let s1 := if fp.segment then s.setSlot s.dst .empty else s
  let s2 :=
    { s1 with
      advalid := false
      stdTab := if Config.freeKeepBuilt s.draws then commitBuilt built s.stdTab else s.stdTab }
  s2.spoil fp

/-- `raise E` (`60_exceptions.md` R424), the one way an error is taken. `s` is the state at the start of the command, `opc`
its OPC. An IllegalCommand changes nothing but ERR, ERRPOS, FIRSTERR and STATUS. -/
def State.raise (s : State) (opc : BitVec 8) (fp : Footprint) (built : BitVec 16) (e : CoreError) : State :=
  let s1 := if e = .illegalCommand then s else s.abandon fp built
  { s1 with
    errPos := s.sp
    firstErr := if s.firstErr = 0 then firstErrWord s.p0 opc e else s.firstErr
    err := e.code
    status := .error }

/-! ## Running a command -/

/-- The working state a command starts from. -/
def State.work (s : State) : Work := { sp := s.sp.toNat, ad := s.ad, cx := s.cx, built := 0 }

/-- Commit the working state at completion: the items the command may write (`10_state.md` R41) and the standard tables it
used. -/
def State.commit (s : State) (fp : Footprint) (w : Work) : State :=
  { s with
    sp := if fp.sp then BitVec.ofNat 36 w.sp else s.sp
    ad := if fp.ad then w.ad else s.ad
    cx := s.cx.mapArr (fun n x => if n ∈ fp.arrs then w.cx.arr n else x)
    stdTab := commitBuilt w.built s.stdTab }

/-- Run a command: its procedure on a private working state; on success commit it, let `post` write what the command's
rule names, and end DONE; on an error take it (`30_encoding.md` R90, `60_exceptions.md` R424, R425). -/
def runCommand {α : Type} (opc : BitVec 8) (fp : Footprint) (body : Dec α) (post : α → State → State) (s : State) :
    Outcome :=
  match body s.work with
  | .ok v w => .next (post v (s.commit fp w)).completed
  | .error e w => .next (s.raise opc fp w.built e)

/-- The state a refused word leaves (`30_encoding.md` R102, R103): the error registers, and for a refusal other than
IllegalCommand ADVALID <- 0. No slot is touched and nothing is unspecified. -/
def noFootprint : Footprint :=
  { sp := false, r0 := false, r1 := false, oob := false, ad := false, idlen := false, arrs := [], segment := false }

/-- A word the decoder refuses ends in the error it names (`30_encoding.md` R107). -/
def State.refuseWord (s : State) (w : Word) (e : CoreError) : State := s.raise (opcField w) noFootprint 0 e

/-! ## The host's accesses -/

/-- The value a host read of register number `n` gives (`10_state.md` R38); R0 as its 64-bit pattern; a number not in the
table reads 0. REF[i] is readable for i < REFMAX. -/
def State.readReg (s : State) (n : Nat) : Nat :=
  match n with
  | 0 => s.cmd.toNat
  | 1 => s.status.code.toNat
  | 2 => s.err.toNat
  | 3 => s.errPos.toNat
  | 4 => s.firstErr.toNat
  | 5 => s.p0.toNat
  | 6 => s.p1.toNat
  | 7 => s.p2.toNat
  | 8 => s.p3.toNat
  | 9 => s.r0.toNat
  | 10 => s.r1.toNat
  | 11 => s.oob.toNat
  | 12 => s.refn.toNat
  | 13 => s.sbase.toNat
  | 14 => s.slen.toNat
  | 15 => s.sp.toNat
  | 16 => s.idlen.toNat
  | 17 => s.ad.c.toNat
  | 18 => s.ad.a.toNat
  | 19 => s.ad.ct.toNat
  | 20 => s.ad.b.toNat
  | 21 => s.ad.bp.toNat
  | 22 => s.advalid.toNat
  | 23 => s.stdvalid.toNat
  | n => if 4096 ≤ n ∧ n < 4096 + s.cfg.refmax then s.refAt (n - 4096) else 0

/-- A host write of register number `n` other than CMD (`10_state.md` R38): the low bits of the value are kept, and a write
to a read-only register or to a number not in the table is ignored. -/
def State.writeReg (s : State) (n v : Nat) : State :=
  match n with
  | 5 => { s with p0 := BitVec.ofNat 32 v }
  | 6 => { s with p1 := BitVec.ofNat 32 v }
  | 7 => { s with p2 := BitVec.ofNat 32 v }
  | 8 => { s with p3 := BitVec.ofNat 32 v }
  | 12 => { s with refn := BitVec.ofNat 16 v }
  | n =>
    if 4096 ≤ n ∧ n < 4096 + s.cfg.refmax then
      { s with ref := sparseSetD 0 s.ref (n - 4096) (BitVec.ofNat 16 v) }
    else s

/-- Reset applied by the host (`70_reset_and_hazards.md` R460): every piece of the CORE's state takes its reset value; INMEM
keeps what the host put there. The parameters, the pending host moves and the count of free draws are not the CORE's
state and stay (log entry 12). -/
def State.applyReset (s : State) : State :=
  { State.resetWith s.cfg with inmem := s.inmem, host := s.host, draws := s.draws }

end Sys2Proof.Machine
end

