-- ==== Sys2Proof/Machine/Stream.lean ====
section
/-! DEFINITION. The bit and byte reader and the STRM commands (`40_stream.md`). -/

namespace Sys2Proof.Machine

/-- `InByte(i)` (`40_stream.md` R130): the byte at index `i` of the bound stream, inside the window only. -/
def inByte (E : Env) (i : Nat) : Dec Byte :=
  if i < E.wb ∨ E.we ≤ i then throw .unexpectedEndOfData else pure (memByte E.inmem (E.base + i))

/-- `ReadBit()` (`40_stream.md` R131): the bit at the cursor, most significant bit of a byte first (`20_memory.md` R63). -/
def readBit (E : Env) : Dec Nat := do
  let w ← get
  let v ← inByte E (w.sp / 8)
  set { w with sp := w.sp + 1 }
  pure (v.getLsbD (7 - w.sp % 8)).toNat

/-- The loop of `ReadBits`: `n` more bits onto `r`. -/
def readBitsOnto (E : Env) : (n r : Nat) → Dec Nat
  | 0, r => pure r
  | n + 1, r => do
    let b ← readBit E
    readBitsOnto E n (2 * r + b)

/-- `ReadBits(n)` (`40_stream.md` R131). -/
def readBits (E : Env) (n : Nat) : Dec Nat := readBitsOnto E n 0

/-- `AlignByte()` (`40_stream.md` R132). -/
def alignByte : Dec Unit := modify fun w => { w with sp := 8 * ((w.sp + 7) / 8) }

/-- `ReadU8()` (`40_stream.md` R133). -/
def readU8 (E : Env) : Dec Nat := readBits E 8

/-- `ReadU16()` (`40_stream.md` R133). -/
def readU16 (E : Env) : Dec Nat := readBits E 16

/-- `ReadU32()` (`40_stream.md` R133). -/
def readU32 (E : Env) : Dec Nat := readBits E 32

/-- `ReadS8()` (`40_stream.md` R133). -/
def readS8 (E : Env) : Dec Int := do
  let v ← readBits E 8
  pure (sext 8 v)

/-- `ReadS32()` (`40_stream.md` R133). -/
def readS32 (E : Env) : Dec Int := do
  let v ← readBits E 32
  pure (sext 32 v)

/-- The cursor as a byte index: `SP >> 3`. -/
def cursorByte : Dec Nat := do
  let w ← get
  pure (w.sp / 8)

/-- `SP <- 8 * i`: the cursor at the start of byte `i`. -/
def seekByte (i : Nat) : Dec Unit := modify fun w => { w with sp := 8 * i }

/-- What the STRM commands that only move the cursor may write (`10_state.md` R41). -/
def cursorFootprint : Footprint := { noFootprint with sp := true }

/-- What `STRM.READBITS` may write (`10_state.md` R41). -/
def readbitsFootprint : Footprint := { noFootprint with sp := true, r0 := true, r1 := true }

/-- `STRM.BIND` (`40_stream.md` R134). -/
def execStrmBind (s : State) : Outcome :=
  runCommand Instr.strmBind.opc cursorFootprint
    (require (decide (s.p0.toNat + s.p1.toNat ≤ s.cfg.inmemSize)) .illegalCommand)
    (fun _ t => { t with sbase := s.p0, slen := s.p1, sp := 0, advalid := false }) s

/-- `STRM.SEEK` (`40_stream.md` R135). -/
def execStrmSeek (s : State) : Outcome :=
  runCommand Instr.strmSeek.opc cursorFootprint
    (do
      require (decide (s.p0.toNat ≤ s.slen.toNat)) .illegalCommand
      seekByte s.p0.toNat)
    (fun _ t => t) s

/-- `STRM.READBITS` (`40_stream.md` R136). -/
def execStrmReadbits (a : BitVec 8) (s : State) : Outcome :=
  runCommand (Instr.strmReadbits a).opc readbitsFootprint
    (do
      require (decide (a.toNat ≤ 32)) .illegalCommand
      readBits s.streamEnv a.toNat)
    (fun v t => { t with r0 := BitVec.ofNat 64 v, r1 := BitVec.ofNat 32 a.toNat }) s

/-- `STRM.ALIGN` (`40_stream.md` R137). -/
def execStrmAlign (s : State) : Outcome :=
  runCommand Instr.strmAlign.opc cursorFootprint alignByte (fun _ t => t) s

end Sys2Proof.Machine
end

