-- ==== Sys2Proof/Machine/Arith.lean ====
section
/-! DEFINITION. The adaptive binary arithmetic decoder and the AD commands (`41_arith.md`). -/

namespace Sys2Proof.Machine

/-- A row of the probability table (`41_arith.md` R140). -/
structure QeRow where
  qe : BitVec 16
  nmps : Fin 47
  nlps : Fin 47
  switch : Bool
deriving DecidableEq, Repr

/-- A row, in the column order of R140. -/
def qeRow (qe : BitVec 16) (nmps nlps : Fin 47) (switch : Bool) : QeRow := ⟨qe, nmps, nlps, switch⟩

/-- Rows 0 .. 15 of the table (`41_arith.md` R140). -/
def qeRowsA : List QeRow :=
  [qeRow 0x5601 1 1 true, qeRow 0x3401 2 6 false, qeRow 0x1801 3 9 false, qeRow 0x0AC1 4 12 false,
    qeRow 0x0521 5 29 false, qeRow 0x0221 38 33 false, qeRow 0x5601 7 6 true, qeRow 0x5401 8 14 false,
    qeRow 0x4801 9 14 false, qeRow 0x3801 10 14 false, qeRow 0x3001 11 17 false, qeRow 0x2401 12 18 false,
    qeRow 0x1C01 13 20 false, qeRow 0x1601 29 21 false, qeRow 0x5601 15 14 true, qeRow 0x5401 16 14 false]

/-- Rows 16 .. 31 of the table (`41_arith.md` R140). -/
def qeRowsB : List QeRow :=
  [qeRow 0x5101 17 15 false, qeRow 0x4801 18 16 false, qeRow 0x3801 19 17 false, qeRow 0x3401 20 18 false,
    qeRow 0x3001 21 19 false, qeRow 0x2801 22 19 false, qeRow 0x2401 23 20 false, qeRow 0x2201 24 21 false,
    qeRow 0x1C01 25 22 false, qeRow 0x1801 26 23 false, qeRow 0x1601 27 24 false, qeRow 0x1401 28 25 false,
    qeRow 0x1201 29 26 false, qeRow 0x1101 30 27 false, qeRow 0x0AC1 31 28 false, qeRow 0x09C1 32 29 false]

/-- Rows 32 .. 46 of the table (`41_arith.md` R140). -/
def qeRowsC : List QeRow :=
  [qeRow 0x08A1 33 30 false, qeRow 0x0521 34 31 false, qeRow 0x0441 35 32 false, qeRow 0x02A1 36 33 false,
    qeRow 0x0221 37 34 false, qeRow 0x0141 38 35 false, qeRow 0x0111 39 36 false, qeRow 0x0085 40 37 false,
    qeRow 0x0049 41 38 false, qeRow 0x0025 42 39 false, qeRow 0x0015 43 40 false, qeRow 0x0009 44 41 false,
    qeRow 0x0005 45 42 false, qeRow 0x0001 45 43 false, qeRow 0x5601 46 46 false]

/-- The probability table `QE[0 .. 46]` (`41_arith.md` R140). -/
def qeTable : List QeRow := qeRowsA ++ qeRowsB ++ qeRowsC

/-- `QE[I]` (`41_arith.md` R140). Every I has a row: `qeTable` has 47. -/
def qe (i : Fin 47) : QeRow := qeTable.getD i.val (qeRow 0x5601 46 46 false)

/-- `BYTEIN()` (`41_arith.md` R142). BP + 1 is computed exactly; a position past the window is a fault, not a wrap
(`10_state.md` R35). -/
def byteIn (E : Env) : Dec Unit := do
  let w ← get
  let next := w.ad.bp.toNat + 1
  if w.ad.b = 0xFF then do
    let b1 ← inByte E next
    if 0x8F < b1 then
      set { w with ad := { w.ad with c := w.ad.c + 0xFF00, ct := 8 } }
    else
      set
        { w with
          ad :=
            { w.ad with
              bp := BitVec.ofNat 32 next, b := b1, c := w.ad.c + (b1.setWidth 32 <<< 9), ct := 7 } }
  else do
    let b ← inByte E next
    set
      { w with
        ad := { w.ad with bp := BitVec.ofNat 32 next, b := b, c := w.ad.c + (b.setWidth 32 <<< 8), ct := 8 } }

/-- `ADInit(bp)` (`41_arith.md` R141). -/
def adInitAt (E : Env) (bp : Nat) : Dec Unit := do
  let b ← inByte E bp
  modify fun w => { w with ad := { w.ad with bp := BitVec.ofNat 32 bp, b := b, c := b.setWidth 32 <<< 16 } }
  byteIn E
  modify fun w => { w with ad := { w.ad with c := w.ad.c <<< 7, ct := w.ad.ct - 7, a := 0x8000 } }

/-- One turn of `RENORMD` without the refill: shift A and C, count down CT (`41_arith.md` R143). -/
def renormShift (r : ArithRegs) : ArithRegs := { r with a := r.a <<< 1, c := r.c <<< 1, ct := r.ct - 1 }

/-- `RENORMD()` (`41_arith.md` R143), at most `n` turns. A ≥ 1 reaches 0x8000 in at most 15 turns, so 16 is no bound on it
(log entry 11). -/
def renormUpTo (E : Env) : Nat → Dec Unit
  | 0 => pure ()
  | n + 1 => do
    let w ← get
    if w.ad.ct = 0 then byteIn E else pure ()
    modify fun w => { w with ad := renormShift w.ad }
    let w ← get
    if w.ad.a < 0x8000 then renormUpTo E n else pure ()

/-- `RENORMD()` (`41_arith.md` R143). -/
def renormD (E : Env) : Dec Unit := renormUpTo E 16

/-- The outcome of an exchange: the decoded bit and the entry's new value (`41_arith.md` R145). -/
structure Exchange where
  bit : Bool
  entry : CxEntry
deriving DecidableEq, Repr

/-- The outcome "the bit is the MPS" of R145. -/
def mpsOutcome (e : CxEntry) : Exchange := { bit := e.mps, entry := { idx := (qe e.idx).nmps, mps := e.mps } }

/-- The outcome "the bit is the LPS" of R145; SWITCH flips the MPS. -/
def lpsOutcome (e : CxEntry) : Exchange :=
  { bit := !e.mps, entry := { idx := (qe e.idx).nlps, mps := e.mps ^^ (qe e.idx).switch } }

/-- `LpsExchange` (`41_arith.md` R145); `a` is the interval after the subtraction. -/
def lpsExchange (e : CxEntry) (a : BitVec 16) : Exchange := if a < (qe e.idx).qe then mpsOutcome e else lpsOutcome e

/-- `MpsExchange` (`41_arith.md` R145). -/
def mpsExchange (e : CxEntry) (a : BitVec 16) : Exchange := if a < (qe e.idx).qe then lpsOutcome e else mpsOutcome e

/-- Write a context entry in the working state. -/
def Work.setEntry (w : Work) (arr : Arr) (i : Nat) (e : CxEntry) : Work :=
  { w with cx := w.cx.setArr arr ((w.cx.arr arr).setEntry i e) }

/-- `ADDecode(ARR, i)` (`41_arith.md` R144). -/
def adDecode (E : Env) (arr : Arr) (i : Nat) : Dec Bool := do
  let w ← get
  let e := (w.cx.arr arr).entry i
  let q := (qe e.idx).qe
  let a := w.ad.a - q
  if w.ad.c.extractLsb' 16 16 < q then do
    let x := lpsExchange e a
    set ({ w with ad := { w.ad with a := q } }.setEntry arr i x.entry)
    renormD E
    pure x.bit
  else
    let c := w.ad.c - (q.setWidth 32 <<< 16)
    if a < 0x8000 then do
      let x := mpsExchange e a
      set ({ w with ad := { w.ad with a := a, c := c } }.setEntry arr i x.entry)
      renormD E
      pure x.bit
    else do
      set { w with ad := { w.ad with a := a, c := c } }
      pure e.mps

/-- What `AD.INIT` may write (`10_state.md` R41). -/
def adInitFootprint : Footprint := { noFootprint with ad := true }

/-- What an arithmetic primitive on arrays `arrs` may write (`10_state.md` R41; log entry 5 on `AD.DECODE`). -/
def adDecodeFootprint (arrs : List Arr) : Footprint := { noFootprint with r0 := true, ad := true, arrs := arrs }

/-- `AD.INIT` (`41_arith.md` R141). -/
def execAdInit (s : State) : Outcome :=
  runCommand Instr.adInit.opc adInitFootprint
    (do
      require (decide (s.sp.toNat % 8 = 0)) .illegalCommand
      adInitAt s.streamEnv (s.sp.toNat / 8))
    (fun _ t => { t with advalid := true }) s

/-- `AD.DECODE` (`41_arith.md` R144). -/
def execAdDecode (a : BitVec 8) (b : BitVec 16) (s : State) : Outcome :=
  runCommand (Instr.adDecode a b).opc (adDecodeFootprint (arrOfSel a.toNat).toList)
    (do
      require s.advalid .illegalCommand
      match arrOfSel a.toNat with
      | none => throw .illegalCommand
      | some arr => do
        require (decide (b.toNat < arrSize s.idlen.toNat arr)) .illegalCommand
        adDecode s.streamEnv arr b.toNat)
    (fun d t => { t with r0 := BitVec.ofNat 64 d.toNat }) s

/-- The arrays `AD.CXRESET a` clears (`41_arith.md` R146): the selected one, or all sixteen for 0xFF. -/
def cxresetCovers (a : Nat) (n : Arr) : Bool := decide (a = 255) || decide (arrSel n = a)

/-- `AD.CXRESET` is legal (`41_arith.md` R146). -/
def cxresetOk (a b maxsyms : Nat) : Bool :=
  if a ≤ 14 then decide (b = 0)
  else if a = 15 ∨ a = 255 then decide (b ≤ ceilLog2 maxsyms)
  else false

/-- `AD.CXRESET` (`41_arith.md` R146). -/
def execAdCxreset (a : BitVec 8) (b : BitVec 16) (s : State) : Outcome :=
  runCommand (Instr.adCxreset a b).opc noFootprint
    (require (cxresetOk a.toNat b.toNat s.cfg.maxsyms) .illegalCommand)
    (fun _ t =>
      { t with
        cx := s.cx.mapArr (fun n x => if cxresetCovers a.toNat n then .cleared else x)
        idlen := if a.toNat ≤ 14 then s.idlen else BitVec.ofNat 6 b.toNat }) s

end Sys2Proof.Machine
end

