-- ==== Sys2Proof/Machine/IntDec.lean ====
section
/-! DEFINITION. Arithmetic integer and symbol-ID decoding and the IA, IAID commands (`42_intdec.md`). -/

namespace Sys2Proof.Machine

/-- `NextPrev(PREV, D)` (`42_intdec.md` R172). -/
def nextPrev (prev : Nat) (d : Bool) : Nat :=
  if prev < 256 then 2 * prev + d.toNat else ((2 * prev + d.toNat) &&& 511) ||| 256

/-- `Bits(n)` of `IADecode`: `n` more bits onto `r`, most significant first (`42_intdec.md` R170). -/
def iaBitsOnto (E : Env) (arr : Arr) : (n prev r : Nat) → Dec Nat
  | 0, _, r => pure r
  | n + 1, prev, r => do
    let d ← adDecode E arr prev
    iaBitsOnto E arr n (nextPrev prev d) (2 * r + d.toNat)

/-- The ranges of R171 that a further prefix bit 0 selects: number of value bits and offset. -/
def iaRanges : List (Nat × Nat) := [(2, 0), (4, 4), (6, 20), (8, 84), (12, 340)]

/-- The magnitude V after the sign: prefix bits pick a range, then its value bits (`42_intdec.md` R170, R171). With the sign
that is 4, 7, 10, 13, 18 or 38 bit decodes, as R170's pseudocode, R171's table and V-I1 have it; R171's last sentence says
4, 6, 9, 12, 17 or 38, and no ruling settles it (DEDUCED, log entry 18). -/
def iaMagnitude (E : Env) (arr : Arr) : List (Nat × Nat) → (prev : Nat) → Dec Nat
  | [], prev => do
    let v ← iaBitsOnto E arr 32 prev 0
    pure (v + 4436)
  | (n, offset) :: more, prev => do
    let d ← adDecode E arr prev
    if d then iaMagnitude E arr more (nextPrev prev d)
    else do
      let v ← iaBitsOnto E arr n (nextPrev prev d) 0
      pure (v + offset)

/-- The value of a sign and a magnitude; minus zero is OOB (`42_intdec.md` R173). -/
def iaValue (sign : Bool) (v : Nat) : Option Int :=
  if sign then (if v = 0 then none else some (-(v : Int))) else some v

/-- `IADecode(ARR)` (`42_intdec.md` R170); `none` is OOB. -/
def iaDecode (E : Env) (arr : Arr) : Dec (Option Int) := do
  let sign ← adDecode E arr 1
  let v ← iaMagnitude E arr iaRanges (nextPrev 1 sign)
  pure (iaValue sign v)

/-- The walk of `IAIDDecode`: `n` more bits from PREV. -/
def iaidWalk (E : Env) : (n prev : Nat) → Dec Nat
  | 0, prev => pure prev
  | n + 1, prev => do
    let d ← adDecode E .iaid prev
    iaidWalk E n (2 * prev + d.toNat)

/-- `IAIDDecode(len)` (`42_intdec.md` R175). -/
def iaidDecode (E : Env) (len : Nat) : Dec Nat := do
  let prev ← iaidWalk E len 1
  pure (prev - 2 ^ len)

/-- What `IA.DECODE` on arrays `arrs` may write (`10_state.md` R41). -/
def iaDecodeFootprint (arrs : List Arr) : Footprint := { adDecodeFootprint arrs with oob := true }

/-- The integer array an `IA.DECODE` selects: 2 ≤ a ≤ 14 (`42_intdec.md` R170). -/
def iaArr (a : Nat) : Option Arr := if 2 ≤ a ∧ a ≤ 14 then arrOfSel a else none

/-- `IA.DECODE` (`42_intdec.md` R170). -/
def execIaDecode (a : BitVec 8) (s : State) : Outcome :=
  runCommand (Instr.iaDecode a).opc (iaDecodeFootprint (iaArr a.toNat).toList)
    (do
      require s.advalid .illegalCommand
      match iaArr a.toNat with
      | none => throw .illegalCommand
      | some arr => iaDecode s.streamEnv arr)
    (fun v t => t.putDecoded v) s

/-- `IAID.DECODE` (`42_intdec.md` R175). -/
def execIaidDecode (s : State) : Outcome :=
  runCommand Instr.iaidDecode.opc (adDecodeFootprint [.iaid])
    (do
      require s.advalid .illegalCommand
      iaidDecode s.streamEnv s.idlen.toNat)
    (fun v t => { t with r0 := BitVec.ofNat 64 v }) s

end Sys2Proof.Machine
end

