-- ==== Sys2Proof/Machine/Segment.lean ====
section
/-! DEFINITION. What the segment commands share: running one (`30_encoding.md` R96, `60_exceptions.md` R425), the region segment
information field (R97), adaptive pixel bytes, and the referred slots (`60_exceptions.md` R430). -/

namespace Sys2Proof.Machine

/-- What a segment command leaves: the value of its DST slot, and IDLEN where its rule sets it. -/
structure SegmentResult where
  slot : Slot
  idlen : Option Nat
deriving DecidableEq, Repr

/-- The completion of a segment command (`30_encoding.md` R96): `SEGSTORE[DST]` is written, `SP <- 8 * WE`,
`ADVALID <- 0`. `s` is the state at the start of the command. -/
def State.finishSegment (s : State) (r : SegmentResult) (t : State) : State :=
  { t.setSlot s.dst r.slot with
    sp := BitVec.ofNat 36 (8 * s.windowEnd)
    advalid := false
    idlen := match r.idlen with | some n => BitVec.ofNat 6 n | none => t.idlen }

/-- Run a segment command: the operand checks of `30_encoding.md` R96 (check (5) only for the commands that read REF), then
its procedure on the window. -/
def runSegment (opc : BitVec 8) (fp : Footprint) (readsRef : Bool) (body : Dec SegmentResult) (s : State) : Outcome :=
  runCommand opc fp
    (do
      require s.windowOk .illegalCommand
      require (!readsRef || s.refsOk) .illegalCommand
      body)
    s.finishSegment s

/-- The region segment information field (`30_encoding.md` R97). -/
structure RegionInfo where
  w : Nat
  h : Nat
  x : Nat
  y : Nat
  op : CombOp
deriving DecidableEq, Repr

/-- `ParseRegionInfo()` (`30_encoding.md` R97). -/
def parseRegionInfo (E : Env) : Dec RegionInfo := do
  let w ← readU32 E
  let h ← readU32 E
  let x ← readU32 E
  let y ← readU32 E
  let f ← readU8 E
  require (decide (bitField f 7 3 = 0)) .unsupportedFeature
  match combOpOfCode (bitField f 2 0) with
  | none => throw .unsupportedFeature
  | some op => do
    require (decide (w * h ≤ E.cfg.maxpix)) .unsupportedFeature
    pure { w := w, h := h, x := x, y := y, op := op }

/-- The Region a region command leaves (`10_state.md` R33). -/
def RegionInfo.region (i : RegionInfo) (b : Bitmap) : Slot :=
  .region b (BitVec.ofNat 32 i.x) (BitVec.ofNat 32 i.y) i.op

/-- `n` adaptive pixel offsets, each a signed x byte and then a signed y byte (`45_generic.md` R266). -/
def readAtPixels (E : Env) : Nat → Dec AtPixels
  | 0 => pure []
  | n + 1 => do
    let x ← readS8 E
    let y ← readS8 E
    let more ← readAtPixels E n
    pure ((x, y) :: more)

/-- An adaptive pixel names a pixel decoded before the current one (`45_generic.md` R263, `46_refinement.md` R293 for A1). -/
def atLegal (p : Int × Int) : Bool := decide (p.2 ≤ 0) && !(decide (p.2 = 0) && decide (0 ≤ p.1))

/-- The refinement adaptive pixels A1, A2 with the check of A1 (`46_refinement.md` R293, R296). -/
def readRefineAt (E : Env) : Dec AtPixels := do
  let at2 ← readAtPixels E 2
  require ((at2.take 1).all atLegal) .malformedSegment
  pure at2

/-- What the references of a symbol dictionary or text region supply, in REF order (`47_symbol_dict.md` R322,
`48_text_region.md` R374): the exported symbols of the dictionaries, the tables, and the RET of the last dictionary
(`lastRet = none` where there is no dictionary). -/
structure Refs where
  syms : List Bitmap
  tabs : List Table
  lastRet : Option (Option Retained)
deriving DecidableEq, Repr

/-- The loop over the references (`47_symbol_dict.md` R322, `48_text_region.md` R374): InvalidReference on an Empty slot or a
Region. -/
def collectRefs : List Slot → Dec Refs
  | [] => pure { syms := [], tabs := [], lastRet := none }
  | .symDict syms ret :: more => do
    let r ← collectRefs more
    pure { r with syms := syms ++ r.syms, lastRet := some (r.lastRet.getD ret) }
  | .table t :: more => do
    let r ← collectRefs more
    pure { r with tabs := t :: r.tabs }
  | .empty :: _ => throw .invalidReference
  | .region _ _ _ _ :: _ => throw .invalidReference

/-- Set the context arrays `ns` to (0, 0) in the working state (`70_reset_and_hazards.md` R466). -/
def clearArrays (ns : List Arr) : Dec Unit :=
  modify fun w => { w with cx := w.cx.mapArr (fun n x => if n ∈ ns then .cleared else x) }

/-- All sixteen context arrays. -/
def allArrays : List Arr :=
  [.gb, .gr, .iadh, .iadw, .iaex, .iaai, .iadt, .iafs, .iads, .iait, .iari, .iardw, .iardh, .iardx, .iardy, .iaid]

end Sys2Proof.Machine
end

