-- ==== Sys2Proof/Machine/Huffman.lean ====
section
/-! DEFINITION. The Huffman prefix decoder, custom tables, and the commands HT.STD, HT.DECODE, SEG.TABLES
(`43_huffman.md`). -/

namespace Sys2Proof.Machine

/-- `AssignCodes(T)` (`43_huffman.md` R192): MalformedSegment for an oversubscribed table (R193). -/
def assignCodes (t : Table) : Dec Table := do
  require (!oversubscribed t) .malformedSegment
  pure (codesOf t)

/-- `Std(n)` (`43_huffman.md` R198): table B.n, constructed first if STDVALID[n] = 0. -/
def std (E : Env) (n : Nat) : Dec Table := do
  modify fun w => { w with built := w.built ||| BitVec.twoPow 16 n }
  pure ((sparseFind E.stdTab n).getD (stdTable n))

/-- The next bit of a prefix walk; running out of the window is InvalidCode there (`43_huffman.md` R195, R197). -/
def readCodeBit (E : Env) : Dec Nat := fun w =>
  match readBit E w with
  | .ok d w' => .ok d w'
  | .error _ w' => .error .invalidCode w'

/-- The line with a given code of a given length, unique by R193 (`43_huffman.md` R195). -/
def lineOfCode (t : Table) (len code : Nat) : Option Line :=
  t.find? (fun l => decide (l.preflen = len) && decide (l.code = some code))

/-- The prefix walk (`43_huffman.md` R195): `room` = LENMAX - len bits may still be read. -/
def htWalk (E : Env) (t : Table) : (room len code : Nat) → Dec Line
  | 0, _, _ => throw .invalidCode
  | room + 1, len, code => do
    let d ← readCodeBit E
    match lineOfCode t (len + 1) (2 * code + d) with
    | some l => pure l
    | none => htWalk E t room (len + 1) (2 * code + d)

/-- `LeafValue(L)` (`43_huffman.md` R196); `none` is OOB. -/
def leafValue (E : Env) (l : Line) : Dec (Option Int) :=
  match l.kind with
  | .plain => do
    let v ← readBits E l.rangelen.toNat
    pure (some (l.rangelow + v))
  | .upper => do
    let v ← readBits E 32
    pure (some (l.rangelow + v))
  | .lower => do
    let v ← readBits E 32
    pure (some (l.rangelow - v))
  | .oob => pure none

/-- `HTDecode(T)` (`43_huffman.md` R195), the value. -/
def htDecode (E : Env) (t : Table) : Dec (Option Int) := do
  let l ← htWalk E t (lenMax t) 0 0
  leafValue E l

/-- `HTDecode(T)` (`43_huffman.md` R195), the value and consumedBits. -/
def htDecodeCounted (E : Env) (t : Table) : Dec (Option Int × Nat) := do
  let start ← get
  let v ← htDecode E t
  let stop ← get
  pure (v, stop.sp - start.sp)

/-- The line loop of `ParseTable` (`43_huffman.md` R216): at most `n` turns. Every turn appends a line and MAXLINES bounds
the lines, so MAXLINES + 1 turns are no bound on it. -/
def tableLines (E : Env) (htps htrs : Nat) (high : Int) : (n : Nat) → (cur : Int) → Table → Dec Table
  | 0, _, _ => throw .unsupportedFeature
  | n + 1, cur, t =>
    if high ≤ cur then pure t
    else do
      require (decide (t.length + 3 < E.cfg.maxlines)) .unsupportedFeature
      let p ← readBits E htps
      let r ← readBits E htrs
      require (decide (r ≤ 32)) .malformedSegment
      tableLines E htps htrs high n (cur + 2 ^ r) (t ++ [plainLine p r cur])

/-- The lower, upper and OOB lines of `ParseTable` (`43_huffman.md` R216). -/
def tableTail (E : Env) (htps : Nat) (low high : Int) (htoob : Bool) : Dec Table := do
  let p ← readBits E htps
  let q ← readBits E htps
  if htoob then do
    let o ← readBits E htps
    pure [lowerLine p (low - 1), upperLine q high, oobLine o]
  else pure [lowerLine p (low - 1), upperLine q high]

/-- `ParseTable()` (`43_huffman.md` R216). -/
def parseTable (E : Env) : Dec Table := do
  let f ← readU8 E
  require (!f.testBit 7) .unsupportedFeature
  let htps := bitField f 3 1 + 1
  let htrs := bitField f 6 4 + 1
  let low ← readS32 E
  let high ← readS32 E
  require (decide (low ≤ high)) .malformedSegment
  let t ← tableLines E htps htrs high (E.cfg.maxlines + 1) low []
  let u ← tableTail E htps low high (f.testBit 0)
  alignByte
  assignCodes (t ++ u)

/-- A table role as the flags select it (`43_huffman.md` R219). -/
inductive TableChoice where
  /-- standard table B.n -/
  | std (n : Nat)
  /-- a user-supplied table -/
  | user
  /-- a selector value T.88 reserves (`30_encoding.md` R119) -/
  | reserved
deriving DecidableEq, Repr

/-- The table of a role and the user tables left: a user role takes the next referred table, InvalidReference if none is
left (`43_huffman.md` R219, `NextUserTable()`). -/
def chooseTable (E : Env) (c : TableChoice) (tabs : List Table) : Dec (Table × List Table) :=
  match c with
  | .std n => do
    let t ← std E n
    pure (t, tabs)
  | .user =>
    match tabs with
    | t :: more => pure (t, more)
    | [] => throw .invalidReference
  | .reserved => throw .unsupportedFeature

/-- What `HT.DECODE` may write (`10_state.md` R41). -/
def htDecodeFootprint : Footprint := { noFootprint with sp := true, r0 := true, r1 := true, oob := true }

/-- What `SEG.TABLES` may write (`10_state.md` R41). -/
def tablesFootprint : Footprint := { noFootprint with sp := true, segment := true }

/-- `HT.STD` (`43_huffman.md` R198). -/
def execHtStd (a : BitVec 8) (s : State) : Outcome :=
  runCommand (Instr.htStd a).opc noFootprint
    (do
      require (decide (1 ≤ a.toNat) && decide (a.toNat ≤ 15)) .illegalCommand
      std s.streamEnv a.toNat)
    (fun _ t => t) s

/-- The table `HT.DECODE a` decodes with (`43_huffman.md` R199). -/
def htDecodeTable (s : State) (a : Nat) : Dec Table :=
  if a = 0 then do
    require (decide (s.dst < s.cfg.nslot)) .illegalCommand
    match s.slot s.dst with
    | .table t => pure t
    | .empty => throw .invalidReference
    | .symDict _ _ => throw .invalidReference
    | .region _ _ _ _ => throw .invalidReference
  else std s.streamEnv a

/-- `HT.DECODE` (`43_huffman.md` R199). -/
def execHtDecode (a : BitVec 8) (s : State) : Outcome :=
  runCommand (Instr.htDecode a).opc htDecodeFootprint
    (do
      require (decide (a.toNat ≤ 15)) .illegalCommand
      let t ← htDecodeTable s a.toNat
      htDecodeCounted s.streamEnv t)
    (fun v t => { t.putDecoded v.1 with r1 := BitVec.ofNat 32 v.2 }) s

/-- `SEG.TABLES` (`43_huffman.md` R217). -/
def execSegTables (s : State) : Outcome :=
  runSegment Instr.segTables.opc tablesFootprint false
    (do
      let t ← parseTable s.segmentEnv
      pure { slot := .table t, idlen := none }) s

end Sys2Proof.Machine
end

