-- ==== Sys2Proof/Machine/Bitmaps.lean ====
section
/-! DEFINITION. Bitmaps, the combination operators and the BM commands (`44_bitmap.md`). -/

namespace Sys2Proof.Machine

/-- Pixel (x, y) of a bitmap, both coordinates inside it. -/
def Bitmap.pixAt (b : Bitmap) (x y : Nat) : Bool := b.pix.getLsbD (y * b.w + x)

/-- `Pix(B, x, y)` (`44_bitmap.md` R241): 0 outside the bitmap (`20_memory.md` R70). -/
def Bitmap.get (b : Bitmap) (x y : Int) : Bool :=
  if 0 ≤ x ∧ x < b.w ∧ 0 ≤ y ∧ y < b.h then b.pixAt x.toNat y.toNat else false

/-- `B.PIX[y][x] <- v`; a write outside the bitmap has no effect (`20_memory.md` R70). -/
def Bitmap.set (b : Bitmap) (x y : Nat) (v : Bool) : Bitmap :=
  if x < b.w ∧ y < b.h then
    { b with
      pix :=
        if v then b.pix ||| BitVec.twoPow (b.w * b.h) (y * b.w + x)
        else b.pix &&& ~~~BitVec.twoPow (b.w * b.h) (y * b.w + x) }
  else b

/-- A bitmap of one pixel value (`44_bitmap.md` R241), without the capacity check. -/
def Bitmap.filled (w h : Nat) (fill : Bool) : Bitmap :=
  { w := w, h := h, pix := if fill then BitVec.allOnes (w * h) else 0 }

/-- `NewBitmap(w, h, fill)` (`44_bitmap.md` R241). -/
def newBitmap (cfg : Params) (w h : Nat) (fill : Bool) : Dec Bitmap := do
  require (decide (w * h ≤ cfg.maxpix)) .unsupportedFeature
  pure (Bitmap.filled w h fill)

/-- Byte `k` of row `y` of the byte image (`20_memory.md` R69): leftmost pixel in bit 7, unused low bits 0. -/
def Bitmap.imageByte (b : Bitmap) (y k : Nat) : Byte :=
  loopPure (fun j v => if b.get ((8 * k + j : Nat) : Int) y then v ||| BitVec.twoPow 8 (7 - j) else v) 8 0 0

/-- The byte image of a bitmap, what the host reads out of a slot (`20_memory.md` R69): rows top to bottom,
`ceil(W / 8)` bytes each. -/
def Bitmap.image (b : Bitmap) : List Byte :=
  (List.range b.h).flatMap (fun y => (List.range ((b.w + 7) / 8)).map (fun k => b.imageByte y k))

/-- The combination operators' truth tables (`44_bitmap.md` R243): destination pixel, source pixel. -/
def CombOp.apply (op : CombOp) (d s : Bool) : Bool :=
  match op with
  | .or => d || s
  | .and => d && s
  | .xor => d ^^ s
  | .xnor => !(d ^^ s)
  | .replace => s

/-- One source pixel of `Combine`, clipped to the destination (`44_bitmap.md` R244). -/
def combinePixel (src : Bitmap) (x0 y0 : Int) (op : CombOp) (j i : Nat) (d : Bitmap) : Bitmap :=
  let x := x0 + i
  let y := y0 + j
  if 0 ≤ x ∧ x < d.w ∧ 0 ≤ y ∧ y < d.h then
    d.set x.toNat y.toNat (op.apply (d.get x y) (src.get i j))
  else d

/-- `Combine(DSTB, SRCB, x0, y0, op)` (`44_bitmap.md` R244). -/
def combine (dst src : Bitmap) (x0 y0 : Int) (op : CombOp) : Bitmap :=
  loopPure (fun j d => loopPure (combinePixel src x0 y0 op j) src.w 0 d) src.h 0 dst

/-- What `BM.NEW` and `BM.COMBINE` do to their destination on an error: nothing (`60_exceptions.md` R425). -/
def bitmapFootprint : Footprint := noFootprint

/-- `BM.COMBINE` (`44_bitmap.md` R244). -/
def execBmCombine (a : BitVec 8) (s : State) : Outcome :=
  runCommand (Instr.bmCombine a).opc bitmapFootprint
    (match combOpOfCode a.toNat with
    | none => throw .illegalCommand
    | some op => do
      require (decide (s.dst < s.cfg.nslot) && decide (s.src < s.cfg.nslot)) .illegalCommand
      match s.slot s.dst, s.slot s.src with
      | .region d x y o, .region b _ _ _ => pure (Slot.region (combine d b s.p2.toInt s.p3.toInt op) x y o)
      | _, _ => throw .invalidReference)
    (fun v t => t.setSlot s.dst v) s

/-- `BM.NEW` (`44_bitmap.md` R242). -/
def execBmNew (a : BitVec 8) (s : State) : Outcome :=
  runCommand (Instr.bmNew a).opc bitmapFootprint
    (do
      require (decide (a.toNat ≤ 1)) .illegalCommand
      require (decide (s.dst < s.cfg.nslot)) .illegalCommand
      let b ← newBitmap s.cfg s.p1.toNat s.p2.toNat (decide (a = 1))
      pure (Slot.region b 0 0 .or))
    (fun v t => t.setSlot s.dst v) s

end Sys2Proof.Machine
end

