-- ==== Sys2Proof/Machine/Generic.lean ====
section
/-! DEFINITION. The generic region decoder and the SEG.GR commands (`45_generic.md`). -/

namespace Sys2Proof.Machine

/-- A template position of R261: a fixed offset (dx, dy), or the adaptive pixel A1 + j. -/
inductive TemplatePixel where
  | fixed (dx dy : Int)
  | adaptive (j : Nat)
deriving DecidableEq, Repr

/-- The templates, from context bit 0 upwards (`45_generic.md` R261). -/
def gbTemplate : Fin 4 → List TemplatePixel
  | 0 =>
    [.fixed (-1) 0, .fixed (-2) 0, .fixed (-3) 0, .fixed (-4) 0, .adaptive 0, .fixed 2 (-1), .fixed 1 (-1),
      .fixed 0 (-1), .fixed (-1) (-1), .fixed (-2) (-1), .adaptive 1, .adaptive 2, .fixed 1 (-2), .fixed 0 (-2),
      .fixed (-1) (-2), .adaptive 3]
  | 1 =>
    [.fixed (-1) 0, .fixed (-2) 0, .fixed (-3) 0, .adaptive 0, .fixed 2 (-1), .fixed 1 (-1), .fixed 0 (-1),
      .fixed (-1) (-1), .fixed (-2) (-1), .fixed 2 (-2), .fixed 1 (-2), .fixed 0 (-2), .fixed (-1) (-2)]
  | 2 =>
    [.fixed (-1) 0, .fixed (-2) 0, .adaptive 0, .fixed 1 (-1), .fixed 0 (-1), .fixed (-1) (-1), .fixed (-2) (-1),
      .fixed 1 (-2), .fixed 0 (-2), .fixed (-1) (-2)]
  | 3 =>
    [.fixed (-1) 0, .fixed (-2) 0, .fixed (-3) 0, .fixed (-4) 0, .adaptive 0, .fixed 1 (-1), .fixed 0 (-1),
      .fixed (-1) (-1), .fixed (-2) (-1), .fixed (-3) (-1)]

/-- The offset of a template position (`45_generic.md` R262). -/
def TemplatePixel.offset (p : TemplatePixel) (at_ : AtPixels) : Int × Int :=
  match p with
  | .fixed dx dy => (dx, dy)
  | .adaptive j => at_.getD j (0, 0)

/-- A number from its bits, bit 0 first. -/
def ofBits : List Bool → Nat
  | [] => 0
  | b :: bs => b.toNat + 2 * ofBits bs

/-- `GCtx(B, x, y, t, at)` (`45_generic.md` R262). -/
def gctx (b : Bitmap) (x y : Nat) (t : Fin 4) (at_ : AtPixels) : Nat :=
  ofBits ((gbTemplate t).map fun p => b.get (x + (p.offset at_).1) (y + (p.offset at_).2))

/-- The SLTP contexts (`45_generic.md` R264). -/
def sltpCx : Fin 4 → Nat
  | 0 => 0x9B25
  | 1 => 0x0795
  | 2 => 0x00E5
  | 3 => 0x0195

/-- A bitmap being decoded and the typical-prediction row state LTP. -/
structure RowState where
  bm : Bitmap
  ltp : Bool
deriving DecidableEq, Repr

/-- The bit SLTP before a row, if typical prediction is on, toggles LTP (`45_generic.md` R264, `46_refinement.md` R294). -/
def nextLtp (E : Env) (on : Bool) (arr : Arr) (cx : Nat) (ltp : Bool) : Dec Bool :=
  if on then do
    let d ← adDecode E arr cx
    pure (ltp ^^ d)
  else pure ltp

/-- A row equal to the row above (`45_generic.md` R265). -/
def copyRow (y : Nat) (b : Bitmap) : Bitmap :=
  loopPure (fun x b => b.set x y (b.get x ((y : Int) - 1))) b.w 0 b

/-- One pixel of `GenericDecode` (`45_generic.md` R265). -/
def genericPixel (E : Env) (t : Fin 4) (at_ : AtPixels) (y x : Nat) (b : Bitmap) : Dec Bitmap := do
  let d ← adDecode E .gb (gctx b x y t at_)
  pure (b.set x y d)

/-- One row of `GenericDecode` (`45_generic.md` R265). -/
def genericRow (E : Env) (t : Fin 4) (tpgdon : Bool) (at_ : AtPixels) (y : Nat) (r : RowState) : Dec RowState := do
  let ltp ← nextLtp E tpgdon .gb (sltpCx t) r.ltp
  if ltp then pure { bm := copyRow y r.bm, ltp := ltp }
  else do
    let b ← loopM (genericPixel E t at_ y) r.bm.w 0 r.bm
    pure { bm := b, ltp := ltp }

/-- `GenericDecode` (`45_generic.md` R265). -/
def genericDecode (E : Env) (w h : Nat) (t : Fin 4) (tpgdon : Bool) (at_ : AtPixels) : Dec Bitmap := do
  let b ← newBitmap E.cfg w h false
  let r ← loopM (genericRow E t tpgdon at_) h 0 { bm := b, ltp := false }
  pure r.bm

/-- The number of adaptive pixels of a template (`45_generic.md` R260). -/
def atCount (t : Fin 4) : Nat := if t = 0 then 4 else 1

/-- A two-bit field as a template number. -/
def template4 (v : Nat) : Fin 4 := Fin.ofNat 4 v

/-- The generic adaptive pixels of a template with the check of R263. -/
def readGenericAt (E : Env) (t : Fin 4) : Dec AtPixels := do
  let at_ ← readAtPixels E (atCount t)
  require (at_.all atLegal) .malformedSegment
  pure at_

/-- What the SEG.GR commands may write (`10_state.md` R41). -/
def grFootprint : Footprint := { noFootprint with sp := true, ad := true, arrs := [.gb], segment := true }

/-- The header of a generic region segment (`45_generic.md` R266). -/
structure GenericHeader where
  info : RegionInfo
  template : Fin 4
  tpgdon : Bool
  at_ : AtPixels
deriving DecidableEq, Repr

/-- The header parse of `SEG.GR.*` (`45_generic.md` R266). -/
def parseGenericHeader (E : Env) : Dec GenericHeader := do
  let info ← parseRegionInfo E
  let f ← readU8 E
  require (decide (bitField f 7 4 = 0)) .unsupportedFeature
  require (!f.testBit 0) .unsupportedFeature
  let t := template4 (bitField f 2 1)
  let at_ ← readGenericAt E t
  pure { info := info, template := t, tpgdon := f.testBit 3, at_ := at_ }

/-- The procedure of `SEG.GR.*` on its window (`45_generic.md` R266). -/
def segGr (E : Env) : Dec SegmentResult := do
  let hd ← parseGenericHeader E
  clearArrays [.gb]
  let i ← cursorByte
  adInitAt E i
  let b ← genericDecode E hd.info.w hd.info.h hd.template hd.tpgdon hd.at_
  pure { slot := hd.info.region b, idlen := none }

/-- `SEG.GR.INT` (`45_generic.md` R266). -/
def execSegGrInt (s : State) : Outcome := runSegment Instr.segGrInt.opc grFootprint false (segGr s.segmentEnv) s

/-- `SEG.GR.IMM` (`45_generic.md` R266). -/
def execSegGrImm (s : State) : Outcome := runSegment Instr.segGrImm.opc grFootprint false (segGr s.segmentEnv) s

/-- `SEG.GR.IMML` (`45_generic.md` R266). -/
def execSegGrImml (s : State) : Outcome := runSegment Instr.segGrImml.opc grFootprint false (segGr s.segmentEnv) s

end Sys2Proof.Machine
end

