-- ==== Sys2Proof/Machine/Refine.lean ====
section
/-! DEFINITION. The refinement region decoder and the SEG.RR commands (`46_refinement.md`). -/

namespace Sys2Proof.Machine

/-- A template position of R291: a pixel of the bitmap being decoded or of the reference, at a fixed offset or at an
adaptive one. -/
inductive RefinePixel where
  | cur (dx dy : Int)
  | ref (dx dy : Int)
  | curAt (j : Nat)
  | refAt (j : Nat)
deriving DecidableEq, Repr

/-- The refinement templates, from context bit 0 upwards (`46_refinement.md` R291); `false` is template 0. -/
def grTemplate : Bool → List RefinePixel
  | false =>
    [.cur (-1) 0, .cur 1 (-1), .cur 0 (-1), .curAt 0, .ref 1 1, .ref 0 1, .ref (-1) 1, .ref 1 0, .ref 0 0, .ref (-1) 0,
      .ref 1 (-1), .ref 0 (-1), .refAt 1]
  | true =>
    [.cur (-1) 0, .cur 1 (-1), .cur 0 (-1), .cur (-1) (-1), .ref 1 1, .ref 0 1, .ref 1 0, .ref 0 0, .ref (-1) 0,
      .ref 0 (-1)]

/-- What a refinement is decoded against (`46_refinement.md` R290): the template, the reference bitmap, its offset
(GRREFERENCEDX, GRREFERENCEDY), typical prediction, and the adaptive pixels. -/
structure RefineParams where
  template : Bool
  refb : Bitmap
  dx : Int
  dy : Int
  tpgron : Bool
  at_ : AtPixels
deriving DecidableEq, Repr

/-- Pixel (x + i, y + j) of the reference, seen from pixel (x, y) of the new bitmap (`46_refinement.md` R291). -/
def RefineParams.refPix (p : RefineParams) (x y : Nat) (i j : Int) : Bool := p.refb.get (x - p.dx + i) (y - p.dy + j)

/-- The value of a template position (`46_refinement.md` R292). -/
def RefinePixel.value (q : RefinePixel) (p : RefineParams) (b : Bitmap) (x y : Nat) : Bool :=
  match q with
  | .cur i j => b.get (x + i) (y + j)
  | .ref i j => p.refPix x y i j
  | .curAt k => b.get (x + (p.at_.getD k (0, 0)).1) (y + (p.at_.getD k (0, 0)).2)
  | .refAt k => p.refPix x y (p.at_.getD k (0, 0)).1 (p.at_.getD k (0, 0)).2

/-- `RCtx` (`46_refinement.md` R292). -/
def rctx (p : RefineParams) (b : Bitmap) (x y : Nat) : Nat :=
  ofBits ((grTemplate p.template).map fun q => q.value p b x y)

/-- The SLTP contexts of refinement (`46_refinement.md` R294). -/
def rsltpCx : Bool → Nat
  | false => 0x0100
  | true => 0x0080

/-- The offsets of a 3x3 neighbourhood. -/
def neighbourhood : List (Int × Int) :=
  [(-1, -1), (0, -1), (1, -1), (-1, 0), (0, 0), (1, 0), (-1, 1), (0, 1), (1, 1)]

/-- `TPGRPix` (`46_refinement.md` R294): the uniform value of the 3x3 reference neighbourhood, if it is uniform. -/
def tpgrPix (p : RefineParams) (x y : Nat) : Option Bool :=
  let v := p.refPix x y 0 0
  if neighbourhood.all (fun o => p.refPix x y o.1 o.2 == v) then some v else none

/-- One pixel of `RefineDecode` (`46_refinement.md` R295). -/
def refinePixel (E : Env) (p : RefineParams) (ltp : Bool) (y x : Nat) (b : Bitmap) : Dec Bitmap :=
  match (if ltp then tpgrPix p x y else none) with
  | some v => pure (b.set x y v)
  | none => do
    let d ← adDecode E .gr (rctx p b x y)
    pure (b.set x y d)

/-- One row of `RefineDecode` (`46_refinement.md` R295). -/
def refineRow (E : Env) (p : RefineParams) (y : Nat) (r : RowState) : Dec RowState := do
  let ltp ← nextLtp E p.tpgron .gr (rsltpCx p.template) r.ltp
  let b ← loopM (refinePixel E p ltp y) r.bm.w 0 r.bm
  pure { bm := b, ltp := ltp }

/-- `RefineDecode` (`46_refinement.md` R295). -/
def refineDecode (E : Env) (w h : Int) (p : RefineParams) : Dec Bitmap := do
  require (decide (0 ≤ w) && decide (0 ≤ h)) .malformedSegment
  let b ← newBitmap E.cfg w.toNat h.toNat false
  let r ← loopM (refineRow E p) h.toNat 0 { bm := b, ltp := false }
  pure r.bm

/-- What the SEG.RR commands may write (`10_state.md` R41). -/
def rrFootprint : Footprint := { noFootprint with sp := true, ad := true, arrs := [.gr], segment := true }

/-- The reference of `SEG.RR.*`: exactly one, a Region (`46_refinement.md` R296, `60_exceptions.md` R430). -/
def rrReference : List Slot → Dec Bitmap
  | [.region b _ _ _] => pure b
  | _ => throw .invalidReference

/-- The header of a refinement region segment (`46_refinement.md` R296). -/
structure RefineHeader where
  info : RegionInfo
  template : Bool
  tpgron : Bool
  at_ : AtPixels
deriving DecidableEq, Repr

/-- The header parse of `SEG.RR.*` (`46_refinement.md` R296). -/
def parseRefineHeader (E : Env) : Dec RefineHeader := do
  let info ← parseRegionInfo E
  let f ← readU8 E
  require (decide (bitField f 7 2 = 0)) .unsupportedFeature
  let at_ ← if f.testBit 0 then pure [] else readRefineAt E
  pure { info := info, template := f.testBit 0, tpgron := f.testBit 1, at_ := at_ }

/-- The procedure of `SEG.RR.*` on its window (`46_refinement.md` R296); `refs` are the values of the referred slots. -/
def segRr (E : Env) (refs : List Slot) : Dec SegmentResult := do
  let refb ← rrReference refs
  let hd ← parseRefineHeader E
  require (decide (refb.w = hd.info.w) && decide (refb.h = hd.info.h)) .invalidReference
  clearArrays [.gr]
  let i ← cursorByte
  adInitAt E i
  let b ← refineDecode E hd.info.w hd.info.h
    { template := hd.template, refb := refb, dx := 0, dy := 0, tpgron := hd.tpgron, at_ := hd.at_ }
  pure { slot := hd.info.region b, idlen := none }

/-- `SEG.RR.INT` (`46_refinement.md` R296). -/
def execSegRrInt (s : State) : Outcome :=
  runSegment Instr.segRrInt.opc rrFootprint true (segRr s.segmentEnv s.refSlots) s

/-- `SEG.RR.IMM` (`46_refinement.md` R296). -/
def execSegRrImm (s : State) : Outcome :=
  runSegment Instr.segRrImm.opc rrFootprint true (segRr s.segmentEnv s.refSlots) s

/-- `SEG.RR.IMML` (`46_refinement.md` R296). -/
def execSegRrImml (s : State) : Outcome :=
  runSegment Instr.segRrImml.opc rrFootprint true (segRr s.segmentEnv s.refSlots) s

end Sys2Proof.Machine
end

