-- ==== Sys2Proof/Machine/TextRegion.lean ====
section
/-! DEFINITION. The text region decoder and the SEG.TR commands (`48_text_region.md`). -/

namespace Sys2Proof.Machine

/-- REFCORNER (`48_text_region.md` R370): which corner of an instance the decoded position names. -/
inductive RefCorner where
  | bottomLeft | topLeft | bottomRight | topRight
deriving DecidableEq, Repr

/-- The corner of a code (`48_text_region.md` R370). -/
def refCornerOfCode : Nat → RefCorner
  | 0 => .bottomLeft
  | 1 => .topLeft
  | 2 => .bottomRight
  | _ => .topRight

/-- A value table: one the header parse selected, or a standard table constructed at its first use (`10_state.md` R36; the
aggregate symbols' fixed tables, `47_symbol_dict.md` R328). -/
inductive TableRef where
  | given (t : Table)
  | standard (n : Nat)
deriving DecidableEq, Repr

/-- The table itself. -/
def TableRef.resolve (E : Env) : TableRef → Dec Table
  | .given t => pure t
  | .standard n => std E n

/-- The symbol-ID code in Huffman mode (`48_text_region.md` R377): a prefix code, or raw bits for aggregate symbols. -/
inductive IdCode where
  | coded (t : Table)
  | raw
deriving DecidableEq, Repr

/-- The eight value tables (`48_text_region.md` R370). -/
structure TextTables where
  fs : TableRef
  ds : TableRef
  dt : TableRef
  rdw : TableRef
  rdh : TableRef
  rdx : TableRef
  rdy : TableRef
  rsize : TableRef
deriving DecidableEq, Repr

/-- The parameters of `TextDecode` (`48_text_region.md` R370). -/
structure TextParams where
  huff : Bool
  refine : Bool
  w : Nat
  h : Nat
  numInstances : Nat
  logStrips : Nat
  syms : List Bitmap
  symCodeLen : Nat
  defPixel : Bool
  combOp : CombOp
  transposed : Bool
  refCorner : RefCorner
  dsOffset : Int
  rtemplate : Bool
  rat : AtPixels
  tables : TextTables
  idCode : IdCode
deriving DecidableEq, Repr

/-- SBSTRIPS = 2^LOGSBSTRIPS (`48_text_region.md` R370). -/
def TextParams.strips (p : TextParams) : Nat := 2 ^ p.logStrips

/-- OOB where a number is required is MalformedSegment (`60_exceptions.md` R433). -/
def needValue (v : Option Int) : Dec Int :=
  match v with
  | some v => pure v
  | none => throw .malformedSegment

/-- `Dec(v)` (`48_text_region.md` R377): by the table in Huffman mode, by the integer array otherwise. -/
def textDec (E : Env) (p : TextParams) (t : TableRef) (arr : Arr) : Dec (Option Int) :=
  if p.huff then do
    let t ← t.resolve E
    htDecode E t
  else iaDecode E arr

/-- `Val(v)` (`48_text_region.md` R377). -/
def textVal (E : Env) (p : TextParams) (t : TableRef) (arr : Arr) : Dec Int := do
  let v ← textDec E p t arr
  needValue v

/-- CURT (`48_text_region.md` R376, R377). -/
def decodeCurT (E : Env) (p : TextParams) : Dec Int :=
  if p.logStrips = 0 then pure 0
  else if p.huff then do
    let v ← readBits E p.logStrips
    pure v
  else do
    let v ← iaDecode E .iait
    needValue v

/-- `DecodeID()` (`48_text_region.md` R377). A prefix code of symbol IDs has no OOB line and no negative value
(R373). -/
def decodeId (E : Env) (p : TextParams) : Dec Nat :=
  if p.huff then
    match p.idCode with
    | .coded t => do
      let v ← htDecode E t
      let v ← needValue v
      pure v.toNat
    | .raw => readBits E p.symCodeLen
  else iaidDecode E p.symCodeLen

/-- RI (`48_text_region.md` R377, R378): 0 without refinement; an arithmetic value other than 0 or 1 is
MalformedSegment. -/
def decodeRi (E : Env) (p : TextParams) : Dec Bool :=
  if p.refine then do
    let v ← if p.huff then (do let b ← readBit E; pure (b : Int)) else (do let v ← iaDecode E .iari; needValue v)
    require (decide (v = 0) || decide (v = 1)) .malformedSegment
    pure (decide (v = 1))
  else pure false

/-- The refinement data block of a Huffman-coded stream (`48_text_region.md` R378, `47_symbol_dict.md` R327): `size` bytes
from the next byte boundary, in the window, with a fresh decoder at their start. Yields the byte after the block. -/
def openBlock (E : Env) (size : Nat) : Dec Nat := do
  alignByte
  let st ← cursorByte
  require (decide (st + size ≤ E.we)) .unexpectedEndOfData
  adInitAt E st
  pure (st + size)

/-- RSIZE and the opening of its block, in Huffman mode (`48_text_region.md` R378). -/
def openRefinement (E : Env) (p : TextParams) : Dec Nat := do
  let t ← p.tables.rsize.resolve E
  let size ← htDecode E t
  let size ← needValue size
  require (decide (0 ≤ size)) .malformedSegment
  openBlock E size.toNat

/-- The refined bitmap of an instance of symbol `ibo` (`48_text_region.md` R378). -/
def refineInstance (E : Env) (p : TextParams) (ibo : Bitmap) : Dec Bitmap := do
  let rdw ← textVal E p p.tables.rdw .iardw
  let rdh ← textVal E p p.tables.rdh .iardh
  let rdx ← textVal E p p.tables.rdx .iardx
  let rdy ← textVal E p p.tables.rdy .iardy
  let rp : RefineParams :=
    { template := p.rtemplate, refb := ibo, dx := rdw.fdiv 2 + rdx, dy := rdh.fdiv 2 + rdy, tpgron := false
      at_ := p.rat }
  if p.huff then do
    let stop ← openRefinement E p
    let b ← refineDecode E (ibo.w + rdw) (ibo.h + rdh) rp
    seekByte stop
    pure b
  else refineDecode E (ibo.w + rdw) (ibo.h + rdh) rp

/-- `InstanceBitmap(ID)` for the symbol `ibo` an ID names (`48_text_region.md` R378). -/
def instanceBitmap (E : Env) (p : TextParams) (ibo : Bitmap) : Dec Bitmap := do
  let ri ← decodeRi E p
  if ri then refineInstance E p ibo else pure ibo

/-- The working state of `TextDecode` (`48_text_region.md` R370). -/
structure TextState where
  reg : Bitmap
  stript : Int
  firsts : Int
  curs : Int
  n : Nat
deriving DecidableEq, Repr

/-- CURS advances by this much for an instance of size `w` x `h`: its extent along S, minus one
(`48_text_region.md` R379). -/
def advanceS (transposed : Bool) (w h : Nat) : Int := if transposed then (h : Int) - 1 else (w : Int) - 1

/-- The reference corner is on the far side along S: CURS advances before drawing (`48_text_region.md` R379). -/
def farCorner (transposed : Bool) (c : RefCorner) : Bool :=
  match transposed, c with
  | false, .bottomRight => true
  | false, .topRight => true
  | true, .bottomLeft => true
  | true, .bottomRight => true
  | false, .bottomLeft => false
  | false, .topLeft => false
  | true, .topLeft => false
  | true, .topRight => false

/-- The top-left pixel of an instance, by the table of `48_text_region.md` R379. -/
def placeAt (transposed : Bool) (c : RefCorner) (s t : Int) (w h : Nat) : Int × Int :=
  match transposed, c with
  | false, .topLeft => (s, t)
  | false, .topRight => (s - w + 1, t)
  | false, .bottomLeft => (s, t - h + 1)
  | false, .bottomRight => (s - w + 1, t - h + 1)
  | true, .topLeft => (t, s)
  | true, .topRight => (t - w + 1, s)
  | true, .bottomLeft => (t, s - h + 1)
  | true, .bottomRight => (t - w + 1, s - h + 1)

/-- `Place(IB, T_I)` (`48_text_region.md` R379). -/
def place (p : TextParams) (ib : Bitmap) (t : Int) (st : TextState) : TextState :=
  let adv := advanceS p.transposed ib.w ib.h
  let s := if farCorner p.transposed p.refCorner then st.curs + adv else st.curs
  let xy := placeAt p.transposed p.refCorner s t ib.w ib.h
  { st with
    reg := combine st.reg ib xy.1 xy.2 p.combOp
    curs := if farCorner p.transposed p.refCorner then s else s + adv }

/-- One instance, from CURT on, with CURS set (`48_text_region.md` R376). -/
def textInstance (E : Env) (p : TextParams) (st : TextState) : Dec TextState := do
  let curt ← decodeCurT E p
  let id ← decodeId E p
  match p.syms[id]? with
  | none => throw .malformedSegment
  | some ibo => do
    let ib ← instanceBitmap E p ibo
    let st' := place p ib (st.stript + curt) st
    pure { st' with n := st.n + 1 }

/-- The instances of a strip after its first, up to the closing OOB (`48_text_region.md` R376); `room` more are owed. -/
def stripRest (E : Env) (p : TextParams) : (room : Nat) → TextState → Dec TextState
  | 0, st => do
    let ids ← textDec E p p.tables.ds .iads
    require ids.isNone .malformedSegment
    pure st
  | room + 1, st => do
    let ids ← textDec E p p.tables.ds .iads
    match ids with
    | none => pure st
    | some v => do
      let st' ← textInstance E p { st with curs := st.curs + v + p.dsOffset }
      stripRest E p room st'

/-- One strip (`48_text_region.md` R376). -/
def textStrip (E : Env) (p : TextParams) (st : TextState) : Dec TextState := do
  let dt ← textVal E p p.tables.dt .iadt
  let dfs ← textVal E p p.tables.fs .iafs
  let firsts := st.firsts + dfs
  let st' ← textInstance E p { st with stript := st.stript + dt * p.strips, firsts := firsts, curs := firsts }
  stripRest E p (p.numInstances - st'.n) st'

/-- The strip loop (`48_text_region.md` R376): every strip places at least one instance, so SBNUMINSTANCES turns are no
bound on it. -/
def textStrips (E : Env) (p : TextParams) : (turns : Nat) → TextState → Dec TextState
  | 0, st => pure st
  | n + 1, st =>
    if st.n < p.numInstances then do
      let st' ← textStrip E p st
      textStrips E p n st'
    else pure st

/-- `TextDecode()` (`48_text_region.md` R376). -/
def textDecode (E : Env) (p : TextParams) : Dec Bitmap := do
  let reg ← newBitmap E.cfg p.w p.h p.defPixel
  let dt ← textVal E p p.tables.dt .iadt
  let st ← textStrips E p p.numInstances { reg := reg, stript := -(dt * p.strips), firsts := 0, curs := 0, n := 0 }
  pure st.reg

/-! ## The header -/

/-- The selectors of R372 with values 0, 1 for standard tables `n0`, `n1`, 2 reserved, 3 user table. -/
def choiceOf4 (v n0 n1 : Nat) : TableChoice :=
  match v with
  | 0 => .std n0
  | 1 => .std n1
  | 2 => .reserved
  | _ => .user

/-- The selectors of R372 with values 0, 1, 2 for standard tables `n0`, `n1`, `n2`, 3 user table. -/
def choiceOf4Full (v n0 n1 n2 : Nat) : TableChoice :=
  match v with
  | 0 => .std n0
  | 1 => .std n1
  | 2 => .std n2
  | _ => .user

/-- The one-bit selectors: standard table `n0`, or a user table. -/
def choiceOf2 (user : Bool) (n0 : Nat) : TableChoice := if user then .user else .std n0

/-- The Huffman flags word and the table selection (`48_text_region.md` R372). -/
def parseTextTables (E : Env) (refine : Bool) (tabs : List Table) : Dec TextTables := do
  let h ← readU16 E
  require (!h.testBit 15) .unsupportedFeature
  require (refine || decide (bitField h 14 6 = 0)) .malformedSegment
  let (fs, tabs) ← chooseTable E (choiceOf4 (bitField h 1 0) 6 7) tabs
  let (ds, tabs) ← chooseTable E (choiceOf4Full (bitField h 3 2) 8 9 10) tabs
  let (dt, tabs) ← chooseTable E (choiceOf4Full (bitField h 5 4) 11 12 13) tabs
  let (rdw, tabs) ← chooseTable E (choiceOf4 (bitField h 7 6) 14 15) tabs
  let (rdh, tabs) ← chooseTable E (choiceOf4 (bitField h 9 8) 14 15) tabs
  let (rdx, tabs) ← chooseTable E (choiceOf4 (bitField h 11 10) 14 15) tabs
  let (rdy, tabs) ← chooseTable E (choiceOf4 (bitField h 13 12) 14 15) tabs
  let (rsize, _) ← chooseTable E (choiceOf2 (h.testBit 14) 1) tabs
  pure
    { fs := .given fs, ds := .given ds, dt := .given dt, rdw := .given rdw, rdh := .given rdh, rdx := .given rdx
      rdy := .given rdy, rsize := .given rsize }

/-- The tables of a text region that uses none (SBHUFF = 0). -/
def noTextTables : TextTables :=
  { fs := .given [], ds := .given [], dt := .given [], rdw := .given [], rdh := .given [], rdx := .given []
    rdy := .given [], rsize := .given [] }

/-- `n` fields of `len` bits. -/
def readFields (E : Env) (len : Nat) : (n : Nat) → Dec (List Nat)
  | 0 => pure []
  | n + 1 => do
    let v ← readBits E len
    let more ← readFields E len n
    pure (v :: more)

/-- The prefix code over 0, 1, ... with the given code lengths (`48_text_region.md` R373). -/
def linesOfLens (lens : List Nat) : Table := lens.zipIdx.map fun p => plainLine p.1 0 p.2

/-- The code lengths one run code appends (`48_text_region.md` R373). -/
def runLens (E : Env) (lens : List Nat) (v : Nat) : Dec (List Nat) :=
  if v < 32 then pure [v]
  else if v = 32 then
    match lens.getLast? with
    | none => throw .malformedSegment
    | some l => do
      let k ← readBits E 2
      pure (List.replicate (k + 3) l)
  else if v = 33 then do
    let k ← readBits E 3
    pure (List.replicate (k + 3) 0)
  else do
    let k ← readBits E 7
    pure (List.replicate (k + 11) 0)

/-- The run-length coded list of symbol-ID code lengths (`48_text_region.md` R373): every turn appends at least one
length, so SBNUMSYMS turns are no bound on it. -/
def symIdLens (E : Env) (rl : Table) (num : Nat) : (turns : Nat) → List Nat → Dec (List Nat)
  | 0, lens => pure lens
  | n + 1, lens =>
    if lens.length < num then do
      let v ← htDecode E rl
      let v ← needValue v
      let more ← runLens E lens v.toNat
      require (decide ((lens ++ more).length ≤ num)) .malformedSegment
      symIdLens E rl num n (lens ++ more)
    else pure lens

/-- `ParseSymIDTable()` (`48_text_region.md` R373). -/
def parseSymIdTable (E : Env) (num : Nat) : Dec Table := do
  let runs ← readFields E 4 35
  let rl ← assignCodes (linesOfLens runs)
  let lens ← symIdLens E rl num num []
  alignByte
  assignCodes (linesOfLens lens)

/-- The two-bit operator of a text region, 0 .. 3 (`48_text_region.md` R370, `30_encoding.md` R100). -/
def textCombOp (v : Nat) : CombOp := (combOpOfCode v).getD .or

/-- SBDSOFFSET, a signed 5-bit field (`48_text_region.md` R370, R371). -/
def textDsOffset (f : Nat) : Int :=
  if 15 < bitField f 14 10 then (bitField f 14 10 : Int) - 32 else (bitField f 14 10 : Int)

/-- The header of a text region segment, as far as it is read before the symbol-ID code table
(`48_text_region.md` R371). -/
structure TextHeader where
  info : RegionInfo
  flags : Nat
  tables : TextTables
  rat : AtPixels
  numInstances : Nat
deriving DecidableEq, Repr

/-- `ParseTRHeader()` (`48_text_region.md` R371). -/
def parseTextHeader (E : Env) (tabs : List Table) : Dec TextHeader := do
  let info ← parseRegionInfo E
  let f ← readU16 E
  require (f.testBit 1 || !f.testBit 15) .malformedSegment
  let tables ← if f.testBit 0 then parseTextTables E (f.testBit 1) tabs else pure noTextTables
  let rat ← if f.testBit 1 && !f.testBit 15 then readRefineAt E else pure []
  let n ← readU32 E
  pure { info := info, flags := f, tables := tables, rat := rat, numInstances := n }

/-- The parameters a header gives `TextDecode` (`48_text_region.md` R370, R371). -/
def TextHeader.params (hd : TextHeader) (syms : List Bitmap) (idCode : IdCode) : TextParams :=
  { huff := hd.flags.testBit 0
    refine := hd.flags.testBit 1
    w := hd.info.w
    h := hd.info.h
    numInstances := hd.numInstances
    logStrips := bitField hd.flags 3 2
    syms := syms
    symCodeLen := ceilLog2 syms.length
    defPixel := hd.flags.testBit 9
    combOp := textCombOp (bitField hd.flags 8 7)
    transposed := hd.flags.testBit 6
    refCorner := refCornerOfCode (bitField hd.flags 5 4)
    dsOffset := textDsOffset hd.flags
    rtemplate := hd.flags.testBit 15
    rat := hd.rat
    tables := hd.tables
    idCode := idCode }

/-- The symbol-ID code table in Huffman mode, the arithmetic decoder's start otherwise (`48_text_region.md` R375). -/
def openTextData (E : Env) (huff : Bool) (num : Nat) : Dec IdCode :=
  if huff then do
    let t ← parseSymIdTable E num
    pure (.coded t)
  else do
    let i ← cursorByte
    adInitAt E i
    pure .raw

/-- What `SEG.TR.*` and `SEG.SD` may write (`10_state.md` R41). -/
def symbolFootprint : Footprint :=
  { noFootprint with sp := true, ad := true, idlen := true, arrs := allArrays, segment := true }

/-- The procedure of `SEG.TR.*` on its window (`48_text_region.md` R374, R375); `slots` are the values of the referred
slots. -/
def segTr (E : Env) (slots : List Slot) : Dec SegmentResult := do
  let refs ← collectRefs slots
  require (decide (refs.syms.length ≤ E.cfg.maxsyms)) .unsupportedFeature
  clearArrays allArrays
  let hd ← parseTextHeader E refs.tabs
  let idCode ← openTextData E (hd.flags.testBit 0) refs.syms.length
  let b ← textDecode E (hd.params refs.syms idCode)
  pure { slot := hd.info.region b, idlen := some (ceilLog2 refs.syms.length) }

/-- `SEG.TR.INT` (`48_text_region.md` R375). -/
def execSegTrInt (s : State) : Outcome :=
  runSegment Instr.segTrInt.opc symbolFootprint true (segTr s.segmentEnv s.refSlots) s

/-- `SEG.TR.IMM` (`48_text_region.md` R375). -/
def execSegTrImm (s : State) : Outcome :=
  runSegment Instr.segTrImm.opc symbolFootprint true (segTr s.segmentEnv s.refSlots) s

/-- `SEG.TR.IMML` (`48_text_region.md` R375). -/
def execSegTrImml (s : State) : Outcome :=
  runSegment Instr.segTrImml.opc symbolFootprint true (segTr s.segmentEnv s.refSlots) s

end Sys2Proof.Machine
end

