-- ==== Sys2Proof/Machine/SymDict.lean ====
section
/-! DEFINITION. The symbol dictionary decoder and the SEG.SD command (`47_symbol_dict.md`). -/

namespace Sys2Proof.Machine

/-- The header of a symbol dictionary segment (`47_symbol_dict.md` R320, R321); `flags` is the flags word. -/
structure SdHeader where
  flags : Nat
  sdat : AtPixels
  sdrat : AtPixels
  numEx : Nat
  numNew : Nat
deriving DecidableEq, Repr

/-- SDHUFF (`47_symbol_dict.md` R321). -/
def SdHeader.huff (h : SdHeader) : Bool := h.flags.testBit 0

/-- SDREFAGG (`47_symbol_dict.md` R321). -/
def SdHeader.refagg (h : SdHeader) : Bool := h.flags.testBit 1

/-- Bitmap coding context used (`47_symbol_dict.md` R321). -/
def SdHeader.used (h : SdHeader) : Bool := h.flags.testBit 8

/-- Bitmap coding context retained (`47_symbol_dict.md` R321). -/
def SdHeader.retain (h : SdHeader) : Bool := h.flags.testBit 9

/-- SDTEMPLATE (`47_symbol_dict.md` R321). -/
def SdHeader.template (h : SdHeader) : Fin 4 := template4 (bitField h.flags 11 10)

/-- SDRTEMPLATE (`47_symbol_dict.md` R321). -/
def SdHeader.rtemplate (h : SdHeader) : Bool := h.flags.testBit 12

/-- The checks of `ParseSDHeader` on the flags word, in its order (`47_symbol_dict.md` R321). -/
def checkSdFlags (f : Nat) : Dec Unit := do
  require (decide (bitField f 15 13 = 0)) .unsupportedFeature
  let huff := f.testBit 0
  let refagg := f.testBit 1
  require (huff || decide (bitField f 7 2 = 0)) .malformedSegment
  require (!huff || decide (bitField f 11 10 = 0)) .malformedSegment
  require (!huff || refagg || decide (bitField f 9 8 = 0)) .malformedSegment
  require (refagg || (!f.testBit 12 && !f.testBit 7)) .malformedSegment
  require (decide (bitField f 3 2 ≠ 2) && decide (bitField f 5 4 ≠ 2)) .unsupportedFeature

/-- `ParseSDHeader()` (`47_symbol_dict.md` R321). -/
def parseSdHeader (E : Env) : Dec SdHeader := do
  let f ← readU16 E
  checkSdFlags f
  let sdat ← if f.testBit 0 then pure [] else readGenericAt E (template4 (bitField f 11 10))
  let sdrat ← if f.testBit 1 && !f.testBit 12 then readRefineAt E else pure []
  let numEx ← readU32 E
  let numNew ← readU32 E
  pure { flags := f, sdat := sdat, sdrat := sdrat, numEx := numEx, numNew := numNew }

/-- The four Huffman tables of a dictionary (`47_symbol_dict.md` R320). -/
structure SdTables where
  dh : Table
  dw : Table
  bmsize : Table
  agginst : Table
deriving DecidableEq, Repr

/-- The table selection (`47_symbol_dict.md` R322), for SDHUFF = 1. -/
def chooseSdTables (E : Env) (f : Nat) (tabs : List Table) : Dec SdTables := do
  let (dh, tabs) ← chooseTable E (choiceOf4 (bitField f 3 2) 4 5) tabs
  let (dw, tabs) ← chooseTable E (choiceOf4 (bitField f 5 4) 2 3) tabs
  let (bmsize, tabs) ← chooseTable E (choiceOf2 (f.testBit 6) 1) tabs
  let (agginst, _) ← chooseTable E (choiceOf2 (f.testBit 7) 1) tabs
  pure { dh := dh, dw := dw, bmsize := bmsize, agginst := agginst }

/-- The tables of a dictionary that uses none (SDHUFF = 0). -/
def noSdTables : SdTables := { dh := [], dw := [], bmsize := [], agginst := [] }

/-- What the symbol decoding works with. -/
structure SdParams where
  hd : SdHeader
  inSyms : List Bitmap
  tables : SdTables
  symCodeLen : Nat
deriving DecidableEq, Repr

/-- The retained contexts a "contexts used" dictionary starts from (`47_symbol_dict.md` R323). -/
def inheritContexts (hd : SdHeader) (last : Option (Option Retained)) : Dec Unit :=
  match last with
  | some (some r) => do
    require
      (decide (r.sdrefagg = hd.refagg) && decide (r.sdtemplate = hd.template) &&
        decide (r.sdrtemplate = hd.rtemplate) && decide (r.sdat = hd.sdat) && decide (r.sdrat = hd.sdrat))
      .malformedSegment
    modify fun w => { w with cx := { w.cx with gb := r.gb, gr := r.gr } }
  | some none => throw .invalidReference
  | none => throw .invalidReference

/-- The contexts at the start of the command (`47_symbol_dict.md` R323). -/
def startContexts (hd : SdHeader) (last : Option (Option Retained)) : Dec Unit := do
  clearArrays allArrays
  if hd.used then inheritContexts hd last else pure ()

/-- `DecodeDH()` (`47_symbol_dict.md` R325). -/
def decodeDh (E : Env) (p : SdParams) : Dec (Option Int) :=
  if p.hd.huff then htDecode E p.tables.dh else iaDecode E .iadh

/-- `DecodeDW()` (`47_symbol_dict.md` R325). -/
def decodeDw (E : Env) (p : SdParams) : Dec (Option Int) :=
  if p.hd.huff then htDecode E p.tables.dw else iaDecode E .iadw

/-- REFAGGNINST (`47_symbol_dict.md` R327). -/
def decodeAggInst (E : Env) (p : SdParams) : Dec (Option Int) :=
  if p.hd.huff then htDecode E p.tables.agginst else iaDecode E .iaai

/-- A value by a standard table, constructed at its first use. -/
def stdDecode (E : Env) (n : Nat) : Dec (Option Int) := do
  let t ← std E n
  htDecode E t

/-- The parameters of the text region procedure for an aggregate symbol (`47_symbol_dict.md` R328). -/
def aggregateParams (p : SdParams) (syms : List Bitmap) (w h n : Nat) : TextParams :=
  { huff := p.hd.huff
    refine := true
    w := w
    h := h
    numInstances := n
    logStrips := 0
    syms := syms
    symCodeLen := p.symCodeLen
    defPixel := false
    combOp := .or
    transposed := false
    refCorner := .topLeft
    dsOffset := 0
    rtemplate := p.hd.rtemplate
    rat := p.hd.sdrat
    tables :=
      { fs := .standard 6, ds := .standard 8, dt := .standard 11, rdw := .standard 15, rdh := .standard 15
        rdx := .standard 15, rdy := .standard 15, rsize := .standard 1 }
    idCode := .raw }

/-- The refinement itself of a one-instance aggregate, after the OOB and ID checks (`47_symbol_dict.md` R327). -/
def refineSymbol (E : Env) (p : SdParams) (syms : List Bitmap) (w h : Nat) (id : Nat) (rdx rdy : Option Int) :
    Dec Bitmap := do
  let dx ← needValue rdx
  let dy ← needValue rdy
  match syms[id]? with
  | none => throw .malformedSegment
  | some b =>
    refineDecode E w h
      { template := p.hd.rtemplate, refb := b, dx := dx, dy := dy, tpgron := false, at_ := p.hd.sdrat }

/-- A one-instance aggregate (`47_symbol_dict.md` R327). -/
def oneInstance (E : Env) (p : SdParams) (syms : List Bitmap) (w h : Nat) : Dec Bitmap :=
  if p.hd.huff then do
    let id ← readBits E p.symCodeLen
    let rdx ← stdDecode E 15
    let rdy ← stdDecode E 15
    let size ← stdDecode E 1
    let size ← needValue size
    let stop ← openBlock E size.toNat
    let b ← refineSymbol E p syms w h id rdx rdy
    seekByte stop
    pure b
  else do
    let id ← iaidDecode E p.symCodeLen
    let rdx ← iaDecode E .iardx
    let rdy ← iaDecode E .iardy
    refineSymbol E p syms w h id rdx rdy

/-- A refinement / aggregate symbol of size `w` x `h` (`47_symbol_dict.md` R327, R328); `newSyms` are the symbols decoded
so far. -/
def aggregateSymbol (E : Env) (p : SdParams) (newSyms : List Bitmap) (w h : Nat) : Dec Bitmap := do
  let n ← decodeAggInst E p
  let n ← needValue n
  require (decide (1 ≤ n)) .malformedSegment
  if 1 < n then textDecode E (aggregateParams p (p.inSyms ++ newSyms) w h n.toNat)
  else oneInstance E p (p.inSyms ++ newSyms) w h

/-- A symbol whose bitmap follows its width: direct (`47_symbol_dict.md` R326) or by refinement (R327). -/
def symbolBitmap (E : Env) (p : SdParams) (newSyms : List Bitmap) (w h : Nat) : Dec Bitmap :=
  if p.hd.refagg then aggregateSymbol E p newSyms w h
  else genericDecode E w h p.hd.template false p.hd.sdat

/-- The bitmaps of a height class come with the class, in one collective bitmap (`47_symbol_dict.md` R325, R329). -/
def SdParams.collective (p : SdParams) : Bool := p.hd.huff && !p.hd.refagg

/-- The working state of a height class (`47_symbol_dict.md` R325): `widths` are the NEWW of the class in collective
coding, `syms` the new symbols so far. -/
structure ClassState where
  symWidth : Int
  totWidth : Int
  widths : List Nat
  syms : List Bitmap
deriving DecidableEq, Repr

/-- NSYMSDECODED (`47_symbol_dict.md` R320). -/
def ClassState.count (c : ClassState) : Nat := c.syms.length + c.widths.length

/-- One symbol of a height class of height `h`, after its delta width (`47_symbol_dict.md` R325). -/
def classSymbol (E : Env) (p : SdParams) (h : Int) (dw : Int) (c : ClassState) : Dec ClassState := do
  let w := c.symWidth + dw
  require (decide (0 ≤ w)) .malformedSegment
  if p.collective then
    pure { c with symWidth := w, totWidth := c.totWidth + w, widths := c.widths ++ [w.toNat] }
  else do
    let b ← symbolBitmap E p c.syms w.toNat h.toNat
    pure { c with symWidth := w, totWidth := c.totWidth + w, syms := c.syms ++ [b] }

/-- The inner loop of `DecodeSymbols` (`47_symbol_dict.md` R325): `room` = SDNUMNEWSYMS - NSYMSDECODED symbols are
owed. -/
def heightClass (E : Env) (p : SdParams) (h : Int) : (room : Nat) → ClassState → Dec ClassState
  | 0, c => do
    let dw ← decodeDw E p
    require dw.isNone .malformedSegment
    pure c
  | room + 1, c => do
    let dw ← decodeDw E p
    match dw with
    | none => pure c
    | some dw => do
      let c' ← classSymbol E p h dw c
      heightClass E p h room c'

/-- One pixel of an uncompressed collective bitmap (`47_symbol_dict.md` R329). -/
def collectivePixel (E : Env) (st stride y x : Nat) (b : Bitmap) : Dec Bitmap := do
  let v ← inByte E (st + y * stride + x / 8)
  pure (b.set x y (v.getLsbD (7 - x % 8)))

/-- An uncompressed collective bitmap at byte `st` (`47_symbol_dict.md` R329). -/
def collectiveBitmap (E : Env) (st w h : Nat) : Dec Bitmap := do
  let b ← newBitmap E.cfg w h false
  let b ← loopM (fun y b => loopM (collectivePixel E st ((w + 7) / 8) y) w 0 b) h 0 b
  seekByte (st + (w + 7) / 8 * h)
  pure b

/-- The `w` columns of a bitmap from column `x0` on (`47_symbol_dict.md` R329). -/
def columns (col : Bitmap) (x0 w : Nat) : Bitmap :=
  loopPure (fun y b => loopPure (fun x b => b.set x y (col.get (x0 + x) y)) w 0 b) col.h 0 (Bitmap.filled w col.h false)

/-- Cut a collective bitmap into symbols of the given widths, from column `x0` on (`47_symbol_dict.md` R329). -/
def cutColumns (col : Bitmap) : (x0 : Nat) → List Nat → List Bitmap
  | _, [] => []
  | x0, w :: ws => columns col x0 w :: cutColumns col (x0 + w) ws

/-- The collective bitmap of a height class (`47_symbol_dict.md` R329). -/
def classCollective (E : Env) (p : SdParams) (h : Int) (c : ClassState) : Dec (List Bitmap) := do
  let size ← htDecode E p.tables.bmsize
  let size ← needValue size
  alignByte
  require (decide (size = 0)) .unsupportedFeature
  let st ← cursorByte
  let col ← collectiveBitmap E st c.totWidth.toNat h.toNat
  pure (c.syms ++ cutColumns col 0 c.widths)

/-- One height class of height `h` (`47_symbol_dict.md` R325): its symbols, appended to those so far. -/
def decodeClass (E : Env) (p : SdParams) (h : Int) (syms : List Bitmap) : Dec (List Bitmap) := do
  let c ← heightClass E p h (p.hd.numNew - syms.length) { symWidth := 0, totWidth := 0, widths := [], syms := syms }
  require (decide (c.count ≠ syms.length)) .malformedSegment
  if p.collective then classCollective E p h c else pure c.syms

/-- The outer loop of `DecodeSymbols` (`47_symbol_dict.md` R325): every class decodes at least one symbol, so
SDNUMNEWSYMS turns are no bound on it. -/
def symbolClasses (E : Env) (p : SdParams) : (turns : Nat) → (h : Int) → List Bitmap → Dec (List Bitmap)
  | 0, _, syms => pure syms
  | n + 1, h, syms =>
    if syms.length < p.hd.numNew then do
      let dh ← decodeDh E p
      match dh with
      | none => pure syms
      | some dh => do
        require (decide (0 ≤ h + dh)) .malformedSegment
        let syms' ← decodeClass E p (h + dh) syms
        symbolClasses E p n (h + dh) syms'
    else pure syms

/-- `DecodeSymbols()` (`47_symbol_dict.md` R325). -/
def decodeSymbols (E : Env) (p : SdParams) : Dec (List Bitmap) := do
  let syms ← symbolClasses E p p.hd.numNew 0 []
  require (decide (syms.length = p.hd.numNew)) .malformedSegment
  pure syms

/-- The run loop of `DecodeExportFlags` (`47_symbol_dict.md` R330): `flags` are the flags so far. Only the first run may be 0,
so TOT + 1 turns are no bound on it. -/
def exportRuns (E : Env) (huff : Bool) (tot : Nat) : (turns : Nat) → (first flag : Bool) → List Bool → Dec (List Bool)
  | 0, _, _, flags => pure flags
  | n + 1, first, flag, flags =>
    if flags.length < tot then do
      let run ← if huff then stdDecode E 1 else iaDecode E .iaex
      let run ← needValue run
      require (decide (0 ≤ run) && decide (flags.length + run ≤ tot)) .malformedSegment
      require (decide (run ≠ 0) || first) .malformedSegment
      exportRuns E huff tot n false (!flag) (flags ++ List.replicate run.toNat flag)
    else pure flags

/-- The symbols whose export flag is 1, in order (`47_symbol_dict.md` R330). -/
def exported : List Bitmap → List Bool → List Bitmap
  | b :: bs, f :: fs => if f then b :: exported bs fs else exported bs fs
  | [], _ => []
  | _ :: _, [] => []

/-- `DecodeExportFlags()` (`47_symbol_dict.md` R330). -/
def decodeExport (E : Env) (p : SdParams) (newSyms : List Bitmap) : Dec (List Bitmap) := do
  let tot := p.inSyms.length + p.hd.numNew
  let flags ← exportRuns E p.hd.huff tot (tot + 1) true false []
  let ex := exported (p.inSyms ++ newSyms) flags
  require (decide (ex.length = p.hd.numEx)) .malformedSegment
  pure ex

/-- RET (`47_symbol_dict.md` R331). -/
def retained (hd : SdHeader) (cx : Contexts) : Option Retained :=
  if hd.retain then
    some
      { sdrefagg := hd.refagg, sdtemplate := hd.template, sdrtemplate := hd.rtemplate, sdat := hd.sdat
        sdrat := hd.sdrat, gb := cx.gb, gr := cx.gr }
  else none

/-- The arithmetic decoder's start when SDHUFF = 0 (`47_symbol_dict.md` R324). -/
def openSdData (E : Env) (huff : Bool) : Dec Unit :=
  if huff then pure ()
  else do
    let i ← cursorByte
    adInitAt E i

/-- The rest of rule R322 after the header: the capacity check and the tables. -/
def sdParams (E : Env) (hd : SdHeader) (refs : Refs) : Dec SdParams := do
  require (decide (refs.syms.length + hd.numNew ≤ E.cfg.maxsyms)) .unsupportedFeature
  let tables ← if hd.huff then chooseSdTables E hd.flags refs.tabs else pure noSdTables
  pure { hd := hd, inSyms := refs.syms, tables := tables, symCodeLen := ceilLog2 (refs.syms.length + hd.numNew) }

/-- The procedure of `SEG.SD` on its window (`47_symbol_dict.md` R324); `slots` are the values of the referred slots. -/
def segSd (E : Env) (slots : List Slot) : Dec SegmentResult := do
  let refs ← collectRefs slots
  let hd ← parseSdHeader E
  let p ← sdParams E hd refs
  startContexts hd refs.lastRet
  openSdData E hd.huff
  let newSyms ← decodeSymbols E p
  let ex ← decodeExport E p newSyms
  let w ← get
  pure { slot := .symDict ex (retained hd w.cx), idlen := some p.symCodeLen }

/-- `SEG.SD` (`47_symbol_dict.md` R324). -/
def execSegSd (s : State) : Outcome :=
  runSegment Instr.segSd.opc symbolFootprint true (segSd s.segmentEnv s.refSlots) s

end Sys2Proof.Machine
end

