-- ==== Sys2Proof/Machine/Dispatch.lean ====
section
/-! DEFINITION. The dispatch: one arm per command, each a direct call of its meaning. -/

namespace Sys2Proof.Machine

def exec (i : Instr) (s : State) : Host.Outcome State Fault Refusal :=
  match i with
  | .segSd => Sys2Proof.Machine.execSegSd s
  | .segTrInt => Sys2Proof.Machine.execSegTrInt s
  | .segTrImm => Sys2Proof.Machine.execSegTrImm s
  | .segTrImml => Sys2Proof.Machine.execSegTrImml s
  | .segGrInt => Sys2Proof.Machine.execSegGrInt s
  | .segGrImm => Sys2Proof.Machine.execSegGrImm s
  | .segGrImml => Sys2Proof.Machine.execSegGrImml s
  | .segRrInt => Sys2Proof.Machine.execSegRrInt s
  | .segRrImm => Sys2Proof.Machine.execSegRrImm s
  | .segRrImml => Sys2Proof.Machine.execSegRrImml s
  | .segTables => Sys2Proof.Machine.execSegTables s
  | .strmBind => Sys2Proof.Machine.execStrmBind s
  | .strmSeek => Sys2Proof.Machine.execStrmSeek s
  | .strmReadbits a => Sys2Proof.Machine.execStrmReadbits a s
  | .strmAlign => Sys2Proof.Machine.execStrmAlign s
  | .adInit => Sys2Proof.Machine.execAdInit s
  | .adDecode a b => Sys2Proof.Machine.execAdDecode a b s
  | .adCxreset a b => Sys2Proof.Machine.execAdCxreset a b s
  | .iaDecode a => Sys2Proof.Machine.execIaDecode a s
  | .iaidDecode => Sys2Proof.Machine.execIaidDecode s
  | .htStd a => Sys2Proof.Machine.execHtStd a s
  | .htDecode a => Sys2Proof.Machine.execHtDecode a s
  | .bmCombine a => Sys2Proof.Machine.execBmCombine a s
  | .bmNew a => Sys2Proof.Machine.execBmNew a s

end Sys2Proof.Machine
end

