-- ==== Sys2Proof/Machine/Step.lean ====
section
/-! DEFINITION. One step of the machine: the next move of the host is taken (`20_memory.md` R71). A write of CMD starts the
command whose word was written (`10_state.md` R28, `30_encoding.md` R90); no other move makes the CORE act. -/

namespace Sys2Proof.Machine

/-- A host write of CMD: the word is stored, decoded and executed as one indivisible step (`30_encoding.md` R90, R107). -/
def State.writeCmd (s : State) (w : Word) : Host.Outcome State Fault Refusal :=
  match decode w with
  | .ok i => exec i { s with cmd := w }
  | .error e => .next ({ s with cmd := w }.refuseWord w e)

/-- A move of the host (`20_memory.md` R71; log entry 1). -/
def State.hostMove (s : State) : HostMove → Host.Outcome State Fault Refusal
  | .write 0 v => s.writeCmd (BitVec.ofNat 32 v)
  | .write n v => .next (s.writeReg n v)
  | .poke addr byte =>
    if addr < s.cfg.inmemSize then .next { s with inmem := memPoke s.inmem addr byte } else .fault (.inmemAddress addr)
  | .reset => .next s.applyReset

/-- One step: the next pending move of the host. With none pending nothing happens: the CORE never acts unless commanded
(`00_scope.md` R7). -/
def step (s : State) : Host.Outcome State Fault Refusal :=
  match s.host with
  | [] => .next s
  | m :: rest => { s with host := rest }.hostMove m

/-- `s` with the host's next move a write of the command word `w` (its low `nbits` bits) to CMD: the very next step decodes
and runs it (log entry 1). -/
def State.withFetchWord (s : State) (nbits w : Nat) : State :=
  { s with host := .write 0 (w % 2 ^ nbits) :: s.host }

end Sys2Proof.Machine
end

