-- ==== Sys2Proof/Safety.lean ====
section
/-! DEFINITION. What claims about the machine are stated in: the bound stream as bits and bytes, what a command may write
(`10_state.md` R41), which errors it may raise (`60_exceptions.md` R421), the invariants, and a run without a recorded
error. -/

namespace Sys2Proof.Machine

/-! ## The bound stream -/

/-- Byte `i` of the bound stream (`40_stream.md` R130). -/
def State.streamByte (s : State) (i : Nat) : Byte := memByte s.inmem (s.sbase.toNat + i)

/-- Bit `p` of the bound stream, the most significant bit of a byte first (`20_memory.md` R63). -/
def State.streamBit (s : State) (p : Nat) : Bool := (s.streamByte (p / 8)).getLsbD (7 - p % 8)

/-- The `n` bits from bit `p` on as a number, the first bit most significant (`20_memory.md` R62, R63). -/
def State.streamNum (s : State) (p n : Nat) : Nat :=
  (List.range n).foldl (fun v k => 2 * v + (s.streamBit (p + k)).toNat) 0

/-- A marker, 0xFF and then a byte greater than 0x8F, stands at byte `i` or later, both bytes before byte `we`
(`41_arith.md` R142). -/
def State.markerFrom (s : State) (i we : Nat) : Prop :=
  ∃ j, i ≤ j ∧ j + 1 < we ∧ s.streamByte j = 0xFF ∧ 0x8F < s.streamByte (j + 1)

/-- The arithmetic decoder is live, B is the byte at BP (`10_state.md` R23), and a marker stands ahead in the bound
stream. -/
def State.decoderFed (s : State) : Prop :=
  s.advalid = true ∧ s.ad.b = s.streamByte s.ad.bp.toNat ∧ s.markerFrom s.ad.bp.toNat s.slen.toNat

/-- Every referred slot is a SymDict or a Table (`60_exceptions.md` R430). -/
def State.refsUsable (s : State) : Prop :=
  ∀ h ∈ s.refHandles, (∃ syms ret, s.slot h = .symDict syms ret) ∨ ∃ T, s.slot h = .table T

/-- The symbols a slot supplies to a command that refers to it (`47_symbol_dict.md` R322). -/
def Slot.symbols : Slot → List Bitmap
  | .symDict syms _ => syms
  | .empty => []
  | .table _ => []
  | .region _ _ _ _ => []

/-- The symbols the referred slots supply, in REF order (`47_symbol_dict.md` R322, `48_text_region.md` R374). -/
def State.refSymbols (s : State) : List Bitmap := s.refHandles.flatMap fun h => (s.slot h).symbols

/-! ## Outcomes -/

/-- The command completed without error (`30_encoding.md` R90). -/
def State.Completed (t : State) : Prop := t.status = .done ∧ t.err = 0

/-- The command ended with error `e`, recorded as `60_exceptions.md` R424 says; `s` is the state it started in, `opc` its
OPC. -/
def State.Raised (s t : State) (opc : BitVec 8) (e : CoreError) : Prop :=
  t.status = .error ∧ t.err = e.code ∧ t.errPos = s.sp ∧
    t.firstErr = if s.firstErr = 0 then firstErrWord s.p0 opc e else s.firstErr

/-- No error has been recorded since reset (`10_state.md` R34). -/
def State.noError (s : State) : Prop := s.firstErr = 0

end Sys2Proof.Machine

namespace Sys2Proof

open Machine (Arr CoreError arrSel)

/-! ## What a command may write, row by row (`10_state.md` R41) -/

/-- The segment commands (`30_encoding.md` R95). -/
def Instr.isSegment : Instr → Bool
  | .segSd | .segTrInt | .segTrImm | .segTrImml | .segGrInt | .segGrImm | .segGrImml | .segRrInt | .segRrImm
  | .segRrImml | .segTables => true
  | .strmBind | .strmSeek | .strmReadbits _ | .strmAlign | .adInit | .adDecode _ _ | .adCxreset _ _ | .iaDecode _
  | .iaidDecode | .htStd _ | .htDecode _ | .bmCombine _ | .bmNew _ => false

/-- The segment commands that read REF (`30_encoding.md` R95). -/
def Instr.readsRef : Instr → Bool
  | .segSd | .segTrInt | .segTrImm | .segTrImml | .segRrInt | .segRrImm | .segRrImml => true
  | .segGrInt | .segGrImm | .segGrImml | .segTables | .strmBind | .strmSeek | .strmReadbits _ | .strmAlign | .adInit
  | .adDecode _ _ | .adCxreset _ _ | .iaDecode _ | .iaidDecode | .htStd _ | .htDecode _ | .bmCombine _
  | .bmNew _ => false

/-- The commands that may write SP. -/
def Instr.writesSp : Instr → Bool
  | .segSd | .segTrInt | .segTrImm | .segTrImml | .segGrInt | .segGrImm | .segGrImml | .segRrInt | .segRrImm
  | .segRrImml | .segTables | .strmBind | .strmSeek | .strmReadbits _ | .strmAlign | .htDecode _ => true
  | .adInit | .adDecode _ _ | .adCxreset _ _ | .iaDecode _ | .iaidDecode | .htStd _ | .bmCombine _ | .bmNew _ => false

/-- The commands that may write R0. -/
def Instr.writesR0 : Instr → Bool
  | .strmReadbits _ | .adDecode _ _ | .iaDecode _ | .iaidDecode | .htDecode _ => true
  | .segSd | .segTrInt | .segTrImm | .segTrImml | .segGrInt | .segGrImm | .segGrImml | .segRrInt | .segRrImm
  | .segRrImml | .segTables | .strmBind | .strmSeek | .strmAlign | .adInit | .adCxreset _ _ | .htStd _ | .bmCombine _
  | .bmNew _ => false

/-- The commands that may write R1. -/
def Instr.writesR1 : Instr → Bool
  | .strmReadbits _ | .htDecode _ => true
  | .segSd | .segTrInt | .segTrImm | .segTrImml | .segGrInt | .segGrImm | .segGrImml | .segRrInt | .segRrImm
  | .segRrImml | .segTables | .strmBind | .strmSeek | .strmAlign | .adInit | .adDecode _ _ | .adCxreset _ _
  | .iaDecode _ | .iaidDecode | .htStd _ | .bmCombine _ | .bmNew _ => false

/-- The commands that may write RFLAGS. -/
def Instr.writesOob : Instr → Bool
  | .iaDecode _ | .htDecode _ => true
  | .segSd | .segTrInt | .segTrImm | .segTrImml | .segGrInt | .segGrImm | .segGrImml | .segRrInt | .segRrImm
  | .segRrImml | .segTables | .strmBind | .strmSeek | .strmReadbits _ | .strmAlign | .adInit | .adDecode _ _
  | .adCxreset _ _ | .iaidDecode | .htStd _ | .bmCombine _ | .bmNew _ => false

/-- The commands that may write C, A, CT, B, BP. -/
def Instr.writesAd : Instr → Bool
  | .segSd | .segTrInt | .segTrImm | .segTrImml | .segGrInt | .segGrImm | .segGrImml | .segRrInt | .segRrImm
  | .segRrImml | .adInit | .adDecode _ _ | .iaDecode _ | .iaidDecode => true
  | .segTables | .strmBind | .strmSeek | .strmReadbits _ | .strmAlign | .adCxreset _ _ | .htStd _ | .htDecode _
  | .bmCombine _ | .bmNew _ => false

/-- The commands that may write IDLEN. -/
def Instr.writesIdlen : Instr → Bool
  | .segSd | .segTrInt | .segTrImm | .segTrImml | .adCxreset _ _ => true
  | .segGrInt | .segGrImm | .segGrImml | .segRrInt | .segRrImm | .segRrImml | .segTables | .strmBind | .strmSeek
  | .strmReadbits _ | .strmAlign | .adInit | .adDecode _ _ | .iaDecode _ | .iaidDecode | .htStd _ | .htDecode _
  | .bmCombine _ | .bmNew _ => false

/-- The commands that may write context array `n`. -/
def Instr.writesArr (i : Instr) (n : Arr) : Bool :=
  match i with
  | .segSd | .segTrInt | .segTrImm | .segTrImml => true
  | .segGrInt | .segGrImm | .segGrImml => decide (n = .gb)
  | .segRrInt | .segRrImm | .segRrImml => decide (n = .gr)
  | .adDecode a _ => decide (arrSel n = a.toNat)
  | .adCxreset a _ => decide (a.toNat = 255) || decide (arrSel n = a.toNat)
  | .iaDecode a => decide (arrSel n = a.toNat)
  | .iaidDecode => decide (n = .iaid)
  | .segTables | .strmBind | .strmSeek | .strmReadbits _ | .strmAlign | .adInit | .htStd _ | .htDecode _
  | .bmCombine _ | .bmNew _ => false

/-- The commands that may write SEGSTORE[P0]. -/
def Instr.writesDst : Instr → Bool
  | .segSd | .segTrInt | .segTrImm | .segTrImml | .segGrInt | .segGrImm | .segGrImml | .segRrInt | .segRrImm
  | .segRrImml | .segTables | .bmCombine _ | .bmNew _ => true
  | .strmBind | .strmSeek | .strmReadbits _ | .strmAlign | .adInit | .adDecode _ _ | .adCxreset _ _ | .iaDecode _
  | .iaidDecode | .htStd _ | .htDecode _ => false

/-- The commands that may write STDTAB. -/
def Instr.writesStdTab : Instr → Bool
  | .segSd | .segTrInt | .segTrImm | .segTrImml | .htStd _ | .htDecode _ => true
  | .segGrInt | .segGrImm | .segGrImml | .segRrInt | .segRrImm | .segRrImml | .segTables | .strmBind | .strmSeek
  | .strmReadbits _ | .strmAlign | .adInit | .adDecode _ _ | .adCxreset _ _ | .iaDecode _ | .iaidDecode | .bmCombine _
  | .bmNew _ => false

/-- Which errors a command can raise (the table of `60_exceptions.md` R421; the non-zero immediates of `STRM.ALIGN` are
refused at decoding). -/
def Instr.mayRaise (i : Instr) (e : CoreError) : Bool :=
  match i with
  | .strmBind | .strmSeek | .adCxreset _ _ | .htStd _ => decide (e ∈ [.illegalCommand])
  | .strmAlign => false
  | .strmReadbits _ | .adInit | .adDecode _ _ | .iaDecode _ | .iaidDecode =>
    decide (e ∈ [.unexpectedEndOfData, .illegalCommand])
  | .htDecode _ => decide (e ∈ [.unexpectedEndOfData, .invalidReference, .invalidCode, .illegalCommand])
  | .bmNew _ => decide (e ∈ [.unsupportedFeature, .illegalCommand])
  | .bmCombine _ => decide (e ∈ [.invalidReference, .illegalCommand])
  | .segTables | .segGrInt | .segGrImm | .segGrImml =>
    decide (e ∈ [.malformedSegment, .unsupportedFeature, .unexpectedEndOfData, .illegalCommand])
  | .segRrInt | .segRrImm | .segRrImml =>
    decide (e ∈ [.malformedSegment, .unsupportedFeature, .unexpectedEndOfData, .invalidReference, .illegalCommand])
  | .segSd | .segTrInt | .segTrImm | .segTrImml => true

end Sys2Proof

namespace Sys2Proof.Machine

/-! ## Frames -/

/-- What no command writes (`10_state.md` R21, R32; `20_memory.md` R61): the parameters, the host's pending moves, CMD, the
operand registers, REFN, REF, and every byte of INMEM. -/
def State.HostSideKept (s t : State) : Prop :=
  t.cfg = s.cfg ∧ t.host = s.host ∧ t.cmd = s.cmd ∧ t.p0 = s.p0 ∧ t.p1 = s.p1 ∧ t.p2 = s.p2 ∧ t.p3 = s.p3 ∧
    t.refn = s.refn ∧ t.ref = s.ref ∧ t.inmem = s.inmem ∧ ∀ addr, memByte t.inmem addr = memByte s.inmem addr

/-- The error record is as it was (`10_state.md` R31, R34). -/
def State.RecordKept (s t : State) : Prop := t.errPos = s.errPos ∧ t.firstErr = s.firstErr ∧ t.draws = s.draws

/-- R0, R1 and RFLAGS are as they were. -/
def State.ResultsKept (s t : State) : Prop := t.r0 = s.r0 ∧ t.r1 = s.r1 ∧ t.oob = s.oob

/-- SBASE and SLEN are as they were. -/
def State.BindingKept (s t : State) : Prop := t.sbase = s.sbase ∧ t.slen = s.slen

/-- Every slot but `h` is as it was. -/
def State.OtherSlotsKept (s t : State) (h : Nat) : Prop := ∀ k, k ≠ h → t.slot k = s.slot k

/-- Every context array but those of `ns` is as it was. -/
def State.OtherArraysKept (s t : State) (ns : List Arr) : Prop := ∀ n, n ∉ ns → t.cx.arr n = s.cx.arr n

/-! ## Invariants -/

/-- The registers are in the ranges the spec gives them: the bound stream lies in INMEM (`40_stream.md` R134),
0 ≤ SP ≤ 8 * SLEN (`10_state.md` R26), IDLEN ≤ ceil_log2(MAXSYMS) (R25), 0x8000 ≤ A and CT ≤ 8 while ADVALID
(R23, `41_arith.md` R147), and STATUS, ERR and FIRSTERR agree (R29, R30, R34). -/
def State.RegistersOk (s : State) : Prop :=
  s.cfg.Valid ∧ s.sbase.toNat + s.slen.toNat ≤ s.cfg.inmemSize ∧ s.sp.toNat ≤ 8 * s.slen.toNat ∧
    s.idlen.toNat ≤ ceilLog2 s.cfg.maxsyms ∧ (s.advalid = true → 0x8000 ≤ s.ad.a ∧ s.ad.ct ≤ 8) ∧
    (s.status = .error ↔ s.err ≠ 0) ∧ s.err ≤ 6 ∧ (s.status = .error → s.firstErr ≠ 0) ∧
    s.firstErr.extractLsb' 3 5 = 0

/-- The canonical form of a context array: its listed indices rise strictly, and over a cleared base no entry listed is
(0, 0). Nothing bounds the indices here. -/
def CxArray.Canonical (x : CxArray) : Prop :=
  match x.base with
  | .fresh => SparseWf { idx := 0, mps := false } x.cells
  | .drawn _ _ => SparseRising x.cells

/-- Every context array is in canonical form. -/
def Contexts.Canonical (c : Contexts) : Prop := ∀ n, (c.arr n).Canonical

/-- The retained arrays of a slot, if any, are in canonical form. -/
def Slot.Canonical : Slot → Prop
  | .symDict _ (some r) => r.gb.Canonical ∧ r.gr.Canonical
  | .symDict _ none => True
  | .empty => True
  | .table _ => True
  | .region _ _ _ _ => True

/-- Every sparse field of State is in canonical form; INMEM, REF, SEGSTORE and STDTAB list only indices that exist, and
STDTAB holds nothing but the standard tables (`43_huffman.md` R218). -/
def State.Canonical (s : State) : Prop :=
  Memory.wf s.inmem ∧ (∀ p ∈ s.inmem, p.1 < s.cfg.inmemSize) ∧
    SparseWf 0 s.ref ∧ (∀ p ∈ s.ref, p.1 < s.cfg.refmax) ∧
    SparseWf .empty s.segstore ∧ (∀ p ∈ s.segstore, p.1 < s.cfg.nslot ∧ p.2.Canonical) ∧
    SparseRising s.stdTab ∧ (∀ p ∈ s.stdTab, 1 ≤ p.1 ∧ p.1 ≤ 15 ∧ p.2 = stdTable p.1) ∧
    s.cx.Canonical

/-- The code of one line is no prefix of the other's (`43_huffman.md` R191). -/
def Line.Apart (l m : Line) : Prop :=
  ∀ c d, l.code = some c → m.code = some d →
    ¬(l.preflen ≤ m.preflen ∧ d >>> (m.preflen - l.preflen) = c) ∧
      ¬(m.preflen ≤ l.preflen ∧ c >>> (l.preflen - m.preflen) = d)

/-- "within one table, the set of prefixes is prefix-free (no code is a prefix of another)" (`43_huffman.md` R191). -/
def Table.PrefixFree (t : List Line) : Prop := t.Pairwise Line.Apart

/-- A bitmap is within the capacity (`10_state.md` R44). -/
def Bitmap.Fits (cfg : Params) (b : Bitmap) : Prop := b.w * b.h ≤ cfg.maxpix

/-- What a slot holds is within the capacities (`60_exceptions.md` R438), and a table in it is prefix-free. -/
def Slot.Fits (cfg : Params) : Slot → Prop
  | .empty => True
  | .symDict syms _ => syms.length ≤ cfg.maxsyms ∧ ∀ b ∈ syms, b.Fits cfg
  | .table t => t.length ≤ cfg.maxlines ∧ Table.PrefixFree t
  | .region b _ _ _ => b.Fits cfg

/-- Every slot is within the capacities. -/
def State.SlotsFit (s : State) : Prop := s.cfg.Valid ∧ ∀ h, (s.slot h).Fits s.cfg

/-! ## Sequences of bit decodes -/

/-- `ds` are the bits that the commands `AD.DECODE a, PREV` give one after the other, each with its result in R0, when PREV
starts at `prev` and `next` gives the following one; `s` is the state before the first and `t` after the last. -/
def adRun (a : BitVec 8) (next : Nat → Bool → Nat) : (prev : Nat) → (ds : List Bool) → (s t : State) → Prop
  | _, [], s, t => s = t
  | prev, d :: ds, s, t =>
    ∃ u, exec (.adDecode a (BitVec.ofNat 16 prev)) s = .next u ∧ u.status = .done ∧
      u.r0 = BitVec.ofNat 64 d.toNat ∧ adRun a next (next prev d) ds u t

/-- The same where the bits are decoded with one environment, entry PREV of array `arr` each, from working state `w` to
`w'`: the sequence of `ADDecode(ARR, PREV)` of a procedure, whose PREV may exceed the 16 bits of an immediate. -/
def bitRun (E : Env) (arr : Arr) (next : Nat → Bool → Nat) : (prev : Nat) → (ds : List Bool) → (w w' : Work) → Prop
  | _, [], w, w' => w = w'
  | prev, d :: ds, w, w' => ∃ u, adDecode E arr prev w = .ok d u ∧ bitRun E arr next (next prev d) ds u w'

/-- The number of a list of bits, the first most significant. -/
def numOfBits (ds : List Bool) : Nat := ds.foldl (fun v d => 2 * v + d.toNat) 0

/-- The rows of the table of `42_intdec.md` R171: prefix after the sign, number of value bits, offset. The rule's last sentence
contradicts them (DEDUCED, log entry 18). -/
def iaRows : List (List Bool × Nat × Nat) :=
  [([false], 2, 0), ([true, false], 4, 4), ([true, true, false], 6, 20), ([true, true, true, false], 8, 84),
    ([true, true, true, true, false], 12, 340), ([true, true, true, true, true], 32, 4436)]

/-- `ds` are the bits of the integer or OOB `v`: a sign, a prefix of R171 and the value bits it asks for
(`42_intdec.md` R171, R173). -/
def iaBits (ds : List Bool) (v : Option Int) : Prop :=
  ∃ sign row val, row ∈ iaRows ∧ val.length = row.2.1 ∧ ds = sign :: row.1 ++ val ∧
    v =
      if sign = false then some ((numOfBits val + row.2.2 : Nat) : Int)
      else if numOfBits val + row.2.2 = 0 then none
      else some (-((numOfBits val + row.2.2 : Nat) : Int))

/-! ## The pixels of a region -/

/-- `R i`, `R (i + 1)`, ... lead from `s` to `t` in `count` steps. -/
def chain {σ : Type} (R : Nat → σ → σ → Prop) : (count i : Nat) → (s t : σ) → Prop
  | 0, _, s, t => s = t
  | n + 1, i, s, t => ∃ u, R i s u ∧ chain R n (i + 1) u t

/-- The start of a row: with typical prediction one bit SLTP is decoded and toggles LTP, without it nothing happens
(`45_generic.md` R264, `46_refinement.md` R294). The pairs are LTP and the working state. -/
def sltpRun (E : Env) (on : Bool) (arr : Arr) (cx : Nat) (p q : Bool × Work) : Prop :=
  if on = true then ∃ d, adDecode E arr cx p.2 = .ok d q.2 ∧ q.1 = (p.1 ^^ d) else q = p

/-- Row `y` of the finished generic region `B`: a copy of the row above while LTP = 1, and otherwise one
`ADDecode(GB, GCtx)` a pixel, left to right, whose bit is the pixel (`45_generic.md` R265). The context is read from the
finished bitmap: every pixel it looks at is decoded before, or lies outside (R263). -/
def genericRowRun (E : Env) (t : Fin 4) (tpgdon : Bool) (at_ : AtPixels) (B : Bitmap) (y : Nat) (p q : Bool × Work) :
    Prop :=
  ∃ u, sltpRun E tpgdon .gb (sltpCx t) p (q.1, u) ∧
    (q.1 = true → q.2 = u ∧ ∀ x : Nat, x < B.w → B.get x y = B.get x ((y : Int) - 1)) ∧
    (q.1 = false →
      chain (fun x w w' => adDecode E .gb (gctx B x y t at_) w = .ok (B.get x y) w') B.w 0 u q.2)

/-- `B` is the generic region that the coded data spells, decoded from working state `w` to `w'`
(`45_generic.md` R265). -/
def genericRun (E : Env) (t : Fin 4) (tpgdon : Bool) (at_ : AtPixels) (B : Bitmap) (w w' : Work) : Prop :=
  ∃ ltp, chain (genericRowRun E t tpgdon at_ B) B.h 0 (false, w) (ltp, w')

/-- The 3x3 neighbourhood of the reference around a pixel has one value (`46_refinement.md` R294). -/
def RefineParams.uniform (p : RefineParams) (x y : Nat) : Prop :=
  ∀ i j : Int, -1 ≤ i → i ≤ 1 → -1 ≤ j → j ≤ 1 → p.refPix x y i j = p.refPix x y 0 0

/-- Pixel (x, y) of the finished refinement region `B`: predicted without a decode while LTP = 1 and its neighbourhood is
uniform, and otherwise one `ADDecode(GR, RCtx)` (`46_refinement.md` R294, R295). -/
def refinePixelRun (E : Env) (p : RefineParams) (B : Bitmap) (ltp : Bool) (y x : Nat) (w w' : Work) : Prop :=
  (ltp = true ∧ p.uniform x y → B.get x y = p.refPix x y 0 0 ∧ w' = w) ∧
    (¬(ltp = true ∧ p.uniform x y) → adDecode E .gr (rctx p B x y) w = .ok (B.get x y) w')

/-- Row `y` of the finished refinement region `B` (`46_refinement.md` R295). -/
def refineRowRun (E : Env) (p : RefineParams) (B : Bitmap) (y : Nat) (s t : Bool × Work) : Prop :=
  ∃ u, sltpRun E p.tpgron .gr (rsltpCx p.template) s (t.1, u) ∧
    chain (refinePixelRun E p B t.1 y) B.w 0 u t.2

/-- `B` is the refinement region that the coded data spells, decoded from working state `w` to `w'`
(`46_refinement.md` R295). -/
def refineRun (E : Env) (p : RefineParams) (B : Bitmap) (w w' : Work) : Prop :=
  ∃ ltp, chain (refineRowRun E p B) B.h 0 (false, w) (ltp, w')

/-! ## Huffman-coded data

What stands in the bound stream, said bit by bit: each relation holds between the position of the first bit and that of the
bit after the last. -/

/-- The number of raw bits that follow the code of a line (`43_huffman.md` R196). -/
def Line.rawBits (l : Line) : Nat :=
  match l.kind with
  | .plain => l.rangelen.toNat
  | .lower => 32
  | .upper => 32
  | .oob => 0

/-- The value of a line with raw bits `raw`; `none` is OOB (`43_huffman.md` R196). -/
def Line.value (l : Line) (raw : Nat) : Option Int :=
  match l.kind with
  | .plain => some (l.rangelow + raw)
  | .upper => some (l.rangelow + raw)
  | .lower => some (l.rangelow - raw)
  | .oob => none

/-- Table `T` codes `v` in bits `p` .. `q - 1` (`43_huffman.md` R195, R196). -/
def State.codedAt (s : State) (T : Table) (p : Nat) (v : Option Int) (q : Nat) : Prop :=
  ∃ l c, l ∈ T ∧ 1 ≤ l.preflen ∧ l.code = some c ∧ s.streamNum p l.preflen = c ∧ q = p + l.preflen + l.rawBits ∧
    v = l.value (s.streamNum (p + l.preflen) l.rawBits)

/-- The widths of a height class, each coded as its difference from the one before, the first from `w`, and the closing OOB
(`47_symbol_dict.md` R325). -/
def State.widthsAt (s : State) (TDW : Table) : (w : Nat) → (p : Nat) → (ws : List Nat) → (q : Nat) → Prop
  | _, p, [], q => s.codedAt TDW p none q
  | w, p, v :: ws, q => ∃ m, s.codedAt TDW p (some ((v : Int) - w)) m ∧ s.widthsAt TDW v m ws q

/-- The symbols are the columns from `x0` on of the `h` rows of `stride` bytes that stand at byte `st`
(`47_symbol_dict.md` R329, `20_memory.md` R69). -/
def State.columnsAt (s : State) (st stride h : Nat) : (x0 : Nat) → (syms : List Bitmap) → Prop
  | _, [] => True
  | x0, b :: more =>
    b.h = h ∧ (∀ x y : Nat, x < b.w → y < h → b.get x y = s.streamBit (8 * (st + y * stride) + (x0 + x))) ∧
      s.columnsAt st stride h (x0 + b.w) more

/-- A height class of height `h` with one collective bitmap, stored uncompressed: the widths, BMSIZE = 0 by table B.1, and
from the next byte boundary the rows (`47_symbol_dict.md` R325, R329). -/
def State.classAt (s : State) (TDW : Table) (h p : Nat) (syms : List Bitmap) (q : Nat) : Prop :=
  let total := (syms.map Bitmap.w).sum
  let stride := (total + 7) / 8
  ∃ m n, syms ≠ [] ∧ s.widthsAt TDW 0 p (syms.map Bitmap.w) m ∧ s.codedAt (stdTable 1) m (some 0) n ∧
    total * h ≤ s.cfg.maxpix ∧ q = 8 * ((n + 7) / 8 + stride * h) ∧ s.columnsAt ((n + 7) / 8) stride h 0 syms

/-- Height classes one after the other, each height coded as its difference from the one before, the first from `h`
(`47_symbol_dict.md` R325). -/
def State.classesAt (s : State) (TDH TDW : Table) : (h : Nat) → (p : Nat) → (classes : List (List Bitmap)) → (q : Nat) → Prop
  | _, p, [], q => p = q
  | h, p, syms :: more, q =>
    ∃ h' m n : Nat, s.codedAt TDH p (some ((h' : Int) - h)) m ∧ s.classAt TDW h' m syms n ∧
      s.classesAt TDH TDW h' n more q

/-- The export runs, by table B.1 (`47_symbol_dict.md` R330). -/
def State.runsAt (s : State) : (p : Nat) → (runs : List Nat) → (q : Nat) → Prop
  | p, [], q => p = q
  | p, r :: more, q => ∃ m, s.codedAt (stdTable 1) p (some r) m ∧ s.runsAt m more q

/-- The flags that runs spell, the first of the given flag, then alternating (`47_symbol_dict.md` R330). -/
def runFlags : (flag : Bool) → (runs : List Nat) → List Bool
  | _, [] => []
  | f, r :: more => List.replicate r f ++ runFlags (!f) more

/-- The code lengths of symbol IDs, run-length coded by table `RL` (`48_text_region.md` R373): `lens` are those so far. -/
inductive State.idLensAt (s : State) (RL : Table) : (lens : List Nat) → (p : Nat) → (all : List Nat) → (q : Nat) → Prop
  | done (lens : List Nat) (p : Nat) : idLensAt s RL lens p lens p
  | literal {lens all : List Nat} {p m q v : Nat} : v < 32 → s.codedAt RL p (some v) m →
      idLensAt s RL (lens ++ [v]) m all q → idLensAt s RL lens p all q
  | again {lens all : List Nat} {p m q last : Nat} : s.codedAt RL p (some 32) m → lens.getLast? = some last →
      idLensAt s RL (lens ++ List.replicate (s.streamNum m 2 + 3) last) (m + 2) all q → idLensAt s RL lens p all q
  | zeros {lens all : List Nat} {p m q : Nat} : s.codedAt RL p (some 33) m →
      idLensAt s RL (lens ++ List.replicate (s.streamNum m 3 + 3) 0) (m + 3) all q → idLensAt s RL lens p all q
  | manyZeros {lens all : List Nat} {p m q : Nat} : s.codedAt RL p (some 34) m →
      idLensAt s RL (lens ++ List.replicate (s.streamNum m 7 + 11) 0) (m + 7) all q → idLensAt s RL lens p all q

/-- One instance without refinement: CURT, then the symbol ID by `SC`; it is drawn where `place` says
(`48_text_region.md` R376, R377, R379). -/
def State.instanceAt (s : State) (tp : TextParams) (SC : Table) (st : TextState) (p : Nat) (st' : TextState) (q : Nat) :
    Prop :=
  ∃ (id : Nat) (ib : Bitmap), s.codedAt SC (p + tp.logStrips) (some id) q ∧ tp.syms[id]? = some ib ∧
    st' = { place tp ib (st.stript + s.streamNum p tp.logStrips) st with n := st.n + 1 }

/-- The `count` instances of a strip after its first, each after its IDS, and the closing OOB
(`48_text_region.md` R376). -/
def State.instancesAt (s : State) (tp : TextParams) (TDS SC : Table) :
    (count : Nat) → (st : TextState) → (p : Nat) → (st' : TextState) → (q : Nat) → Prop
  | 0, st, p, st', q => s.codedAt TDS p none q ∧ st' = st
  | n + 1, st, p, st', q =>
    ∃ ids m u r, s.codedAt TDS p (some ids) m ∧
      s.instanceAt tp SC { st with curs := st.curs + ids + tp.dsOffset } m u r ∧ s.instancesAt tp TDS SC n u r st' q

/-- Strips one after the other: DT, DFS, a first instance, and as many more as `counts` says
(`48_text_region.md` R376). -/
def State.stripsAt (s : State) (tp : TextParams) (TFS TDS TDT SC : Table) :
    (counts : List Nat) → (st : TextState) → (p : Nat) → (st' : TextState) → (q : Nat) → Prop
  | [], st, p, st', q => st' = st ∧ q = p
  | k :: counts, st, p, st', q =>
    ∃ dt m dfs n u r v i, s.codedAt TDT p (some dt) m ∧ s.codedAt TFS m (some dfs) n ∧
      s.instanceAt tp SC
        { st with
          stript := st.stript + dt * 2 ^ tp.logStrips, firsts := st.firsts + dfs, curs := st.firsts + dfs } n u r ∧
      s.instancesAt tp TDS SC k u r v i ∧ s.stripsAt tp TFS TDS TDT SC counts v i st' q

/-! ## Table definitions -/

/-- The (PREFLEN, RANGELEN) fields of table lines, `htps` and `htrs` bits each, stand in the stream from bit `p` on
(`43_huffman.md` R216). -/
def State.linesAt (s : State) (htps htrs : Nat) : (p : Nat) → List (Nat × Nat) → Prop
  | _, [] => True
  | p, (l, r) :: more =>
    s.streamNum p htps = l ∧ s.streamNum (p + htps) htrs = r ∧ s.linesAt htps htrs (p + htps + htrs) more

/-- The lines tile `cur` .. `high`: another line follows exactly while the range is short of `high`
(`43_huffman.md` R216). -/
def tiles (high : Int) : (cur : Int) → List (Nat × Nat) → Prop
  | cur, [] => high ≤ cur
  | cur, (_, r) :: more => cur < high ∧ r ≤ 32 ∧ tiles high (cur + 2 ^ r) more

/-- The plain lines of the given (PREFLEN, RANGELEN) pairs, ranges end to end from `cur` on (`43_huffman.md` R216). -/
def plainLines : (cur : Int) → List (Nat × Nat) → Table
  | _, [] => []
  | cur, (l, r) :: more => plainLine l r cur :: plainLines (cur + 2 ^ r) more

end Sys2Proof.Machine
end

