-- ==== Sys2Proof/Certificates/Slice0/Obligations.lean ====
section
/-! DEFINITION. The statements for the provers, in the order of OBLIGATIONS.json. -/

open Sys2Proof Sys2Proof.Machine

/-! ## Encoding -/

/-- Decoding the word of a well-formed command gives it back: no bit of an encoding is dropped
(`30_encoding.md` R91, R117). -/
def Obligations.DecodeOfEncode : Prop := ∀ i : Instr, i.wf = true → decode (encode i) = .ok i

/-- Every word that decodes to a command is that command's one word, and the command is well-formed
(`30_encoding.md` R101, R105). -/
def Obligations.EncodeOfDecode : Prop := ∀ (w : Word) (i : Instr), decode w = .ok i → i.wf = true ∧ encode i = w

/-- Words of the commands, one or more of every family of the opcode table: segment, STRM, AD, integer, HT, BM
(`30_encoding.md` R91, R95, R98, R117; `95_test_vectors.md` V-S, V-E, P2, P3). -/
def Obligations.WordsOfTheSpec : Prop :=
  decode 0x00000000 = .ok .segSd ∧ decode 0x00000006 = .ok .segTrImm ∧ decode 0x00000026 = .ok .segGrImm ∧
    decode 0x00000040 = .ok .strmBind ∧ decode 0x00002042 = .ok (.strmReadbits 32) ∧
    decode 0x0000FF4A = .ok (.adCxreset 0xFF 0) ∧ decode 0x00000049 = .ok (.adDecode 0 0) ∧
    decode 0x00000F50 = .ok (.htStd 15) ∧ decode 0x00000152 = .ok (.htDecode 1) ∧
    decode 0x00000258 = .ok (.bmCombine 2) ∧ decode 0x00000059 = .ok (.bmNew 0) ∧
    decode 0x0000064B = .ok (.iaDecode 6) ∧ decode 0x0000004C = .ok .iaidDecode ∧ decode 0x0000002A = .ok .segRrImm ∧
    decode 0x00000035 = .ok .segTables

/-- Every word that names no command is refused as R107 says: by OPC bit 7, by the two lists of segment types whatever the
immediates, by a reserved primitive opcode, by an immediate the format does not use, by an immediate out of range. -/
def Obligations.RefusedWords : Prop :=
  ∀ w : Word,
    (128 ≤ (opcField w).toNat → decode w = .error .illegalCommand) ∧
      ((opcField w).toNat ∈ [16, 20, 22, 23, 48, 49, 50, 51, 52, 62] → decode w = .error .unsupportedFeature) ∧
      ((opcField w).toNat < 64 →
        (opcField w).toNat ∉
          [0, 4, 6, 7, 36, 38, 39, 40, 42, 43, 53, 16, 20, 22, 23, 48, 49, 50, 51, 52, 62] →
        decode w = .error .malformedSegment) ∧
      (64 ≤ (opcField w).toNat →
        (opcField w).toNat ∉ [0x40, 0x41, 0x42, 0x43, 0x48, 0x49, 0x4A, 0x4B, 0x4C, 0x50, 0x52, 0x58, 0x59] →
        decode w = .error .illegalCommand) ∧
      ((opcField w).toNat ∈ [0, 4, 6, 7, 36, 38, 39, 40, 42, 43, 53, 0x40, 0x41, 0x43, 0x48, 0x4C] →
        aField w ≠ 0 ∨ bField w ≠ 0 → decode w = .error .illegalCommand) ∧
      ((opcField w).toNat ∈ [0x42, 0x4B, 0x50, 0x52, 0x58, 0x59] → bField w ≠ 0 →
        decode w = .error .illegalCommand) ∧
      ((opcField w).toNat = 0x42 → 32 < (aField w).toNat → decode w = .error .illegalCommand) ∧
      ((opcField w).toNat = 0x49 → 15 < (aField w).toNat → decode w = .error .illegalCommand) ∧
      ((opcField w).toNat = 0x4A → 15 < (aField w).toNat → (aField w).toNat < 255 →
        decode w = .error .illegalCommand) ∧
      ((opcField w).toNat = 0x4A → (aField w).toNat < 15 → bField w ≠ 0 → decode w = .error .illegalCommand) ∧
      ((opcField w).toNat = 0x4B → (aField w).toNat < 2 ∨ 14 < (aField w).toNat →
        decode w = .error .illegalCommand) ∧
      ((opcField w).toNat = 0x50 → (aField w).toNat = 0 ∨ 15 < (aField w).toNat →
        decode w = .error .illegalCommand) ∧
      ((opcField w).toNat = 0x52 → 15 < (aField w).toNat → decode w = .error .illegalCommand) ∧
      ((opcField w).toNat = 0x58 → 4 < (aField w).toNat → decode w = .error .illegalCommand) ∧
      ((opcField w).toNat = 0x59 → 1 < (aField w).toNat → decode w = .error .illegalCommand)

/-! ## The step and the host -/

/-- A step whose host move writes a command's word to CMD is `exec` of that command, with CMD holding the word and the move
taken (`10_state.md` R28). That the moves wait in a queue is the model's (log entry 1). -/
def Obligations.StepRunsDecodedCommand : Prop :=
  ∀ (s : State) (v : Nat) (rest : List HostMove) (i : Instr),
    s.host = .write 0 v :: rest → decode (BitVec.ofNat 32 v) = .ok i →
    step s = exec i { s with host := rest, cmd := BitVec.ofNat 32 v }

/-- A refused word ends in its error, with nothing else changed but ADVALID: no slot, SP, result or decoder register, and no
context array (`30_encoding.md` R102, R103; `60_exceptions.md` R424). -/
def Obligations.StepRefusesWord : Prop :=
  ∀ (s : State) (v : Nat) (rest : List HostMove) (e : CoreError),
    s.host = .write 0 v :: rest → decode (BitVec.ofNat 32 v) = .error e →
    ∃ t, step s = .next t ∧ s.Raised t (opcField (BitVec.ofNat 32 v)) e ∧
      t.advalid = (if e = .illegalCommand then s.advalid else false) ∧
      t.cmd = BitVec.ofNat 32 v ∧ t.host = rest ∧ t.cfg = s.cfg ∧ t.p0 = s.p0 ∧ t.p1 = s.p1 ∧ t.p2 = s.p2 ∧
      t.p3 = s.p3 ∧ t.refn = s.refn ∧ t.ref = s.ref ∧ t.inmem = s.inmem ∧ s.ResultsKept t ∧ s.BindingKept t ∧
      t.sp = s.sp ∧ t.ad = s.ad ∧ t.idlen = s.idlen ∧ t.cx = s.cx ∧ t.segstore = s.segstore ∧ t.stdTab = s.stdTab

/-- A host write to a register: the writable ones keep the low bits of the value and nothing else changes, REF[i] reads back
for i < REFMAX and leaves the other entries, and a write to a read-only register or to a number not in the table is
ignored (`10_state.md` R38). -/
def Obligations.HostWritesRegister : Prop :=
  ∀ (s : State) (n v : Nat) (rest : List HostMove), s.host = .write n v :: rest → s.Canonical →
    (n = 5 → step s = .next { s with host := rest, p0 := BitVec.ofNat 32 v }) ∧
      (n = 6 → step s = .next { s with host := rest, p1 := BitVec.ofNat 32 v }) ∧
      (n = 7 → step s = .next { s with host := rest, p2 := BitVec.ofNat 32 v }) ∧
      (n = 8 → step s = .next { s with host := rest, p3 := BitVec.ofNat 32 v }) ∧
      (n = 12 → step s = .next { s with host := rest, refn := BitVec.ofNat 16 v }) ∧
      (4096 ≤ n → n < 4096 + s.cfg.refmax →
        ∃ t, step s = .next t ∧ t = { s with host := rest, ref := t.ref } ∧
          ∀ i, t.refAt i = if i = n - 4096 then v % 2 ^ 16 else s.refAt i) ∧
      (n ∈ [1, 2, 3, 4, 9, 10, 11, 13, 14, 15, 16, 17, 18, 19, 20, 21, 22, 23] ∨ 4096 + s.cfg.refmax ≤ n ∨
          24 ≤ n ∧ n < 4096 →
        step s = .next { s with host := rest })

/-- A host write of a byte of INMEM reads back, leaves every other byte and every register, and stops the machine where the
address does not exist (`20_memory.md` R60; the stop is the model's choice, log entry 9). -/
def Obligations.HostWritesMemory : Prop :=
  ∀ (s : State) (addr : Nat) (byte : Byte) (rest : List HostMove), s.host = .poke addr byte :: rest →
    (addr < s.cfg.inmemSize →
      ∃ t, step s = .next t ∧ t = { s with host := rest, inmem := t.inmem } ∧
        memByte t.inmem addr = byte ∧ ∀ a, a ≠ addr → memByte t.inmem a = memByte s.inmem a) ∧
      (s.cfg.inmemSize ≤ addr → step s = .fault (.inmemAddress addr))

/-- The state after reset (`10_state.md` R45). -/
def Obligations.ResetValues : Prop :=
  ∀ p : Params, let s := State.resetWith p
    s.cmd = 0 ∧ s.status = .idle ∧ s.status.code = 0 ∧ s.err = 0 ∧ s.errPos = 0 ∧ s.firstErr = 0 ∧ s.p0 = 0 ∧
      s.p1 = 0 ∧ s.p2 = 0 ∧ s.p3 = 0 ∧ s.r0 = 0 ∧ s.r1 = 0 ∧ s.oob = false ∧ s.refn = 0 ∧ (∀ i, s.refAt i = 0) ∧
      s.sbase = 0 ∧ s.slen = 0 ∧ s.sp = 0 ∧ s.idlen = 0 ∧ s.ad.c = 0 ∧ s.ad.a = 0 ∧ s.ad.ct = 0 ∧ s.ad.b = 0 ∧
      s.ad.bp = 0 ∧ s.advalid = false ∧ (∀ n i, (s.cx.arr n).entry i = { idx := 0, mps := false }) ∧
      (∀ h, s.slot h = .empty) ∧ s.stdvalid = 0 ∧ s.stdTab = []

/-- Reset applied by the host gives every piece of the CORE's state its reset value and leaves INMEM
(`70_reset_and_hazards.md` R460). What else stays is not the CORE's state (log entry 12). -/
def Obligations.HostResets : Prop :=
  ∀ (s : State) (rest : List HostMove), s.host = .reset :: rest →
    ∃ t, step s = .next t ∧ t.inmem = s.inmem ∧ t.cfg = s.cfg ∧ t.host = rest ∧ t.draws = s.draws ∧
      State.resetWith s.cfg = { t with inmem := [], host := [], draws := 0 }

/-! ## Every command -/

/-- Every command runs to DONE with ERR = 0 or to ERROR with an error code in ERR: none hangs or stops the machine
(`60_exceptions.md` R439, `30_encoding.md` R90). -/
def Obligations.EveryCommandEnds : Prop :=
  ∀ (i : Instr) (s : State), ∃ t, exec i s = .next t ∧
    (t.Completed ∨ t.status = .error ∧ 1 ≤ t.err.toNat ∧ t.err.toNat ≤ 6)

/-- ERRPOS takes the SP the command started at when it ends with an error, and stays when it completes (`10_state.md` R31).
FIRSTERR: zero after reset; the first command that ends with an error, a refused word included, writes its code, its OPC
and P0[15:0]; once it is not zero no step but reset changes it (R34). A step that neither starts a command nor resets, an
idle step or any other host move, leaves both. -/
def Obligations.ErrorRecord : Prop :=
  ∀ s : State,
    (∀ (i : Instr) (t : State), exec i s = .next t →
        (s.firstErr ≠ 0 → t.firstErr = s.firstErr) ∧
          (t.status = .done → t.firstErr = s.firstErr ∧ t.errPos = s.errPos) ∧
          (t.status = .error → t.errPos = s.sp) ∧
          (t.status = .error → s.firstErr = 0 →
            t.firstErr.extractLsb' 0 3 = t.err ∧ t.firstErr.extractLsb' 3 5 = 0 ∧
              t.firstErr.extractLsb' 8 8 = i.opc ∧ t.firstErr.extractLsb' 16 16 = s.p0.extractLsb' 0 16)) ∧
      (∀ (w : Word) (e : CoreError), decode w = .error e →
        let t := s.refuseWord w e
        t.status = .error ∧ t.err = e.code ∧ t.errPos = s.sp ∧
          (s.firstErr ≠ 0 → t.firstErr = s.firstErr) ∧
          (s.firstErr = 0 →
            t.firstErr.extractLsb' 0 3 = t.err ∧ t.firstErr.extractLsb' 3 5 = 0 ∧
              t.firstErr.extractLsb' 8 8 = w.extractLsb' 0 8 ∧ t.firstErr.extractLsb' 16 16 = s.p0.extractLsb' 0 16)) ∧
      (∀ t : State, step s = .next t → (∀ rest, s.host ≠ .reset :: rest) →
        (s.firstErr ≠ 0 → t.firstErr = s.firstErr) ∧
          ((∀ v rest, s.host ≠ .write 0 v :: rest) → t.firstErr = s.firstErr ∧ t.errPos = s.errPos)) ∧
      ∀ (t : State) (rest : List HostMove), s.host = .reset :: rest → step s = .next t → t.firstErr = 0 ∧ t.errPos = 0

/-- A command that ends in IllegalCommand leaves everything but ERR, ERRPOS, FIRSTERR and STATUS as it was
(`60_exceptions.md` R424). -/
def Obligations.IllegalCommandChangesNothing : Prop :=
  ∀ (i : Instr) (s t : State), exec i s = .next t → t.status = .error → t.err = 6 →
    t = { s with status := t.status, err := t.err, errPos := t.errPos, firstErr := t.firstErr }

/-- Any other error clears ADVALID and, for a segment command, empties SEGSTORE[DST]; every other slot keeps its value
(`60_exceptions.md` R424, R425, R427), and SP and IDLEN stay in their ranges (R426). -/
def Obligations.ErrorsLeaveNoPartialResult : Prop :=
  ∀ (i : Instr) (s t : State), s.Canonical → exec i s = .next t → t.status = .error → t.err ≠ 6 →
    t.advalid = false ∧ s.OtherSlotsKept t s.dst ∧
      t.slot s.dst = (if i.isSegment = true then .empty else s.slot s.dst) ∧
      (s.sp.toNat ≤ 8 * s.slen.toNat → t.sp.toNat ≤ 8 * t.slen.toNat) ∧
      (s.idlen.toNat ≤ ceilLog2 s.cfg.maxsyms → t.idlen.toNat ≤ ceilLog2 t.cfg.maxsyms)

/-- No command writes the operand registers, REFN, REF, CMD or INMEM, whatever its outcome (`10_state.md` R21, R32;
`20_memory.md` R61). -/
def Obligations.CommandsLeaveHostSide : Prop :=
  ∀ (i : Instr) (s t : State), exec i s = .next t → s.HostSideKept t

/-- Whatever its outcome a command writes only the registers of its row of R41: SBASE and SLEN, SP, R0, R1, RFLAGS, the
decoder registers, IDLEN, STDTAB. -/
def Obligations.CommandsWriteTheirRegisters : Prop :=
  ∀ (i : Instr) (s t : State), exec i s = .next t →
    (i ≠ .strmBind → s.BindingKept t) ∧
      (i.writesSp = false → t.sp = s.sp) ∧ (i.writesR0 = false → t.r0 = s.r0) ∧
      (i.writesR1 = false → t.r1 = s.r1) ∧ (i.writesOob = false → t.oob = s.oob) ∧
      (i.writesAd = false → t.ad = s.ad) ∧ (i.writesIdlen = false → t.idlen = s.idlen) ∧
      (i.writesStdTab = false → t.stdTab = s.stdTab)

/-- Whatever its outcome a command writes only the context arrays of its row of R41. -/
def Obligations.CommandsWriteTheirArrays : Prop :=
  ∀ (i : Instr) (s t : State) (n : Arr), exec i s = .next t → i.writesArr n = false →
    t.cx.arr n = s.cx.arr n

/-- Whatever its outcome a command changes no slot but SEGSTORE[P0], and that one only if it is a segment command, `BM.NEW`
or `BM.COMBINE` (`10_state.md` R33): a slot read as a reference is never changed. -/
def Obligations.CommandsWriteTheirSlot : Prop :=
  ∀ (i : Instr) (s t : State), s.Canonical → exec i s = .next t →
    s.OtherSlotsKept t s.dst ∧ (i.writesDst = false → t.segstore = s.segstore)

/-- A command raises no error outside its row of the table of R421. -/
def Obligations.CommandsRaiseTheirErrors : Prop :=
  ∀ (i : Instr) (s t : State), exec i s = .next t → t.status = .error →
    ∃ e, t.err = e.code ∧ i.mayRaise e = true

/-! ## Invariants -/

/-- Every step keeps the registers in the ranges the spec gives them: the bound stream inside INMEM, 0 ≤ SP ≤ 8 * SLEN,
IDLEN ≤ ceil_log2(MAXSYMS), 0x8000 ≤ A and CT ≤ 8 while ADVALID, STATUS and ERR and FIRSTERR in agreement. -/
def Obligations.StepKeepsRegistersOk : Prop := ∀ s t : State, s.RegistersOk → step s = .next t → t.RegistersOk

/-- Every step keeps INMEM, REF, SEGSTORE, STDTAB and the context arrays in canonical form; the first four list no index that
does not exist, and STDTAB equals the standard tables (`43_huffman.md` R218). -/
def Obligations.StepKeepsCanonical : Prop := ∀ s t : State, s.Canonical → step s = .next t → t.Canonical

/-- Every step keeps the segment store within the capacities, bitmaps, symbol lists and tables (`10_state.md` R44,
`60_exceptions.md` R438), and every table in it prefix-free (`43_huffman.md` R191), from every state in canonical form
(StepKeepsCanonical): a store that lists a handle twice has no one value there. -/
def Obligations.StepKeepsSlotsFit : Prop :=
  ∀ s t : State, s.Canonical → s.SlotsFit → step s = .next t → t.SlotsFit

/-- The three invariants hold at reset. The parameters are the suggested ones (log entry 2). -/
def Obligations.InvariantsAtReset : Prop :=
  State.reset.RegistersOk ∧ State.reset.Canonical ∧ State.reset.SlotsFit

/-! ## The stream -/

/-- `STRM.BIND` binds INMEM[P0 .. P0+P1-1], rewinds and clears ADVALID, and changes nothing else; a range past INMEM is
refused, the sum being exact (`40_stream.md` R134). -/
def Obligations.BindResult : Prop :=
  ∀ s : State,
    (s.p0.toNat + s.p1.toNat ≤ s.cfg.inmemSize →
      exec .strmBind s =
        .next { s with sbase := s.p0, slen := s.p1, sp := 0, advalid := false, status := .done, err := 0 }) ∧
      (s.cfg.inmemSize < s.p0.toNat + s.p1.toNat →
        ∃ t, exec .strmBind s = .next t ∧ s.Raised t 0x40 .illegalCommand ∧
          t.sbase = s.sbase ∧ t.slen = s.slen ∧ t.sp = s.sp ∧ t.advalid = s.advalid)

/-- `STRM.SEEK` puts the cursor at byte P0, the end included, and changes nothing else; past the end it is refused
(`40_stream.md` R135). -/
def Obligations.SeekResult : Prop :=
  ∀ s : State,
    (s.p0.toNat ≤ s.slen.toNat →
      exec .strmSeek s = .next { s with sp := BitVec.ofNat 36 (8 * s.p0.toNat), status := .done, err := 0 }) ∧
      (s.slen.toNat < s.p0.toNat →
        ∃ t, exec .strmSeek s = .next t ∧ s.Raised t 0x41 .illegalCommand ∧ t.sp = s.sp)

/-- `STRM.READBITS n` gives the next n bits, the first most significant, zero-extended, and n in R1, moves the cursor n bits,
and changes nothing else; with fewer than n bits left it raises UnexpectedEndOfData; n > 32 is refused
(`40_stream.md` R136). -/
def Obligations.ReadbitsResult : Prop :=
  ∀ (a : BitVec 8) (s : State), s.sp.toNat ≤ 8 * s.slen.toNat →
    (a.toNat ≤ 32 → s.sp.toNat + a.toNat ≤ 8 * s.slen.toNat →
      exec (.strmReadbits a) s =
        .next
          { s with
            r0 := BitVec.ofNat 64 (s.streamNum s.sp.toNat a.toNat), r1 := a.setWidth 32
            sp := BitVec.ofNat 36 (s.sp.toNat + a.toNat), status := .done, err := 0 }) ∧
      (a.toNat ≤ 32 → 8 * s.slen.toNat < s.sp.toNat + a.toNat →
        ∃ t, exec (.strmReadbits a) s = .next t ∧ s.Raised t 0x42 .unexpectedEndOfData) ∧
      (32 < a.toNat → ∃ t, exec (.strmReadbits a) s = .next t ∧ s.Raised t 0x42 .illegalCommand)

/-- `STRM.ALIGN` moves the cursor to the next byte boundary, or leaves it on one, and changes nothing else
(`40_stream.md` R132, R137). -/
def Obligations.AlignResult : Prop :=
  ∀ s : State, s.sp.toNat ≤ 8 * s.slen.toNat →
    ∃ t, exec .strmAlign s = .next t ∧ t = { s with sp := t.sp, status := .done, err := 0 } ∧
      t.sp.toNat % 8 = 0 ∧ s.sp.toNat ≤ t.sp.toNat ∧ t.sp.toNat < s.sp.toNat + 8

/-! ## The arithmetic decoder -/

/-- `AD.INIT` at a byte boundary with two bytes in the stream: C, A, CT, B, BP in the three cases of BYTEIN, ADVALID set,
nothing else changed (`41_arith.md` R141, R142). -/
def Obligations.AdInitResult : Prop :=
  ∀ (s : State) (i : Nat), s.sp.toNat = 8 * i → i + 1 < s.slen.toNat →
    let b0 := s.streamByte i
    let b1 := s.streamByte (i + 1)
    (b0 ≠ 0xFF →
      exec .adInit s =
        .next
          { s with
            ad :=
              { c := ((b0.setWidth 32 <<< 16) + (b1.setWidth 32 <<< 8)) <<< 7, a := 0x8000, ct := 1, b := b1
                bp := BitVec.ofNat 32 (i + 1) }
            advalid := true, status := .done, err := 0 }) ∧
      (b0 = 0xFF → b1 ≤ 0x8F →
        exec .adInit s =
          .next
            { s with
              ad :=
                { c := (0xFF0000 + (b1.setWidth 32 <<< 9)) <<< 7, a := 0x8000, ct := 0, b := b1
                  bp := BitVec.ofNat 32 (i + 1) }
              advalid := true, status := .done, err := 0 }) ∧
      (b0 = 0xFF → 0x8F < b1 →
        exec .adInit s =
          .next
            { s with
              ad := { c := 0x7FFF8000, a := 0x8000, ct := 1, b := 0xFF, bp := BitVec.ofNat 32 i }
              advalid := true, status := .done, err := 0 })

/-- `AD.INIT` off a byte boundary is refused; with fewer than two bytes from the cursor it raises UnexpectedEndOfData
(`41_arith.md` R141). -/
def Obligations.AdInitErrors : Prop :=
  ∀ s : State,
    (s.sp.toNat % 8 ≠ 0 → ∃ t, exec .adInit s = .next t ∧ s.Raised t 0x48 .illegalCommand ∧ t.advalid = s.advalid) ∧
      (s.sp.toNat % 8 = 0 → s.slen.toNat ≤ s.sp.toNat / 8 + 1 →
        ∃ t, exec .adInit s = .next t ∧ s.Raised t 0x48 .unexpectedEndOfData ∧ t.advalid = false)

/-- `AD.DECODE` where the code lies in the upper sub-interval and A stays at 0x8000 or above: the bit is the MPS, only A and
C change (`41_arith.md` R144, last branch). -/
def Obligations.AdDecodeWithoutRenormalisation : Prop :=
  ∀ (a : BitVec 8) (b : BitVec 16) (s : State) (arr : Arr), arrOfSel a.toNat = some arr →
    b.toNat < arrSize s.idlen.toNat arr → s.advalid = true →
    let e := (s.cx.arr arr).entry b.toNat
    let q := (qe e.idx).qe
    0x8000 ≤ s.ad.a → q ≤ s.ad.c.extractLsb' 16 16 → 0x8000 ≤ s.ad.a - q →
    exec (.adDecode a b) s =
      .next
        { s with
          r0 := BitVec.ofNat 64 e.mps.toNat
          ad := { s.ad with a := s.ad.a - q, c := s.ad.c - (q.setWidth 32 <<< 16) }
          status := .done, err := 0 }

/-- `AD.DECODE` where A falls below 0x8000, by the LPS branch or by the MPS branch: the bit and the entry's new value are
those of the exchange procedures, every other entry stays, A is doubled until it reaches 0x8000, and where CT covers the
shifts C and CT follow and no byte is read (`41_arith.md` R143, R144, R145). -/
def Obligations.AdDecodeExchange : Prop :=
  ∀ (a : BitVec 8) (b : BitVec 16) (s : State) (arr : Arr), arrOfSel a.toNat = some arr →
    b.toNat < arrSize s.idlen.toNat arr → s.decoderFed → SparseRising (s.cx.arr arr).cells →
    0x8000 ≤ s.ad.a → s.ad.ct ≤ 8 →
    let e := (s.cx.arr arr).entry b.toNat
    let row := qe e.idx
    let rest := s.ad.a - row.qe
    let lower := s.ad.c.extractLsb' 16 16 < row.qe
    lower ∨ rest < 0x8000 →
    ∃ t k, exec (.adDecode a b) s = .next t ∧ t.Completed ∧
      (let isMps := (lower ↔ rest < row.qe);
        (isMps → t.r0 = BitVec.ofNat 64 e.mps.toNat ∧
          (t.cx.arr arr).entry b.toNat = { idx := row.nmps, mps := e.mps }) ∧
        (¬isMps → t.r0 = BitVec.ofNat 64 (!e.mps).toNat ∧
          (t.cx.arr arr).entry b.toNat = { idx := row.nlps, mps := e.mps ^^ row.switch })) ∧
      (∀ j, j ≠ b.toNat → (t.cx.arr arr).entry j = (s.cx.arr arr).entry j) ∧
      1 ≤ k ∧ t.ad.a.toNat = (if lower then row.qe else rest).toNat * 2 ^ k ∧ 0x8000 ≤ t.ad.a.toNat ∧
      (k ≤ s.ad.ct.toNat →
        t.ad.c = (if lower then s.ad.c else s.ad.c - (row.qe.setWidth 32 <<< 16)) <<< k ∧
          t.ad.ct.toNat = s.ad.ct.toNat - k ∧ t.ad.b = s.ad.b ∧ t.ad.bp = s.ad.bp) ∧
      s.HostSideKept t ∧ s.RecordKept t ∧ s.BindingKept t ∧ t.sp = s.sp ∧ t.r1 = s.r1 ∧ t.oob = s.oob ∧
      t.advalid = true ∧ t.idlen = s.idlen ∧ s.OtherArraysKept t [arr] ∧ t.segstore = s.segstore ∧
      t.stdTab = s.stdTab

/-- With the decoder standing at a marker the decodes complete for ever: B and BP do not change (`41_arith.md` R142,
R148). -/
def Obligations.MarkerNeverFaults : Prop :=
  ∀ s : State, s.advalid = true → s.ad.b = 0xFF → s.ad.bp.toNat + 1 < s.slen.toNat →
    0x8F < s.streamByte (s.ad.bp.toNat + 1) →
    (∀ (a : BitVec 8) (b : BitVec 16) (arr : Arr), arrOfSel a.toNat = some arr →
        b.toNat < arrSize s.idlen.toNat arr →
        ∃ t, exec (.adDecode a b) s = .next t ∧ t.Completed ∧ t.ad.b = s.ad.b ∧ t.ad.bp = s.ad.bp) ∧
      (∀ a : BitVec 8, 2 ≤ a.toNat → a.toNat ≤ 14 →
        ∃ t, exec (.iaDecode a) s = .next t ∧ t.Completed ∧ t.ad.b = s.ad.b ∧ t.ad.bp = s.ad.bp) ∧
      ∃ t, exec .iaidDecode s = .next t ∧ t.Completed ∧ t.ad.b = s.ad.b ∧ t.ad.bp = s.ad.bp

/-- The arithmetic primitives with ADVALID = 0 are refused (`10_state.md` R37). -/
def Obligations.DecodesNeedAdvalid : Prop :=
  ∀ s : State, s.advalid = false →
    (∀ (a : BitVec 8) (b : BitVec 16),
        ∃ t, exec (.adDecode a b) s = .next t ∧ s.Raised t 0x49 .illegalCommand) ∧
      (∀ a : BitVec 8, ∃ t, exec (.iaDecode a) s = .next t ∧ s.Raised t 0x4B .illegalCommand) ∧
      ∃ t, exec .iaidDecode s = .next t ∧ s.Raised t 0x4C .illegalCommand

/-- `AD.CXRESET`: one array, IAID with a new IDLEN, or all sixteen; the entries cleared read (0, 0), the others as before, and
nothing else changes; every other use of its immediates is refused (`41_arith.md` R146). -/
def Obligations.CxresetResult : Prop :=
  ∀ (a : BitVec 8) (b : BitVec 16) (s : State), s.cfg.Valid →
    let legal :=
      a.toNat ≤ 14 ∧ b = 0 ∨ (a.toNat = 15 ∨ a.toNat = 255) ∧ b.toNat ≤ ceilLog2 s.cfg.maxsyms
    (legal →
      ∃ t, exec (.adCxreset a b) s = .next t ∧
        t = { s with cx := t.cx, idlen := t.idlen, status := .done, err := 0 } ∧
        t.idlen.toNat = (if a.toNat ≤ 14 then s.idlen.toNat else b.toNat) ∧
        ∀ n, (a.toNat = 255 ∨ arrSel n = a.toNat → ∀ i, (t.cx.arr n).entry i = { idx := 0, mps := false }) ∧
          (a.toNat ≠ 255 → arrSel n ≠ a.toNat → t.cx.arr n = s.cx.arr n)) ∧
      (¬legal → ∃ t, exec (.adCxreset a b) s = .next t ∧ s.Raised t 0x4A .illegalCommand)

/-! ## Integers and symbol IDs -/

/-- `IA.DECODE a` is the sequence of `AD.DECODE a, PREV` its rule gives: the same decoder registers and arrays at the end; PREV
follows R172. The value or OOB is what the bits spell by the rows of `iaRows`. That these rows are what counts is the
model's reading (DEDUCED, log entry 18): they are R170's pseudocode and the table of R171, whose last sentence counts
4, 6, 9, 12, 17 or 38 decodes where they give 4, 7, 10, 13, 18 or 38. -/
def Obligations.IaDecodeIsAdDecodes : Prop :=
  ∀ (a : BitVec 8) (s t : State), exec (.iaDecode a) s = .next t → t.status = .done →
    ∃ ds u v,
      adRun a (fun prev d => if prev < 256 then 2 * prev + d.toNat else (2 * prev + d.toNat) % 512 ||| 256) 1 ds s u ∧
      iaBits ds v ∧
      t = { u with r0 := (match v with | some v => BitVec.ofInt 64 v | none => 0), oob := v.isNone }

/-- `IA.DECODE` completes while a marker is ahead: RFLAGS.OOB with R0 = 0, or a value within ±(2^32 + 4435); the frame of the
command (`42_intdec.md` R170, R174). -/
def Obligations.IaDecodeCompletes : Prop :=
  ∀ (a : BitVec 8) (s : State) (arr : Arr), 2 ≤ a.toNat → a.toNat ≤ 14 → arrOfSel a.toNat = some arr →
    s.decoderFed →
    ∃ t, exec (.iaDecode a) s = .next t ∧ t.Completed ∧
      (t.oob = true ∧ t.r0 = 0 ∨
        t.oob = false ∧ -4294971731 ≤ t.r0.toInt ∧ t.r0.toInt ≤ 4294971731) ∧
      s.HostSideKept t ∧ s.RecordKept t ∧ s.BindingKept t ∧ t.sp = s.sp ∧ t.r1 = s.r1 ∧ t.advalid = true ∧
      t.idlen = s.idlen ∧ s.OtherArraysKept t [arr] ∧ t.segstore = s.segstore ∧ t.stdTab = s.stdTab

/-- `IAID.DECODE` is IDLEN decodes of IAID along the tree of prefixes, and R0 is the path less its leading 1
(`42_intdec.md` R175), for every IDLEN; up to IDLEN = 16, where every PREV is an immediate, it is IDLEN commands
`AD.DECODE 15, PREV`. -/
def Obligations.IaidDecodeIsAdDecodes : Prop :=
  ∀ (s t : State), exec .iaidDecode s = .next t → t.status = .done →
    (∃ ds w,
        bitRun s.streamEnv .iaid (fun prev d => 2 * prev + d.toNat) 1 ds s.work w ∧ ds.length = s.idlen.toNat ∧
          t = { s with r0 := BitVec.ofNat 64 (numOfBits ds), ad := w.ad, cx := w.cx, status := .done, err := 0 }) ∧
      (s.idlen.toNat ≤ 16 →
        ∃ ds u, adRun 15 (fun prev d => 2 * prev + d.toNat) 1 ds s u ∧ ds.length = s.idlen.toNat ∧
          t = { u with r0 := BitVec.ofNat 64 (numOfBits ds), status := .done, err := 0 })

/-- `IAID.DECODE` completes while a marker is ahead, with an ID below 2^IDLEN; with IDLEN = 0 it gives 0 and changes nothing
but R0 (`42_intdec.md` R175); the frame of the command. -/
def Obligations.IaidDecodeCompletes : Prop :=
  ∀ s : State,
    (s.advalid = true → s.idlen = 0 → exec .iaidDecode s = .next { s with r0 := 0, status := .done, err := 0 }) ∧
      (s.decoderFed →
        ∃ t, exec .iaidDecode s = .next t ∧ t.Completed ∧ t.r0.toNat < 2 ^ s.idlen.toNat ∧
          s.HostSideKept t ∧ s.RecordKept t ∧ s.BindingKept t ∧ t.sp = s.sp ∧ t.r1 = s.r1 ∧ t.oob = s.oob ∧
          t.advalid = true ∧ t.idlen = s.idlen ∧ s.OtherArraysKept t [.iaid] ∧ t.segstore = s.segstore ∧
          t.stdTab = s.stdTab)

/-! ## Huffman tables -/

/-- `HT.STD n` lists table B.n in STDTAB, sets STDVALID[n] and changes nothing else; run again it changes nothing
(`43_huffman.md` R198, R218). -/
def Obligations.HtStdResult : Prop :=
  ∀ (a : BitVec 8) (s : State), s.Canonical → 1 ≤ a.toNat → a.toNat ≤ 15 →
    ∃ t, exec (.htStd a) s = .next t ∧ t = { s with stdTab := t.stdTab, status := .done, err := 0 } ∧
      sparseFind t.stdTab a.toNat = some (stdTable a.toNat) ∧
      (∀ k, k ≠ a.toNat → sparseFind t.stdTab k = sparseFind s.stdTab k) ∧
      t.stdvalid = s.stdvalid ||| BitVec.twoPow 16 a.toNat ∧ exec (.htStd a) t = .next t

/-- Each standard table has Kraft sum 1 and is prefix-free, its codes have PREFLEN bits, and its plain lines tile a contiguous
range that meets its upper line (`43_huffman.md` R193, R200). -/
def Obligations.StandardTables : Prop :=
  ∀ n, 1 ≤ n → n ≤ 15 →
    kraftScaled (stdTable n) = 2 ^ lenMax (stdTable n) ∧ Table.PrefixFree (stdTable n) ∧
      (∀ l ∈ stdTable n, ∃ c, l.code = some c ∧ c < 2 ^ l.preflen) ∧
      ∃ low high : Int, ∃ ls : List (Nat × Nat),
        ((stdTable n).filter fun l => decide (l.kind = .plain)).map (fun l => { l with code := none }) =
            plainLines low ls ∧
          low + (ls.map fun p => (2 : Int) ^ p.2).sum = high ∧
          ∀ l ∈ stdTable n, (l.kind = .upper → l.rangelow = high) ∧ (l.kind = .lower → l.rangelow = low - 1)

/-- Codes assigned by R192 are prefix-free, and fit their lengths where the table is not oversubscribed (R191, R193). -/
def Obligations.AssignedCodesPrefixFree : Prop :=
  ∀ t : List Line,
    Table.PrefixFree (codesOf t) ∧
      (oversubscribed t = false → ∀ l ∈ codesOf t, ∀ c, l.code = some c → c < 2 ^ l.preflen)

/-- `HT.DECODE` of a standard table, or of the table in slot P0: where the bits at the cursor are the code of a line and the
line's range bits follow, R0, RFLAGS, R1, SP as the line says (`43_huffman.md` R195, R196, R199); nothing else changes but
STDTAB. -/
def Obligations.HtDecodeResult : Prop :=
  ∀ (a : BitVec 8) (s : State) (T : List Line) (l : Line) (c : Nat), s.Canonical → a.toNat ≤ 15 →
    (a = 0 → s.dst < s.cfg.nslot ∧ s.slot s.dst = .table T) → (a ≠ 0 → T = stdTable a.toNat) →
    Table.PrefixFree T → l ∈ T → 1 ≤ l.preflen → l.code = some c →
    s.streamNum s.sp.toNat l.preflen = c →
    let n := match l.kind with | .plain => l.rangelen.toNat | .lower => 32 | .upper => 32 | .oob => 0
    s.sp.toNat + l.preflen + n ≤ 8 * s.slen.toNat →
    let raw : Int := s.streamNum (s.sp.toNat + l.preflen) n
    ∃ t, exec (.htDecode a) s = .next t ∧
      t = { s with r0 := t.r0, r1 := t.r1, oob := t.oob, sp := t.sp, stdTab := t.stdTab, status := .done, err := 0 } ∧
      t.r1 = BitVec.ofNat 32 (l.preflen + n) ∧ t.sp = BitVec.ofNat 36 (s.sp.toNat + l.preflen + n) ∧
      t.oob = decide (l.kind = .oob) ∧
      t.r0 =
        (match l.kind with
          | .plain => BitVec.ofInt 64 (l.rangelow + raw)
          | .upper => BitVec.ofInt 64 (l.rangelow + raw)
          | .lower => BitVec.ofInt 64 (l.rangelow - raw)
          | .oob => 0) ∧
      (a = 0 → t.stdTab = s.stdTab) ∧
      ∀ k, sparseFind t.stdTab k = if k = a.toNat ∧ a ≠ 0 then some (stdTable k) else sparseFind s.stdTab k

/-- The errors of `HT.DECODE`: with a = 0 a bad handle is refused and a slot that holds no table is InvalidReference
(`43_huffman.md` R199); running out of the stream, or of the table, before any line's code is complete is InvalidCode;
running out in the range bits of a line is UnexpectedEndOfData (R197). -/
def Obligations.HtDecodeErrors : Prop :=
  ∀ (a : BitVec 8) (s : State), s.Canonical → a.toNat ≤ 15 → s.sp.toNat ≤ 8 * s.slen.toNat →
    (a = 0 → s.cfg.nslot ≤ s.dst → ∃ t, exec (.htDecode a) s = .next t ∧ s.Raised t 0x52 .illegalCommand) ∧
      (a = 0 → s.dst < s.cfg.nslot → (∀ T, s.slot s.dst ≠ .table T) →
        ∃ t, exec (.htDecode a) s = .next t ∧ s.Raised t 0x52 .invalidReference) ∧
      ∀ T : List Line, (a = 0 → s.dst < s.cfg.nslot ∧ s.slot s.dst = .table T) → (a ≠ 0 → T = stdTable a.toNat) →
        ((∀ l ∈ T, ∀ c, l.code = some c → 1 ≤ l.preflen → s.sp.toNat + l.preflen ≤ 8 * s.slen.toNat →
              s.streamNum s.sp.toNat l.preflen ≠ c) →
            ∃ t, exec (.htDecode a) s = .next t ∧ s.Raised t 0x52 .invalidCode) ∧
          ∀ (l : Line) (c : Nat), Table.PrefixFree T → l ∈ T → 1 ≤ l.preflen → l.code = some c →
            s.sp.toNat + l.preflen ≤ 8 * s.slen.toNat → s.streamNum s.sp.toNat l.preflen = c →
            let n := match l.kind with | .plain => l.rangelen.toNat | .lower => 32 | .upper => 32 | .oob => 0
            8 * s.slen.toNat < s.sp.toNat + l.preflen + n →
            ∃ t, exec (.htDecode a) s = .next t ∧ s.Raised t 0x52 .unexpectedEndOfData

/-- `SEG.TABLES` reads back a table definition: for any lines whose fields stand in the window in the layout of R216, and
whose ranges tile HTLOW .. HTHIGH, SEGSTORE[DST] becomes the table of those lines, then the lower, upper and OOB lines,
with the codes of R192; SP goes past the window; nothing else changes. -/
def Obligations.SegTablesResult : Prop :=
  ∀ (s : State) (ls : List (Nat × Nat)), s.windowOk = true →
    let p := s.sp.toNat
    let f := s.streamNum p 8
    let htps := bitField f 3 1 + 1
    let htrs := bitField f 6 4 + 1
    let low := sext 32 (s.streamNum (p + 8) 32)
    let high := sext 32 (s.streamNum (p + 40) 32)
    let q := p + 72 + ls.length * (htps + htrs)
    let tail :=
      [lowerLine (s.streamNum q htps) (low - 1), upperLine (s.streamNum (q + htps) htps) high] ++
        if f.testBit 0 then [oobLine (s.streamNum (q + 2 * htps) htps)] else []
    f.testBit 7 = false → low ≤ high → tiles high low ls → (ls ≠ [] → ls.length + 2 < s.cfg.maxlines) →
    s.linesAt htps htrs (p + 72) ls → q + tail.length * htps ≤ 8 * s.windowEnd →
    oversubscribed (plainLines low ls ++ tail) = false →
    exec .segTables s =
      .next
        { s.setSlot s.dst (.table (codesOf (plainLines low ls ++ tail))) with
          sp := BitVec.ofNat 36 (8 * s.windowEnd), advalid := false, status := .done, err := 0 }

/-! ## Bitmaps -/

/-- `BM.NEW` leaves in SEGSTORE[P0] a Region of P1 x P2 pixels of the fill value at (0, 0) with OR, and changes nothing else;
above MAXPIX it raises UnsupportedFeature and the slot is unchanged; a bad handle is refused (`44_bitmap.md` R242). -/
def Obligations.BmNewResult : Prop :=
  ∀ (a : BitVec 8) (s : State), a.toNat ≤ 1 →
    (s.dst < s.cfg.nslot → s.p1.toNat * s.p2.toNat ≤ s.cfg.maxpix →
      ∃ t B, exec (.bmNew a) s = .next t ∧
        t = { s with segstore := t.segstore, status := .done, err := 0 } ∧
        t.slot s.dst = .region B 0 0 .or ∧ B.w = s.p1.toNat ∧ B.h = s.p2.toNat ∧
        (∀ x y : Nat, x < B.w → y < B.h → B.get x y = decide (a = 1)) ∧ s.OtherSlotsKept t s.dst) ∧
      (s.dst < s.cfg.nslot → s.cfg.maxpix < s.p1.toNat * s.p2.toNat →
        ∃ t, exec (.bmNew a) s = .next t ∧ s.Raised t 0x59 .unsupportedFeature ∧ t.segstore = s.segstore) ∧
      (s.cfg.nslot ≤ s.dst → ∃ t, exec (.bmNew a) s = .next t ∧ s.Raised t 0x59 .illegalCommand)

/-- `BM.COMBINE` of two Regions: every destination pixel the source covers, with its corner at (P2, P3) signed, becomes the
operator's value of the old destination pixel and the source pixel; every other pixel, and the destination's size, X, Y
and OP, stay; nothing but the destination slot changes, P0 = P1 included (`44_bitmap.md` R243, R244). -/
def Obligations.BmCombineResult : Prop :=
  ∀ (a : BitVec 8) (s : State) (op : CombOp) (D S : Bitmap) (x y : Word) (o : CombOp) (x' y' : Word) (o' : CombOp),
    combOpOfCode a.toNat = some op → s.dst < s.cfg.nslot → s.src < s.cfg.nslot →
    s.slot s.dst = .region D x y o → s.slot s.src = .region S x' y' o' →
    ∃ t B, exec (.bmCombine a) s = .next t ∧
      t = { s with segstore := t.segstore, status := .done, err := 0 } ∧
      t.slot s.dst = .region B x y o ∧ s.OtherSlotsKept t s.dst ∧ B.w = D.w ∧ B.h = D.h ∧
      ∀ i j : Nat, i < D.w → j < D.h →
        let u : Int := i - s.p2.toInt
        let v : Int := j - s.p3.toInt
        B.get i j = if 0 ≤ u ∧ u < S.w ∧ 0 ≤ v ∧ v < S.h then op.apply (D.get i j) (S.get u v) else D.get i j

/-- `BM.COMBINE` on a slot that holds no Region raises InvalidReference, on a bad handle IllegalCommand, and the store is
unchanged (`44_bitmap.md` R244). -/
def Obligations.BmCombineErrors : Prop :=
  ∀ (a : BitVec 8) (s : State), a.toNat ≤ 4 →
    (s.cfg.nslot ≤ s.dst ∨ s.cfg.nslot ≤ s.src →
      ∃ t, exec (.bmCombine a) s = .next t ∧ s.Raised t 0x58 .illegalCommand) ∧
      (s.dst < s.cfg.nslot → s.src < s.cfg.nslot →
        (∀ b x y o, s.slot s.dst ≠ .region b x y o) ∨ (∀ b x y o, s.slot s.src ≠ .region b x y o) →
        ∃ t, exec (.bmCombine a) s = .next t ∧ s.Raised t 0x58 .invalidReference ∧ t.segstore = s.segstore)

/-- The byte image the host reads of a bitmap: ceil(W / 8) bytes a row, rows top to bottom, pixel (x, y) in bit 7 - x mod 8 of
byte y * stride + floor(x / 8), and the unused low bits of a row's last byte 0 (`20_memory.md` R69). -/
def Obligations.ImageOfBitmap : Prop :=
  ∀ b : Bitmap,
    let stride := (b.w + 7) / 8
    b.image.length = stride * b.h ∧
      ∀ x y : Nat, y < b.h → x < 8 * stride →
        (b.image.getD (y * stride + x / 8) 0).getLsbD (7 - x % 8) = if x < b.w then b.get x y else false

/-! ## Generic regions -/

/-- The contexts of the four generic and the two refinement templates, pixel by pixel from the tables of R261 and R291, with the
adaptive pixels where the segment puts them, and their widths: 16, 13, 10, 10 bits (`45_generic.md` R261, R262), 13 and 10
bits (`46_refinement.md` R291, R292). -/
def Obligations.TemplateContexts : Prop :=
  ∀ (B : Bitmap) (x y : Nat) (a1 a2 a3 a4 : Int × Int),
    let P : Int → Int → Nat := fun dx dy => (B.get (x + dx) (y + dy)).toNat
    gctx B x y 0 [a1, a2, a3, a4] =
        P (-1) 0 + 2 * P (-2) 0 + 4 * P (-3) 0 + 8 * P (-4) 0 + 16 * P a1.1 a1.2 + 32 * P 2 (-1) + 64 * P 1 (-1) +
          128 * P 0 (-1) + 256 * P (-1) (-1) + 512 * P (-2) (-1) + 1024 * P a2.1 a2.2 + 2048 * P a3.1 a3.2 +
          4096 * P 1 (-2) + 8192 * P 0 (-2) + 16384 * P (-1) (-2) + 32768 * P a4.1 a4.2 ∧
      gctx B x y 1 [a1] =
        P (-1) 0 + 2 * P (-2) 0 + 4 * P (-3) 0 + 8 * P a1.1 a1.2 + 16 * P 2 (-1) + 32 * P 1 (-1) + 64 * P 0 (-1) +
          128 * P (-1) (-1) + 256 * P (-2) (-1) + 512 * P 2 (-2) + 1024 * P 1 (-2) + 2048 * P 0 (-2) +
          4096 * P (-1) (-2) ∧
      gctx B x y 2 [a1] =
        P (-1) 0 + 2 * P (-2) 0 + 4 * P a1.1 a1.2 + 8 * P 1 (-1) + 16 * P 0 (-1) + 32 * P (-1) (-1) +
          64 * P (-2) (-1) + 128 * P 1 (-2) + 256 * P 0 (-2) + 512 * P (-1) (-2) ∧
      gctx B x y 3 [a1] =
        P (-1) 0 + 2 * P (-2) 0 + 4 * P (-3) 0 + 8 * P (-4) 0 + 16 * P a1.1 a1.2 + 32 * P 1 (-1) + 64 * P 0 (-1) +
          128 * P (-1) (-1) + 256 * P (-2) (-1) + 512 * P (-3) (-1) ∧
      (∀ at_, gctx B x y 0 at_ < 65536 ∧ gctx B x y 1 at_ < 8192 ∧ gctx B x y 2 at_ < 1024 ∧ gctx B x y 3 at_ < 1024) ∧
      ∀ p : RefineParams,
        let Q : Int → Int → Nat := fun dx dy => (p.refb.get (x - p.dx + dx) (y - p.dy + dy)).toNat
        (p.template = false → p.at_ = [a1, a2] →
          rctx p B x y =
            P (-1) 0 + 2 * P 1 (-1) + 4 * P 0 (-1) + 8 * P a1.1 a1.2 + 16 * Q 1 1 + 32 * Q 0 1 + 64 * Q (-1) 1 +
              128 * Q 1 0 + 256 * Q 0 0 + 512 * Q (-1) 0 + 1024 * Q 1 (-1) + 2048 * Q 0 (-1) + 4096 * Q a2.1 a2.2) ∧
          (p.template = true →
            rctx p B x y =
              P (-1) 0 + 2 * P 1 (-1) + 4 * P 0 (-1) + 8 * P (-1) (-1) + 16 * Q 1 1 + 32 * Q 0 1 + 64 * Q 1 0 +
                128 * Q 0 0 + 256 * Q (-1) 0 + 512 * Q 0 (-1)) ∧
          rctx p B x y < (if p.template then 1024 else 8192)

/-- Typical prediction: where the bit SLTP makes LTP = 1 the row is a copy of the row above, all zero above row 0, no other
bit is decoded, and every other row stays (`45_generic.md` R264). -/
def Obligations.TypicalRowCopies : Prop :=
  ∀ (E : Env) (t : Fin 4) (at_ : AtPixels) (y : Nat) (r : RowState) (w w' : Work) (d : Bool), y < r.bm.h →
    adDecode E .gb (sltpCx t) w = .ok d w' → (r.ltp ^^ d) = true →
    ∃ r', genericRow E t true at_ y r w = .ok r' w' ∧ r'.ltp = true ∧ r'.bm.w = r.bm.w ∧ r'.bm.h = r.bm.h ∧
      (∀ x : Nat, x < r.bm.w → r'.bm.get x y = r.bm.get x ((y : Int) - 1)) ∧
      ∀ (x : Int) (v : Int), v ≠ y → r'.bm.get x v = r.bm.get x v

/-- A generic region segment, in its three spellings, with a legal header and a marker in its coded data completes: DST holds
a Region of the header's size, place and operator whose pixels are the bits that the decoder, started after the header
over a cleared GB, gives row by row (R265), SP goes past the window, ADVALID is cleared, and nothing else changes but the
decoder registers and GB, which are as the last decode leaves them (`45_generic.md` R265, R266, `30_encoding.md` R96, R97). -/
def Obligations.SegGrCompletes : Prop :=
  ∀ (i : Instr) (s : State) (op : CombOp), i = .segGrInt ∨ i = .segGrImm ∨ i = .segGrImml → s.windowOk = true →
    let p := s.sp.toNat
    let W := s.streamNum p 32
    let H := s.streamNum (p + 32) 32
    let g := s.streamNum (p + 128) 8
    let f := s.streamNum (p + 136) 8
    let n := if bitField f 2 1 = 0 then 4 else 1
    let at_ : AtPixels :=
      (List.range n).map fun j =>
        (sext 8 (s.streamNum (p + 144 + 16 * j) 8), sext 8 (s.streamNum (p + 152 + 16 * j) 8))
    let start := p / 8 + 18 + 2 * n
    bitField g 7 3 = 0 → combOpOfCode (bitField g 2 0) = some op → W * H ≤ s.cfg.maxpix →
    bitField f 7 4 = 0 → f.testBit 0 = false →
    (∀ a ∈ at_, atLegal a = true) → s.markerFrom start s.windowEnd →
    ∃ t B u v, exec i s = .next t ∧ t.Completed ∧ B.w = W ∧ B.h = H ∧
      adInitAt s.segmentEnv start { s.work with sp := 8 * start, cx := s.cx.setArr .gb .cleared } = .ok () u ∧
      genericRun s.segmentEnv (template4 (bitField f 2 1)) (f.testBit 3) at_ B u v ∧ t.ad = v.ad ∧ t.cx.gb = v.cx.gb ∧
      t.slot s.dst =
        .region B (BitVec.ofNat 32 (s.streamNum (p + 64) 32)) (BitVec.ofNat 32 (s.streamNum (p + 96) 32)) op ∧
      t.sp = BitVec.ofNat 36 (8 * s.windowEnd) ∧ t.advalid = false ∧
      s.HostSideKept t ∧ s.RecordKept t ∧ s.ResultsKept t ∧ s.BindingKept t ∧ t.idlen = s.idlen ∧
      s.OtherArraysKept t [.gb] ∧ s.OtherSlotsKept t s.dst ∧ t.stdTab = s.stdTab

/-! ## Refinement regions -/

/-- A refinement region segment, in its three spellings, with one reference, a Region of its size, a legal header and a
marker in its coded data completes: DST holds a Region of the header's size, place and operator whose pixels are the bits
that the decoder, started after the header over a cleared GR, gives row by row, or the predicted ones (R295), SP goes past
the window, ADVALID is cleared, and nothing else changes but the decoder registers and GR, which are as the last decode
leaves them (`46_refinement.md` R295, R296). -/
def Obligations.SegRrCompletes : Prop :=
  ∀ (i : Instr) (s : State) (op : CombOp) (R : Bitmap) (x y : Word) (o : CombOp),
    i = .segRrInt ∨ i = .segRrImm ∨ i = .segRrImml → s.windowOk = true → s.refsOk = true → s.refn = 1 →
    s.slot (s.refAt 0) = .region R x y o →
    let p := s.sp.toNat
    let W := s.streamNum p 32
    let H := s.streamNum (p + 32) 32
    let g := s.streamNum (p + 128) 8
    let f := s.streamNum (p + 136) 8
    let a1 : Int × Int := (sext 8 (s.streamNum (p + 144) 8), sext 8 (s.streamNum (p + 152) 8))
    let a2 : Int × Int := (sext 8 (s.streamNum (p + 160) 8), sext 8 (s.streamNum (p + 168) 8))
    let rp : RefineParams :=
      { template := f.testBit 0, refb := R, dx := 0, dy := 0, tpgron := f.testBit 1
        at_ := if f.testBit 0 then [] else [a1, a2] }
    let start := p / 8 + if f.testBit 0 then 18 else 22
    R.w = W → R.h = H →
    bitField g 7 3 = 0 → combOpOfCode (bitField g 2 0) = some op → W * H ≤ s.cfg.maxpix → bitField f 7 2 = 0 →
    (f.testBit 0 = false → atLegal a1 = true) → s.markerFrom start s.windowEnd →
    ∃ t B u v, exec i s = .next t ∧ t.Completed ∧ B.w = W ∧ B.h = H ∧
      adInitAt s.segmentEnv start { s.work with sp := 8 * start, cx := s.cx.setArr .gr .cleared } = .ok () u ∧
      refineRun s.segmentEnv rp B u v ∧ t.ad = v.ad ∧ t.cx.gr = v.cx.gr ∧
      t.slot s.dst =
        .region B (BitVec.ofNat 32 (s.streamNum (p + 64) 32)) (BitVec.ofNat 32 (s.streamNum (p + 96) 32)) op ∧
      t.sp = BitVec.ofNat 36 (8 * s.windowEnd) ∧ t.advalid = false ∧
      s.HostSideKept t ∧ s.RecordKept t ∧ s.ResultsKept t ∧ s.BindingKept t ∧ t.idlen = s.idlen ∧
      s.OtherArraysKept t [.gr] ∧ s.OtherSlotsKept t s.dst ∧ t.stdTab = s.stdTab

/-- A pixel predicted by TPGRON takes the value of a uniform 3x3 neighbourhood of the reference, without a decode; a
neighbourhood that is not uniform predicts nothing, and the pixel is one decode of GR (`46_refinement.md` R294, R295). -/
def Obligations.TypicalRefinementPixel : Prop :=
  ∀ (E : Env) (p : RefineParams) (x y : Nat) (b : Bitmap) (w : Work),
    (∀ v : Bool, (∀ i j : Int, -1 ≤ i → i ≤ 1 → -1 ≤ j → j ≤ 1 → p.refPix x y i j = v) →
        refinePixel E p true y x b w = .ok (b.set x y v) w) ∧
      (∀ (i j : Int) (d : Bool) (w' : Work), -1 ≤ i → i ≤ 1 → -1 ≤ j → j ≤ 1 →
        p.refPix x y i j ≠ p.refPix x y 0 0 → adDecode E .gr (rctx p b x y) w = .ok d w' →
        refinePixel E p true y x b w = .ok (b.set x y d) w')

/-! ## Symbol dictionaries -/

/-- A Huffman-coded symbol dictionary with standard tables completes, whatever its references, its new symbols and its
exports: where the window spells height classes, each with the widths of its symbols and one uncompressed collective
bitmap (R325, R329), and then export runs (R330), DST holds the symbols of the references and the new ones that the runs
export, in that order, and no contexts; IDLEN is ceil_log2 of their number before export, SP goes past the window, ADVALID
and every context array are cleared, and STDTAB gains the tables used (log entry 6); the frame (`47_symbol_dict.md` R321,
R322, R323, R324, R325, R329, R330). -/
def Obligations.SegSdResult : Prop :=
  ∀ (s : State) (dh dw : Nat) (classes : List (List Bitmap)) (runs : List Nat) (q1 q2 : Nat), s.Canonical →
    s.windowOk = true → s.refsOk = true → s.refsUsable → dh ≤ 1 → dw ≤ 1 →
    let p := s.sp.toNat
    let all := s.refSymbols ++ classes.flatten
    let ex := ((all.zip (runFlags false runs)).filter Prod.snd).map Prod.fst
    all.length ≤ s.cfg.maxsyms →
    s.streamNum p 16 = 1 + 4 * dh + 16 * dw → s.streamNum (p + 16) 32 = ex.length →
    s.streamNum (p + 48) 32 = classes.flatten.length →
    s.classesAt (stdTable (4 + dh)) (stdTable (2 + dw)) 0 (p + 80) classes q1 →
    runs.sum = all.length → (∀ r ∈ runs.tail, r ≠ 0) → (all = [] → runs = []) →
    s.runsAt q1 runs q2 → q2 ≤ 8 * s.windowEnd →
    ∃ t, exec .segSd s = .next t ∧ t.Completed ∧ t.slot s.dst = .symDict ex none ∧
      t.idlen = BitVec.ofNat 6 (ceilLog2 all.length) ∧ t.sp = BitVec.ofNat 36 (8 * s.windowEnd) ∧
      t.advalid = false ∧ (∀ n i, (t.cx.arr n).entry i = { idx := 0, mps := false }) ∧ t.ad = s.ad ∧
      (∀ k, sparseFind t.stdTab k =
        if k ∈ [1, 2 + dw, 4 + dh] then some (stdTable k) else sparseFind s.stdTab k) ∧
      s.HostSideKept t ∧ s.RecordKept t ∧ s.ResultsKept t ∧ s.BindingKept t ∧ s.OtherSlotsKept t s.dst

/-! ## Text regions -/

/-- A text region segment, in its three spellings and without refinement, completes: DST holds a Region of the header's size,
place and operator, IDLEN is ceil_log2 of the number of symbols, SP goes past the window, ADVALID is cleared; the frame
(`48_text_region.md` R371, R374, R375). Arithmetic-coded, with no instances and coded data that begins with a marker, its
pixels are SBDEFPIXEL. Huffman-coded with standard tables, where the window spells the symbol-ID code (R373) and then
strips of instances (R376, R377), it is what drawing the instances one after the other leaves (R379), with the decoder
registers as they were, every context array cleared, and STDTAB with the tables selected (log entry 6). -/
def Obligations.SegTrResult : Prop :=
  ∀ (i : Instr) (s : State) (op : CombOp), i = .segTrInt ∨ i = .segTrImm ∨ i = .segTrImml →
    s.windowOk = true → s.refsOk = true → s.refsUsable → s.refSymbols.length ≤ s.cfg.maxsyms →
    let p := s.sp.toNat
    let W := s.streamNum p 32
    let H := s.streamNum (p + 32) 32
    let g := s.streamNum (p + 128) 8
    let f := s.streamNum (p + 136) 16
    let empty := Bitmap.filled W H (f.testBit 9)
    let ends : State → Bitmap → Prop := fun t B =>
      t.Completed ∧
        t.slot s.dst =
          .region B (BitVec.ofNat 32 (s.streamNum (p + 64) 32)) (BitVec.ofNat 32 (s.streamNum (p + 96) 32)) op ∧
        t.idlen = BitVec.ofNat 6 (ceilLog2 s.refSymbols.length) ∧ t.sp = BitVec.ofNat 36 (8 * s.windowEnd) ∧
        t.advalid = false ∧ s.HostSideKept t ∧ s.RecordKept t ∧ s.ResultsKept t ∧ s.BindingKept t ∧
        s.OtherSlotsKept t s.dst
    bitField g 7 3 = 0 → combOpOfCode (bitField g 2 0) = some op → W * H ≤ s.cfg.maxpix →
    f.testBit 1 = false → f.testBit 15 = false →
    (f.testBit 0 = false → s.streamNum (p + 152) 32 = 0 →
      p / 8 + 24 < s.windowEnd → s.streamByte (p / 8 + 23) = 0xFF → 0x8F < s.streamByte (p / 8 + 24) →
      ∃ t, exec i s = .next t ∧ ends t empty ∧ t.stdTab = s.stdTab ∧
        ∀ x y : Nat, x < W → y < H → empty.get x y = f.testBit 9) ∧
      ∀ (fs ds dt : Nat) (lens counts : List Nat) (dt0 : Int) (q q1 q2 : Nat) (tp : TextParams) (st : TextState),
        let lines := linesOfLens ((List.range 35).map fun j => s.streamNum (p + 200 + 4 * j) 4)
        f.testBit 0 = true → s.Canonical → fs ≤ 1 → ds ≤ 2 → dt ≤ 2 →
        s.streamNum (p + 152) 16 = fs + 4 * ds + 16 * dt →
        s.streamNum (p + 168) 32 = (counts.map (· + 1)).sum →
        oversubscribed lines = false → s.idLensAt (codesOf lines) [] (p + 340) lens q →
        lens.length = s.refSymbols.length → oversubscribed (linesOfLens lens) = false →
        s.codedAt (stdTable (11 + dt)) (8 * ((q + 7) / 8)) (some dt0) q1 →
        tp.syms = s.refSymbols → tp.logStrips = bitField f 3 2 → tp.refCorner = refCornerOfCode (bitField f 5 4) →
        tp.transposed = f.testBit 6 → combOpOfCode (bitField f 8 7) = some tp.combOp →
        tp.dsOffset = sext 5 (bitField f 14 10) →
        s.stripsAt tp (stdTable (6 + fs)) (stdTable (8 + ds)) (stdTable (11 + dt)) (codesOf (linesOfLens lens)) counts
          { reg := empty, stript := -(dt0 * 2 ^ tp.logStrips), firsts := 0, curs := 0, n := 0 } q1 st q2 →
        q2 ≤ 8 * s.windowEnd →
        ∃ t, exec i s = .next t ∧ ends t st.reg ∧ t.ad = s.ad ∧
          (∀ n j, (t.cx.arr n).entry j = { idx := 0, mps := false }) ∧
          ∀ k, sparseFind t.stdTab k =
            if k ∈ [1, 6 + fs, 8 + ds, 11 + dt, 14] then some (stdTable k) else sparseFind s.stdTab k

/-- Placement: the reference corner of an instance lies at (S_I, T_I), or at (T_I, S_I) when transposed, where S_I is CURS
after the advance of the far corners, and CURS has advanced by the instance's extent along S less one; nothing else of
the drawing state changes but the region (`48_text_region.md` R379). -/
def Obligations.TextPlacement : Prop :=
  ∀ (p : TextParams) (ib : Bitmap) (T : Int) (st : TextState),
    let c := p.refCorner
    let right := c = .topRight ∨ c = .bottomRight
    let bottom := c = .bottomLeft ∨ c = .bottomRight
    let extent : Int := if p.transposed then ib.h else ib.w
    let far := if p.transposed then bottom else right
    ∃ x y S : Int,
      place p ib T st = { st with reg := combine st.reg ib x y p.combOp, curs := st.curs + extent - 1 } ∧
      (far → S = st.curs + extent - 1) ∧ (¬far → S = st.curs) ∧
      (let u := if p.transposed then T else S
        let v := if p.transposed then S else T
        (right → x + ib.w - 1 = u) ∧ (¬right → x = u) ∧ (bottom → y + ib.h - 1 = v) ∧ (¬bottom → y = v))

/-! ## All segment commands -/

/-- The operand checks come first: a bad DST, a cursor off a byte boundary, a window past the bound stream, and for the
commands that read REF too many references or a bad handle, are refused (`30_encoding.md` R96). -/
def Obligations.SegmentOperandChecks : Prop :=
  ∀ (i : Instr) (s : State), i.isSegment = true →
    s.cfg.nslot ≤ s.p0.toNat ∨ s.sp.toNat % 8 ≠ 0 ∨ s.slen.toNat < s.sp.toNat / 8 + s.p1.toNat ∨
      (i.readsRef = true ∧
        (s.cfg.refmax < s.refn.toNat ∨ ∃ k, k < s.refn.toNat ∧ s.cfg.nslot ≤ s.refAt k)) →
    ∃ t, exec i s = .next t ∧ s.Raised t i.opc .illegalCommand ∧ t.segstore = s.segstore ∧ t.advalid = s.advalid

/-- The kinds of the referred slots are checked before any stream byte is read, whatever the window holds
(`60_exceptions.md` R430): InvalidReference, and DST becomes Empty. -/
def Obligations.SegmentBadReference : Prop :=
  ∀ (i : Instr) (s : State), s.Canonical → s.windowOk = true → s.refsOk = true →
    ((i = .segSd ∨ i = .segTrInt ∨ i = .segTrImm ∨ i = .segTrImml) ∧
        (∃ h ∈ s.refHandles, s.slot h = .empty ∨ ∃ b x y o, s.slot h = .region b x y o) ∨
      (i = .segRrInt ∨ i = .segRrImm ∨ i = .segRrImml) ∧
        (s.refn ≠ 1 ∨ ∀ b x y o, s.slot (s.refAt 0) ≠ .region b x y o)) →
    ∃ t, exec i s = .next t ∧ s.Raised t i.opc .invalidReference ∧ t.slot s.dst = .empty ∧ t.advalid = false

/-- A segment command with DATALEN = 0 that passes its operand checks and finds its references in order raises
UnexpectedEndOfData at its first header byte (`70_reset_and_hazards.md` R461). -/
def Obligations.SegmentOfNoBytes : Prop :=
  ∀ (i : Instr) (s : State), i.isSegment = true → s.Canonical → s.windowOk = true → s.refsOk = true → s.p1 = 0 →
    ((i = .segSd ∨ i = .segTrInt ∨ i = .segTrImm ∨ i = .segTrImml) →
      s.refsUsable ∧ s.refSymbols.length ≤ s.cfg.maxsyms) →
    ((i = .segRrInt ∨ i = .segRrImm ∨ i = .segRrImml) →
      s.refn = 1 ∧ ∃ b x y o, s.slot (s.refAt 0) = .region b x y o) →
    ∃ t, exec i s = .next t ∧ s.Raised t i.opc .unexpectedEndOfData ∧ t.slot s.dst = .empty

/-- The result of a segment command depends on the bytes of its window, P0, P1, REFN, REF, and the values of the referred
slots only: not on the decoder registers, ADVALID, the context arrays, IDLEN, R0, R1, RFLAGS or STDVALID an earlier
command left (`70_reset_and_hazards.md` R466 (a)). -/
def Obligations.SegmentDependsOnItsInputs : Prop :=
  ∀ (i : Instr) (s s' : State), i.isSegment = true → s.Canonical → s'.Canonical →
    s'.cfg = s.cfg → s'.p0 = s.p0 → s'.p1 = s.p1 → s'.refn = s.refn → s'.ref = s.ref → s'.sp = s.sp →
    s'.slen = s.slen →
    (∀ k, s.sp.toNat / 8 ≤ k → k < s.windowEnd → s'.streamByte k = s.streamByte k) →
    (∀ h ∈ s.refHandles, s'.slot h = s.slot h) → (s'.slot s.dst = s.slot s.dst) →
    ∃ t t', exec i s = .next t ∧ exec i s' = .next t' ∧ t'.status = t.status ∧ t'.err = t.err ∧
      t'.slot s.dst = t.slot s.dst ∧ (t.status = .done → t'.sp = t.sp)
end

