-- ==== Sys2Proof/Laws/Dec.lean ====
section
/-! SUPPORT. How the procedures of `Dec` run: one lemma per primitive, and two notions with their rules. `Keeps`: from a working
state with `I`, a procedure ends with a value in `Q` and `I` again, or raises an error in `X`, with `I` at the error too.
`Agree`: two procedures run in step from working states related by `R`, and end in equal values and states related by `S`,
or in equal errors. -/

namespace Sys2Proof.Machine

/-! ## Running a procedure -/

theorem Dec.run_bind {α β : Type} (p : Dec α) (f : α → Dec β) (w : Work) :
    (p >>= f) w = match p w with | .ok v w' => f v w' | .error e w' => .error e w' := by
  show EStateM.bind p f w = _
  unfold EStateM.bind
  cases p w <;> rfl

@[simp] theorem Dec.run_pure {α : Type} (v : α) (w : Work) : (pure v : Dec α) w = .ok v w := rfl

@[simp] theorem Dec.run_throw {α : Type} (e : CoreError) (w : Work) : (throw e : Dec α) w = .error e w := rfl

@[simp] theorem Dec.run_get (w : Work) : (get : Dec Work) w = .ok w w := rfl

@[simp] theorem Dec.run_set (w w' : Work) : (set w' : Dec PUnit) w = .ok () w' := rfl

@[simp] theorem Dec.run_modify (f : Work → Work) (w : Work) : (modify f : Dec PUnit) w = .ok () (f w) := rfl

theorem Dec.run_require (c : Bool) (e : CoreError) (w : Work) :
    require c e w = if c then .ok () w else .error e w := by
  cases c <;> rfl

@[simp] theorem Dec.run_require_true (e : CoreError) (w : Work) : require true e w = .ok () w := rfl

@[simp] theorem Dec.run_require_false (e : CoreError) (w : Work) : require false e w = .error e w := rfl

/-- What a completed sequence says of its first part. -/
theorem Dec.bind_ok {α β : Type} {p : Dec α} {f : α → Dec β} {w w' : Work} {r : β} (h : (p >>= f) w = .ok r w') :
    ∃ v u, p w = .ok v u ∧ f v u = .ok r w' := by
  rw [Dec.run_bind] at h
  cases hp : p w with
  | ok v u => rw [hp] at h; exact ⟨v, u, rfl, h⟩
  | error e u => rw [hp] at h; cases h

/-- A sequence whose first part completes runs on with its second. -/
theorem Dec.bind_of_ok {α β : Type} {p : Dec α} {f : α → Dec β} {w u : Work} {v : α} (h : p w = .ok v u) :
    (p >>= f) w = f v u := by
  rw [Dec.run_bind, h]

/-- A sequence whose first part raises an error raises it. -/
theorem Dec.bind_of_error {α β : Type} {p : Dec α} {f : α → Dec β} {w u : Work} {e : CoreError}
    (h : p w = .error e u) : (p >>= f) w = .error e u := by
  rw [Dec.run_bind, h]

theorem Dec.pure_ok {α : Type} {v r : α} {w w' : Work} (h : (pure v : Dec α) w = .ok r w') : v = r ∧ w = w' := by
  cases h
  exact ⟨rfl, rfl⟩

theorem Dec.require_ok {c : Bool} {e : CoreError} {w w' : Work} {v : Unit} (h : require c e w = .ok v w') :
    c = true ∧ w' = w := by
  cases c <;> cases h
  exact ⟨rfl, rfl⟩

/-! ## Keeps -/

/-- From `I`, `p` ends with a value in `Q` and `I` again, or raises an error in `X` in a working state with `I`. -/
def Keeps {α : Type} (I : Work → Prop) (X : CoreError → Prop) (Q : α → Prop) (p : Dec α) : Prop :=
  ∀ w, I w → match p w with | .ok v w' => Q v ∧ I w' | .error e w' => X e ∧ I w'

variable {α β : Type} {I : Work → Prop} {X : CoreError → Prop}

theorem Keeps.ok {Q : α → Prop} {p : Dec α} (h : Keeps I X Q p) {w w' : Work} {v : α} (hw : I w)
    (hp : p w = .ok v w') : Q v ∧ I w' := by
  have := h w hw
  rwa [hp] at this

theorem Keeps.error {Q : α → Prop} {p : Dec α} (h : Keeps I X Q p) {w w' : Work} {e : CoreError} (hw : I w)
    (hp : p w = .error e w') : X e ∧ I w' := by
  have := h w hw
  rwa [hp] at this

/-- Where no error is allowed the procedure completes. -/
theorem Keeps.completes {Q : α → Prop} {p : Dec α} (h : Keeps I (fun _ => False) Q p) {w : Work} (hw : I w) :
    ∃ v w', p w = .ok v w' ∧ Q v ∧ I w' := by
  have := h w hw
  cases hp : p w with
  | ok v w' => rw [hp] at this; exact ⟨v, w', rfl, this⟩
  | error e w' => rw [hp] at this; exact this.1.elim

theorem Keeps.bind {Q : α → Prop} {R : β → Prop} {p : Dec α} {f : α → Dec β} (hp : Keeps I X Q p)
    (hf : ∀ v, Q v → Keeps I X R (f v)) : Keeps I X R (p >>= f) := by
  intro w hw
  rw [Dec.run_bind]
  have := hp w hw
  cases h : p w with
  | ok v w' => rw [h] at this; exact hf v this.1 w' this.2
  | error e w' => rw [h] at this; exact this

theorem Keeps.pure {Q : α → Prop} {v : α} (h : Q v) : Keeps I X Q (pure v) := fun _ hw => ⟨h, hw⟩

theorem Keeps.throw {Q : α → Prop} {e : CoreError} (h : X e) : Keeps I X Q (throw e) := fun _ hw => ⟨h, hw⟩

theorem Keeps.mono {Q R : α → Prop} {Y : CoreError → Prop} {p : Dec α} (hp : Keeps I Y Q p) (h : ∀ v, Q v → R v)
    (hX : ∀ e, Y e → X e) : Keeps I X R p := by
  intro w hw
  have := hp w hw
  cases h' : p w with
  | ok v w' => rw [h'] at this; exact ⟨h v this.1, this.2⟩
  | error e w' => rw [h'] at this; exact ⟨hX e this.1, this.2⟩

theorem Keeps.and {J : Work → Prop} {Y : CoreError → Prop} {Q R : α → Prop} {p : Dec α} (hp : Keeps I X Q p)
    (hq : Keeps J Y R p) : Keeps (fun w => I w ∧ J w) (fun e => X e ∧ Y e) (fun v => Q v ∧ R v) p := by
  intro w hw
  have h1 := hp w hw.1
  have h2 := hq w hw.2
  cases h : p w <;> rw [h] at h1 h2 <;> exact ⟨⟨h1.1, h2.1⟩, h1.2, h2.2⟩

theorem Keeps.require {c : Bool} {e : CoreError} (h : c = false → X e) :
    Keeps I X (fun _ => c = true) (require c e) := by
  intro w hw
  cases c
  · exact ⟨h rfl, hw⟩
  · exact ⟨rfl, hw⟩

theorem Keeps.get : Keeps I X I get := fun _ hw => ⟨hw, hw⟩

theorem Keeps.set {w' : Work} (h : I w') : Keeps I X (fun _ => True) (set w') := fun _ _ => ⟨trivial, h⟩

theorem Keeps.modify {f : Work → Work} (h : ∀ w, I w → I (f w)) : Keeps I X (fun _ => True) (modify f) :=
  fun w hw => ⟨trivial, h w hw⟩

theorem Keeps.ite {Q : α → Prop} {c : Prop} [Decidable c] {p q : Dec α} (hp : c → Keeps I X Q p)
    (hq : ¬c → Keeps I X Q q) : Keeps I X Q (if c then p else q) := by
  split
  · exact hp ‹_›
  · exact hq ‹_›

theorem Keeps.loopM {σ : Type} {Q : σ → Prop} {f : Nat → σ → Dec σ} (hf : ∀ i s, Q s → Keeps I X Q (f i s)) :
    ∀ (n i : Nat) (s : σ), Q s → Keeps I X Q (loopM f n i s)
  | 0, _, _, hs => .pure hs
  | n + 1, i, s, hs => (hf i s hs).bind fun _ hv => Keeps.loopM hf n (i + 1) _ hv

/-! ## Agree -/

/-- Two procedures run in step: from `R` to `S`, with equal values or equal errors. -/
def Agree {α : Type} (R S : Work → Work → Prop) (p q : Dec α) : Prop :=
  ∀ w u, R w u →
    match p w, q u with
    | .ok v w', .ok v' u' => v = v' ∧ S w' u'
    | .error e _, .error e' _ => e = e'
    | .ok _ _, .error _ _ => False
    | .error _ _, .ok _ _ => False

variable {R S T : Work → Work → Prop}

theorem Agree.bind {p q : Dec α} {f g : α → Dec β} (hp : Agree R S p q) (hf : ∀ v, Agree S T (f v) (g v)) :
    Agree R T (p >>= f) (q >>= g) := by
  intro w u h
  rw [Dec.run_bind, Dec.run_bind]
  have := hp w u h
  cases h1 : p w <;> cases h2 : q u <;> rw [h1, h2] at this
  · obtain ⟨rfl, hS⟩ := this
    exact hf _ _ _ hS
  · exact this.elim
  · exact this.elim
  · exact this

theorem Agree.pure {v : α} : Agree R R (pure v) (pure v) := fun _ _ h => ⟨rfl, h⟩

theorem Agree.throw {e : CoreError} : Agree R S (throw e : Dec α) (throw e) := fun _ _ _ => rfl

theorem Agree.require {c : Bool} {e : CoreError} : Agree R R (require c e) (require c e) := by
  intro w u h
  cases c
  · rfl
  · exact ⟨rfl, h⟩

theorem Agree.modify {f g : Work → Work} (h : ∀ w u, R w u → S (f w) (g u)) : Agree R S (modify f) (modify g) :=
  fun w u hw => ⟨rfl, h w u hw⟩

/-- Reading the working state: the rest may use both values. -/
theorem Agree.get_bind {f g : Work → Dec α}
    (h : ∀ w u, R w u → Agree (fun x y => x = w ∧ y = u) S (f w) (g u)) : Agree R S (get >>= f) (get >>= g) :=
  fun w u hw => h w u hw w u ⟨rfl, rfl⟩

theorem Agree.set {w u : Work} (h : S w u) : Agree R S (set w : Dec PUnit) (set u) := fun _ _ _ => ⟨rfl, h⟩

theorem Agree.pure_of {v v' : α} (hv : v = v') (h : ∀ w u, R w u → S w u) :
    Agree R S (Pure.pure v : Dec α) (Pure.pure v') := fun w u hw => ⟨hv, h w u hw⟩

theorem Agree.ite {c : Prop} [Decidable c] {p q p' q' : Dec α} (hp : c → Agree R S p p')
    (hq : ¬c → Agree R S q q') : Agree R S (if c then p else q) (if c then p' else q') := by
  split
  · exact hp ‹_›
  · exact hq ‹_›

theorem Agree.weaken {S' : Work → Work → Prop} {p q : Dec α} (hp : Agree R S p q) (h : ∀ w u, S w u → S' w u) :
    Agree R S' p q := by
  intro w u hw
  have := hp w u hw
  cases h1 : p w <;> cases h2 : q u <;> rw [h1, h2] at this
  · exact ⟨this.1, h _ _ this.2⟩
  · exact this.elim
  · exact this.elim
  · exact this

theorem Agree.strengthen {R' : Work → Work → Prop} {p q : Dec α} (hp : Agree R S p q) (h : ∀ w u, R' w u → R w u) :
    Agree R' S p q := fun w u hw => hp w u (h w u hw)

theorem Agree.loopM {σ : Type} {f g : Nat → σ → Dec σ} (hf : ∀ i s, Agree R R (f i s) (g i s)) :
    ∀ (n i : Nat) (s : σ), Agree R R (loopM f n i s) (loopM g n i s)
  | 0, _, _ => .pure
  | n + 1, i, s => (hf i s).bind fun _ => Agree.loopM hf n (i + 1) _

end Sys2Proof.Machine
end

