-- ==== Sys2Proof/Laws/Sparse.lean ====
section
/-! SUPPORT. Sparse lists: what each operation reads as afterwards, and that each keeps the canonical form. INMEM's laws are
instances. -/

namespace Sys2Proof.Machine

variable {α : Type}

@[simp] theorem sparseFind_put (m : List (Nat × α)) (i j : Nat) (v : α) :
    sparseFind (sparsePut m i v) j = if i = j then some v else sparseFind m j := by
  induction m with
  | nil => simp [sparsePut, sparseFind]
  | cons p m ih =>
    obtain ⟨k, u⟩ := p
    simp only [sparsePut]
    split_ifs <;> simp_all [sparseFind]

theorem mem_sparsePut {m : List (Nat × α)} {i : Nat} {v : α} {p : Nat × α} (h : p ∈ sparsePut m i v) :
    p = (i, v) ∨ p ∈ m := by
  induction m with
  | nil => simp_all [sparsePut]
  | cons q m ih =>
    obtain ⟨k, u⟩ := q
    simp only [sparsePut] at h
    split_ifs at h <;> simp only [List.mem_cons] at h ⊢
    · tauto
    · tauto
    · rcases h with h | h
      · exact .inr (.inl h)
      · rcases ih h with h | h <;> tauto

theorem mem_sparseDrop {m : List (Nat × α)} {i : Nat} {p : Nat × α} (h : p ∈ sparseDrop m i) : p ∈ m := by
  induction m with
  | nil => simp_all [sparseDrop]
  | cons q m ih =>
    obtain ⟨k, u⟩ := q
    simp only [sparseDrop] at h
    split_ifs at h
    · exact .tail _ h
    · rcases List.mem_cons.mp h with h | h
      · exact h ▸ .head _
      · exact .tail _ (ih h)

theorem sparseFind_none {m : List (Nat × α)} {i : Nat} (h : ∀ p ∈ m, p.1 ≠ i) : sparseFind m i = none := by
  induction m with
  | nil => rfl
  | cons p m ih =>
    obtain ⟨k, u⟩ := p
    have hk : k ≠ i := h _ (.head _)
    simp only [sparseFind, if_neg hk]
    exact ih fun p hp => h p (.tail _ hp)

theorem mem_of_sparseFind {m : List (Nat × α)} {i : Nat} {v : α} (h : sparseFind m i = some v) : (i, v) ∈ m := by
  induction m with
  | nil => simp [sparseFind] at h
  | cons p m ih =>
    obtain ⟨k, u⟩ := p
    simp only [sparseFind] at h
    split_ifs at h with hk
    · cases h; subst hk; exact .head _
    · exact .tail _ (ih h)

theorem sparseFind_of_mem {m : List (Nat × α)} (hm : SparseRising m) {p : Nat × α} (h : p ∈ m) :
    sparseFind m p.1 = some p.2 := by
  induction m with
  | nil => simp at h
  | cons q m ih =>
    obtain ⟨k, u⟩ := q
    rw [SparseRising, List.pairwise_cons] at hm
    rcases List.mem_cons.mp h with h | h
    · subst h; simp [sparseFind]
    · have := hm.1 p h
      simp only [sparseFind]
      rw [if_neg (by simp only at this; omega)]
      exact ih hm.2 h

theorem sparseFind_drop {m : List (Nat × α)} (hm : SparseRising m) (i j : Nat) :
    sparseFind (sparseDrop m i) j = if i = j then none else sparseFind m j := by
  induction m with
  | nil => simp [sparseDrop, sparseFind]
  | cons p m ih =>
    obtain ⟨k, u⟩ := p
    rw [SparseRising, List.pairwise_cons] at hm
    simp only [sparseDrop]
    split_ifs with hk hj hj
    · subst hk; subst hj
      exact sparseFind_none fun p hp => by have := hm.1 p hp; simp only at this; omega
    · subst hk; simp [sparseFind, hj]
    · subst hj; simp [sparseFind, hk, ih hm.2]
    · simp [sparseFind, ih hm.2, hj]

theorem sparsePut_rising {m : List (Nat × α)} (hm : SparseRising m) (i : Nat) (v : α) :
    SparseRising (sparsePut m i v) := by
  induction m with
  | nil => simp [sparsePut]
  | cons p m ih =>
    obtain ⟨k, u⟩ := p
    rw [SparseRising, List.pairwise_cons] at hm
    simp only [sparsePut]
    split_ifs with hk hi
    · subst hk; exact List.pairwise_cons.mpr hm
    · refine List.pairwise_cons.mpr ⟨fun p hp => ?_, List.pairwise_cons.mpr hm⟩
      rcases List.mem_cons.mp hp with hp | hp
      · subst hp; exact hi
      · exact lt_trans hi (hm.1 p hp)
    · refine List.pairwise_cons.mpr ⟨fun p hp => ?_, ih hm.2⟩
      rcases mem_sparsePut hp with hp | hp
      · subst hp; simp only; omega
      · exact hm.1 p hp

theorem sparseDrop_rising {m : List (Nat × α)} (hm : SparseRising m) (i : Nat) : SparseRising (sparseDrop m i) := by
  induction m with
  | nil => simp [sparseDrop]
  | cons p m ih =>
    obtain ⟨k, u⟩ := p
    rw [SparseRising, List.pairwise_cons] at hm
    simp only [sparseDrop]
    split_ifs
    · exact hm.2
    · exact List.pairwise_cons.mpr ⟨fun p hp => hm.1 p (mem_sparseDrop hp), ih hm.2⟩

/-- A write reads back, and every other key reads as before. -/
theorem sparseGetD_setD [DecidableEq α] {d : α} {m : List (Nat × α)} (hm : SparseRising m) (i j : Nat) (v : α) :
    sparseGetD d (sparseSetD d m i v) j = if i = j then v else sparseGetD d m j := by
  unfold sparseGetD sparseSetD
  split_ifs with hv hij hij <;> simp [sparseFind_drop hm, hij, hv]

/-- A write keeps the canonical form. -/
theorem sparseSetD_wf [DecidableEq α] {d : α} {m : List (Nat × α)} (hm : SparseWf d m) (i : Nat) (v : α) :
    SparseWf d (sparseSetD d m i v) := by
  unfold sparseSetD
  split_ifs with hv
  · exact ⟨sparseDrop_rising hm.1 i, fun p hp => hm.2 p (mem_sparseDrop hp)⟩
  · refine ⟨sparsePut_rising hm.1 i v, fun p hp => ?_⟩
    rcases mem_sparsePut hp with hp | hp
    · subst hp; exact hv
    · exact hm.2 p hp

theorem mem_sparseSetD [DecidableEq α] {d : α} {m : List (Nat × α)} {i : Nat} {v : α} {p : Nat × α}
    (h : p ∈ sparseSetD d m i v) : p = (i, v) ∨ p ∈ m := by
  unfold sparseSetD at h
  split_ifs at h
  · exact .inr (mem_sparseDrop h)
  · exact mem_sparsePut h

/-! ## INMEM (`20_memory.md` R60) -/

@[simp] theorem memByte_poke_same (m : Memory) (a : Nat) (v : Byte) : memByte (memPoke m a v) a = v := by
  simp [memByte, memPoke]

theorem memByte_poke_other (m : Memory) {a b : Nat} (v : Byte) (h : a ≠ b) :
    memByte (memPoke m a v) b = memByte m b := by
  simp [memByte, memPoke, h]

/-- A host write keeps INMEM's canonical form: the only operation that writes memory. -/
theorem memPoke_wf {m : Memory} (hm : Memory.wf m) (a : Nat) (v : Byte) : Memory.wf (memPoke m a v) :=
  sparsePut_rising hm a v

theorem reset_inmem_wf : Memory.wf State.reset.inmem := .nil

/-! ## Slots (`10_state.md` R33) -/

theorem State.slot_setSlot (s : State) (hs : SparseRising s.segstore) (h k : Nat) (v : Slot) :
    (s.setSlot h v).slot k = if h = k then v else s.slot k :=
  sparseGetD_setD hs h k v

end Sys2Proof.Machine
end

