-- ==== Sys2Proof/Laws/State.lean ====
section
/-! SUPPORT. One lemma per field for each update of State, so that no later proof unfolds a record update. -/

namespace Sys2Proof.Machine

/-! ## `setSlot` (`10_state.md` R33) -/

@[simp] theorem State.setSlot_cfg (s : State) (h : Nat) (v : Slot) : (s.setSlot h v).cfg = s.cfg := rfl
@[simp] theorem State.setSlot_cmd (s : State) (h : Nat) (v : Slot) : (s.setSlot h v).cmd = s.cmd := rfl
@[simp] theorem State.setSlot_status (s : State) (h : Nat) (v : Slot) : (s.setSlot h v).status = s.status := rfl
@[simp] theorem State.setSlot_err (s : State) (h : Nat) (v : Slot) : (s.setSlot h v).err = s.err := rfl
@[simp] theorem State.setSlot_errPos (s : State) (h : Nat) (v : Slot) : (s.setSlot h v).errPos = s.errPos := rfl
@[simp] theorem State.setSlot_firstErr (s : State) (h : Nat) (v : Slot) : (s.setSlot h v).firstErr = s.firstErr := rfl
@[simp] theorem State.setSlot_p0 (s : State) (h : Nat) (v : Slot) : (s.setSlot h v).p0 = s.p0 := rfl
@[simp] theorem State.setSlot_p1 (s : State) (h : Nat) (v : Slot) : (s.setSlot h v).p1 = s.p1 := rfl
@[simp] theorem State.setSlot_p2 (s : State) (h : Nat) (v : Slot) : (s.setSlot h v).p2 = s.p2 := rfl
@[simp] theorem State.setSlot_p3 (s : State) (h : Nat) (v : Slot) : (s.setSlot h v).p3 = s.p3 := rfl
@[simp] theorem State.setSlot_r0 (s : State) (h : Nat) (v : Slot) : (s.setSlot h v).r0 = s.r0 := rfl
@[simp] theorem State.setSlot_r1 (s : State) (h : Nat) (v : Slot) : (s.setSlot h v).r1 = s.r1 := rfl
@[simp] theorem State.setSlot_oob (s : State) (h : Nat) (v : Slot) : (s.setSlot h v).oob = s.oob := rfl
@[simp] theorem State.setSlot_refn (s : State) (h : Nat) (v : Slot) : (s.setSlot h v).refn = s.refn := rfl
@[simp] theorem State.setSlot_ref (s : State) (h : Nat) (v : Slot) : (s.setSlot h v).ref = s.ref := rfl
@[simp] theorem State.setSlot_sbase (s : State) (h : Nat) (v : Slot) : (s.setSlot h v).sbase = s.sbase := rfl
@[simp] theorem State.setSlot_slen (s : State) (h : Nat) (v : Slot) : (s.setSlot h v).slen = s.slen := rfl
@[simp] theorem State.setSlot_sp (s : State) (h : Nat) (v : Slot) : (s.setSlot h v).sp = s.sp := rfl
@[simp] theorem State.setSlot_idlen (s : State) (h : Nat) (v : Slot) : (s.setSlot h v).idlen = s.idlen := rfl
@[simp] theorem State.setSlot_ad (s : State) (h : Nat) (v : Slot) : (s.setSlot h v).ad = s.ad := rfl
@[simp] theorem State.setSlot_advalid (s : State) (h : Nat) (v : Slot) : (s.setSlot h v).advalid = s.advalid := rfl
@[simp] theorem State.setSlot_cx (s : State) (h : Nat) (v : Slot) : (s.setSlot h v).cx = s.cx := rfl
@[simp] theorem State.setSlot_stdTab (s : State) (h : Nat) (v : Slot) : (s.setSlot h v).stdTab = s.stdTab := rfl
@[simp] theorem State.setSlot_inmem (s : State) (h : Nat) (v : Slot) : (s.setSlot h v).inmem = s.inmem := rfl
@[simp] theorem State.setSlot_host (s : State) (h : Nat) (v : Slot) : (s.setSlot h v).host = s.host := rfl
@[simp] theorem State.setSlot_draws (s : State) (h : Nat) (v : Slot) : (s.setSlot h v).draws = s.draws := rfl

/-! ## `completed` (`10_state.md` R29, R30) -/

@[simp] theorem State.completed_cfg (s : State) : (s.completed).cfg = s.cfg := rfl
@[simp] theorem State.completed_cmd (s : State) : (s.completed).cmd = s.cmd := rfl
@[simp] theorem State.completed_status (s : State) : (s.completed).status = .done := rfl
@[simp] theorem State.completed_err (s : State) : (s.completed).err = 0 := rfl
@[simp] theorem State.completed_errPos (s : State) : (s.completed).errPos = s.errPos := rfl
@[simp] theorem State.completed_firstErr (s : State) : (s.completed).firstErr = s.firstErr := rfl
@[simp] theorem State.completed_p0 (s : State) : (s.completed).p0 = s.p0 := rfl
@[simp] theorem State.completed_p1 (s : State) : (s.completed).p1 = s.p1 := rfl
@[simp] theorem State.completed_p2 (s : State) : (s.completed).p2 = s.p2 := rfl
@[simp] theorem State.completed_p3 (s : State) : (s.completed).p3 = s.p3 := rfl
@[simp] theorem State.completed_r0 (s : State) : (s.completed).r0 = s.r0 := rfl
@[simp] theorem State.completed_r1 (s : State) : (s.completed).r1 = s.r1 := rfl
@[simp] theorem State.completed_oob (s : State) : (s.completed).oob = s.oob := rfl
@[simp] theorem State.completed_refn (s : State) : (s.completed).refn = s.refn := rfl
@[simp] theorem State.completed_ref (s : State) : (s.completed).ref = s.ref := rfl
@[simp] theorem State.completed_sbase (s : State) : (s.completed).sbase = s.sbase := rfl
@[simp] theorem State.completed_slen (s : State) : (s.completed).slen = s.slen := rfl
@[simp] theorem State.completed_sp (s : State) : (s.completed).sp = s.sp := rfl
@[simp] theorem State.completed_idlen (s : State) : (s.completed).idlen = s.idlen := rfl
@[simp] theorem State.completed_ad (s : State) : (s.completed).ad = s.ad := rfl
@[simp] theorem State.completed_advalid (s : State) : (s.completed).advalid = s.advalid := rfl
@[simp] theorem State.completed_cx (s : State) : (s.completed).cx = s.cx := rfl
@[simp] theorem State.completed_segstore (s : State) : (s.completed).segstore = s.segstore := rfl
@[simp] theorem State.completed_stdTab (s : State) : (s.completed).stdTab = s.stdTab := rfl
@[simp] theorem State.completed_inmem (s : State) : (s.completed).inmem = s.inmem := rfl
@[simp] theorem State.completed_host (s : State) : (s.completed).host = s.host := rfl
@[simp] theorem State.completed_draws (s : State) : (s.completed).draws = s.draws := rfl

/-! ## `putDecoded` (`10_state.md` R27) -/

@[simp] theorem State.putDecoded_cfg (s : State) (v : Option Int) : (s.putDecoded v).cfg = s.cfg := by cases v <;> rfl
@[simp] theorem State.putDecoded_cmd (s : State) (v : Option Int) : (s.putDecoded v).cmd = s.cmd := by cases v <;> rfl
@[simp] theorem State.putDecoded_status (s : State) (v : Option Int) : (s.putDecoded v).status = s.status := by cases v <;> rfl
@[simp] theorem State.putDecoded_err (s : State) (v : Option Int) : (s.putDecoded v).err = s.err := by cases v <;> rfl
@[simp] theorem State.putDecoded_errPos (s : State) (v : Option Int) : (s.putDecoded v).errPos = s.errPos := by cases v <;> rfl
@[simp] theorem State.putDecoded_firstErr (s : State) (v : Option Int) : (s.putDecoded v).firstErr = s.firstErr := by cases v <;> rfl
@[simp] theorem State.putDecoded_p0 (s : State) (v : Option Int) : (s.putDecoded v).p0 = s.p0 := by cases v <;> rfl
@[simp] theorem State.putDecoded_p1 (s : State) (v : Option Int) : (s.putDecoded v).p1 = s.p1 := by cases v <;> rfl
@[simp] theorem State.putDecoded_p2 (s : State) (v : Option Int) : (s.putDecoded v).p2 = s.p2 := by cases v <;> rfl
@[simp] theorem State.putDecoded_p3 (s : State) (v : Option Int) : (s.putDecoded v).p3 = s.p3 := by cases v <;> rfl
@[simp] theorem State.putDecoded_r1 (s : State) (v : Option Int) : (s.putDecoded v).r1 = s.r1 := by cases v <;> rfl
@[simp] theorem State.putDecoded_refn (s : State) (v : Option Int) : (s.putDecoded v).refn = s.refn := by cases v <;> rfl
@[simp] theorem State.putDecoded_ref (s : State) (v : Option Int) : (s.putDecoded v).ref = s.ref := by cases v <;> rfl
@[simp] theorem State.putDecoded_sbase (s : State) (v : Option Int) : (s.putDecoded v).sbase = s.sbase := by cases v <;> rfl
@[simp] theorem State.putDecoded_slen (s : State) (v : Option Int) : (s.putDecoded v).slen = s.slen := by cases v <;> rfl
@[simp] theorem State.putDecoded_sp (s : State) (v : Option Int) : (s.putDecoded v).sp = s.sp := by cases v <;> rfl
@[simp] theorem State.putDecoded_idlen (s : State) (v : Option Int) : (s.putDecoded v).idlen = s.idlen := by cases v <;> rfl
@[simp] theorem State.putDecoded_ad (s : State) (v : Option Int) : (s.putDecoded v).ad = s.ad := by cases v <;> rfl
@[simp] theorem State.putDecoded_advalid (s : State) (v : Option Int) : (s.putDecoded v).advalid = s.advalid := by cases v <;> rfl
@[simp] theorem State.putDecoded_cx (s : State) (v : Option Int) : (s.putDecoded v).cx = s.cx := by cases v <;> rfl
@[simp] theorem State.putDecoded_segstore (s : State) (v : Option Int) : (s.putDecoded v).segstore = s.segstore := by cases v <;> rfl
@[simp] theorem State.putDecoded_stdTab (s : State) (v : Option Int) : (s.putDecoded v).stdTab = s.stdTab := by cases v <;> rfl
@[simp] theorem State.putDecoded_inmem (s : State) (v : Option Int) : (s.putDecoded v).inmem = s.inmem := by cases v <;> rfl
@[simp] theorem State.putDecoded_host (s : State) (v : Option Int) : (s.putDecoded v).host = s.host := by cases v <;> rfl
@[simp] theorem State.putDecoded_draws (s : State) (v : Option Int) : (s.putDecoded v).draws = s.draws := by cases v <;> rfl

/-! ## `commit` (`60_exceptions.md` R425) -/

@[simp] theorem State.commit_cfg (s : State) (fp : Footprint) (w : Work) : (s.commit fp w).cfg = s.cfg := rfl
@[simp] theorem State.commit_cmd (s : State) (fp : Footprint) (w : Work) : (s.commit fp w).cmd = s.cmd := rfl
@[simp] theorem State.commit_status (s : State) (fp : Footprint) (w : Work) : (s.commit fp w).status = s.status := rfl
@[simp] theorem State.commit_err (s : State) (fp : Footprint) (w : Work) : (s.commit fp w).err = s.err := rfl
@[simp] theorem State.commit_errPos (s : State) (fp : Footprint) (w : Work) : (s.commit fp w).errPos = s.errPos := rfl
@[simp] theorem State.commit_firstErr (s : State) (fp : Footprint) (w : Work) : (s.commit fp w).firstErr = s.firstErr := rfl
@[simp] theorem State.commit_p0 (s : State) (fp : Footprint) (w : Work) : (s.commit fp w).p0 = s.p0 := rfl
@[simp] theorem State.commit_p1 (s : State) (fp : Footprint) (w : Work) : (s.commit fp w).p1 = s.p1 := rfl
@[simp] theorem State.commit_p2 (s : State) (fp : Footprint) (w : Work) : (s.commit fp w).p2 = s.p2 := rfl
@[simp] theorem State.commit_p3 (s : State) (fp : Footprint) (w : Work) : (s.commit fp w).p3 = s.p3 := rfl
@[simp] theorem State.commit_r0 (s : State) (fp : Footprint) (w : Work) : (s.commit fp w).r0 = s.r0 := rfl
@[simp] theorem State.commit_r1 (s : State) (fp : Footprint) (w : Work) : (s.commit fp w).r1 = s.r1 := rfl
@[simp] theorem State.commit_oob (s : State) (fp : Footprint) (w : Work) : (s.commit fp w).oob = s.oob := rfl
@[simp] theorem State.commit_refn (s : State) (fp : Footprint) (w : Work) : (s.commit fp w).refn = s.refn := rfl
@[simp] theorem State.commit_ref (s : State) (fp : Footprint) (w : Work) : (s.commit fp w).ref = s.ref := rfl
@[simp] theorem State.commit_sbase (s : State) (fp : Footprint) (w : Work) : (s.commit fp w).sbase = s.sbase := rfl
@[simp] theorem State.commit_slen (s : State) (fp : Footprint) (w : Work) : (s.commit fp w).slen = s.slen := rfl
@[simp] theorem State.commit_idlen (s : State) (fp : Footprint) (w : Work) : (s.commit fp w).idlen = s.idlen := rfl
@[simp] theorem State.commit_advalid (s : State) (fp : Footprint) (w : Work) : (s.commit fp w).advalid = s.advalid := rfl
@[simp] theorem State.commit_segstore (s : State) (fp : Footprint) (w : Work) : (s.commit fp w).segstore = s.segstore := rfl
@[simp] theorem State.commit_inmem (s : State) (fp : Footprint) (w : Work) : (s.commit fp w).inmem = s.inmem := rfl
@[simp] theorem State.commit_host (s : State) (fp : Footprint) (w : Work) : (s.commit fp w).host = s.host := rfl
@[simp] theorem State.commit_draws (s : State) (fp : Footprint) (w : Work) : (s.commit fp w).draws = s.draws := rfl

/-! ## `finishSegment` (`30_encoding.md` R96) -/

@[simp] theorem State.finishSegment_cfg (s : State) (r : SegmentResult) (t : State) : (s.finishSegment r t).cfg = t.cfg := rfl
@[simp] theorem State.finishSegment_cmd (s : State) (r : SegmentResult) (t : State) : (s.finishSegment r t).cmd = t.cmd := rfl
@[simp] theorem State.finishSegment_status (s : State) (r : SegmentResult) (t : State) : (s.finishSegment r t).status = t.status := rfl
@[simp] theorem State.finishSegment_err (s : State) (r : SegmentResult) (t : State) : (s.finishSegment r t).err = t.err := rfl
@[simp] theorem State.finishSegment_errPos (s : State) (r : SegmentResult) (t : State) : (s.finishSegment r t).errPos = t.errPos := rfl
@[simp] theorem State.finishSegment_firstErr (s : State) (r : SegmentResult) (t : State) : (s.finishSegment r t).firstErr = t.firstErr := rfl
@[simp] theorem State.finishSegment_p0 (s : State) (r : SegmentResult) (t : State) : (s.finishSegment r t).p0 = t.p0 := rfl
@[simp] theorem State.finishSegment_p1 (s : State) (r : SegmentResult) (t : State) : (s.finishSegment r t).p1 = t.p1 := rfl
@[simp] theorem State.finishSegment_p2 (s : State) (r : SegmentResult) (t : State) : (s.finishSegment r t).p2 = t.p2 := rfl
@[simp] theorem State.finishSegment_p3 (s : State) (r : SegmentResult) (t : State) : (s.finishSegment r t).p3 = t.p3 := rfl
@[simp] theorem State.finishSegment_r0 (s : State) (r : SegmentResult) (t : State) : (s.finishSegment r t).r0 = t.r0 := rfl
@[simp] theorem State.finishSegment_r1 (s : State) (r : SegmentResult) (t : State) : (s.finishSegment r t).r1 = t.r1 := rfl
@[simp] theorem State.finishSegment_oob (s : State) (r : SegmentResult) (t : State) : (s.finishSegment r t).oob = t.oob := rfl
@[simp] theorem State.finishSegment_refn (s : State) (r : SegmentResult) (t : State) : (s.finishSegment r t).refn = t.refn := rfl
@[simp] theorem State.finishSegment_ref (s : State) (r : SegmentResult) (t : State) : (s.finishSegment r t).ref = t.ref := rfl
@[simp] theorem State.finishSegment_sbase (s : State) (r : SegmentResult) (t : State) : (s.finishSegment r t).sbase = t.sbase := rfl
@[simp] theorem State.finishSegment_slen (s : State) (r : SegmentResult) (t : State) : (s.finishSegment r t).slen = t.slen := rfl
@[simp] theorem State.finishSegment_sp (s : State) (r : SegmentResult) (t : State) : (s.finishSegment r t).sp = BitVec.ofNat 36 (8 * s.windowEnd) := rfl
@[simp] theorem State.finishSegment_ad (s : State) (r : SegmentResult) (t : State) : (s.finishSegment r t).ad = t.ad := rfl
@[simp] theorem State.finishSegment_advalid (s : State) (r : SegmentResult) (t : State) : (s.finishSegment r t).advalid = false := rfl
@[simp] theorem State.finishSegment_cx (s : State) (r : SegmentResult) (t : State) : (s.finishSegment r t).cx = t.cx := rfl
@[simp] theorem State.finishSegment_stdTab (s : State) (r : SegmentResult) (t : State) : (s.finishSegment r t).stdTab = t.stdTab := rfl
@[simp] theorem State.finishSegment_inmem (s : State) (r : SegmentResult) (t : State) : (s.finishSegment r t).inmem = t.inmem := rfl
@[simp] theorem State.finishSegment_host (s : State) (r : SegmentResult) (t : State) : (s.finishSegment r t).host = t.host := rfl
@[simp] theorem State.finishSegment_draws (s : State) (r : SegmentResult) (t : State) : (s.finishSegment r t).draws = t.draws := rfl

/-! ## `raise` (`60_exceptions.md` R424): the fields every error leaves, and the error record -/

variable (s : State) (opc : BitVec 8) (fp : Footprint) (built : BitVec 16) (e : CoreError)

@[simp] theorem State.raise_cfg : (s.raise opc fp built e).cfg = s.cfg := by
  unfold State.raise State.abandon State.spoil State.setSlot
  split <;> [rfl; (split <;> rfl)]
@[simp] theorem State.raise_cmd : (s.raise opc fp built e).cmd = s.cmd := by
  unfold State.raise State.abandon State.spoil State.setSlot
  split <;> [rfl; (split <;> rfl)]
@[simp] theorem State.raise_p0 : (s.raise opc fp built e).p0 = s.p0 := by
  unfold State.raise State.abandon State.spoil State.setSlot
  split <;> [rfl; (split <;> rfl)]
@[simp] theorem State.raise_p1 : (s.raise opc fp built e).p1 = s.p1 := by
  unfold State.raise State.abandon State.spoil State.setSlot
  split <;> [rfl; (split <;> rfl)]
@[simp] theorem State.raise_p2 : (s.raise opc fp built e).p2 = s.p2 := by
  unfold State.raise State.abandon State.spoil State.setSlot
  split <;> [rfl; (split <;> rfl)]
@[simp] theorem State.raise_p3 : (s.raise opc fp built e).p3 = s.p3 := by
  unfold State.raise State.abandon State.spoil State.setSlot
  split <;> [rfl; (split <;> rfl)]
@[simp] theorem State.raise_refn : (s.raise opc fp built e).refn = s.refn := by
  unfold State.raise State.abandon State.spoil State.setSlot
  split <;> [rfl; (split <;> rfl)]
@[simp] theorem State.raise_ref : (s.raise opc fp built e).ref = s.ref := by
  unfold State.raise State.abandon State.spoil State.setSlot
  split <;> [rfl; (split <;> rfl)]
@[simp] theorem State.raise_sbase : (s.raise opc fp built e).sbase = s.sbase := by
  unfold State.raise State.abandon State.spoil State.setSlot
  split <;> [rfl; (split <;> rfl)]
@[simp] theorem State.raise_slen : (s.raise opc fp built e).slen = s.slen := by
  unfold State.raise State.abandon State.spoil State.setSlot
  split <;> [rfl; (split <;> rfl)]
@[simp] theorem State.raise_inmem : (s.raise opc fp built e).inmem = s.inmem := by
  unfold State.raise State.abandon State.spoil State.setSlot
  split <;> [rfl; (split <;> rfl)]
@[simp] theorem State.raise_host : (s.raise opc fp built e).host = s.host := by
  unfold State.raise State.abandon State.spoil State.setSlot
  split <;> [rfl; (split <;> rfl)]
@[simp] theorem State.raise_status : (s.raise opc fp built e).status = .error := rfl
@[simp] theorem State.raise_err : (s.raise opc fp built e).err = e.code := rfl
@[simp] theorem State.raise_errPos : (s.raise opc fp built e).errPos = s.sp := rfl
@[simp] theorem State.raise_firstErr :
    (s.raise opc fp built e).firstErr = if s.firstErr = 0 then firstErrWord s.p0 opc e else s.firstErr := rfl

end Sys2Proof.Machine
end

