-- ==== Sys2Proof/Laws/Ops.lean ====
section
/-! SUPPORT. What each shared operation over State can do: context arrays, the standard-table cache, taking an error, committing
a command. Provers cite these instead of unfolding the operations. -/

namespace Sys2Proof.Machine

/-! ## Context arrays -/

@[simp] theorem Contexts.arr_mapArr (f : Arr → CxArray → CxArray) (c : Contexts) (n : Arr) :
    (c.mapArr f).arr n = f n (c.arr n) := by
  cases n <;> rfl

@[simp] theorem Contexts.arr_setArr (c : Contexts) (n m : Arr) (x : CxArray) :
    (c.setArr n x).arr m = if n = m then x else c.arr m := by
  cases n <;> cases m <;> rfl

theorem Contexts.ext_arr {c d : Contexts} (h : ∀ n, c.arr n = d.arr n) : c = d := by
  obtain ⟨c1, c2, c3, c4, c5, c6, c7, c8, c9, c10, c11, c12, c13, c14, c15, c16⟩ := c
  obtain ⟨d1, d2, d3, d4, d5, d6, d7, d8, d9, d10, d11, d12, d13, d14, d15, d16⟩ := d
  have h1 := h .gb
  have h2 := h .gr
  have h3 := h .iadh
  have h4 := h .iadw
  have h5 := h .iaex
  have h6 := h .iaai
  have h7 := h .iadt
  have h8 := h .iafs
  have h9 := h .iads
  have h10 := h .iait
  have h11 := h .iari
  have h12 := h .iardw
  have h13 := h .iardh
  have h14 := h .iardx
  have h15 := h .iardy
  have h16 := h .iaid
  simp only [Contexts.arr] at *
  subst h1 h2 h3 h4 h5 h6 h7 h8 h9 h10 h11 h12 h13 h14 h15 h16
  rfl

theorem Contexts.mapArr_self (c : Contexts) (f : Arr → CxArray → CxArray) (h : ∀ n, f n (c.arr n) = c.arr n) :
    c.mapArr f = c :=
  Contexts.ext_arr fun n => by rw [Contexts.arr_mapArr, h n]

@[simp] theorem Contexts.arr_cleared (n : Arr) : Contexts.cleared.arr n = CxArray.cleared := by
  cases n <;> rfl

/-- A written entry reads back, and every other entry reads as before. -/
theorem CxArray.entry_setEntry (x : CxArray) (hx : SparseRising x.cells) (i j : Nat) (e : CxEntry) :
    (x.setEntry i e).entry j = if i = j then e else x.entry j := by
  obtain ⟨b, cells⟩ := x
  cases b with
  | fresh => exact sparseGetD_setD hx i j e
  | drawn k a =>
    simp only [CxArray.setEntry, CxArray.entry, sparseGetD, sparseFind_put]
    split <;> simp_all

@[simp] theorem CxArray.entry_cleared (i : Nat) : CxArray.cleared.entry i = { idx := 0, mps := false } := rfl

/-! ## The standard-table cache (`10_state.md` R36) -/

@[simp] theorem commitBuilt_zero (tab : List (Nat × Table)) : commitBuilt 0 tab = tab := by
  simp [commitBuilt, loopPure]

/-- Induction along a loop: what holds at its start and is kept by every turn holds at its end. -/
theorem loopPure_induct {σ : Type} (P : σ → Prop) (f : Nat → σ → σ) (lo hi : Nat)
    (hf : ∀ i s, lo ≤ i → i < hi → P s → P (f i s)) :
    ∀ (n i : Nat) (s : σ), lo ≤ i → i + n ≤ hi → P s → P (loopPure f n i s)
  | 0, _, _, _, _, h => h
  | n + 1, i, s, h1, h2, h =>
    loopPure_induct P f lo hi hf n (i + 1) (f i s) (by omega) (by omega) (hf i s h1 (by omega) h)

/-- A table that the cache lists stays, and a table it does not list is listed afterwards exactly where it was built. -/
theorem commitBuilt_find (built : BitVec 16) (tab : List (Nat × Table)) (k : Nat) :
    sparseFind (commitBuilt built tab) k =
      if 1 ≤ k ∧ k ≤ 15 ∧ built.getLsbD k = true ∧ sparseFind tab k = none then some (stdTable k)
      else sparseFind tab k := by
  have key : ∀ (n i : Nat) (t : List (Nat × Table)),
      sparseFind
        (loopPure
          (fun n tab => if built.getLsbD n && (sparseFind tab n).isNone then sparsePut tab n (stdTable n) else tab)
          n i t) k =
        if i ≤ k ∧ k < i + n ∧ built.getLsbD k = true ∧ sparseFind t k = none then some (stdTable k)
        else sparseFind t k := by
    intro n
    induction n with
    | zero =>
      intro i t
      rw [if_neg (by omega)]
      rfl
    | succ n ih =>
      intro i t
      rw [loopPure, ih]
      by_cases hik : i = k
      · subst hik
        by_cases hb : built.getLsbD i = true <;> cases hf : sparseFind t i <;> simp [hb, hf]
      · have hput : sparseFind
            (if built.getLsbD i && (sparseFind t i).isNone then sparsePut t i (stdTable i) else t) k =
              sparseFind t k := by
          split <;> simp [hik]
        rw [hput]
        congr 1
        simp only [eq_iff_iff]
        constructor <;> rintro ⟨h1, h2, h3⟩ <;> exact ⟨by omega, by omega, h3⟩
  unfold commitBuilt
  rw [key]
  congr 1
  simp only [eq_iff_iff]
  constructor <;> rintro ⟨h1, h2, h3⟩ <;> exact ⟨by omega, by omega, h3⟩

theorem commitBuilt_rising (built : BitVec 16) {tab : List (Nat × Table)} (h : SparseRising tab) :
    SparseRising (commitBuilt built tab) := by
  refine loopPure_induct SparseRising _ 1 16 (fun i t _ _ ht => ?_) 15 1 tab (by omega) (by omega) h
  split
  · exact sparsePut_rising ht _ _
  · exact ht

theorem mem_commitBuilt {built : BitVec 16} {tab : List (Nat × Table)} {p : Nat × Table}
    (h : p ∈ commitBuilt built tab) : p ∈ tab ∨ (1 ≤ p.1 ∧ p.1 ≤ 15 ∧ p.2 = stdTable p.1) := by
  revert h
  refine loopPure_induct
    (fun t => p ∈ t → p ∈ tab ∨ (1 ≤ p.1 ∧ p.1 ≤ 15 ∧ p.2 = stdTable p.1)) _ 1 16
    (fun i t h1 h2 ih => ?_) 15 1 tab (by omega) (by omega) .inl
  split
  · intro hp
    rcases mem_sparsePut hp with hp | hp
    · subst hp
      exact .inr ⟨h1, by omega, rfl⟩
    · exact ih hp
  · exact ih

/-! ## Committing a command -/

/-- The ways a command ends: its procedure completed and the state is committed, or it raised an error. -/
theorem runCommand_cases {α : Type} {opc : BitVec 8} {fp : Footprint} {body : Dec α} {post : α → State → State}
    {s t : State} (h : runCommand opc fp body post s = .next t) :
    (∃ v w, body s.work = .ok v w ∧ t = (post v (s.commit fp w)).completed) ∨
      ∃ e w, body s.work = .error e w ∧ t = s.raise opc fp w.built e := by
  unfold runCommand at h
  cases hb : body s.work with
  | ok v w => rw [hb] at h; cases h; exact .inl ⟨v, w, rfl, rfl⟩
  | error e w => rw [hb] at h; cases h; exact .inr ⟨e, w, rfl, rfl⟩

theorem runCommand_of_ok {α : Type} {opc : BitVec 8} {fp : Footprint} {body : Dec α} {post : α → State → State}
    {s : State} {v : α} {w : Work} (h : body s.work = .ok v w) :
    runCommand opc fp body post s = .next (post v (s.commit fp w)).completed := by
  unfold runCommand
  rw [h]

theorem runCommand_of_error {α : Type} {opc : BitVec 8} {fp : Footprint} {body : Dec α} {post : α → State → State}
    {s : State} {e : CoreError} {w : Work} (h : body s.work = .error e w) :
    runCommand opc fp body post s = .next (s.raise opc fp w.built e) := by
  unfold runCommand
  rw [h]

/-- Every command ends in a next state. -/
theorem runCommand_next {α : Type} (opc : BitVec 8) (fp : Footprint) (body : Dec α) (post : α → State → State)
    (s : State) : ∃ t, runCommand opc fp body post s = .next t := by
  unfold runCommand
  cases body s.work <;> exact ⟨_, rfl⟩

/-- A command that may write nothing but what its rule names, and used no standard table, commits nothing. -/
theorem State.commit_nothing (s : State) (w : Work) (hb : w.built = 0) : s.commit noFootprint w = s := by
  unfold State.commit noFootprint
  rw [hb, commitBuilt_zero, Contexts.mapArr_self _ _ fun n => if_neg (List.not_mem_nil)]
  rfl

theorem State.commit_sp (s : State) (fp : Footprint) (w : Work) :
    (s.commit fp w).sp = if fp.sp then BitVec.ofNat 36 w.sp else s.sp := rfl

theorem State.commit_ad (s : State) (fp : Footprint) (w : Work) :
    (s.commit fp w).ad = if fp.ad then w.ad else s.ad := rfl

theorem State.commit_arr (s : State) (fp : Footprint) (w : Work) (n : Arr) :
    (s.commit fp w).cx.arr n = if n ∈ fp.arrs then w.cx.arr n else s.cx.arr n :=
  Contexts.arr_mapArr _ _ _

theorem State.commit_stdTab (s : State) (fp : Footprint) (w : Work) :
    (s.commit fp w).stdTab = commitBuilt w.built s.stdTab := rfl

/-! ## Taking an error (`60_exceptions.md` R424, R426) -/

/-- An IllegalCommand changes the error registers and STATUS, and nothing else. -/
theorem State.raise_illegal (s : State) (opc : BitVec 8) (fp : Footprint) (built : BitVec 16) :
    s.raise opc fp built .illegalCommand =
      { s with
        errPos := s.sp
        firstErr := if s.firstErr = 0 then firstErrWord s.p0 opc .illegalCommand else s.firstErr
        err := 6
        status := .error } := rfl

theorem State.raise_abandon (s : State) (opc : BitVec 8) (fp : Footprint) (built : BitVec 16) {e : CoreError}
    (he : e ≠ .illegalCommand) :
    s.raise opc fp built e =
      { s.abandon fp built with
        errPos := s.sp
        firstErr := if s.firstErr = 0 then firstErrWord s.p0 opc e else s.firstErr
        err := e.code
        status := .error } := by
  unfold State.raise
  rw [if_neg he]

variable (s : State) (opc : BitVec 8) (fp : Footprint) (built : BitVec 16) (e : CoreError)

theorem State.raise_advalid :
    (s.raise opc fp built e).advalid = if e = .illegalCommand then s.advalid else false := by
  unfold State.raise
  split <;> rfl

theorem State.raise_sp (h : fp.sp = false) : (s.raise opc fp built e).sp = s.sp := by
  unfold State.raise State.abandon State.spoil State.setSlot
  rw [h]
  split <;> [rfl; (split <;> rfl)]

theorem State.raise_r0 (h : fp.r0 = false) : (s.raise opc fp built e).r0 = s.r0 := by
  unfold State.raise State.abandon State.spoil State.setSlot
  rw [h]
  split <;> [rfl; (split <;> rfl)]

theorem State.raise_r1 (h : fp.r1 = false) : (s.raise opc fp built e).r1 = s.r1 := by
  unfold State.raise State.abandon State.spoil State.setSlot
  rw [h]
  split <;> [rfl; (split <;> rfl)]

theorem State.raise_oob (h : fp.oob = false) : (s.raise opc fp built e).oob = s.oob := by
  unfold State.raise State.abandon State.spoil State.setSlot
  rw [h]
  split <;> [rfl; (split <;> rfl)]

theorem State.raise_ad (h : fp.ad = false) : (s.raise opc fp built e).ad = s.ad := by
  unfold State.raise State.abandon State.spoil State.setSlot
  rw [h]
  split <;> [rfl; (split <;> rfl)]

theorem State.raise_idlen (h : fp.idlen = false) : (s.raise opc fp built e).idlen = s.idlen := by
  unfold State.raise State.abandon State.spoil State.setSlot
  rw [h]
  split <;> [rfl; (split <;> rfl)]

theorem State.raise_arr (n : Arr) (h : n ∉ fp.arrs) : (s.raise opc fp built e).cx.arr n = s.cx.arr n := by
  unfold State.raise State.abandon State.spoil State.setSlot
  split
  · rfl
  · split <;> exact (Contexts.arr_mapArr _ _ _).trans (if_neg h)

theorem State.raise_segstore :
    (s.raise opc fp built e).segstore =
      if e ≠ .illegalCommand ∧ fp.segment = true then sparseSetD .empty s.segstore s.dst .empty else s.segstore := by
  unfold State.raise State.abandon State.spoil State.setSlot
  by_cases he : e = .illegalCommand <;> by_cases hs : fp.segment = true <;> simp [he, hs]

theorem State.raise_stdTab :
    (s.raise opc fp built e).stdTab =
      if e ≠ .illegalCommand ∧ Config.freeKeepBuilt s.draws = true then commitBuilt built s.stdTab else s.stdTab := by
  unfold State.raise State.abandon State.spoil State.setSlot
  by_cases he : e = .illegalCommand <;> by_cases hk : Config.freeKeepBuilt s.draws = true <;>
    by_cases hs : fp.segment = true <;> simp [he, hk, hs]

/-- SP stays inside the bound stream after an error that leaves it unspecified. -/
theorem State.raise_sp_le (h : s.sp.toNat ≤ 8 * s.slen.toNat) :
    (s.raise opc fp built e).sp.toNat ≤ 8 * s.slen.toNat := by
  by_cases he : e = .illegalCommand
  · subst he; exact h
  · rw [State.raise_abandon _ _ _ _ he]
    unfold State.abandon State.spoil State.setSlot
    have hs : ∀ k, (BitVec.ofNat 36 (k % (8 * s.slen.toNat + 1))).toNat ≤ 8 * s.slen.toNat := by
      intro k
      rw [BitVec.toNat_ofNat]
      exact (Nat.mod_le _ _).trans (Nat.lt_succ_iff.mp (Nat.mod_lt _ (Nat.succ_pos _)))
    split <;> (dsimp only; split <;> [exact hs _; exact h])

/-- IDLEN stays in its range after an error that leaves it unspecified. -/
theorem State.raise_idlen_le (h : s.idlen.toNat ≤ ceilLog2 s.cfg.maxsyms) :
    (s.raise opc fp built e).idlen.toNat ≤ ceilLog2 s.cfg.maxsyms := by
  by_cases he : e = .illegalCommand
  · subst he; exact h
  · rw [State.raise_abandon _ _ _ _ he]
    unfold State.abandon State.spoil State.setSlot
    have hs : ∀ k, (BitVec.ofNat 6 (k % (ceilLog2 s.cfg.maxsyms + 1))).toNat ≤ ceilLog2 s.cfg.maxsyms := by
      intro k
      rw [BitVec.toNat_ofNat]
      exact (Nat.mod_le _ _).trans (Nat.lt_succ_iff.mp (Nat.mod_lt _ (Nat.succ_pos _)))
    split <;> (dsimp only; split <;> [exact hs _; exact h])

end Sys2Proof.Machine
end

