-- ==== Sys2Proof/Laws/Stream.lean ====
section
/-! SUPPORT. The bit and byte reader: what a read gives and where it leaves the cursor. -/

namespace Sys2Proof.Machine

theorem inByte_ok {E : Env} {i : Nat} (h1 : E.wb ≤ i) (h2 : i < E.we) (w : Work) :
    inByte E i w = .ok (memByte E.inmem (E.base + i)) w := by
  unfold inByte
  rw [if_neg (by omega)]
  rfl

theorem inByte_error {E : Env} {i : Nat} (h : i < E.wb ∨ E.we ≤ i) (w : Work) :
    inByte E i w = .error .unexpectedEndOfData w := by
  unfold inByte
  rw [if_pos h]
  rfl

/-- A read of one byte changes nothing, whatever it gives. -/
theorem inByte_keeps {I : Work → Prop} {X : CoreError → Prop} (E : Env) (i : Nat) (hX : X .unexpectedEndOfData) :
    Keeps I X (fun _ => True) (inByte E i) := by
  unfold inByte
  exact .ite (fun _ => .throw hX) fun _ => .pure trivial

/-- Bit `p` of the bound stream as an environment reads it. -/
def Env.bit (E : Env) (p : Nat) : Bool := (memByte E.inmem (E.base + p / 8)).getLsbD (7 - p % 8)

/-- `n` bits from bit `p` on, put after `r`. -/
def Env.bitsOnto (E : Env) (p : Nat) : (n r : Nat) → Nat
  | 0, r => r
  | n + 1, r => E.bitsOnto (p + 1) n (2 * r + (E.bit p).toNat)

theorem readBit_ok {E : Env} {w : Work} (h1 : E.wb ≤ w.sp / 8) (h2 : w.sp < 8 * E.we) :
    readBit E w = .ok (E.bit w.sp).toNat { w with sp := w.sp + 1 } := by
  unfold readBit
  rw [Dec.run_bind, Dec.run_get]
  dsimp only
  rw [Dec.run_bind, inByte_ok h1 (by omega)]
  rfl

theorem readBit_error {E : Env} {w : Work} (h : 8 * E.we ≤ w.sp) :
    readBit E w = .error .unexpectedEndOfData w := by
  unfold readBit
  rw [Dec.run_bind, Dec.run_get]
  dsimp only
  rw [Dec.run_bind, inByte_error (.inr (by omega))]

theorem readBitsOnto_ok {E : Env} (n : Nat) :
    ∀ (r : Nat) (w : Work), E.wb ≤ w.sp / 8 → w.sp + n ≤ 8 * E.we →
      readBitsOnto E n r w = .ok (E.bitsOnto w.sp n r) { w with sp := w.sp + n } := by
  induction n with
  | zero => intro r w _ _; rfl
  | succ n ih =>
    intro r w h1 h2
    unfold readBitsOnto
    rw [Dec.run_bind, readBit_ok h1 (by omega)]
    dsimp only
    rw [ih _ _ (by dsimp only; omega) (by dsimp only; omega)]
    simp only [Env.bitsOnto, Nat.add_assoc, Nat.add_comm 1 n]

theorem readBits_ok {E : Env} {n : Nat} {w : Work} (h1 : E.wb ≤ w.sp / 8) (h2 : w.sp + n ≤ 8 * E.we) :
    readBits E n w = .ok (E.bitsOnto w.sp n 0) { w with sp := w.sp + n } :=
  readBitsOnto_ok n 0 w h1 h2

/-- A read that runs out of the window raises UnexpectedEndOfData at its end. -/
theorem readBitsOnto_error {E : Env} (n : Nat) :
    ∀ (r : Nat) (w : Work), E.wb ≤ w.sp / 8 → w.sp ≤ 8 * E.we → 8 * E.we < w.sp + n →
      readBitsOnto E n r w = .error .unexpectedEndOfData { w with sp := 8 * E.we } := by
  induction n with
  | zero => intro r w _ h2 h3; omega
  | succ n ih =>
    intro r w h1 h2 h3
    unfold readBitsOnto
    by_cases h : w.sp = 8 * E.we
    · rw [Dec.run_bind, readBit_error (by omega), ← h]
    · rw [Dec.run_bind, readBit_ok h1 (by omega)]
      dsimp only
      rw [ih _ _ (by dsimp only; omega) (by dsimp only; omega) (by dsimp only; omega)]

theorem readBits_error {E : Env} {n : Nat} {w : Work} (h1 : E.wb ≤ w.sp / 8) (h2 : w.sp ≤ 8 * E.we)
    (h3 : 8 * E.we < w.sp + n) :
    readBits E n w = .error .unexpectedEndOfData { w with sp := 8 * E.we } :=
  readBitsOnto_error n 0 w h1 h2 h3

theorem Env.bitsOnto_succ (E : Env) (n : Nat) :
    ∀ p r, E.bitsOnto p (n + 1) r = 2 * E.bitsOnto p n r + (E.bit (p + n)).toNat := by
  induction n with
  | zero => intro p r; rfl
  | succ n ih =>
    intro p r
    rw [Env.bitsOnto, ih, Env.bitsOnto, Nat.add_assoc, Nat.add_comm 1 n]

/-- Reading `n + m` bits is reading `n` and then `m`. -/
theorem Env.bitsOnto_add (E : Env) (n m : Nat) :
    ∀ p r, E.bitsOnto p (n + m) r = E.bitsOnto (p + n) m (E.bitsOnto p n r) := by
  induction n with
  | zero => intro p r; simp [Env.bitsOnto]
  | succ n ih =>
    intro p r
    rw [Nat.succ_add, Env.bitsOnto, ih, Env.bitsOnto, Nat.add_assoc, Nat.add_comm 1 n]

theorem Env.bitsOnto_split (E : Env) (n : Nat) : ∀ p r, E.bitsOnto p n r = r * 2 ^ n + E.bitsOnto p n 0 := by
  induction n with
  | zero => intro p r; simp [Env.bitsOnto]
  | succ n ih =>
    intro p r
    rw [Env.bitsOnto, Env.bitsOnto, ih _ (2 * r + _), ih _ (2 * 0 + _), pow_succ]
    ring

/-- A field of `n` bits is below 2^n. -/
theorem Env.bitsOnto_lt (E : Env) (n p : Nat) : E.bitsOnto p n 0 < 2 ^ n := by
  induction n with
  | zero => simp [Env.bitsOnto]
  | succ n ih =>
    rw [Env.bitsOnto_succ, pow_succ]
    have := (E.bit (p + n)).toNat_le
    omega

theorem Env.bitsOnto_eq_foldl (E : Env) (n p : Nat) :
    E.bitsOnto p n 0 = (List.range n).foldl (fun v k => 2 * v + (E.bit (p + k)).toNat) 0 := by
  induction n with
  | zero => rfl
  | succ n ih => rw [Env.bitsOnto_succ, List.range_succ, List.foldl_append, ih]; rfl

@[simp] theorem State.streamEnv_bitsOnto (s : State) (p n : Nat) :
    s.streamEnv.bitsOnto p n 0 = s.streamNum p n :=
  Env.bitsOnto_eq_foldl _ _ _

@[simp] theorem State.segmentEnv_bitsOnto (s : State) (p n : Nat) :
    s.segmentEnv.bitsOnto p n 0 = s.streamNum p n :=
  Env.bitsOnto_eq_foldl _ _ _

theorem State.streamNum_lt (s : State) (p n : Nat) : s.streamNum p n < 2 ^ n := by
  rw [← State.streamEnv_bitsOnto]
  exact Env.bitsOnto_lt _ _ _

/-- The first bit of a field and the rest. -/
theorem State.streamNum_add (s : State) (p n m : Nat) :
    s.streamNum p (n + m) = s.streamNum p n * 2 ^ m + s.streamNum (p + n) m := by
  simp only [← State.streamEnv_bitsOnto]
  rw [Env.bitsOnto_add, Env.bitsOnto_split]

/-- Eight bits from a byte boundary are the byte there. -/
theorem State.streamNum_byte (s : State) (i : Nat) : s.streamNum (8 * i) 8 = (s.streamByte i).toNat := by
  have h : ∀ k < 8, s.streamBit (8 * i + k) = (s.streamByte i).getLsbD (7 - k) := by
    intro k hk
    unfold State.streamBit
    rw [show (8 * i + k) / 8 = i by omega, show (8 * i + k) % 8 = k by omega]
  simp only [State.streamNum, List.range_succ, List.range_zero, List.foldl_append, List.foldl_nil, List.foldl_cons,
    List.nil_append, h 0 (by omega), h 1 (by omega), h 2 (by omega), h 3 (by omega), h 4 (by omega), h 5 (by omega),
    h 6 (by omega), h 7 (by omega)]
  generalize s.streamByte i = b
  revert b
  decide

theorem readBits_keeps {I : Work → Prop} {X : CoreError → Prop} (E : Env) (hX : X .unexpectedEndOfData)
    (hI : ∀ w sp, I w → I { w with sp := sp }) (n : Nat) : Keeps I X (fun _ => True) (readBits E n) := by
  have hb : Keeps I X (fun _ => True) (readBit E) :=
    Keeps.get.bind fun w hw =>
      (inByte_keeps E _ hX).bind fun v _ => (Keeps.set (hI w _ hw)).bind fun _ _ => .pure trivial
  have : ∀ n r, Keeps I X (fun _ => True) (readBitsOnto E n r) := by
    intro n
    induction n with
    | zero => exact fun r => .pure trivial
    | succ n ih => exact fun r => hb.bind fun v _ => ih _
  exact this n 0

/-- Every field read is below 2^n. -/
theorem readBits_lt {E : Env} {n v : Nat} {w w' : Work} (h : readBits E n w = .ok v w') : v < 2 ^ n := by
  have : ∀ n r v w w', readBitsOnto E n r w = .ok v w' → v < (r + 1) * 2 ^ n := by
    intro n
    induction n with
    | zero =>
      intro r v w w' h
      cases h
      simp
    | succ n ih =>
      intro r v w w' h
      obtain ⟨b, u, hb, h⟩ := Dec.bind_ok h
      have hv := ih _ _ _ _ h
      have hb1 : b ≤ 1 := by
        obtain ⟨x, y, h1, h2⟩ := Dec.bind_ok hb
        obtain ⟨x2, y2, h3, h4⟩ := Dec.bind_ok h2
        obtain ⟨x3, y3, h5, h6⟩ := Dec.bind_ok h4
        cases h6
        exact Bool.toNat_le _
      rw [pow_succ]
      calc v < (2 * r + b + 1) * 2 ^ n := hv
        _ ≤ (r + 1) * (2 ^ n * 2) := by nlinarith [Nat.two_pow_pos n]
  have := this n 0 v w w' h
  simpa using this

end Sys2Proof.Machine
end

