-- ==== Sys2Proof/Laws/Arith.lean ====
section
/-! SUPPORT. The arithmetic decoder: what a refill, a renormalisation, a start and a bit decode can do. -/

namespace Sys2Proof.Machine

/-! ## The probability table (`41_arith.md` R140) -/

/-- Every estimate is at least 1 and at most 0x5601. -/
theorem qe_range (i : Fin 47) : 1 ≤ (qe i).qe.toNat ∧ (qe i).qe.toNat ≤ 0x5601 := by
  revert i
  decide

/-! ## What holds through a decode -/

variable {E : Env} {I : Work → Prop} {X : CoreError → Prop}

/-- The facts a refill may not disturb: those that do not speak of C, CT, B, BP. -/
theorem byteIn_keeps (hX : X .unexpectedEndOfData)
    (hI : ∀ (w : Work) c ct b bp, I w → I { w with ad := { w.ad with c := c, ct := ct, b := b, bp := bp } }) :
    Keeps I X (fun _ => True) (byteIn E) := by
  unfold byteIn
  refine Keeps.get.bind fun w hw => ?_
  split
  · refine (inByte_keeps E _ hX).bind fun b1 _ => ?_
    split
    · exact .set (hI w _ _ w.ad.b w.ad.bp hw)
    · exact .set (hI w _ _ _ _ hw)
  · refine (inByte_keeps E _ hX).bind fun b _ => ?_
    exact .set (hI w _ _ _ _ hw)

theorem renormUpTo_keeps (hb : Keeps I X (fun _ => True) (byteIn E))
    (hs : ∀ w : Work, I w → I { w with ad := renormShift w.ad }) :
    ∀ n, Keeps I X (fun _ => True) (renormUpTo E n)
  | 0 => .pure trivial
  | n + 1 => by
    unfold renormUpTo
    refine Keeps.get.bind fun w _ => ?_
    have rest : Keeps I X (fun _ => True) (do
        modify fun w => { w with ad := renormShift w.ad }
        let w ← get
        if w.ad.a < 0x8000 then renormUpTo E n else pure ()) := by
      refine (Keeps.modify hs).bind fun _ _ => ?_
      refine Keeps.get.bind fun w _ => ?_
      split
      · exact renormUpTo_keeps hb hs n
      · exact .pure trivial
    split
    · exact hb.bind fun _ _ => rest
    · exact rest

/-- A bit decode keeps what its refills keep, its shifts keep, and a write of A, C and of one entry of its array keeps. -/
theorem adDecode_keeps {arr : Arr} {i : Nat} (hb : Keeps I X (fun _ => True) (byteIn E))
    (hs : ∀ w : Work, I w → I { w with ad := renormShift w.ad })
    (ha : ∀ (w : Work) a c, I w → I { w with ad := { w.ad with a := a, c := c } })
    (he : ∀ (w : Work) e, I w → I (w.setEntry arr i e)) :
    Keeps I X (fun _ => True) (adDecode E arr i) := by
  unfold adDecode
  refine Keeps.get.bind fun w hw => ?_
  refine .ite (fun _ => ?_) fun _ => ?_
  · refine (Keeps.set (he _ _ (ha w _ w.ad.c hw))).bind fun _ _ => ?_
    exact (renormUpTo_keeps hb hs 16).bind fun _ _ => .pure trivial
  · refine .ite (fun _ => ?_) fun _ => ?_
    · refine (Keeps.set (he _ _ (ha w _ _ hw))).bind fun _ _ => ?_
      exact (renormUpTo_keeps hb hs 16).bind fun _ _ => .pure trivial
    · exact (Keeps.set (ha w _ _ hw)).bind fun _ _ => .pure trivial

theorem adInitAt_keeps (hX : X .unexpectedEndOfData) (hI : ∀ (w : Work) r, I w → I { w with ad := r }) (i : Nat) :
    Keeps I X (fun _ => True) (adInitAt E i) := by
  unfold adInitAt
  refine (inByte_keeps E _ hX).bind fun b _ => ?_
  refine (Keeps.modify fun w hw => hI w _ hw).bind fun _ _ => ?_
  refine (byteIn_keeps hX fun w c ct b bp hw => hI w _ hw).bind fun _ _ => ?_
  exact .modify fun w hw => hI w _ hw

@[simp] theorem Work.setEntry_sp (w : Work) (arr : Arr) (i : Nat) (e : CxEntry) : (w.setEntry arr i e).sp = w.sp := rfl

@[simp] theorem Work.setEntry_ad (w : Work) (arr : Arr) (i : Nat) (e : CxEntry) : (w.setEntry arr i e).ad = w.ad := rfl

@[simp] theorem Work.setEntry_built (w : Work) (arr : Arr) (i : Nat) (e : CxEntry) :
    (w.setEntry arr i e).built = w.built := rfl

theorem Work.setEntry_arr (w : Work) (arr n : Arr) (i : Nat) (e : CxEntry) :
    (w.setEntry arr i e).cx.arr n = if arr = n then (w.cx.arr arr).setEntry i e else w.cx.arr n :=
  Contexts.arr_setArr _ _ _ _

theorem CxArray.setEntry_canonical {x : CxArray} (hx : x.Canonical) (i : Nat) (e : CxEntry) :
    (x.setEntry i e).Canonical := by
  obtain ⟨b, cells⟩ := x
  cases b with
  | fresh => exact sparseSetD_wf hx i e
  | drawn k a => exact sparsePut_rising hx i e

theorem CxArray.Canonical.rising {x : CxArray} (hx : x.Canonical) : SparseRising x.cells := by
  obtain ⟨b, cells⟩ := x
  cases b with
  | fresh => exact hx.1
  | drawn k a => exact hx

/-- A bit decode keeps the canonical form of the arrays, the cursor, the tables used and every other array, and its only
error is UnexpectedEndOfData. -/
theorem adDecode_frame (w0 : Work) (arr : Arr) (i : Nat) :
    Keeps
      (fun w => w.sp = w0.sp ∧ w.built = w0.built ∧ (∀ n, n ≠ arr → w.cx.arr n = w0.cx.arr n) ∧
        (w0.cx.Canonical → w.cx.Canonical))
      (fun e => e = .unexpectedEndOfData) (fun _ => True) (adDecode E arr i) := by
  refine adDecode_keeps (byteIn_keeps rfl fun w c ct b bp h => h) (fun w h => h) (fun w a c h => h) ?_
  rintro w e ⟨h1, h2, h3, h4⟩
  refine ⟨h1, h2, fun n hn => ?_, fun hc n => ?_⟩
  · rw [Work.setEntry_arr, if_neg (Ne.symm hn), h3 n hn]
  · rw [Work.setEntry_arr]
    split
    · exact CxArray.setEntry_canonical (h4 hc arr) _ _
    · exact h4 hc n

/-! ## The marker (`41_arith.md` R142, R148) -/

/-- A marker at byte `j` of the window. -/
structure MarkerAt (E : Env) (j : Nat) : Prop where
  low : E.wb ≤ j
  high : j + 1 < E.we
  wide : E.we ≤ 2 ^ 32
  ff : memByte E.inmem (E.base + j) = 0xFF
  code : 0x8F < memByte E.inmem (E.base + (j + 1))

/-- The decoder has not passed the marker at `j`, and B is the byte at BP. -/
def Fed (E : Env) (j : Nat) (w : Work) : Prop :=
  E.wb ≤ w.ad.bp.toNat ∧ w.ad.bp.toNat ≤ j ∧ w.ad.b = memByte E.inmem (E.base + w.ad.bp.toNat)

/-- With a marker ahead a refill never faults, and does not pass the marker. -/
theorem byteIn_fed {j : Nat} (hm : MarkerAt E j) {w : Work} (hw : Fed E j w) :
    ∃ w', byteIn E w = .ok () w' ∧ Fed E j w' ∧ w'.sp = w.sp ∧ w'.cx = w.cx ∧ w'.built = w.built ∧
      w'.ad.a = w.ad.a ∧ (w'.ad.ct = 7 ∨ w'.ad.ct = 8) ∧
      (w.ad.bp.toNat = j → w'.ad.bp = w.ad.bp ∧ w'.ad.b = w.ad.b) := by
  obtain ⟨h1, h2, h3⟩ := hw
  have hj1 := hm.high
  have hj2 := hm.wide
  have hnext : w.ad.bp.toNat ≠ j → (BitVec.ofNat 32 (w.ad.bp.toNat + 1)).toNat = w.ad.bp.toNat + 1 := by
    intro h
    rw [BitVec.toNat_ofNat, Nat.mod_eq_of_lt (by omega)]
  unfold byteIn
  rw [Dec.run_bind, Dec.run_get]
  dsimp only
  by_cases hj : w.ad.bp.toNat = j
  · have hff : w.ad.b = 0xFF := by rw [h3, hj]; exact hm.ff
    rw [if_pos hff, Dec.run_bind, inByte_ok (by omega) (by omega)]
    dsimp only
    rw [hj, if_pos hm.code]
    exact ⟨_, rfl, ⟨h1, h2, h3⟩, rfl, rfl, rfl, rfl, .inr rfl, fun _ => ⟨rfl, rfl⟩⟩
  · split
    · rw [Dec.run_bind, inByte_ok (by omega) (by omega)]
      dsimp only
      split
      · exact ⟨_, rfl, ⟨h1, h2, h3⟩, rfl, rfl, rfl, rfl, .inr rfl, fun h => absurd h hj⟩
      · refine ⟨_, rfl, ⟨?_, ?_, ?_⟩, rfl, rfl, rfl, rfl, .inl rfl, fun h => absurd h hj⟩
        · dsimp only; rw [hnext hj]; omega
        · dsimp only; rw [hnext hj]; omega
        · dsimp only; rw [hnext hj]
    · rw [Dec.run_bind, inByte_ok (by omega) (by omega)]
      dsimp only
      refine ⟨_, rfl, ⟨?_, ?_, ?_⟩, rfl, rfl, rfl, rfl, .inr rfl, fun h => absurd h hj⟩
      · dsimp only; rw [hnext hj]; omega
      · dsimp only; rw [hnext hj]; omega
      · dsimp only; rw [hnext hj]

theorem byteIn_keeps_fed {j : Nat} (hm : MarkerAt E j) :
    Keeps (Fed E j) (fun _ => False) (fun _ => True) (byteIn E) := by
  intro w hw
  obtain ⟨w', h, hf, -⟩ := byteIn_fed hm hw
  rw [h]
  exact ⟨trivial, hf⟩

/-- With a marker ahead every bit decode completes. -/
theorem adDecode_fed {j : Nat} (hm : MarkerAt E j) (arr : Arr) (i : Nat) :
    Keeps (Fed E j) (fun _ => False) (fun _ => True) (adDecode E arr i) :=
  adDecode_keeps (byteIn_keeps_fed hm) (fun _ h => h) (fun _ _ _ h => h) fun _ _ h => h

/-! ## Starting the decoder (`41_arith.md` R141) -/

/-- A start whose first byte is not 0xFF. -/
theorem adInitAt_plain {i : Nat} {w : Work} (h1 : E.wb ≤ i) (h2 : i + 1 < E.we) (h3 : E.we ≤ 2 ^ 32)
    (hb : memByte E.inmem (E.base + i) ≠ 0xFF) :
    adInitAt E i w =
      .ok ()
        { w with
          ad :=
            { c := ((memByte E.inmem (E.base + i)).setWidth 32 <<< 16 +
                (memByte E.inmem (E.base + (i + 1))).setWidth 32 <<< 8) <<< 7
              a := 0x8000, ct := 1, b := memByte E.inmem (E.base + (i + 1)), bp := BitVec.ofNat 32 (i + 1) } } := by
  have hi : (BitVec.ofNat 32 i).toNat = i := by rw [BitVec.toNat_ofNat, Nat.mod_eq_of_lt (by omega)]
  unfold adInitAt byteIn
  rw [Dec.run_bind, inByte_ok h1 (by omega)]
  dsimp only
  rw [Dec.run_bind, Dec.run_modify]
  dsimp only
  rw [Dec.run_bind, Dec.run_bind, Dec.run_get]
  dsimp only
  rw [if_neg hb, Dec.run_bind, hi, inByte_ok (by omega) (by omega)]
  dsimp only
  rw [Dec.run_set]
  dsimp only
  rw [Dec.run_modify]
  dsimp only
  congr

/-- A start on 0xFF and a byte that is no marker code. -/
theorem adInitAt_stuffed {i : Nat} {w : Work} (h1 : E.wb ≤ i) (h2 : i + 1 < E.we) (h3 : E.we ≤ 2 ^ 32)
    (hb : memByte E.inmem (E.base + i) = 0xFF) (hc : ¬0x8F < memByte E.inmem (E.base + (i + 1))) :
    adInitAt E i w =
      .ok ()
        { w with
          ad :=
            { c := ((0xFF : BitVec 32) <<< 16 + (memByte E.inmem (E.base + (i + 1))).setWidth 32 <<< 9) <<< 7
              a := 0x8000, ct := 0, b := memByte E.inmem (E.base + (i + 1)), bp := BitVec.ofNat 32 (i + 1) } } := by
  have hi : (BitVec.ofNat 32 i).toNat = i := by rw [BitVec.toNat_ofNat, Nat.mod_eq_of_lt (by omega)]
  unfold adInitAt byteIn
  rw [Dec.run_bind, inByte_ok h1 (by omega)]
  dsimp only
  rw [Dec.run_bind, Dec.run_modify]
  dsimp only
  rw [Dec.run_bind, Dec.run_bind, Dec.run_get]
  dsimp only
  rw [if_pos hb, Dec.run_bind, hi, inByte_ok (by omega) (by omega)]
  dsimp only
  rw [if_neg hc, hb, Dec.run_set]
  dsimp only
  rw [Dec.run_modify]
  dsimp only
  congr

/-- A start on a marker: BP and B stay. -/
theorem adInitAt_marker {i : Nat} {w : Work} (h1 : E.wb ≤ i) (h2 : i + 1 < E.we) (h3 : E.we ≤ 2 ^ 32)
    (hb : memByte E.inmem (E.base + i) = 0xFF) (hc : 0x8F < memByte E.inmem (E.base + (i + 1))) :
    adInitAt E i w =
      .ok ()
        { w with ad := { c := 0x7FFF8000, a := 0x8000, ct := 1, b := 0xFF, bp := BitVec.ofNat 32 i } } := by
  have hi : (BitVec.ofNat 32 i).toNat = i := by rw [BitVec.toNat_ofNat, Nat.mod_eq_of_lt (by omega)]
  unfold adInitAt byteIn
  rw [Dec.run_bind, inByte_ok h1 (by omega)]
  dsimp only
  rw [Dec.run_bind, Dec.run_modify]
  dsimp only
  rw [Dec.run_bind, Dec.run_bind, Dec.run_get]
  dsimp only
  rw [if_pos hb, Dec.run_bind, hi, inByte_ok (by omega) (by omega)]
  dsimp only
  rw [if_pos hc, hb, Dec.run_set]
  dsimp only
  rw [Dec.run_modify]
  dsimp only
  congr

/-- A start needs two bytes in the window. -/
theorem adInitAt_error {i : Nat} (w : Work) (h : i < E.wb ∨ E.we ≤ i + 1) (h3 : E.we ≤ 2 ^ 32) :
    ∃ w', adInitAt E i w = .error .unexpectedEndOfData w' ∧ w'.built = w.built := by
  unfold adInitAt byteIn
  by_cases hw : i < E.wb ∨ E.we ≤ i
  · rw [Dec.run_bind, inByte_error hw]
    exact ⟨_, rfl, rfl⟩
  · have hi : (BitVec.ofNat 32 i).toNat = i := by rw [BitVec.toNat_ofNat, Nat.mod_eq_of_lt (by omega)]
    rw [Dec.run_bind, inByte_ok (by omega) (by omega)]
    dsimp only
    rw [Dec.run_bind, Dec.run_modify]
    dsimp only
    rw [Dec.run_bind, Dec.run_bind, Dec.run_get]
    dsimp only
    rw [hi]
    by_cases hb : memByte E.inmem (E.base + i) = 0xFF
    · rw [if_pos hb, Dec.run_bind, inByte_error (by omega)]
      exact ⟨_, rfl, rfl⟩
    · rw [if_neg hb, Dec.run_bind, inByte_error (by omega)]
      exact ⟨_, rfl, rfl⟩

/-- A start before a marker in the window completes, and leaves the decoder before the marker. -/
theorem adInitAt_fed {i j : Nat} (hm : MarkerAt E j) (h1 : E.wb ≤ i) (h2 : i ≤ j) (w : Work) :
    ∃ w', adInitAt E i w = .ok () w' ∧ Fed E j w' ∧ w'.sp = w.sp ∧ w'.cx = w.cx ∧ w'.built = w.built ∧
      w'.ad.a = 0x8000 ∧ w'.ad.ct ≤ 1 := by
  have hj1 := hm.high
  have hj2 := hm.wide
  have hi : ∀ k, k ≤ j → (BitVec.ofNat 32 k).toNat = k := fun k hk => by
    rw [BitVec.toNat_ofNat, Nat.mod_eq_of_lt (by omega)]
  by_cases hb : memByte E.inmem (E.base + i) = 0xFF
  · by_cases hc : 0x8F < memByte E.inmem (E.base + (i + 1))
    · refine ⟨_, adInitAt_marker h1 (by omega) hj2 hb hc, ⟨?_, ?_, ?_⟩, rfl, rfl, rfl, rfl, ?_⟩
      · rw [hi i h2]; exact h1
      · rw [hi i h2]; exact h2
      · rw [hi i h2]; exact hb.symm
      · exact (by decide : (1 : BitVec 4) ≤ 1)
    · have hne : i ≠ j := fun h => hc (h ▸ hm.code)
      refine ⟨_, adInitAt_stuffed h1 (by omega) hj2 hb hc, ⟨?_, ?_, ?_⟩, rfl, rfl, rfl, rfl, ?_⟩
      · rw [hi (i + 1) (by omega)]; omega
      · rw [hi (i + 1) (by omega)]; omega
      · rw [hi (i + 1) (by omega)]
      · exact (by decide : (0 : BitVec 4) ≤ 1)
  · have hne : i ≠ j := fun h => hb (h ▸ hm.ff)
    refine ⟨_, adInitAt_plain h1 (by omega) hj2 hb, ⟨?_, ?_, ?_⟩, rfl, rfl, rfl, rfl, ?_⟩
    · rw [hi (i + 1) (by omega)]; omega
    · rw [hi (i + 1) (by omega)]; omega
    · rw [hi (i + 1) (by omega)]
    · exact (by decide : (1 : BitVec 4) ≤ 1)

/-! ## The interval (`41_arith.md` R143, R147) -/

/-- 0x8000 ≤ A and CT ≤ 8. -/
def IntervalOk (w : Work) : Prop := 0x8000 ≤ w.ad.a.toNat ∧ w.ad.ct.toNat ≤ 8

theorem byteIn_ct : Keeps (fun _ => True) (fun _ => True) (fun _ => True) (byteIn E) :=
  byteIn_keeps trivial fun _ _ _ _ _ _ => trivial

/-- A refill that completes leaves A, the cursor and the arrays, and CT at 7 or 8. -/
theorem byteIn_ok {w w' : Work} {v : Unit} (h : byteIn E w = .ok v w') :
    w'.ad.a = w.ad.a ∧ (w'.ad.ct = 7 ∨ w'.ad.ct = 8) ∧ w'.sp = w.sp ∧ w'.cx = w.cx ∧ w'.built = w.built := by
  unfold byteIn at h
  rw [Dec.run_bind, Dec.run_get] at h
  dsimp only at h
  split at h
  · obtain ⟨b, u, hb, h⟩ := Dec.bind_ok h
    have hu : u = w := by
      unfold inByte at hb
      split at hb <;> cases hb
      rfl
    subst hu
    split at h <;> cases h
    · exact ⟨rfl, .inr rfl, rfl, rfl, rfl⟩
    · exact ⟨rfl, .inl rfl, rfl, rfl, rfl⟩
  · obtain ⟨b, u, hb, h⟩ := Dec.bind_ok h
    have hu : u = w := by
      unfold inByte at hb
      split at hb <;> cases hb
      rfl
    subst hu
    cases h
    exact ⟨rfl, .inr rfl, rfl, rfl, rfl⟩

theorem shiftLeft_one_toNat {a : BitVec 16} (h : a.toNat < 0x8000) : (a <<< 1).toNat = 2 * a.toNat := by
  rw [BitVec.toNat_shiftLeft, Nat.shiftLeft_eq]
  omega

/-- RENORMD doubles A until it reaches 0x8000; where CT covers the shifts no byte is read, and C is shifted as far. -/
theorem renormUpTo_ok (n : Nat) :
    ∀ {w w' : Work} {v : Unit}, renormUpTo E n w = .ok v w' → w.ad.a.toNat < 0x8000 →
      0x8000 ≤ w.ad.a.toNat * 2 ^ n → w.ad.ct.toNat ≤ 8 →
      w'.sp = w.sp ∧ w'.cx = w.cx ∧ w'.built = w.built ∧ IntervalOk w' ∧
        ∃ k, 1 ≤ k ∧ w'.ad.a.toNat = w.ad.a.toNat * 2 ^ k ∧
          (k ≤ w.ad.ct.toNat →
            w'.ad.c = w.ad.c <<< k ∧ w'.ad.ct.toNat = w.ad.ct.toNat - k ∧ w'.ad.b = w.ad.b ∧ w'.ad.bp = w.ad.bp) := by
  induction n with
  | zero => intro w w' v _ h1 h2; omega
  | succ n ih =>
    intro w w' v h ha hn hct
    unfold renormUpTo at h
    rw [Dec.run_bind, Dec.run_get] at h
    dsimp only at h
    have hpre : ∃ u, (w.ad.ct = 0 ∧ byteIn E w = .ok () u ∨ w.ad.ct ≠ 0 ∧ u = w) ∧
        (do
          modify fun w => { w with ad := renormShift w.ad }
          let w ← get
          if w.ad.a < 0x8000 then renormUpTo E n else pure () : Dec Unit) u = .ok v w' := by
      split at h
      · obtain ⟨_, u, hu, h⟩ := Dec.bind_ok h
        exact ⟨u, .inl ⟨‹_›, hu⟩, h⟩
      · exact ⟨w, .inr ⟨‹_›, rfl⟩, h⟩
    obtain ⟨u, hu, h⟩ := hpre
    rw [Dec.run_bind, Dec.run_modify] at h
    dsimp only at h
    rw [Dec.run_bind, Dec.run_get] at h
    dsimp only at h
    have key : u.ad.a = w.ad.a ∧ u.sp = w.sp ∧ u.cx = w.cx ∧ u.built = w.built ∧ 1 ≤ u.ad.ct.toNat ∧
        u.ad.ct.toNat ≤ 8 ∧ (w.ad.ct ≠ 0 → u = w) := by
      rcases hu with ⟨h0, hu⟩ | ⟨hne, rfl⟩
      · obtain ⟨h1, h2, h3, h4, h5⟩ := byteIn_ok hu
        refine ⟨h1, h3, h4, h5, ?_, ?_, fun hne => absurd h0 hne⟩ <;> rcases h2 with h2 | h2 <;> rw [h2] <;> decide
      · refine ⟨rfl, rfl, rfl, rfl, ?_, hct, fun _ => rfl⟩
        have : u.ad.ct.toNat ≠ 0 := fun h0 => hne (BitVec.eq_of_toNat_eq h0)
        omega
    obtain ⟨k1, k2, k3, k4, k5, k6, k7⟩ := key
    have hct' : (renormShift u.ad).ct.toNat = u.ad.ct.toNat - 1 := by
      show (u.ad.ct - 1).toNat = _
      have := u.ad.ct.isLt
      rw [BitVec.toNat_sub]
      have h1 : (1 : BitVec 4).toNat = 1 := rfl
      rw [h1]
      omega
    have ha' : (renormShift u.ad).a.toNat = 2 * w.ad.a.toNat := by
      show (u.ad.a <<< 1).toNat = _
      rw [k1, shiftLeft_one_toNat ha]
    split at h
    · rename_i hlt
      have hlt' : (renormShift u.ad).a.toNat < 0x8000 := hlt
      obtain ⟨r1, r2, r3, r4, k, hk1, r5, r6⟩ := ih h hlt'
        (by dsimp only; rw [ha']; rw [pow_succ] at hn; nlinarith) (by dsimp only; rw [hct']; omega)
      refine ⟨r1.trans k2, r2.trans k3, r3.trans k4, r4, k + 1, by omega, ?_, fun hk => ?_⟩
      · rw [r5]
        dsimp only
        rw [ha', pow_succ]
        ring
      · have hw : u = w := k7 (by intro h0; rw [h0] at hk; simp at hk)
        subst hw
        obtain ⟨q1, q2, q3, q4⟩ := r6 (by dsimp only; rw [hct']; omega)
        refine ⟨?_, ?_, q3, q4⟩
        · rw [q1]
          show u.ad.c <<< 1 <<< k = _
          rw [← BitVec.shiftLeft_add, Nat.add_comm]
        · rw [q2]
          dsimp only
          rw [hct']
          omega
    · rename_i hge
      have hge' : ¬(renormShift u.ad).a.toNat < 0x8000 := hge
      cases h
      refine ⟨k2, k3, k4, ⟨by dsimp only; omega, by dsimp only; omega⟩, 1, le_refl _, ?_, fun hk => ?_⟩
      · dsimp only
        rw [ha']
        ring
      · have hw : u = w := k7 (by intro h0; rw [h0] at hk; simp at hk)
        subst hw
        exact ⟨rfl, hct', rfl, rfl⟩

end Sys2Proof.Machine
end

