-- ==== Sys2Proof/Laws/Procedures.lean ====
section
/-! SUPPORT. `Keeps` for the procedures of the units: which errors each can raise, what working state each keeps, and the
sizes of the bitmaps each yields. -/

namespace Sys2Proof.Machine

/-- A property of the working state that no write of the cursor, the decoder registers, an entry, or a cleared array
disturbs. -/
structure Stable (I : Work → Prop) : Prop where
  sp : ∀ (w : Work) (n : Nat), I w → I { w with sp := n }
  ad : ∀ (w : Work) r, I w → I { w with ad := r }
  entry : ∀ (w : Work) (arr : Arr) (i : Nat) e, I w → I (w.setEntry arr i e)
  cleared : ∀ (w : Work) (ns : List Arr), I w →
    I { w with cx := w.cx.mapArr (fun (n : Arr) (x : CxArray) => if n ∈ ns then CxArray.cleared else x) }

/-- Nor a write of the tables used. -/
structure StableAll (I : Work → Prop) : Prop extends Stable I where
  built : ∀ (w : Work) n, I w → I { w with built := n }

theorem StableAll.canonical : StableAll fun w => w.cx.Canonical where
  sp := fun _ _ h => h
  built := fun _ _ h => h
  ad := fun _ _ h => h
  entry := fun w arr i e h n => by
    rw [Work.setEntry_arr]
    split
    · exact CxArray.setEntry_canonical (h arr) _ _
    · exact h n
  cleared := fun w ns h n => by
    dsimp only
    rw [Contexts.arr_mapArr]
    split
    · exact ⟨.nil, fun p hp => nomatch hp⟩
    · exact h n

theorem StableAll.trivial : StableAll fun _ => True :=
  ⟨⟨fun _ _ h => h, fun _ _ h => h, fun _ _ _ _ h => h, fun _ _ h => h⟩, fun _ _ h => h⟩

/-- No table is used. -/
theorem Stable.noTables : Stable fun w => w.built = 0 :=
  ⟨fun _ _ h => h, fun _ _ h => h, fun _ _ _ _ h => h, fun _ _ h => h⟩

variable {E : Env} {I : Work → Prop} {X : CoreError → Prop}

/-! ## Bits of any unit -/

theorem adDecode_stable (hI : Stable I) (hE : X .unexpectedEndOfData) (arr : Arr) (i : Nat) :
    Keeps I X (fun _ => True) (adDecode E arr i) :=
  adDecode_keeps (byteIn_keeps hE fun w _ _ _ _ h => hI.ad w _ h) (fun w h => hI.ad w _ h) (fun w _ _ h => hI.ad w _ h)
    fun w e h => hI.entry w _ _ e h

theorem adInitAt_stable (hI : Stable I) (hE : X .unexpectedEndOfData) (i : Nat) :
    Keeps I X (fun _ => True) (adInitAt E i) :=
  adInitAt_keeps hE hI.ad i

theorem readBits_stable (hI : Stable I) (hE : X .unexpectedEndOfData) (n : Nat) :
    Keeps I X (fun _ => True) (readBits E n) :=
  readBits_keeps E hE hI.sp n

theorem readBit_stable (hI : Stable I) (hE : X .unexpectedEndOfData) : Keeps I X (fun _ => True) (readBit E) :=
  Keeps.get.bind fun w hw =>
    (inByte_keeps E _ hE).bind fun _ _ => (Keeps.set (hI.sp w _ hw)).bind fun _ _ => .pure .intro

theorem readS8_stable (hI : Stable I) (hE : X .unexpectedEndOfData) : Keeps I X (fun _ => True) (readS8 E) :=
  (readBits_stable hI hE 8).bind fun _ _ => .pure .intro

theorem readS32_stable (hI : Stable I) (hE : X .unexpectedEndOfData) : Keeps I X (fun _ => True) (readS32 E) :=
  (readBits_stable hI hE 32).bind fun _ _ => .pure .intro

theorem alignByte_stable (hI : Stable I) : Keeps I X (fun _ => True) alignByte := .modify fun w h => hI.sp w _ h

theorem seekByte_stable (hI : Stable I) (i : Nat) : Keeps I X (fun _ => True) (seekByte i) :=
  .modify fun w h => hI.sp w _ h

theorem cursorByte_keeps : Keeps I X (fun _ => True) cursorByte := Keeps.get.bind fun _ _ => .pure .intro

theorem clearArrays_stable (hI : Stable I) (ns : List Arr) : Keeps I X (fun _ => True) (clearArrays ns) :=
  .modify fun w h => hI.cleared w ns h

theorem iaBitsOnto_keeps {arr : Arr} (hd : ∀ i, Keeps I X (fun _ => True) (adDecode E arr i)) :
    ∀ n prev r, Keeps I X (fun _ => True) (iaBitsOnto E arr n prev r)
  | 0, _, _ => .pure .intro
  | n + 1, prev, r => by
    unfold iaBitsOnto
    exact (hd _).bind fun _ _ => iaBitsOnto_keeps hd n _ _

theorem iaMagnitude_keeps {arr : Arr} (hd : ∀ i, Keeps I X (fun _ => True) (adDecode E arr i)) :
    ∀ rows prev, Keeps I X (fun _ => True) (iaMagnitude E arr rows prev)
  | [], prev => (iaBitsOnto_keeps hd 32 prev 0).bind fun _ _ => .pure .intro
  | (n, o) :: rows, prev => by
    unfold iaMagnitude
    refine (hd _).bind fun d _ => ?_
    split
    · exact iaMagnitude_keeps hd rows _
    · exact (iaBitsOnto_keeps hd n _ 0).bind fun _ _ => .pure .intro

/-- An integer decode keeps what a bit decode of its array keeps. -/
theorem iaDecode_keeps {arr : Arr} (hd : ∀ i, Keeps I X (fun _ => True) (adDecode E arr i)) :
    Keeps I X (fun _ => True) (iaDecode E arr) :=
  (hd _).bind fun _ _ => (iaMagnitude_keeps hd _ _).bind fun _ _ => .pure .intro

theorem iaidWalk_keeps (hd : ∀ i, Keeps I X (fun _ => True) (adDecode E .iaid i)) :
    ∀ n prev, Keeps I X (fun _ => True) (iaidWalk E n prev)
  | 0, _ => .pure .intro
  | n + 1, prev => by
    unfold iaidWalk
    exact (hd _).bind fun _ _ => iaidWalk_keeps hd n _

theorem iaidDecode_keeps (hd : ∀ i, Keeps I X (fun _ => True) (adDecode E .iaid i)) (n : Nat) :
    Keeps I X (fun _ => True) (iaidDecode E n) :=
  (iaidWalk_keeps hd n 1).bind fun _ _ => .pure .intro

/-! ## Headers -/

theorem readAtPixels_stable (hI : Stable I) (hE : X .unexpectedEndOfData) :
    ∀ n, Keeps I X (fun _ => True) (readAtPixels E n)
  | 0 => .pure .intro
  | n + 1 => by
    unfold readAtPixels
    exact (readS8_stable hI hE).bind fun _ _ => (readS8_stable hI hE).bind fun _ _ =>
      (readAtPixels_stable hI hE n).bind fun _ _ => .pure .intro

theorem parseRegionInfo_stable (hI : Stable I) (hE : X .unexpectedEndOfData) (hU : X .unsupportedFeature) :
    Keeps I X (fun r => r.w * r.h ≤ E.cfg.maxpix) (parseRegionInfo E) := by
  unfold parseRegionInfo
  refine (readBits_stable hI hE 32).bind fun w _ => ?_
  refine (readBits_stable hI hE 32).bind fun h _ => ?_
  refine (readBits_stable hI hE 32).bind fun x _ => ?_
  refine (readBits_stable hI hE 32).bind fun y _ => ?_
  refine (readBits_stable hI hE 8).bind fun f _ => ?_
  refine (Keeps.require fun _ => hU).bind fun _ _ => ?_
  split
  · exact .throw hU
  · exact (Keeps.require fun _ => hU).bind fun _ h => .pure (of_decide_eq_true h)

theorem readGenericAt_stable (hI : Stable I) (hE : X .unexpectedEndOfData) (hM : X .malformedSegment) (t : Fin 4) :
    Keeps I X (fun _ => True) (readGenericAt E t) :=
  (readAtPixels_stable hI hE _).bind fun _ _ => (Keeps.require fun _ => hM).bind fun _ _ => .pure .intro

theorem readRefineAt_stable (hI : Stable I) (hE : X .unexpectedEndOfData) (hM : X .malformedSegment) :
    Keeps I X (fun _ => True) (readRefineAt E) :=
  (readAtPixels_stable hI hE _).bind fun _ _ => (Keeps.require fun _ => hM).bind fun _ _ => .pure .intro

theorem parseGenericHeader_stable (hI : Stable I) (hE : X .unexpectedEndOfData) (hM : X .malformedSegment)
    (hU : X .unsupportedFeature) : Keeps I X (fun _ => True) (parseGenericHeader E) := by
  unfold parseGenericHeader
  refine (parseRegionInfo_stable hI hE hU).bind fun info _ => ?_
  refine (readBits_stable hI hE 8).bind fun f _ => ?_
  refine (Keeps.require fun _ => hU).bind fun _ _ => ?_
  refine (Keeps.require fun _ => hU).bind fun _ _ => ?_
  exact (readGenericAt_stable hI hE hM _).bind fun _ _ => .pure .intro

theorem parseRefineHeader_stable (hI : Stable I) (hE : X .unexpectedEndOfData) (hM : X .malformedSegment)
    (hU : X .unsupportedFeature) : Keeps I X (fun _ => True) (parseRefineHeader E) := by
  unfold parseRefineHeader
  refine (parseRegionInfo_stable hI hE hU).bind fun info _ => ?_
  refine (readBits_stable hI hE 8).bind fun f _ => ?_
  refine (Keeps.require fun _ => hU).bind fun _ _ => ?_
  split
  · exact .pure .intro
  · exact (readRefineAt_stable hI hE hM).bind fun _ _ => .pure .intro

/-! ## Bitmaps -/

theorem newBitmap_keeps {cfg : Params} (hU : X .unsupportedFeature) (w h : Nat) (fill : Bool) :
    Keeps I X (fun b => b = Bitmap.filled w h fill ∧ b.Fits cfg) (newBitmap cfg w h fill) := by
  refine (Keeps.require fun _ => hU).bind fun _ hw => .pure ⟨rfl, ?_⟩
  have := of_decide_eq_true hw
  exact this

@[simp] theorem Bitmap.set_w (b : Bitmap) (x y : Nat) (v : Bool) : (b.set x y v).w = b.w := by
  unfold Bitmap.set
  split <;> rfl

@[simp] theorem Bitmap.set_h (b : Bitmap) (x y : Nat) (v : Bool) : (b.set x y v).h = b.h := by
  unfold Bitmap.set
  split <;> rfl

/-- Two bitmaps have one size. -/
def Bitmap.SameSize (b c : Bitmap) : Prop := b.w = c.w ∧ b.h = c.h

theorem Bitmap.SameSize.set {b c : Bitmap} (h : b.SameSize c) (x y : Nat) (v : Bool) : (b.set x y v).SameSize c :=
  ⟨(Bitmap.set_w b x y v).trans h.1, (Bitmap.set_h b x y v).trans h.2⟩

theorem Bitmap.SameSize.fits {b c : Bitmap} {cfg : Params} (h : b.SameSize c) (hc : c.Fits cfg) : b.Fits cfg := by
  unfold Bitmap.Fits
  rw [h.1, h.2]
  exact hc

theorem combinePixel_size (src : Bitmap) (x0 y0 : Int) (op : CombOp) (j i : Nat) (d : Bitmap) :
    (combinePixel src x0 y0 op j i d).SameSize d := by
  unfold combinePixel
  dsimp only
  split
  · exact Bitmap.SameSize.set ⟨rfl, rfl⟩ _ _ _
  · exact ⟨rfl, rfl⟩

theorem loopPure_size {f : Nat → Bitmap → Bitmap} (hf : ∀ i b, (f i b).SameSize b) (n i : Nat) (b : Bitmap) :
    (loopPure f n i b).SameSize b :=
  loopPure_induct (fun c => c.SameSize b) f i (i + n)
    (fun k c _ _ h => ⟨(hf k c).1.trans h.1, (hf k c).2.trans h.2⟩) n i b (le_refl _) (le_refl _) ⟨rfl, rfl⟩

/-- Drawing keeps the destination's size. -/
theorem combine_size (d src : Bitmap) (x0 y0 : Int) (op : CombOp) : (combine d src x0 y0 op).SameSize d :=
  loopPure_size (fun j b => loopPure_size (fun i c => combinePixel_size src x0 y0 op j i c) _ _ b) _ _ d

theorem copyRow_size (y : Nat) (b : Bitmap) : (copyRow y b).SameSize b :=
  loopPure_size (fun _ _ => Bitmap.SameSize.set ⟨rfl, rfl⟩ _ _ _) _ _ b

/-! ## Generic and refinement regions -/

theorem nextLtp_keeps {arr : Arr} (hd : ∀ i, Keeps I X (fun _ => True) (adDecode E arr i)) (on : Bool) (cx : Nat)
    (ltp : Bool) : Keeps I X (fun _ => True) (nextLtp E on arr cx ltp) := by
  unfold nextLtp
  split
  · exact (hd _).bind fun _ _ => .pure .intro
  · exact .pure .intro

theorem genericPixel_keeps (hd : ∀ i, Keeps I X (fun _ => True) (adDecode E .gb i)) (t : Fin 4) (at_ : AtPixels)
    (c : Bitmap) (y x : Nat) (b : Bitmap) (hb : b.SameSize c) :
    Keeps I X (fun r => r.SameSize c) (genericPixel E t at_ y x b) :=
  (hd _).bind fun _ _ => .pure (hb.set _ _ _)

theorem genericRow_keeps (hd : ∀ i, Keeps I X (fun _ => True) (adDecode E .gb i)) (t : Fin 4) (on : Bool)
    (at_ : AtPixels) (c : Bitmap) (y : Nat) (r : RowState) (hr : r.bm.SameSize c) :
    Keeps I X (fun r => r.bm.SameSize c) (genericRow E t on at_ y r) := by
  unfold genericRow
  refine (nextLtp_keeps hd _ _ _).bind fun ltp _ => ?_
  split
  · exact .pure ⟨(copyRow_size y r.bm).1.trans hr.1, (copyRow_size y r.bm).2.trans hr.2⟩
  · exact (Keeps.loopM (fun x b hb => genericPixel_keeps hd t at_ c y x b hb) _ _ _ hr).bind fun b hb => .pure hb

/-- A generic region keeps what its bit decodes keep; its bitmap has the size asked for and fits. -/
theorem genericDecode_keeps (hd : ∀ i, Keeps I X (fun _ => True) (adDecode E .gb i)) (hU : X .unsupportedFeature)
    (w h : Nat) (t : Fin 4) (on : Bool) (at_ : AtPixels) :
    Keeps I X (fun b => b.w = w ∧ b.h = h ∧ b.Fits E.cfg) (genericDecode E w h t on at_) := by
  unfold genericDecode
  refine (newBitmap_keeps (cfg := E.cfg) hU w h false).bind fun b hb => ?_
  refine (Keeps.loopM (Q := fun r : RowState => r.bm.SameSize b) (fun y r hr => genericRow_keeps hd t on at_ b y r hr) _
    _ _ ⟨rfl, rfl⟩).bind fun r hr => .pure ?_
  obtain ⟨rfl, hf⟩ := hb
  exact ⟨hr.1, hr.2, hr.fits hf⟩

theorem refinePixel_keeps (hd : ∀ i, Keeps I X (fun _ => True) (adDecode E .gr i)) (p : RefineParams) (ltp : Bool)
    (c : Bitmap) (y x : Nat) (b : Bitmap) (hb : b.SameSize c) :
    Keeps I X (fun r => r.SameSize c) (refinePixel E p ltp y x b) := by
  unfold refinePixel
  split
  · exact .pure (hb.set _ _ _)
  · exact (hd _).bind fun _ _ => .pure (hb.set _ _ _)

theorem refineRow_keeps (hd : ∀ i, Keeps I X (fun _ => True) (adDecode E .gr i)) (p : RefineParams) (c : Bitmap)
    (y : Nat) (r : RowState) (hr : r.bm.SameSize c) :
    Keeps I X (fun r => r.bm.SameSize c) (refineRow E p y r) := by
  unfold refineRow
  refine (nextLtp_keeps hd _ _ _).bind fun ltp _ => ?_
  exact (Keeps.loopM (fun x b hb => refinePixel_keeps hd p ltp c y x b hb) _ _ _ hr).bind fun b hb => .pure hb

/-- A refinement region keeps what its bit decodes keep; its bitmap has the size asked for and fits. -/
theorem refineDecode_keeps (hd : ∀ i, Keeps I X (fun _ => True) (adDecode E .gr i)) (hU : X .unsupportedFeature)
    (w h : Int) (p : RefineParams) (hM : (0 ≤ w ∧ 0 ≤ h) ∨ X .malformedSegment) :
    Keeps I X (fun b => b.w = w.toNat ∧ b.h = h.toNat ∧ b.Fits E.cfg) (refineDecode E w h p) := by
  unfold refineDecode
  refine (Keeps.require fun hc => ?_).bind fun _ _ => ?_
  · rcases hM with hM | hM
    · simp [hM] at hc
    · exact hM
  refine (newBitmap_keeps (cfg := E.cfg) hU w.toNat h.toNat false).bind fun b hb => ?_
  refine (Keeps.loopM (Q := fun r : RowState => r.bm.SameSize b) (fun y r hr => refineRow_keeps hd p b y r hr) _ _ _
    ⟨rfl, rfl⟩).bind fun r hr => .pure ?_
  obtain ⟨rfl, hf⟩ := hb
  exact ⟨hr.1, hr.2, hr.fits hf⟩

/-- What a generic region segment leaves: a Region of the header's size that fits. -/
theorem segGr_stable (hI : Stable I) (hE : X .unexpectedEndOfData) (hM : X .malformedSegment)
    (hU : X .unsupportedFeature) :
    Keeps I X (fun r => (∃ b x y op, r.slot = .region b x y op ∧ b.Fits E.cfg) ∧ r.idlen = none) (segGr E) := by
  unfold segGr
  refine (parseGenericHeader_stable hI hE hM hU).bind fun hd _ => (clearArrays_stable hI _).bind fun _ _ => ?_
  refine cursorByte_keeps.bind fun i _ => (adInitAt_stable hI hE i).bind fun _ _ => ?_
  refine (genericDecode_keeps (fun i => adDecode_stable hI hE .gb i) hU _ _ _ _ _).bind fun b hb => ?_
  exact .pure ⟨⟨b, _, _, _, rfl, hb.2.2⟩, rfl⟩

/-- What a refinement region segment leaves: a Region of the header's size that fits. -/
theorem segRr_stable (hI : Stable I) (hE : X .unexpectedEndOfData) (hM : X .malformedSegment)
    (hU : X .unsupportedFeature) (hR : X .invalidReference) (slots : List Slot) :
    Keeps I X (fun r => (∃ b x y op, r.slot = .region b x y op ∧ b.Fits E.cfg) ∧ r.idlen = none) (segRr E slots) := by
  unfold segRr
  refine Keeps.bind (Q := fun _ => True) ?_ fun refb _ => ?_
  · unfold rrReference
    split
    · exact .pure .intro
    · exact .throw hR
  refine (parseRefineHeader_stable hI hE hM hU).bind fun hd _ => (Keeps.require fun _ => hR).bind fun _ _ => ?_
  refine (clearArrays_stable hI _).bind fun _ _ => ?_
  refine cursorByte_keeps.bind fun i _ => (adInitAt_stable hI hE i).bind fun _ _ => ?_
  refine (refineDecode_keeps (fun i => adDecode_stable hI hE .gr i) hU _ _ _ (.inr hM)).bind fun b hb => ?_
  exact .pure ⟨⟨b, _, _, _, rfl, hb.2.2⟩, rfl⟩

/-! ## Huffman tables -/

theorem assignCodes_keeps (hM : X .malformedSegment) (t : Table) :
    Keeps I X (fun u => u = codesOf t ∧ oversubscribed t = false) (assignCodes t) :=
  (Keeps.require fun _ => hM).bind fun _ h => .pure ⟨rfl, by simpa using h⟩

theorem std_stable (hI : StableAll I) (n : Nat) :
    Keeps I X (fun t => t = (sparseFind E.stdTab n).getD (stdTable n)) (std E n) :=
  (Keeps.modify fun w h => hI.built w _ h).bind fun _ _ => .pure rfl

theorem readCodeBit_stable (hI : Stable I) (hC : X .invalidCode) : Keeps I X (fun _ => True) (readCodeBit E) := by
  intro w hw
  have h := readBit_stable (E := E) (X := fun _ => True) hI .intro w hw
  unfold readCodeBit
  cases hb : readBit E w with
  | ok d u => rw [hb] at h; exact h
  | error e u => rw [hb] at h; exact ⟨hC, h.2⟩

theorem htWalk_stable (hI : Stable I) (hC : X .invalidCode) (t : Table) :
    ∀ room len code, Keeps I X (fun _ => True) (htWalk E t room len code)
  | 0, _, _ => .throw hC
  | room + 1, len, code => by
    unfold htWalk
    refine (readCodeBit_stable hI hC).bind fun d _ => ?_
    split
    · exact .pure .intro
    · exact htWalk_stable hI hC t room _ _

theorem leafValue_stable (hI : Stable I) (hE : X .unexpectedEndOfData) (l : Line) :
    Keeps I X (fun _ => True) (leafValue E l) := by
  unfold leafValue
  split
  · exact (readBits_stable hI hE _).bind fun _ _ => .pure .intro
  · exact (readBits_stable hI hE _).bind fun _ _ => .pure .intro
  · exact (readBits_stable hI hE _).bind fun _ _ => .pure .intro
  · exact .pure .intro

theorem htDecode_stable (hI : Stable I) (hE : X .unexpectedEndOfData) (hC : X .invalidCode) (t : Table) :
    Keeps I X (fun _ => True) (htDecode E t) :=
  (htWalk_stable hI hC t _ _ _).bind fun _ _ => leafValue_stable hI hE _

theorem tableLines_stable (hI : Stable I) (hE : X .unexpectedEndOfData) (hM : X .malformedSegment)
    (hU : X .unsupportedFeature) (htps htrs : Nat) (high : Int) :
    ∀ (n : Nat) (cur : Int) (t : Table), t.length + 3 ≤ max 3 E.cfg.maxlines →
      Keeps I X (fun u => u.length + 3 ≤ max 3 E.cfg.maxlines) (tableLines E htps htrs high n cur t)
  | 0, _, _, _ => .throw hU
  | n + 1, cur, t, ht => by
    unfold tableLines
    split
    · exact .pure ht
    · refine (Keeps.require fun _ => hU).bind fun _ h => ?_
      refine (readBits_stable hI hE _).bind fun p _ => ?_
      refine (readBits_stable hI hE _).bind fun r _ => ?_
      refine (Keeps.require fun _ => hM).bind fun _ _ => ?_
      refine tableLines_stable hI hE hM hU htps htrs high n _ _ ?_
      have := of_decide_eq_true h
      simp only [List.length_append, List.length_singleton]
      omega

theorem tableTail_stable (hI : Stable I) (hE : X .unexpectedEndOfData) (htps : Nat) (low high : Int) (oob : Bool) :
    Keeps I X (fun u => u.length ≤ 3) (tableTail E htps low high oob) := by
  unfold tableTail
  refine (readBits_stable hI hE _).bind fun p _ => ?_
  refine (readBits_stable hI hE _).bind fun q _ => ?_
  split
  · exact (readBits_stable hI hE _).bind fun o _ => .pure (by simp)
  · exact .pure (by simp)

/-- A parsed table is the coded form of at most MAXLINES ≥ 3 lines that are not oversubscribed. -/
theorem parseTable_stable (hI : Stable I) (hE : X .unexpectedEndOfData) (hM : X .malformedSegment)
    (hU : X .unsupportedFeature) :
    Keeps I X (fun t => ∃ u, t = codesOf u ∧ oversubscribed u = false ∧ u.length ≤ max 3 E.cfg.maxlines)
      (parseTable E) := by
  unfold parseTable
  refine (readBits_stable hI hE 8).bind fun f _ => ?_
  refine (Keeps.require fun _ => hU).bind fun _ _ => ?_
  refine (readS32_stable hI hE).bind fun low _ => ?_
  refine (readS32_stable hI hE).bind fun high _ => ?_
  refine (Keeps.require fun _ => hM).bind fun _ _ => ?_
  refine (tableLines_stable hI hE hM hU _ _ _ _ _ _ (by simp)).bind fun t ht => ?_
  refine (tableTail_stable hI hE _ _ _ _).bind fun u hu => ?_
  refine (alignByte_stable hI).bind fun _ _ => ?_
  refine (assignCodes_keeps hM _).mono (fun v hv => ⟨t ++ u, hv.1, hv.2, ?_⟩) fun _ h => h
  rw [List.length_append]
  omega

end Sys2Proof.Machine
end

