-- ==== Sys2Proof/Laws/Symbols.lean ====
section
/-! SUPPORT. `Keeps` for the procedures of text regions and symbol dictionaries: what working state they keep, and that every
bitmap they yield is within the capacity. -/

namespace Sys2Proof.Machine

/-- Any error. -/
abbrev anyError : CoreError → Prop := fun _ => True

variable {E : Env} {I : Work → Prop}

/-! ## Values -/

theorem needValue_keeps (v : Option Int) : Keeps I anyError (fun _ => True) (needValue v) := by
  unfold needValue
  split
  · exact .pure trivial
  · exact .throw trivial

theorem iaDecode_stable (hI : StableAll I) (arr : Arr) : Keeps I anyError (fun _ => True) (iaDecode E arr) :=
  iaDecode_keeps fun i => adDecode_stable hI.toStable trivial arr i

theorem iaidDecode_stable (hI : StableAll I) (n : Nat) : Keeps I anyError (fun _ => True) (iaidDecode E n) :=
  iaidDecode_keeps (fun i => adDecode_stable hI.toStable trivial .iaid i) n

theorem htDecode_any (hI : StableAll I) (t : Table) : Keeps I anyError (fun _ => True) (htDecode E t) :=
  htDecode_stable hI.toStable trivial trivial t

theorem readBits_any (hI : StableAll I) (n : Nat) : Keeps I anyError (fun _ => True) (readBits E n) :=
  readBits_stable hI.toStable trivial n

theorem std_any (hI : StableAll I) (n : Nat) : Keeps I anyError (fun _ => True) (std E n) :=
  (std_stable hI n).mono (fun _ _ => trivial) fun _ h => h

theorem stdDecode_stable (hI : StableAll I) (n : Nat) : Keeps I anyError (fun _ => True) (stdDecode E n) :=
  (std_any hI n).bind fun _ _ => htDecode_any hI _

theorem resolve_stable (hI : StableAll I) (t : TableRef) : Keeps I anyError (fun _ => True) (t.resolve E) := by
  unfold TableRef.resolve
  split
  · exact .pure trivial
  · exact std_any hI _

theorem textDec_stable (hI : StableAll I) (p : TextParams) (t : TableRef) (arr : Arr) :
    Keeps I anyError (fun _ => True) (textDec E p t arr) := by
  unfold textDec
  split
  · exact (resolve_stable hI t).bind fun _ _ => htDecode_any hI _
  · exact iaDecode_stable hI arr

theorem textVal_stable (hI : StableAll I) (p : TextParams) (t : TableRef) (arr : Arr) :
    Keeps I anyError (fun _ => True) (textVal E p t arr) :=
  (textDec_stable hI p t arr).bind fun _ _ => needValue_keeps _

theorem decodeCurT_stable (hI : StableAll I) (p : TextParams) : Keeps I anyError (fun _ => True) (decodeCurT E p) := by
  unfold decodeCurT
  split
  · exact .pure trivial
  · split
    · exact (readBits_any hI _).bind fun _ _ => .pure trivial
    · exact (iaDecode_stable hI _).bind fun _ _ => needValue_keeps _

theorem decodeId_stable (hI : StableAll I) (p : TextParams) : Keeps I anyError (fun _ => True) (decodeId E p) := by
  unfold decodeId
  split
  · split
    · exact (htDecode_any hI _).bind fun _ _ => (needValue_keeps _).bind fun _ _ => .pure trivial
    · exact readBits_any hI _
  · exact iaidDecode_stable hI _

theorem decodeRi_stable (hI : StableAll I) (p : TextParams) : Keeps I anyError (fun _ => True) (decodeRi E p) := by
  unfold decodeRi
  have hr : ∀ v : Int, Keeps I anyError (fun _ => True)
      (do require (decide (v = 0) || decide (v = 1)) .malformedSegment; pure (decide (v = 1))) := fun v =>
    (Keeps.require fun _ => trivial).bind fun _ _ => .pure trivial
  split
  · dsimp only
    split
    · exact ((readBit_stable (E := E) (X := anyError) hI.toStable trivial).bind (R := fun _ => True) fun _ _ => .pure trivial).bind
        fun v _ => hr v
    · exact ((iaDecode_stable hI _).bind fun _ _ => needValue_keeps _).bind fun v _ => hr v
  · exact .pure trivial

theorem openBlock_stable (hI : StableAll I) (n : Nat) : Keeps I anyError (fun _ => True) (openBlock E n) :=
  (alignByte_stable hI.toStable).bind fun _ _ => cursorByte_keeps.bind fun _ _ => (Keeps.require fun _ => trivial).bind fun _ _ =>
    (adInitAt_stable hI.toStable trivial _).bind fun _ _ => .pure trivial

theorem openRefinement_stable (hI : StableAll I) (p : TextParams) :
    Keeps I anyError (fun _ => True) (openRefinement E p) :=
  (resolve_stable hI _).bind fun _ _ => (htDecode_any hI _).bind fun _ _ => (needValue_keeps _).bind fun _ _ =>
    (Keeps.require fun _ => trivial).bind fun _ _ => openBlock_stable hI _

theorem refineDecode_fits (hI : StableAll I) (w h : Int) (p : RefineParams) :
    Keeps I anyError (fun b => b.Fits E.cfg) (refineDecode E w h p) :=
  (refineDecode_keeps (fun i => adDecode_stable hI.toStable trivial .gr i) trivial w h p (.inr trivial)).mono
    (fun _ h => h.2.2) fun _ h => h

theorem genericDecode_fits (hI : StableAll I) (w h : Nat) (t : Fin 4) (on : Bool) (at_ : AtPixels) :
    Keeps I anyError (fun b => b.Fits E.cfg) (genericDecode E w h t on at_) :=
  (genericDecode_keeps (fun i => adDecode_stable hI.toStable trivial .gb i) trivial w h t on at_).mono
    (fun _ h => h.2.2) fun _ h => h

theorem refineInstance_stable (hI : StableAll I) (p : TextParams) (ibo : Bitmap) :
    Keeps I anyError (fun _ => True) (refineInstance E p ibo) := by
  unfold refineInstance
  refine (textVal_stable hI p _ _).bind fun rdw _ => ?_
  refine (textVal_stable hI p _ _).bind fun rdh _ => ?_
  refine (textVal_stable hI p _ _).bind fun rdx _ => ?_
  refine (textVal_stable hI p _ _).bind fun rdy _ => ?_
  dsimp only
  split
  · refine (openRefinement_stable hI p).bind fun stop _ => ?_
    exact (refineDecode_fits hI _ _ _).bind fun b _ => (seekByte_stable hI.toStable _).bind fun _ _ => .pure trivial
  · exact (refineDecode_fits hI _ _ _).mono (fun _ _ => trivial) fun _ h => h

theorem instanceBitmap_stable (hI : StableAll I) (p : TextParams) (ibo : Bitmap) :
    Keeps I anyError (fun _ => True) (instanceBitmap E p ibo) := by
  unfold instanceBitmap
  refine (decodeRi_stable hI p).bind fun ri _ => ?_
  split
  · exact refineInstance_stable hI p ibo
  · exact .pure trivial

/-! ## Text regions -/

theorem place_size (p : TextParams) (ib : Bitmap) (t : Int) (st : TextState) :
    (place p ib t st).reg.SameSize st.reg := combine_size _ _ _ _ _

theorem textInstance_stable (hI : StableAll I) (p : TextParams) (c : Bitmap) (st : TextState) (hs : st.reg.SameSize c) :
    Keeps I anyError (fun r => r.reg.SameSize c) (textInstance E p st) := by
  unfold textInstance
  refine (decodeCurT_stable hI p).bind fun curt _ => ?_
  refine (decodeId_stable hI p).bind fun id _ => ?_
  split
  · exact .throw trivial
  · refine (instanceBitmap_stable hI p _).bind fun ib _ => .pure ?_
    have := place_size p ib (st.stript + curt) st
    exact ⟨this.1.trans hs.1, this.2.trans hs.2⟩

theorem stripRest_stable (hI : StableAll I) (p : TextParams) (c : Bitmap) :
    ∀ (n : Nat) (st : TextState), st.reg.SameSize c → Keeps I anyError (fun r => r.reg.SameSize c) (stripRest E p n st)
  | 0, st, hs => by
    unfold stripRest
    exact (textDec_stable hI p _ _).bind fun _ _ => (Keeps.require fun _ => trivial).bind fun _ _ => .pure hs
  | n + 1, st, hs => by
    unfold stripRest
    refine (textDec_stable hI p _ _).bind fun v _ => ?_
    split
    · exact .pure hs
    · refine (textInstance_stable hI p c _ ?_).bind fun st' h' => stripRest_stable hI p c n st' h'
      exact hs

theorem textStrip_stable (hI : StableAll I) (p : TextParams) (c : Bitmap) (st : TextState) (hs : st.reg.SameSize c) :
    Keeps I anyError (fun r => r.reg.SameSize c) (textStrip E p st) := by
  unfold textStrip
  refine (textVal_stable hI p _ _).bind fun dt _ => ?_
  refine (textVal_stable hI p _ _).bind fun dfs _ => ?_
  refine (textInstance_stable hI p c _ ?_).bind fun st' h' => stripRest_stable hI p c _ st' h'
  exact hs

theorem textStrips_stable (hI : StableAll I) (p : TextParams) (c : Bitmap) :
    ∀ (n : Nat) (st : TextState), st.reg.SameSize c → Keeps I anyError (fun r => r.reg.SameSize c) (textStrips E p n st)
  | 0, _, hs => .pure hs
  | n + 1, st, hs => by
    unfold textStrips
    split
    · exact (textStrip_stable hI p c st hs).bind fun st' h' => textStrips_stable hI p c n st' h'
    · exact .pure hs

/-- A text region's bitmap has the size asked for and fits. -/
theorem textDecode_stable (hI : StableAll I) (p : TextParams) :
    Keeps I anyError (fun b => b.w = p.w ∧ b.h = p.h ∧ b.Fits E.cfg) (textDecode E p) := by
  unfold textDecode
  refine (newBitmap_keeps (cfg := E.cfg) trivial p.w p.h p.defPixel).bind fun b hb => ?_
  refine (textVal_stable hI p _ _).bind fun dt _ => ?_
  refine (textStrips_stable hI p b _ { reg := b, stript := _, firsts := 0, curs := 0, n := 0 } ⟨rfl, rfl⟩).bind
    fun st hs => .pure ?_
  obtain ⟨rfl, hf⟩ := hb
  exact ⟨hs.1, hs.2, Bitmap.SameSize.fits hs hf⟩

/-! ## References, tables and headers -/

/-- The symbols the references supply are those of the dictionaries among them, in order. -/
theorem collectRefs_stable :
    ∀ slots : List Slot,
      Keeps I anyError
        (fun r => r.syms = slots.flatMap Slot.symbols ∧
          (∀ t ∈ r.tabs, .table t ∈ slots) ∧ ∀ ret, r.lastRet = some ret → ∃ syms, .symDict syms ret ∈ slots)
        (collectRefs slots)
  | [] => .pure ⟨rfl, by simp, by simp⟩
  | .symDict syms ret :: more => by
    unfold collectRefs
    refine (collectRefs_stable more).bind fun r hr => .pure ⟨?_, ?_, ?_⟩
    · simp [hr.1, Slot.symbols]
    · exact fun t ht => List.mem_cons_of_mem _ (hr.2.1 t ht)
    · intro ret' h
      cases hl : r.lastRet with
      | none =>
        simp only [hl, Option.getD_none, Option.some.injEq] at h
        exact ⟨syms, h ▸ List.mem_cons_self ..⟩
      | some q =>
        simp only [hl, Option.getD_some, Option.some.injEq] at h
        obtain ⟨u, hu⟩ := hr.2.2 ret' (by rw [hl, h])
        exact ⟨u, List.mem_cons_of_mem _ hu⟩
  | .table t :: more => by
    unfold collectRefs
    refine (collectRefs_stable more).bind fun r hr => .pure ⟨?_, ?_, ?_⟩
    · simp [hr.1, Slot.symbols]
    · intro u hu
      rcases List.mem_cons.mp hu with rfl | hu
      · exact List.mem_cons_self ..
      · exact List.mem_cons_of_mem _ (hr.2.1 u hu)
    · intro ret h
      obtain ⟨u, hu⟩ := hr.2.2 ret h
      exact ⟨u, List.mem_cons_of_mem _ hu⟩
  | .empty :: _ => .throw trivial
  | .region _ _ _ _ :: _ => .throw trivial

theorem chooseTable_stable (hI : StableAll I) (c : TableChoice) (tabs : List Table) :
    Keeps I anyError (fun _ => True) (chooseTable E c tabs) := by
  unfold chooseTable
  split
  · exact (std_any hI _).bind fun _ _ => .pure trivial
  · split
    · exact .pure trivial
    · exact .throw trivial
  · exact .throw trivial

theorem parseTextTables_stable (hI : StableAll I) (refine_ : Bool) (tabs : List Table) :
    Keeps I anyError (fun _ => True) (parseTextTables E refine_ tabs) := by
  unfold parseTextTables
  refine (readBits_any hI 16).bind fun h _ => ?_
  refine (Keeps.require fun _ => trivial).bind fun _ _ => ?_
  refine (Keeps.require fun _ => trivial).bind fun _ _ => ?_
  refine (chooseTable_stable hI _ _).bind fun _ _ => ?_
  refine (chooseTable_stable hI _ _).bind fun _ _ => ?_
  refine (chooseTable_stable hI _ _).bind fun _ _ => ?_
  refine (chooseTable_stable hI _ _).bind fun _ _ => ?_
  refine (chooseTable_stable hI _ _).bind fun _ _ => ?_
  refine (chooseTable_stable hI _ _).bind fun _ _ => ?_
  refine (chooseTable_stable hI _ _).bind fun _ _ => ?_
  exact (chooseTable_stable hI _ _).bind fun _ _ => .pure trivial

theorem readFields_stable (hI : StableAll I) (len : Nat) :
    ∀ n, Keeps I anyError (fun l => l.length = n) (readFields E len n)
  | 0 => .pure rfl
  | n + 1 => by
    unfold readFields
    exact (readBits_any hI _).bind fun _ _ => (readFields_stable hI len n).bind fun _ h => .pure (by simp [h])

theorem runLens_stable (hI : StableAll I) (lens : List Nat) (v : Nat) :
    Keeps I anyError (fun l => l ≠ []) (runLens E lens v) := by
  unfold runLens
  split
  · exact .pure (by simp)
  · split
    · split
      · exact .throw trivial
      · exact (readBits_any hI _).bind fun _ _ => .pure (by simp [List.replicate_succ])
    · split
      · exact (readBits_any hI _).bind fun _ _ => .pure (by simp [List.replicate_succ])
      · exact (readBits_any hI _).bind fun _ _ => .pure (by simp [List.replicate_succ])

/-- The run-length coded lengths are exactly as many as the symbols. -/
theorem symIdLens_stable (hI : StableAll I) (rl : Table) (num : Nat) :
    ∀ (n : Nat) (lens : List Nat), lens.length ≤ num → num ≤ lens.length + n →
      Keeps I anyError (fun l => l.length = num) (symIdLens E rl num n lens)
  | 0, lens, h1, h2 => .pure (by omega)
  | n + 1, lens, h1, h2 => by
    unfold symIdLens
    split
    · refine (htDecode_any hI _).bind fun v _ => ?_
      refine (needValue_keeps _).bind fun v _ => ?_
      refine (runLens_stable hI _ _).bind fun more hm => ?_
      refine (Keeps.require fun _ => trivial).bind fun _ hl => ?_
      have hl := of_decide_eq_true hl
      refine symIdLens_stable hI rl num n _ hl ?_
      have := List.length_pos_of_ne_nil hm
      simp only [List.length_append]
      omega
    · exact .pure (by omega)

theorem parseSymIdTable_stable (hI : StableAll I) (num : Nat) :
    Keeps I anyError (fun t => ∃ lens, t = codesOf (linesOfLens lens) ∧ lens.length = num) (parseSymIdTable E num) := by
  unfold parseSymIdTable
  refine (readFields_stable hI 4 35).bind fun runs _ => ?_
  refine (assignCodes_keeps trivial _).bind fun rl _ => ?_
  refine (symIdLens_stable hI rl num num [] (Nat.zero_le _) (by simp)).bind fun lens hl => ?_
  refine (alignByte_stable hI.toStable).bind fun _ _ => ?_
  exact (assignCodes_keeps trivial _).mono (fun t ht => ⟨lens, ht.1, hl⟩) fun _ h => h

theorem readRefineAt_any (hI : StableAll I) : Keeps I anyError (fun _ => True) (readRefineAt E) :=
  readRefineAt_stable hI.toStable trivial trivial

theorem parseTextHeader_stable (hI : StableAll I) (tabs : List Table) :
    Keeps I anyError (fun _ => True) (parseTextHeader E tabs) := by
  have hend : ∀ (info : RegionInfo) (f : Nat) (tb : TextTables) (rat : AtPixels), Keeps I anyError (fun _ => True)
      (do
        let n ← readU32 E
        pure { info := info, flags := f, tables := tb, rat := rat, numInstances := n : TextHeader }) :=
    fun _ _ _ _ => (readBits_any hI _).bind fun _ _ => .pure trivial
  have hrat : ∀ (info : RegionInfo) (f : Nat) (tb : TextTables), Keeps I anyError (fun _ => True)
      (do
        let rat ← if f.testBit 1 && !f.testBit 15 then readRefineAt E else pure []
        let n ← readU32 E
        pure { info := info, flags := f, tables := tb, rat := rat, numInstances := n : TextHeader }) := by
    intro info f tb
    dsimp only
    split
    · exact (readRefineAt_any hI).bind fun _ _ => hend _ _ _ _
    · exact hend _ _ _ _
  unfold parseTextHeader
  refine (parseRegionInfo_stable hI.toStable trivial trivial).bind fun info _ => ?_
  refine (readBits_any hI 16).bind fun f _ => ?_
  refine (Keeps.require fun _ => trivial).bind fun _ _ => ?_
  dsimp only
  split
  · exact (parseTextTables_stable hI _ _).bind fun _ _ => hrat _ _ _
  · exact hrat _ _ _

theorem openTextData_stable (hI : StableAll I) (huff : Bool) (num : Nat) :
    Keeps I anyError (fun _ => True) (openTextData E huff num) := by
  unfold openTextData
  split
  · exact (parseSymIdTable_stable hI num).bind fun _ _ => .pure trivial
  · exact cursorByte_keeps.bind fun _ _ => (adInitAt_stable hI.toStable trivial _).bind fun _ _ => .pure trivial

/-- What a text region segment leaves: a Region that fits, and IDLEN within its range. -/
theorem segTr_stable (hI : StableAll I) (slots : List Slot) :
    Keeps I anyError
      (fun r => (∃ b x y op, r.slot = .region b x y op ∧ b.Fits E.cfg) ∧
        r.idlen = some (ceilLog2 (slots.flatMap Slot.symbols).length) ∧
        (slots.flatMap Slot.symbols).length ≤ E.cfg.maxsyms)
      (segTr E slots) := by
  unfold segTr
  refine (collectRefs_stable slots).bind fun refs hr => ?_
  refine (Keeps.require fun _ => trivial).bind fun _ hn => ?_
  refine (clearArrays_stable hI.toStable _).bind fun _ _ => ?_
  refine (parseTextHeader_stable hI _).bind fun hd _ => ?_
  refine (openTextData_stable hI _ _).bind fun idCode _ => ?_
  refine (textDecode_stable hI _).bind fun b hb => .pure ⟨⟨b, _, _, _, rfl, hb.2.2⟩, ?_, ?_⟩
  · rw [hr.1]
  · rw [← hr.1]
    exact of_decide_eq_true hn

/-! ## Symbol dictionaries -/

theorem checkSdFlags_keeps (f : Nat) : Keeps I anyError (fun _ => True) (checkSdFlags f) :=
  (Keeps.require fun _ => trivial).bind fun _ _ => (Keeps.require fun _ => trivial).bind fun _ _ =>
    (Keeps.require fun _ => trivial).bind fun _ _ => (Keeps.require fun _ => trivial).bind fun _ _ =>
      (Keeps.require fun _ => trivial).bind fun _ _ => (Keeps.require fun _ => trivial).mono (fun _ _ => trivial)
        fun _ h => h

theorem parseSdHeader_stable (hI : StableAll I) : Keeps I anyError (fun _ => True) (parseSdHeader E) := by
  have hend : ∀ (f : Nat) (a b : AtPixels), Keeps I anyError (fun _ => True)
      (do
        let numEx ← readU32 E
        let numNew ← readU32 E
        pure { flags := f, sdat := a, sdrat := b, numEx := numEx, numNew := numNew : SdHeader }) :=
    fun _ _ _ => (readBits_any hI _).bind fun _ _ => (readBits_any hI _).bind fun _ _ => .pure trivial
  have hrat : ∀ (f : Nat) (a : AtPixels), Keeps I anyError (fun _ => True)
      (do
        let sdrat ← if f.testBit 1 && !f.testBit 12 then readRefineAt E else pure []
        let numEx ← readU32 E
        let numNew ← readU32 E
        pure { flags := f, sdat := a, sdrat := sdrat, numEx := numEx, numNew := numNew : SdHeader }) := by
    intro f a
    dsimp only
    split
    · exact (readRefineAt_any hI).bind fun _ _ => hend _ _ _
    · exact hend _ _ _
  unfold parseSdHeader
  refine (readBits_any hI 16).bind fun f _ => ?_
  refine (checkSdFlags_keeps f).bind fun _ _ => ?_
  dsimp only
  split
  · exact hrat _ _
  · exact (readGenericAt_stable hI.toStable trivial trivial _).bind fun _ _ => hrat _ _

theorem chooseSdTables_stable (hI : StableAll I) (f : Nat) (tabs : List Table) :
    Keeps I anyError (fun _ => True) (chooseSdTables E f tabs) := by
  unfold chooseSdTables
  refine (chooseTable_stable hI _ _).bind fun _ _ => ?_
  refine (chooseTable_stable hI _ _).bind fun _ _ => ?_
  refine (chooseTable_stable hI _ _).bind fun _ _ => ?_
  exact (chooseTable_stable hI _ _).bind fun _ _ => .pure trivial

/-- What the parameters of the symbol decoding are. -/
theorem sdParams_stable (hI : StableAll I) (hd : SdHeader) (refs : Refs) :
    Keeps I anyError
      (fun p => p.hd = hd ∧ p.inSyms = refs.syms ∧ p.symCodeLen = ceilLog2 (refs.syms.length + hd.numNew) ∧
        refs.syms.length + hd.numNew ≤ E.cfg.maxsyms)
      (sdParams E hd refs) := by
  unfold sdParams
  refine (Keeps.require fun _ => trivial).bind fun _ hn => ?_
  have hn := of_decide_eq_true hn
  dsimp only
  split
  · exact (chooseSdTables_stable hI _ _).bind fun _ _ => .pure ⟨rfl, rfl, rfl, hn⟩
  · exact .pure ⟨rfl, rfl, rfl, hn⟩

theorem aggregateSymbol_stable (hI : StableAll I) (p : SdParams) (syms : List Bitmap) (w h : Nat) :
    Keeps I anyError (fun b => b.Fits E.cfg) (aggregateSymbol E p syms w h) := by
  have href : ∀ id rdx rdy, Keeps I anyError (fun b => b.Fits E.cfg)
      (refineSymbol E p (p.inSyms ++ syms) w h id rdx rdy) := by
    intro id rdx rdy
    unfold refineSymbol
    refine (needValue_keeps _).bind fun _ _ => (needValue_keeps _).bind fun _ _ => ?_
    split
    · exact .throw trivial
    · exact refineDecode_fits hI _ _ _
  unfold aggregateSymbol
  have hn : Keeps I anyError (fun _ => True) (decodeAggInst E p) := by
    unfold decodeAggInst
    split
    · exact htDecode_any hI _
    · exact iaDecode_stable hI _
  refine hn.bind fun n _ => (needValue_keeps _).bind fun n _ => (Keeps.require fun _ => trivial).bind fun _ _ => ?_
  split
  · exact (textDecode_stable hI _).mono (fun _ h => h.2.2) fun _ h => h
  · unfold oneInstance
    split
    · refine (readBits_any hI _).bind fun id _ => ?_
      refine (stdDecode_stable hI _).bind fun rdx _ => ?_
      refine (stdDecode_stable hI _).bind fun rdy _ => ?_
      refine (stdDecode_stable hI _).bind fun size _ => ?_
      refine (needValue_keeps _).bind fun size _ => ?_
      refine (openBlock_stable hI _).bind fun stop _ => ?_
      exact (href _ _ _).bind fun b hb => (seekByte_stable hI.toStable _).bind fun _ _ => .pure hb
    · refine (iaidDecode_stable hI _).bind fun id _ => ?_
      refine (iaDecode_stable hI _).bind fun rdx _ => ?_
      exact (iaDecode_stable hI _).bind fun rdy _ => href _ _ _

theorem symbolBitmap_stable (hI : StableAll I) (p : SdParams) (syms : List Bitmap) (w h : Nat) :
    Keeps I anyError (fun b => b.Fits E.cfg) (symbolBitmap E p syms w h) := by
  unfold symbolBitmap
  split
  · exact aggregateSymbol_stable hI p syms w h
  · exact genericDecode_fits hI _ _ _ _ _

/-- The working state of a height class: the symbols fit, and TOTWIDTH covers the widths put off. -/
def ClassState.Ok (cfg : Params) (c : ClassState) : Prop :=
  (∀ b ∈ c.syms, b.Fits cfg) ∧ (c.widths.sum : Int) ≤ c.totWidth

theorem classSymbol_stable (hI : StableAll I) (p : SdParams) (h dw : Int) (c : ClassState) (hc : c.Ok E.cfg) :
    Keeps I anyError (fun d => d.Ok E.cfg ∧ d.count = c.count + 1) (classSymbol E p h dw c) := by
  unfold classSymbol
  refine (Keeps.require fun _ => trivial).bind fun _ hw => ?_
  have hw := of_decide_eq_true hw
  split
  · refine .pure ⟨⟨hc.1, ?_⟩, ?_⟩
    · have := hc.2
      simp only [List.sum_append, List.sum_singleton]
      omega
    · simp only [ClassState.count, List.length_append, List.length_singleton]
      omega
  · refine (symbolBitmap_stable hI p _ _ _).bind fun b hb => .pure ⟨⟨?_, ?_⟩, ?_⟩
    · intro d hd
      rcases List.mem_append.mp hd with hd | hd
      · exact hc.1 d hd
      · rw [List.mem_singleton.mp hd]
        exact hb
    · have := hc.2
      dsimp only
      omega
    · simp only [ClassState.count, List.length_append, List.length_singleton]
      omega

theorem decodeDw_stable (hI : StableAll I) (p : SdParams) : Keeps I anyError (fun _ => True) (decodeDw E p) := by
  unfold decodeDw
  split
  · exact htDecode_any hI _
  · exact iaDecode_stable hI _

theorem decodeDh_stable (hI : StableAll I) (p : SdParams) : Keeps I anyError (fun _ => True) (decodeDh E p) := by
  unfold decodeDh
  split
  · exact htDecode_any hI _
  · exact iaDecode_stable hI _

/-- A height class decodes at most as many symbols as are owed. -/
theorem heightClass_stable (hI : StableAll I) (p : SdParams) (h : Int) :
    ∀ (room : Nat) (c : ClassState), c.Ok E.cfg →
      Keeps I anyError (fun d => d.Ok E.cfg ∧ c.count ≤ d.count ∧ d.count ≤ c.count + room) (heightClass E p h room c)
  | 0, c, hc => by
    unfold heightClass
    exact (decodeDw_stable hI p).bind fun _ _ => (Keeps.require fun _ => trivial).bind fun _ _ =>
      .pure ⟨hc, le_refl _, le_refl _⟩
  | room + 1, c, hc => by
    unfold heightClass
    refine (decodeDw_stable hI p).bind fun dw _ => ?_
    split
    · exact .pure ⟨hc, le_refl _, Nat.le_add_right _ _⟩
    · refine (classSymbol_stable hI p h _ c hc).bind fun c' hc' => ?_
      exact (heightClass_stable hI p h room c' hc'.1).mono
        (fun d hd => ⟨hd.1, by omega, by omega⟩) fun _ h => h

theorem columns_size (col : Bitmap) (x0 w : Nat) : (columns col x0 w).SameSize (Bitmap.filled w col.h false) :=
  loopPure_size (fun _ b => loopPure_size (fun _ _ => Bitmap.SameSize.set ⟨rfl, rfl⟩ _ _ _) _ _ b) _ _ _

@[simp] theorem cutColumns_length (col : Bitmap) : ∀ (x0 : Nat) (ws : List Nat), (cutColumns col x0 ws).length = ws.length
  | _, [] => rfl
  | x0, w :: ws => by simp [cutColumns, cutColumns_length col (x0 + w) ws]

/-- Every piece of a collective bitmap that covers the widths fits where the whole does. -/
theorem cutColumns_fits {cfg : Params} {col : Bitmap} (hc : col.Fits cfg) :
    ∀ (x0 : Nat) (ws : List Nat), ws.sum ≤ col.w → ∀ b ∈ cutColumns col x0 ws, b.Fits cfg
  | _, [], _, b, hb => nomatch hb
  | x0, w :: ws, hs, b, hb => by
    rw [List.sum_cons] at hs
    unfold cutColumns at hb
    rcases List.mem_cons.mp hb with rfl | hb
    · refine (columns_size col x0 w).fits (le_trans (Nat.mul_le_mul_right _ ?_) hc)
      show w ≤ col.w
      omega
    · exact cutColumns_fits hc (x0 + w) ws (by omega) b hb

theorem inByte_any (i : Nat) : Keeps I anyError (fun _ => True) (inByte E i) := inByte_keeps E i trivial

theorem collectiveBitmap_stable (hI : StableAll I) (st w h : Nat) :
    Keeps I anyError (fun b => b.w = w ∧ b.h = h ∧ b.Fits E.cfg) (collectiveBitmap E st w h) := by
  unfold collectiveBitmap
  refine (newBitmap_keeps (cfg := E.cfg) trivial w h false).bind fun b hb => ?_
  refine (Keeps.loopM (Q := fun c : Bitmap => c.SameSize b) (fun y c hc =>
    Keeps.loopM (fun x d hd => (inByte_any _).bind fun _ _ => .pure (Bitmap.SameSize.set hd _ _ _)) _ _ _ hc) _ _ _
      ⟨rfl, rfl⟩).bind fun c hc => ?_
  refine (seekByte_stable hI.toStable _).bind fun _ _ => .pure ?_
  obtain ⟨rfl, hf⟩ := hb
  exact ⟨hc.1, hc.2, Bitmap.SameSize.fits hc hf⟩

theorem decodeClass_stable (hI : StableAll I) (p : SdParams) (h : Int) (syms : List Bitmap)
    (hs : ∀ b ∈ syms, b.Fits E.cfg) :
    Keeps I anyError (fun r => ∀ b ∈ r, b.Fits E.cfg) (decodeClass E p h syms) := by
  unfold decodeClass
  refine (heightClass_stable hI p h _ { symWidth := 0, totWidth := 0, widths := [], syms := syms } ⟨hs, by simp⟩).bind
    fun c hc => ?_
  refine (Keeps.require fun _ => trivial).bind fun _ _ => ?_
  split
  · unfold classCollective
    refine (htDecode_any hI _).bind fun size _ => (needValue_keeps _).bind fun size _ => ?_
    refine (alignByte_stable hI.toStable).bind fun _ _ => (Keeps.require fun _ => trivial).bind fun _ _ => ?_
    refine cursorByte_keeps.bind fun st _ => ?_
    refine (collectiveBitmap_stable hI _ _ _).bind fun col hcol => .pure fun b hb => ?_
    rcases List.mem_append.mp hb with hb | hb
    · exact hc.1.1 b hb
    · refine cutColumns_fits hcol.2.2 0 _ ?_ b hb
      rw [hcol.1]
      have := hc.1.2
      omega
  · exact .pure hc.1.1

theorem symbolClasses_stable (hI : StableAll I) (p : SdParams) :
    ∀ (n : Nat) (h : Int) (syms : List Bitmap), (∀ b ∈ syms, b.Fits E.cfg) →
      Keeps I anyError (fun r => ∀ b ∈ r, b.Fits E.cfg) (symbolClasses E p n h syms)
  | 0, _, _, hs => .pure hs
  | n + 1, h, syms, hs => by
    unfold symbolClasses
    split
    · refine (decodeDh_stable hI p).bind fun dh _ => ?_
      split
      · exact .pure hs
      · refine (Keeps.require fun _ => trivial).bind fun _ _ => ?_
        exact (decodeClass_stable hI p _ syms hs).bind fun syms' hs' => symbolClasses_stable hI p n _ syms' hs'
    · exact .pure hs

/-- `DecodeSymbols` yields exactly SDNUMNEWSYMS symbols, all within the capacity. -/
theorem decodeSymbols_stable (hI : StableAll I) (p : SdParams) :
    Keeps I anyError (fun r => r.length = p.hd.numNew ∧ ∀ b ∈ r, b.Fits E.cfg) (decodeSymbols E p) := by
  unfold decodeSymbols
  refine (symbolClasses_stable hI p _ 0 [] (fun _ h => nomatch h)).bind fun syms hs => ?_
  exact (Keeps.require fun _ => trivial).bind fun _ hn => .pure ⟨of_decide_eq_true hn, hs⟩

theorem exported_sublist : ∀ (bs : List Bitmap) (fs : List Bool), (exported bs fs).Sublist bs
  | [], _ => by simp [exported]
  | _ :: _, [] => by simp [exported]
  | b :: bs, f :: fs => by
    unfold exported
    split
    · exact (exported_sublist bs fs).cons_cons b
    · exact (exported_sublist bs fs).cons b

theorem exportRuns_stable (hI : StableAll I) (huff : Bool) (tot : Nat) :
    ∀ (n : Nat) (first flag : Bool) (flags : List Bool),
      Keeps I anyError (fun _ => True) (exportRuns E huff tot n first flag flags)
  | 0, _, _, _ => .pure trivial
  | n + 1, first, flag, flags => by
    have hrest : ∀ v : Option Int, Keeps I anyError (fun _ => True)
        (do
          let run ← needValue v
          require (decide (0 ≤ run) && decide (flags.length + run ≤ tot)) .malformedSegment
          require (decide (run ≠ 0) || first) .malformedSegment
          exportRuns E huff tot n false (!flag) (flags ++ List.replicate run.toNat flag)) := fun v =>
      (needValue_keeps _).bind fun run _ => (Keeps.require fun _ => trivial).bind fun _ _ =>
        (Keeps.require fun _ => trivial).bind fun _ _ => exportRuns_stable hI huff tot n _ _ _
    unfold exportRuns
    dsimp only
    split
    · split
      · exact (stdDecode_stable hI 1).bind fun v _ => hrest v
      · exact (iaDecode_stable hI _).bind fun v _ => hrest v
    · exact .pure trivial

theorem decodeExport_stable (hI : StableAll I) (p : SdParams) (newSyms : List Bitmap) :
    Keeps I anyError (fun r => r.Sublist (p.inSyms ++ newSyms)) (decodeExport E p newSyms) := by
  unfold decodeExport
  refine (exportRuns_stable hI _ _ _ _ _ _).bind fun flags _ => ?_
  exact (Keeps.require fun _ => trivial).bind fun _ _ => .pure (exported_sublist _ _)

theorem openSdData_stable (hI : StableAll I) (huff : Bool) : Keeps I anyError (fun _ => True) (openSdData E huff) := by
  unfold openSdData
  split
  · exact .pure trivial
  · exact cursorByte_keeps.bind fun _ _ => adInitAt_stable hI.toStable trivial _

/-- What a symbol dictionary starts from: cleared arrays, or the retained GB and GR of the last dictionary referred to. -/
theorem startContexts_keeps (hI : StableAll I) (hd : SdHeader) (last : Option (Option Retained))
    (hr : ∀ r, last = some (some r) → ∀ w, I w → I { w with cx := { w.cx with gb := r.gb, gr := r.gr } }) :
    Keeps I anyError (fun _ => True) (startContexts hd last) := by
  unfold startContexts
  refine (clearArrays_stable hI.toStable _).bind fun _ _ => ?_
  split
  · unfold inheritContexts
    split
    · exact (Keeps.require fun _ => trivial).bind fun _ _ => .modify (hr _ rfl)
    · exact .throw trivial
    · exact .throw trivial
  · exact .pure trivial

/-- What a symbol dictionary segment leaves: at most MAXSYMS symbols, each of a reference or within the capacity, the
retained arrays of the final working state, and IDLEN within its range. -/
theorem segSd_stable (hI : StableAll I) (slots : List Slot)
    (hr : ∀ syms r, .symDict syms (some r) ∈ slots → ∀ w, I w → I { w with cx := { w.cx with gb := r.gb, gr := r.gr } }) :
    Keeps I anyError
      (fun r => ∃ syms ret n, r.slot = .symDict syms ret ∧ r.idlen = some (ceilLog2 n) ∧ n ≤ E.cfg.maxsyms ∧
        syms.length ≤ n ∧ (∀ b ∈ syms, b ∈ slots.flatMap Slot.symbols ∨ b.Fits E.cfg) ∧
        ∀ q, ret = some q → ∃ w, I w ∧ q.gb = w.cx.gb ∧ q.gr = w.cx.gr)
      (segSd E slots) := by
  unfold segSd
  refine (collectRefs_stable slots).bind fun refs href => ?_
  refine (parseSdHeader_stable hI).bind fun hd _ => ?_
  refine (sdParams_stable hI hd refs).bind fun p hp => ?_
  refine (startContexts_keeps hI hd _ fun r h => ?_).bind fun _ _ => ?_
  · obtain ⟨syms, hm⟩ := href.2.2 _ h
    exact hr syms r hm
  refine (openSdData_stable hI _).bind fun _ _ => ?_
  refine (decodeSymbols_stable hI p).bind fun news hnew => ?_
  refine (decodeExport_stable hI p news).bind fun ex hex => ?_
  refine Keeps.get.bind fun w hw => .pure ⟨ex, retained hd w.cx, refs.syms.length + hd.numNew, rfl, ?_, hp.2.2.2, ?_, ?_, ?_⟩
  · rw [hp.2.2.1]
  · have := hex.length_le
    rw [List.length_append, hnew.1, hp.1, hp.2.1] at this
    exact this
  · intro b hb
    rcases List.mem_append.mp (hex.subset hb) with h | h
    · rw [hp.2.1, href.1] at h
      exact .inl h
    · exact .inr (hnew.2 b h)
  · intro q hq
    unfold retained at hq
    split at hq
    · cases hq
      exact ⟨w, hw, rfl, rfl⟩
    · cases hq

end Sys2Proof.Machine
end

