-- ==== Sys2Proof/Laws/Commands.lean ====
section
/-! SUPPORT. How every command ends: by an error taken once (`60_exceptions.md` R424), or DONE with what its rule writes. -/

namespace Sys2Proof.Machine

/-- What each command may write, as its meaning has it (`10_state.md` R41). -/
def footprintOf : Instr → Footprint
  | .segSd | .segTrInt | .segTrImm | .segTrImml => symbolFootprint
  | .segGrInt | .segGrImm | .segGrImml => grFootprint
  | .segRrInt | .segRrImm | .segRrImml => rrFootprint
  | .segTables => tablesFootprint
  | .strmBind | .strmSeek | .strmAlign => cursorFootprint
  | .strmReadbits _ => readbitsFootprint
  | .adInit => adInitFootprint
  | .adDecode a _ => adDecodeFootprint (arrOfSel a.toNat).toList
  | .iaDecode a => iaDecodeFootprint (iaArr a.toNat).toList
  | .iaidDecode => adDecodeFootprint [.iaid]
  | .htStd _ | .adCxreset _ _ => noFootprint
  | .htDecode _ => htDecodeFootprint
  | .bmCombine _ | .bmNew _ => bitmapFootprint

/-- What a segment command's next state is. -/
theorem runSegment_cases {opc : BitVec 8} {fp : Footprint} {readsRef : Bool} {body : Dec SegmentResult} {s t : State}
    (h : runSegment opc fp readsRef body s = .next t) :
    (s.windowOk = true ∧ (readsRef = true → s.refsOk = true) ∧
        ∃ r w, body s.work = .ok r w ∧ t = (s.finishSegment r (s.commit fp w)).completed) ∨
      (s.windowOk = true ∧ (readsRef = true → s.refsOk = true) ∧
        ∃ e w, body s.work = .error e w ∧ t = s.raise opc fp w.built e) ∨
      ((s.windowOk = false ∨ readsRef = true ∧ s.refsOk = false) ∧ t = s.raise opc fp 0 .illegalCommand) := by
  unfold runSegment at h
  cases hw : s.windowOk with
  | false =>
    have hb : (do
        require s.windowOk .illegalCommand
        require (!readsRef || s.refsOk) .illegalCommand
        body : Dec SegmentResult) s.work = .error .illegalCommand s.work := by
      rw [hw]
      exact Dec.bind_of_error rfl
    rw [runCommand_of_error hb] at h
    cases h
    exact .inr (.inr ⟨.inl rfl, rfl⟩)
  | true =>
    by_cases hr : (!readsRef || s.refsOk) = true
    · have hb : (do
          require s.windowOk .illegalCommand
          require (!readsRef || s.refsOk) .illegalCommand
          body : Dec SegmentResult) = body := by
        rw [hw, hr]
        rfl
      rw [hb] at h
      have hr' : readsRef = true → s.refsOk = true := by
        intro h'
        simpa [h'] using hr
      rcases runCommand_cases h with ⟨v, w, hv, ht⟩ | ⟨e, w, hv, ht⟩
      · exact .inl ⟨rfl, hr', v, w, hv, ht⟩
      · exact .inr (.inl ⟨rfl, hr', e, w, hv, ht⟩)
    · have hr := Bool.eq_false_iff.mpr hr
      have hb : (do
          require s.windowOk .illegalCommand
          require (!readsRef || s.refsOk) .illegalCommand
          body : Dec SegmentResult) s.work = .error .illegalCommand s.work := by
        rw [hw, hr]
        rfl
      rw [runCommand_of_error hb] at h
      cases h
      refine .inr (.inr ⟨.inr ?_, rfl⟩)
      simpa using hr

/-- A segment command that passes its operand checks runs its procedure. -/
theorem runSegment_of_ok {opc : BitVec 8} {fp : Footprint} {readsRef : Bool} {body : Dec SegmentResult} {s : State}
    {r : SegmentResult} {w : Work} (hw : s.windowOk = true) (hr : readsRef = true → s.refsOk = true)
    (hb : body s.work = .ok r w) :
    runSegment opc fp readsRef body s = .next (s.finishSegment r (s.commit fp w)).completed := by
  unfold runSegment
  refine runCommand_of_ok (v := r) ?_
  rw [hw]
  have : (!readsRef || s.refsOk) = true := by
    cases readsRef
    · rfl
    · simpa using hr rfl
  rw [this]
  exact hb

/-- A segment command that passes its operand checks raises what its procedure raises. -/
theorem runSegment_of_error {opc : BitVec 8} {fp : Footprint} {readsRef : Bool} {body : Dec SegmentResult} {s : State}
    {e : CoreError} {w : Work} (hw : s.windowOk = true) (hr : readsRef = true → s.refsOk = true)
    (hb : body s.work = .error e w) :
    runSegment opc fp readsRef body s = .next (s.raise opc fp w.built e) := by
  unfold runSegment
  refine runCommand_of_error ?_
  rw [hw]
  have : (!readsRef || s.refsOk) = true := by
    cases readsRef
    · rfl
    · simpa using hr rfl
  rw [this]
  exact hb

/-- Taking an error leaves the parameters, the host's moves, CMD, the operand registers, REFN, REF, INMEM, SBASE, SLEN. -/
theorem State.raise_hostSide (s : State) (opc : BitVec 8) (fp : Footprint) (built : BitVec 16) (e : CoreError) :
    s.HostSideKept (s.raise opc fp built e) ∧ s.BindingKept (s.raise opc fp built e) := by
  unfold State.HostSideKept State.BindingKept State.raise State.abandon State.spoil State.setSlot
  split
  · exact ⟨⟨rfl, rfl, rfl, rfl, rfl, rfl, rfl, rfl, rfl, rfl, fun _ => rfl⟩, rfl, rfl⟩
  · split <;> exact ⟨⟨rfl, rfl, rfl, rfl, rfl, rfl, rfl, rfl, rfl, rfl, fun _ => rfl⟩, rfl, rfl⟩

/-- How a command that completed relates to the state before it, whatever the command: the host's side, the error record and
the free draws stay. -/
structure DoneFrame (s t : State) : Prop where
  status : t.status = .done
  err : t.err = 0
  host : s.HostSideKept t
  record : s.RecordKept t

theorem DoneFrame.of_eq {s t u : State} (h : t = u.completed) (hu : s.HostSideKept u ∧ s.RecordKept u) : DoneFrame s t := by
  subst h
  exact ⟨rfl, rfl, hu.1, hu.2⟩

theorem commit_frame (s : State) (fp : Footprint) (w : Work) :
    s.HostSideKept (s.commit fp w) ∧ s.RecordKept (s.commit fp w) :=
  ⟨⟨rfl, rfl, rfl, rfl, rfl, rfl, rfl, rfl, rfl, rfl, fun _ => rfl⟩, rfl, rfl, rfl⟩

/-- A command whose rule's writes keep the host's side and the error record ends by an error or DONE in that frame. -/
theorem runCommand_ends {α : Type} {opc : BitVec 8} {fp : Footprint} {body : Dec α} {post : α → State → State}
    {s t : State} (h : runCommand opc fp body post s = .next t)
    (hp : ∀ v u, s.HostSideKept u ∧ s.RecordKept u → s.HostSideKept (post v u) ∧ s.RecordKept (post v u)) :
    (∃ e built, t = s.raise opc fp built e) ∨ DoneFrame s t := by
  rcases runCommand_cases h with ⟨v, w, _, rfl⟩ | ⟨e, w, _, rfl⟩
  · exact .inr (.of_eq rfl (hp v _ (commit_frame s fp w)))
  · exact .inl ⟨e, w.built, rfl⟩

/-- Every command ends by taking one error with its own OPC and footprint, or DONE with the host's side and the error record
as they were. -/
theorem exec_ends {i : Instr} {s t : State} (h : exec i s = .next t) :
    (∃ e built, t = s.raise i.opc (footprintOf i) built e) ∨ DoneFrame s t := by
  cases i with
  | strmBind =>
    simp only [exec, execStrmBind] at h
    exact runCommand_ends h fun _ _ hu => hu
  | strmSeek =>
    simp only [exec, execStrmSeek] at h
    exact runCommand_ends h fun _ _ hu => hu
  | strmReadbits a =>
    simp only [exec, execStrmReadbits] at h
    exact runCommand_ends h fun _ _ hu => hu
  | strmAlign =>
    simp only [exec, execStrmAlign] at h
    exact runCommand_ends h fun _ _ hu => hu
  | adInit =>
    simp only [exec, execAdInit] at h
    exact runCommand_ends h fun _ _ hu => hu
  | adDecode a b =>
    simp only [exec, execAdDecode] at h
    exact runCommand_ends h fun _ _ hu => hu
  | adCxreset a b =>
    simp only [exec, execAdCxreset] at h
    exact runCommand_ends h fun _ _ hu => hu
  | iaidDecode =>
    simp only [exec, execIaidDecode] at h
    exact runCommand_ends h fun _ _ hu => hu
  | htStd a =>
    simp only [exec, execHtStd] at h
    exact runCommand_ends h fun _ _ hu => hu
  | bmCombine a =>
    simp only [exec, execBmCombine] at h
    exact runCommand_ends h fun _ _ hu => hu
  | bmNew a =>
    simp only [exec, execBmNew] at h
    exact runCommand_ends h fun _ _ hu => hu
  | iaDecode a =>
    simp only [exec, execIaDecode] at h
    exact runCommand_ends h fun v u hu => by cases v <;> exact hu
  | htDecode a =>
    simp only [exec, execHtDecode] at h
    exact runCommand_ends h fun v u hu => by cases hv : v.1 <;> exact hu
  | segSd =>
    simp only [exec, execSegSd] at h
    exact runCommand_ends h fun _ _ hu => hu
  | segTrInt =>
    simp only [exec, execSegTrInt] at h
    exact runCommand_ends h fun _ _ hu => hu
  | segTrImm =>
    simp only [exec, execSegTrImm] at h
    exact runCommand_ends h fun _ _ hu => hu
  | segTrImml =>
    simp only [exec, execSegTrImml] at h
    exact runCommand_ends h fun _ _ hu => hu
  | segGrInt =>
    simp only [exec, execSegGrInt] at h
    exact runCommand_ends h fun _ _ hu => hu
  | segGrImm =>
    simp only [exec, execSegGrImm] at h
    exact runCommand_ends h fun _ _ hu => hu
  | segGrImml =>
    simp only [exec, execSegGrImml] at h
    exact runCommand_ends h fun _ _ hu => hu
  | segRrInt =>
    simp only [exec, execSegRrInt] at h
    exact runCommand_ends h fun _ _ hu => hu
  | segRrImm =>
    simp only [exec, execSegRrImm] at h
    exact runCommand_ends h fun _ _ hu => hu
  | segRrImml =>
    simp only [exec, execSegRrImml] at h
    exact runCommand_ends h fun _ _ hu => hu
  | segTables =>
    simp only [exec, execSegTables] at h
    exact runCommand_ends h fun _ _ hu => hu

/-- Every command answers a next state: none hangs or stops the machine (`30_encoding.md` R90). -/
theorem exec_next (i : Instr) (s : State) : ∃ t, exec i s = .next t := by
  cases i <;>
    simp only [exec,
      execSegSd, execSegTrInt, execSegTrImm, execSegTrImml, execSegGrInt, execSegGrImm, execSegGrImml,
      execSegRrInt, execSegRrImm, execSegRrImml, execSegTables, execStrmBind, execStrmSeek, execStrmReadbits,
      execStrmAlign, execAdInit, execAdDecode, execAdCxreset, execIaDecode, execIaidDecode, execHtStd,
      execHtDecode, execBmCombine, execBmNew] <;>
    exact runCommand_next _ _ _ _ _

end Sys2Proof.Machine
end

