-- ==== Sys2Proof/Laws/Inputs.lean ====
section
/-! SUPPORT. What a procedure's outcome depends on (`70_reset_and_hazards.md` R466): two runs that see the same window bytes, the
same parameters and the standard tables agree, if they start at one cursor and, where they use the arithmetic decoder, with
its registers and arrays equal. -/

namespace Sys2Proof.Machine

/-- Two environments show the same window. -/
structure SameInput (E E' : Env) : Prop where
  wb : E'.wb = E.wb
  we : E'.we = E.we
  cfg : E'.cfg = E.cfg
  byte : ∀ i, E.wb ≤ i → i < E.we → memByte E'.inmem (E'.base + i) = memByte E.inmem (E.base + i)
  tab : ∀ n t, sparseFind E.stdTab n = some t → t = stdTable n
  tab' : ∀ n t, sparseFind E'.stdTab n = some t → t = stdTable n

/-- Equal cursors; equal arrays where `ns`; and equal decoder registers if `b`. -/
structure SameWork (b : Prop) (ns : Arr → Prop) (w u : Work) : Prop where
  sp : u.sp = w.sp
  arr : ∀ n, ns n → u.cx.arr n = w.cx.arr n
  ad : b → u.ad = w.ad

variable {E E' : Env} {b : Prop} {ns : Arr → Prop}

/-- Two procedures agree along `SameWork`. -/
abbrev Same (b : Prop) (ns : Arr → Prop) {α : Type} (p q : Dec α) : Prop := Agree (SameWork b ns) (SameWork b ns) p q

/-! ## Bytes and bits -/

theorem inByte_same (h : SameInput E E') (R : Work → Work → Prop) (i : Nat) : Agree R R (inByte E i) (inByte E' i) := by
  intro w u hw
  by_cases hi : i < E.wb ∨ E.we ≤ i
  · rw [inByte_error hi, inByte_error (by rw [h.wb, h.we]; exact hi)]
  · rw [inByte_ok (by omega) (by omega), inByte_ok (by rw [h.wb]; omega) (by rw [h.we]; omega)]
    exact ⟨(h.byte i (by omega) (by omega)).symm, hw⟩

theorem readBit_same (h : SameInput E E') : Same b ns (readBit E) (readBit E') := by
  unfold readBit
  refine .get_bind fun w u hw => ?_
  rw [hw.sp]
  exact (inByte_same h _ _).bind fun v => (Agree.set (S := SameWork b ns) (w := { w with sp := w.sp + 1 })
    (u := { u with sp := w.sp + 1 }) ⟨rfl, hw.arr, hw.ad⟩).bind fun _ => .pure

theorem readBitsOnto_same (h : SameInput E E') : ∀ n r, Same b ns (readBitsOnto E n r) (readBitsOnto E' n r)
  | 0, _ => .pure
  | n + 1, r => by
    unfold readBitsOnto
    exact (readBit_same h).bind fun _ => readBitsOnto_same h n _

theorem readBits_same (h : SameInput E E') (n : Nat) : Same b ns (readBits E n) (readBits E' n) :=
  readBitsOnto_same h n 0

theorem readS8_same (h : SameInput E E') : Same b ns (readS8 E) (readS8 E') := (readBits_same h 8).bind fun _ => .pure

theorem readS32_same (h : SameInput E E') : Same b ns (readS32 E) (readS32 E') := (readBits_same h 32).bind fun _ => .pure

theorem alignByte_same : Same b ns alignByte alignByte :=
  .modify fun w u hw => ⟨by dsimp only; rw [hw.sp], hw.arr, hw.ad⟩

theorem seekByte_same (i : Nat) : Same b ns (seekByte i) (seekByte i) := .modify fun _ _ hw => ⟨rfl, hw.arr, hw.ad⟩

theorem cursorByte_same : Same b ns cursorByte cursorByte := by
  intro w u hw
  exact ⟨by show w.sp / 8 = u.sp / 8; rw [hw.sp], hw⟩

/-- Cleared arrays are equal. -/
theorem clearArrays_same (l : List Arr) (ms : Arr → Prop) (hm : ∀ n, ms n → ns n ∨ n ∈ l) :
    Agree (SameWork b ns) (SameWork b ms) (clearArrays l) (clearArrays l) :=
  .modify fun w u hw => by
    refine ⟨hw.sp, fun n hn => ?_, hw.ad⟩
    dsimp only
    rw [Contexts.arr_mapArr, Contexts.arr_mapArr]
    split
    · rfl
    · exact hw.arr n ((hm n hn).resolve_right ‹_›)

theorem require_same (c : Bool) (e : CoreError) : Same b ns (require c e) (require c e) := .require

theorem needValue_same (v : Option Int) : Same b ns (needValue v) (needValue v) := by
  unfold needValue
  split
  · exact .pure
  · exact .throw

/-! ## The arithmetic decoder -/

theorem SameWork.eq_ad {w u : Work} (hw : SameWork True ns w u) : u.ad = w.ad := hw.ad trivial

/-- A refill, from states with equal B and BP. -/
theorem byteIn_agree (h : SameInput E E') {R S : Work → Work → Prop}
    (hb : ∀ w u, R w u → u.ad.b = w.ad.b ∧ u.ad.bp = w.ad.bp)
    (hs : ∀ w u d k, R w u →
      S { w with ad := { w.ad with c := w.ad.c + d, ct := k } } { u with ad := { u.ad with c := u.ad.c + d, ct := k } })
    (hs' : ∀ w u d k b' bp', R w u →
      S { w with ad := { w.ad with c := w.ad.c + d, ct := k, b := b', bp := bp' } }
        { u with ad := { u.ad with c := u.ad.c + d, ct := k, b := b', bp := bp' } }) :
    Agree R S (byteIn E) (byteIn E') := by
  unfold byteIn
  refine .get_bind fun w u hw => ?_
  dsimp only
  rw [(hb w u hw).1, (hb w u hw).2]
  split
  · refine (inByte_same h _ _).bind fun v => ?_
    split
    · refine Agree.set ?_
      have := hs w u 0xFF00 8 hw
      dsimp only at this
      rw [(hb w u hw).1, (hb w u hw).2] at this
      exact this
    · exact Agree.set (hs' w u _ 7 _ _ hw)
  · exact (inByte_same h _ _).bind fun v => Agree.set (hs' w u _ 8 _ _ hw)

theorem byteIn_same (h : SameInput E E') : Same True ns (byteIn E) (byteIn E') := by
  refine byteIn_agree h (fun w u hw => by rw [hw.eq_ad]; exact ⟨rfl, rfl⟩) ?_ ?_
  · exact fun w u d k hw => ⟨hw.sp, hw.arr, fun _ => by dsimp only; rw [hw.eq_ad]⟩
  · exact fun w u d k b' bp' hw => ⟨hw.sp, hw.arr, fun _ => by dsimp only; rw [hw.eq_ad]⟩

/-- The decoder registers after a start do not depend on those before it. -/
theorem adInitAt_same (h : SameInput E E') (i : Nat) :
    Agree (SameWork b ns) (SameWork True ns) (adInitAt E i) (adInitAt E' i) := by
  unfold adInitAt
  refine (inByte_same h _ i).bind fun v => ?_
  refine Agree.bind (S := fun w u => SameWork False ns w u ∧ u.ad.b = w.ad.b ∧ u.ad.bp = w.ad.bp ∧ u.ad.c = w.ad.c)
    (.modify fun w u hw => ⟨⟨hw.sp, hw.arr, fun h => h.elim⟩, rfl, rfl, rfl⟩) fun _ => ?_
  refine Agree.bind (S := fun w u => SameWork False ns w u ∧ u.ad.b = w.ad.b ∧ u.ad.bp = w.ad.bp ∧ u.ad.c = w.ad.c ∧
    u.ad.ct = w.ad.ct) (byteIn_agree h (fun w u hw => ⟨hw.2.1, hw.2.2.1⟩) ?_ ?_) fun _ => .modify fun w u hw => ?_
  · exact fun w u d k hw => ⟨⟨hw.1.sp, hw.1.arr, fun h => h.elim⟩, hw.2.1, hw.2.2.1, by dsimp only; rw [hw.2.2.2], rfl⟩
  · exact fun w u d k b' bp' hw => ⟨⟨hw.1.sp, hw.1.arr, fun h => h.elim⟩, rfl, rfl, by dsimp only; rw [hw.2.2.2], rfl⟩
  · obtain ⟨h1, h2, h3, h4, h5⟩ := hw
    refine ⟨h1.sp, h1.arr, fun _ => ?_⟩
    dsimp only
    rw [h2, h3, h4, h5]

theorem renormUpTo_same (h : SameInput E E') : ∀ n, Same True ns (renormUpTo E n) (renormUpTo E' n)
  | 0 => .pure
  | n + 1 => by
    have hrest : Same True ns
        (do
          modify fun w => { w with ad := renormShift w.ad }
          let w ← get
          if w.ad.a < 0x8000 then renormUpTo E n else pure () : Dec Unit)
        (do
          modify fun w => { w with ad := renormShift w.ad }
          let w ← get
          if w.ad.a < 0x8000 then renormUpTo E' n else pure ()) := by
      refine Agree.bind (S := SameWork True ns)
        (.modify fun w u hw => ⟨hw.sp, hw.arr, fun _ => by dsimp only; rw [hw.eq_ad]⟩) fun _ => ?_
      refine .get_bind fun w u hw => ?_
      rw [hw.eq_ad]
      refine Agree.strengthen (R := SameWork True ns) ?_ fun x y hxy => by rw [hxy.1, hxy.2]; exact hw
      exact .ite (fun _ => renormUpTo_same h n) fun _ => .pure
    unfold renormUpTo
    refine .get_bind fun w u hw => ?_
    rw [hw.eq_ad]
    refine Agree.strengthen (R := SameWork True ns) ?_ fun x y hxy => by rw [hxy.1, hxy.2]; exact hw
    split
    · exact (byteIn_same h).bind fun _ => hrest
    · exact hrest

/-- A bit decode depends on the decoder registers and its own array. -/
theorem adDecode_same (h : SameInput E E') {arr : Arr} (ha : ns arr) (i : Nat) :
    Same True ns (adDecode E arr i) (adDecode E' arr i) := by
  have hset : ∀ (w u : Work) (r : ArithRegs) (e : CxEntry), SameWork True ns w u →
      SameWork True ns ({ w with ad := r }.setEntry arr i e) ({ u with ad := r }.setEntry arr i e) := by
    intro w u r e hw
    refine ⟨hw.sp, fun n hn => ?_, fun _ => rfl⟩
    rw [Work.setEntry_arr, Work.setEntry_arr]
    split
    · dsimp only
      rw [hw.arr arr ha]
    · exact hw.arr n hn
  unfold adDecode
  refine .get_bind fun w u hw => ?_
  dsimp only
  rw [hw.arr arr ha, hw.eq_ad]
  split
  · exact (Agree.set (hset w u _ _ hw)).bind fun _ => (renormUpTo_same h 16).bind fun _ => .pure
  · split
    · exact (Agree.set (hset w u _ _ hw)).bind fun _ => (renormUpTo_same h 16).bind fun _ => .pure
    · refine Agree.bind (S := SameWork True ns) (Agree.set ?_) fun _ => .pure
      exact ⟨hw.sp, hw.arr, fun _ => rfl⟩

theorem iaBitsOnto_same (h : SameInput E E') {arr : Arr} (ha : ns arr) :
    ∀ n prev r, Same True ns (iaBitsOnto E arr n prev r) (iaBitsOnto E' arr n prev r)
  | 0, _, _ => .pure
  | n + 1, prev, r => by
    unfold iaBitsOnto
    exact (adDecode_same h ha _).bind fun _ => iaBitsOnto_same h ha n _ _

theorem iaMagnitude_same (h : SameInput E E') {arr : Arr} (ha : ns arr) :
    ∀ rows prev, Same True ns (iaMagnitude E arr rows prev) (iaMagnitude E' arr rows prev)
  | [], prev => (iaBitsOnto_same h ha 32 prev 0).bind fun _ => .pure
  | (n, o) :: rows, prev => by
    unfold iaMagnitude
    refine (adDecode_same h ha _).bind fun d => ?_
    split
    · exact iaMagnitude_same h ha rows _
    · exact (iaBitsOnto_same h ha n _ 0).bind fun _ => .pure

theorem iaDecode_same (h : SameInput E E') {arr : Arr} (ha : ns arr) :
    Same True ns (iaDecode E arr) (iaDecode E' arr) :=
  (adDecode_same h ha _).bind fun _ => (iaMagnitude_same h ha _ _).bind fun _ => .pure

theorem iaidWalk_same (h : SameInput E E') (ha : ns .iaid) :
    ∀ n prev, Same True ns (iaidWalk E n prev) (iaidWalk E' n prev)
  | 0, _ => .pure
  | n + 1, prev => by
    unfold iaidWalk
    exact (adDecode_same h ha _).bind fun _ => iaidWalk_same h ha n _

theorem iaidDecode_same (h : SameInput E E') (ha : ns .iaid) (n : Nat) :
    Same True ns (iaidDecode E n) (iaidDecode E' n) :=
  (iaidWalk_same h ha n 1).bind fun _ => .pure

/-! ## Bitmaps -/

theorem newBitmap_same (h : SameInput E E') (x y : Nat) (fill : Bool) :
    Same b ns (newBitmap E.cfg x y fill) (newBitmap E'.cfg x y fill) := by
  rw [h.cfg]
  exact (require_same _ _).bind fun _ => .pure

theorem nextLtp_same (h : SameInput E E') {arr : Arr} (ha : ns arr) (on : Bool) (cx : Nat) (ltp : Bool) :
    Same True ns (nextLtp E on arr cx ltp) (nextLtp E' on arr cx ltp) := by
  unfold nextLtp
  split
  · exact (adDecode_same h ha _).bind fun _ => .pure
  · exact .pure

theorem genericDecode_same (h : SameInput E E') (ha : ns .gb) (x y : Nat) (t : Fin 4) (on : Bool) (at_ : AtPixels) :
    Same True ns (genericDecode E x y t on at_) (genericDecode E' x y t on at_) := by
  unfold genericDecode
  refine (newBitmap_same h x y false).bind fun bm => ?_
  refine (Agree.loopM (fun j r => ?_) _ _ _).bind fun r => .pure
  unfold genericRow
  refine (nextLtp_same h ha _ _ _).bind fun ltp => ?_
  split
  · exact .pure
  · exact (Agree.loopM (fun i c => (adDecode_same h ha _).bind fun _ => .pure) _ _ _).bind fun _ => .pure

theorem refineDecode_same (h : SameInput E E') (ha : ns .gr) (x y : Int) (p : RefineParams) :
    Same True ns (refineDecode E x y p) (refineDecode E' x y p) := by
  unfold refineDecode
  refine (require_same _ _).bind fun _ => ?_
  refine (newBitmap_same h _ _ false).bind fun bm => ?_
  refine (Agree.loopM (fun j r => ?_) _ _ _).bind fun r => .pure
  unfold refineRow
  refine (nextLtp_same h ha _ _ _).bind fun ltp => ?_
  refine (Agree.loopM (fun i c => ?_) _ _ _).bind fun _ => .pure
  unfold refinePixel
  split
  · exact .pure
  · exact (adDecode_same h ha _).bind fun _ => .pure

/-! ## Headers and tables -/

theorem parseRegionInfo_same (h : SameInput E E') : Same b ns (parseRegionInfo E) (parseRegionInfo E') := by
  unfold parseRegionInfo
  refine (readBits_same h 32).bind fun w => (readBits_same h 32).bind fun ht => (readBits_same h 32).bind fun x => ?_
  refine (readBits_same h 32).bind fun y => (readBits_same h 8).bind fun f => (require_same _ _).bind fun _ => ?_
  rw [h.cfg]
  split
  · exact .throw
  · exact (require_same _ _).bind fun _ => .pure

theorem readAtPixels_same (h : SameInput E E') : ∀ n, Same b ns (readAtPixels E n) (readAtPixels E' n)
  | 0 => .pure
  | n + 1 => by
    unfold readAtPixels
    exact (readS8_same h).bind fun _ => (readS8_same h).bind fun _ => (readAtPixels_same h n).bind fun _ => .pure

theorem readGenericAt_same (h : SameInput E E') (t : Fin 4) : Same b ns (readGenericAt E t) (readGenericAt E' t) :=
  (readAtPixels_same h _).bind fun _ => (require_same _ _).bind fun _ => .pure

theorem readRefineAt_same (h : SameInput E E') : Same b ns (readRefineAt E) (readRefineAt E') :=
  (readAtPixels_same h _).bind fun _ => (require_same _ _).bind fun _ => .pure

theorem std_same (h : SameInput E E') (n : Nat) : Same b ns (std E n) (std E' n) := by
  unfold std
  refine Agree.bind (S := SameWork b ns) (.modify fun w u hw => ⟨hw.sp, hw.arr, hw.ad⟩) fun _ => ?_
  have : ∀ tab : List (Nat × Table), (∀ m t, sparseFind tab m = some t → t = stdTable m) →
      (sparseFind tab n).getD (stdTable n) = stdTable n := by
    intro tab ht
    cases hf : sparseFind tab n with
    | none => rfl
    | some t => exact ht n t hf
  rw [this _ h.tab, this _ h.tab']
  exact .pure

theorem readCodeBit_same (h : SameInput E E') : Same b ns (readCodeBit E) (readCodeBit E') := by
  intro w u hw
  have := readBit_same h w u hw
  unfold readCodeBit
  cases h1 : readBit E w <;> cases h2 : readBit E' u <;> rw [h1, h2] at this
  · exact this
  · exact this.elim
  · exact this.elim

theorem htWalk_same (h : SameInput E E') (t : Table) :
    ∀ room len code, Same b ns (htWalk E t room len code) (htWalk E' t room len code)
  | 0, _, _ => .throw
  | room + 1, len, code => by
    unfold htWalk
    refine (readCodeBit_same h).bind fun d => ?_
    split
    · exact .pure
    · exact htWalk_same h t room _ _

theorem leafValue_same (h : SameInput E E') (l : Line) : Same b ns (leafValue E l) (leafValue E' l) := by
  unfold leafValue
  split
  · exact (readBits_same h _).bind fun _ => .pure
  · exact (readBits_same h _).bind fun _ => .pure
  · exact (readBits_same h _).bind fun _ => .pure
  · exact .pure

theorem htDecode_same (h : SameInput E E') (t : Table) : Same b ns (htDecode E t) (htDecode E' t) :=
  (htWalk_same h t _ _ _).bind fun _ => leafValue_same h _

theorem stdDecode_same (h : SameInput E E') (n : Nat) : Same b ns (stdDecode E n) (stdDecode E' n) :=
  (std_same h n).bind fun _ => htDecode_same h _

theorem assignCodes_same (t : Table) : Same b ns (assignCodes t) (assignCodes t) :=
  (require_same _ _).bind fun _ => .pure

theorem tableLines_same (h : SameInput E E') (htps htrs : Nat) (high : Int) :
    ∀ n cur t, Same b ns (tableLines E htps htrs high n cur t) (tableLines E' htps htrs high n cur t)
  | 0, _, _ => .throw
  | n + 1, cur, t => by
    unfold tableLines
    rw [h.cfg]
    split
    · exact .pure
    · refine (require_same _ _).bind fun _ => (readBits_same h _).bind fun p => (readBits_same h _).bind fun r => ?_
      exact (require_same _ _).bind fun _ => tableLines_same h htps htrs high n _ _

theorem tableTail_same (h : SameInput E E') (htps : Nat) (low high : Int) (oob : Bool) :
    Same b ns (tableTail E htps low high oob) (tableTail E' htps low high oob) := by
  unfold tableTail
  refine (readBits_same h _).bind fun p => (readBits_same h _).bind fun q => ?_
  split
  · exact (readBits_same h _).bind fun _ => .pure
  · exact .pure

theorem parseTable_same (h : SameInput E E') : Same b ns (parseTable E) (parseTable E') := by
  unfold parseTable
  refine (readBits_same h 8).bind fun f => (require_same _ _).bind fun _ => ?_
  refine (readS32_same h).bind fun low => (readS32_same h).bind fun high => (require_same _ _).bind fun _ => ?_
  rw [h.cfg]
  refine (tableLines_same h _ _ _ _ _ _).bind fun t => (tableTail_same h _ _ _ _).bind fun u => ?_
  exact alignByte_same.bind fun _ => assignCodes_same _

theorem chooseTable_same (h : SameInput E E') (c : TableChoice) (tabs : List Table) :
    Same b ns (chooseTable E c tabs) (chooseTable E' c tabs) := by
  unfold chooseTable
  split
  · exact (std_same h _).bind fun _ => .pure
  · split
    · exact .pure
    · exact .throw
  · exact .throw

/-- The outcome of a generic region segment depends on its window only. -/
theorem segGr_same (h : SameInput E E') : Agree (SameWork b ns) (SameWork True (· = .gb)) (segGr E) (segGr E') := by
  unfold segGr
  refine Agree.bind (S := SameWork b ns) ?_ fun hd => ?_
  · unfold parseGenericHeader
    refine (parseRegionInfo_same h).bind fun info => (readBits_same h 8).bind fun f => ?_
    refine (require_same _ _).bind fun _ => (require_same _ _).bind fun _ => ?_
    exact (readGenericAt_same h _).bind fun _ => .pure
  · refine (clearArrays_same [.gb] (· = .gb) fun n hn => .inr (by simp [hn])).bind fun _ => ?_
    refine cursorByte_same.bind fun i => (adInitAt_same h i).bind fun _ => ?_
    exact (genericDecode_same (ns := (· = .gb)) h rfl _ _ _ _ _).bind fun _ => .pure

/-- The outcome of a refinement region segment depends on its window and the referred Region only. -/
theorem segRr_same (h : SameInput E E') (slots : List Slot) :
    Agree (SameWork b ns) (SameWork True (· = .gr)) (segRr E slots) (segRr E' slots) := by
  unfold segRr
  refine Agree.bind (S := SameWork b ns) ?_ fun refb => ?_
  · unfold rrReference
    split
    · exact .pure
    · exact .throw
  refine Agree.bind (S := SameWork b ns) ?_ fun hd => ?_
  · unfold parseRefineHeader
    refine (parseRegionInfo_same h).bind fun info => (readBits_same h 8).bind fun f => ?_
    refine (require_same _ _).bind fun _ => ?_
    dsimp only
    split
    · exact .pure
    · exact (readRefineAt_same h).bind fun _ => .pure
  · refine (require_same _ _).bind fun _ => ?_
    refine (clearArrays_same [.gr] (· = .gr) fun n hn => .inr (by simp [hn])).bind fun _ => ?_
    refine cursorByte_same.bind fun i => (adInitAt_same h i).bind fun _ => ?_
    exact (refineDecode_same (ns := (· = .gr)) h rfl _ _ _).bind fun _ => .pure

/-! ## Text regions and symbol dictionaries

All arrays are equal from the start of these commands on. The decoder registers are equal from the first start of the
decoder on: throughout in arithmetic coding, and inside each refinement block in Huffman coding. -/

/-- Every array is equal; the decoder registers too unless the data is Huffman-coded. -/
abbrev SameSyms (huff : Bool) {α : Type} (p q : Dec α) : Prop := Same (huff = false) (fun _ => True) p q

theorem SameWork.weaken {w u : Work} (hw : SameWork True ns w u) : SameWork b ns w u :=
  ⟨hw.sp, hw.arr, fun _ => hw.ad trivial⟩

/-- What agrees with equal decoder registers agrees in arithmetic coding. -/
theorem Agree.arith {huff : Bool} {α : Type} {p q : Dec α} (hh : ¬huff = true)
    (hp : Same True (fun _ => True) p q) : SameSyms huff p q :=
  (hp.weaken fun _ _ hw => hw.weaken).strengthen fun _ _ hw => ⟨hw.sp, hw.arr, fun _ => hw.ad (Bool.eq_false_iff.mpr hh)⟩

theorem resolve_same (h : SameInput E E') (t : TableRef) : Same b ns (t.resolve E) (t.resolve E') := by
  unfold TableRef.resolve
  split
  · exact .pure
  · exact std_same h _

theorem textDec_same (h : SameInput E E') (p : TextParams) (t : TableRef) (arr : Arr) :
    SameSyms p.huff (textDec E p t arr) (textDec E' p t arr) := by
  unfold textDec
  split
  · exact (resolve_same h t).bind fun _ => htDecode_same h _
  · exact .arith ‹_› (iaDecode_same h trivial)

theorem textVal_same (h : SameInput E E') (p : TextParams) (t : TableRef) (arr : Arr) :
    SameSyms p.huff (textVal E p t arr) (textVal E' p t arr) :=
  (textDec_same h p t arr).bind fun _ => needValue_same _

theorem decodeCurT_same (h : SameInput E E') (p : TextParams) :
    SameSyms p.huff (decodeCurT E p) (decodeCurT E' p) := by
  unfold decodeCurT
  split
  · exact .pure
  · split
    · exact (readBits_same h _).bind fun _ => .pure
    · exact .arith ‹_› ((iaDecode_same h trivial).bind fun _ => needValue_same _)

theorem decodeId_same (h : SameInput E E') (p : TextParams) : SameSyms p.huff (decodeId E p) (decodeId E' p) := by
  unfold decodeId
  split
  · split
    · exact (htDecode_same h _).bind fun _ => (needValue_same _).bind fun _ => .pure
    · exact readBits_same h _
  · exact .arith ‹_› (iaidDecode_same h trivial _)

theorem decodeRi_same (h : SameInput E E') (p : TextParams) : SameSyms p.huff (decodeRi E p) (decodeRi E' p) := by
  unfold decodeRi
  have hr : ∀ v : Int, SameSyms p.huff
      (do require (decide (v = 0) || decide (v = 1)) .malformedSegment; pure (decide (v = 1)) : Dec Bool)
      (do require (decide (v = 0) || decide (v = 1)) .malformedSegment; pure (decide (v = 1))) := fun v =>
    (require_same _ _).bind fun _ => .pure
  split
  · dsimp only
    split
    · exact ((readBit_same h).bind fun v => .pure).bind fun v => hr v
    · exact (Agree.arith ‹_› ((iaDecode_same h trivial).bind fun _ => needValue_same _)).bind
        fun v => hr v
  · exact .pure

theorem openBlock_same (h : SameInput E E') (n : Nat) :
    Agree (SameWork b ns) (SameWork True ns) (openBlock E n) (openBlock E' n) := by
  unfold openBlock
  refine alignByte_same.bind fun _ => cursorByte_same.bind fun st => ?_
  rw [h.we]
  exact (require_same _ _).bind fun _ => (adInitAt_same h st).bind fun _ => .pure

theorem openRefinement_same (h : SameInput E E') (p : TextParams) :
    Agree (SameWork b ns) (SameWork True ns) (openRefinement E p) (openRefinement E' p) :=
  (resolve_same h _).bind fun _ => (htDecode_same h _).bind fun _ => (needValue_same _).bind fun _ =>
    (require_same _ _).bind fun _ => openBlock_same h _

theorem instanceBitmap_same (h : SameInput E E') (p : TextParams) (ibo : Bitmap) :
    SameSyms p.huff (instanceBitmap E p ibo) (instanceBitmap E' p ibo) := by
  unfold instanceBitmap
  refine (decodeRi_same h p).bind fun ri => ?_
  split
  · unfold refineInstance
    refine (textVal_same h p _ _).bind fun rdw => (textVal_same h p _ _).bind fun rdh => ?_
    refine (textVal_same h p _ _).bind fun rdx => (textVal_same h p _ _).bind fun rdy => ?_
    dsimp only
    split
    · refine (openRefinement_same h p).bind fun stop => (refineDecode_same h trivial _ _ _).bind fun bm => ?_
      exact ((seekByte_same stop).bind fun _ => .pure).weaken fun _ _ hw => hw.weaken
    · exact .arith ‹_› (refineDecode_same h trivial _ _ _)
  · exact .pure

theorem textInstance_same (h : SameInput E E') (p : TextParams) (st : TextState) :
    SameSyms p.huff (textInstance E p st) (textInstance E' p st) := by
  unfold textInstance
  refine (decodeCurT_same h p).bind fun curt => (decodeId_same h p).bind fun id => ?_
  split
  · exact .throw
  · exact (instanceBitmap_same h p _).bind fun _ => .pure

theorem stripRest_same (h : SameInput E E') (p : TextParams) :
    ∀ n st, SameSyms p.huff (stripRest E p n st) (stripRest E' p n st)
  | 0, st => by
    unfold stripRest
    exact (textDec_same h p _ _).bind fun _ => (require_same _ _).bind fun _ => .pure
  | n + 1, st => by
    unfold stripRest
    refine (textDec_same h p _ _).bind fun v => ?_
    split
    · exact .pure
    · exact (textInstance_same h p _).bind fun st' => stripRest_same h p n st'

theorem textStrips_same (h : SameInput E E') (p : TextParams) :
    ∀ n st, SameSyms p.huff (textStrips E p n st) (textStrips E' p n st)
  | 0, _ => .pure
  | n + 1, st => by
    unfold textStrips
    split
    · refine Agree.bind (S := SameWork (p.huff = false) fun _ => True) ?_ fun st' => textStrips_same h p n st'
      unfold textStrip
      refine (textVal_same h p _ _).bind fun dt => (textVal_same h p _ _).bind fun dfs => ?_
      exact (textInstance_same h p _).bind fun st' => stripRest_same h p _ st'
    · exact .pure

theorem textDecode_same (h : SameInput E E') (p : TextParams) : SameSyms p.huff (textDecode E p) (textDecode E' p) := by
  unfold textDecode
  refine (newBitmap_same h _ _ _).bind fun reg => (textVal_same h p _ _).bind fun dt => ?_
  exact (textStrips_same h p _ _).bind fun _ => .pure

theorem collectRefs_same : ∀ slots : List Slot, Same b ns (collectRefs slots) (collectRefs slots)
  | [] => .pure
  | .symDict _ _ :: more => (collectRefs_same more).bind fun _ => .pure
  | .table _ :: more => (collectRefs_same more).bind fun _ => .pure
  | .empty :: _ => .throw
  | .region _ _ _ _ :: _ => .throw

theorem parseTextTables_same (h : SameInput E E') (r : Bool) (tabs : List Table) :
    Same b ns (parseTextTables E r tabs) (parseTextTables E' r tabs) := by
  unfold parseTextTables
  refine (readBits_same h 16).bind fun f => (require_same _ _).bind fun _ => (require_same _ _).bind fun _ => ?_
  refine (chooseTable_same h _ _).bind fun _ => (chooseTable_same h _ _).bind fun _ => ?_
  refine (chooseTable_same h _ _).bind fun _ => (chooseTable_same h _ _).bind fun _ => ?_
  refine (chooseTable_same h _ _).bind fun _ => (chooseTable_same h _ _).bind fun _ => ?_
  exact (chooseTable_same h _ _).bind fun _ => (chooseTable_same h _ _).bind fun _ => .pure

theorem readFields_same (h : SameInput E E') (len : Nat) : ∀ n, Same b ns (readFields E len n) (readFields E' len n)
  | 0 => .pure
  | n + 1 => by
    unfold readFields
    exact (readBits_same h _).bind fun _ => (readFields_same h len n).bind fun _ => .pure

theorem symIdLens_same (h : SameInput E E') (rl : Table) (num : Nat) :
    ∀ n lens, Same b ns (symIdLens E rl num n lens) (symIdLens E' rl num n lens)
  | 0, _ => .pure
  | n + 1, lens => by
    unfold symIdLens
    split
    · refine (htDecode_same h _).bind fun v => (needValue_same _).bind fun v => ?_
      refine Agree.bind (S := SameWork b ns) ?_ fun more => (require_same _ _).bind fun _ => symIdLens_same h rl num n _
      unfold runLens
      split
      · exact .pure
      · split
        · split
          · exact .throw
          · exact (readBits_same h _).bind fun _ => .pure
        · split
          · exact (readBits_same h _).bind fun _ => .pure
          · exact (readBits_same h _).bind fun _ => .pure
    · exact .pure

theorem parseSymIdTable_same (h : SameInput E E') (num : Nat) :
    Same b ns (parseSymIdTable E num) (parseSymIdTable E' num) :=
  (readFields_same h 4 35).bind fun _ => (assignCodes_same _).bind fun rl => (symIdLens_same h rl num num []).bind
    fun _ => alignByte_same.bind fun _ => assignCodes_same _

theorem parseTextHeader_same (h : SameInput E E') (tabs : List Table) :
    Same b ns (parseTextHeader E tabs) (parseTextHeader E' tabs) := by
  have hend : ∀ (info : RegionInfo) (f : Nat) (tb : TextTables) (rat : AtPixels), Same b ns
      (do
        let n ← readU32 E
        pure { info := info, flags := f, tables := tb, rat := rat, numInstances := n : TextHeader })
      (do
        let n ← readU32 E'
        pure { info := info, flags := f, tables := tb, rat := rat, numInstances := n : TextHeader }) :=
    fun _ _ _ _ => (readBits_same h 32).bind fun _ => .pure
  have hrat : ∀ (info : RegionInfo) (f : Nat) (tb : TextTables), Same b ns
      (do
        let rat ← if f.testBit 1 && !f.testBit 15 then readRefineAt E else pure []
        let n ← readU32 E
        pure { info := info, flags := f, tables := tb, rat := rat, numInstances := n : TextHeader })
      (do
        let rat ← if f.testBit 1 && !f.testBit 15 then readRefineAt E' else pure []
        let n ← readU32 E'
        pure { info := info, flags := f, tables := tb, rat := rat, numInstances := n : TextHeader }) := by
    intro info f tb
    dsimp only
    split
    · exact (readRefineAt_same h).bind fun _ => hend _ _ _ _
    · exact hend _ _ _ _
  unfold parseTextHeader
  refine (parseRegionInfo_same h).bind fun info => (readBits_same h 16).bind fun f => (require_same _ _).bind fun _ => ?_
  dsimp only
  split
  · exact (parseTextTables_same h _ _).bind fun _ => hrat _ _ _
  · exact hrat _ _ _

/-- The outcome of a text region segment depends on its window and the referred slots only. -/
theorem segTr_same (h : SameInput E E') (slots : List Slot) :
    Agree (SameWork False fun _ => False) (SameWork False fun _ => True) (segTr E slots) (segTr E' slots) := by
  unfold segTr
  refine (collectRefs_same slots).bind fun refs => ?_
  rw [h.cfg]
  refine (require_same _ _).bind fun _ => ?_
  refine (clearArrays_same (b := False) allArrays (fun _ => True) fun n _ => .inr (by cases n <;> simp [allArrays])).bind
    fun _ => ?_
  refine (parseTextHeader_same h _).bind fun hd => ?_
  refine Agree.bind (S := SameWork (hd.flags.testBit 0 = false) fun _ => True) ?_ fun idCode => ?_
  · unfold openTextData
    split
    · refine (((parseSymIdTable_same h _).bind fun _ => .pure).weaken fun _ _ hw => ?_)
      exact ⟨hw.sp, hw.arr, fun h0 => by simp_all⟩
    · exact (cursorByte_same.bind fun i => (adInitAt_same h i).bind fun _ => .pure).weaken fun _ _ hw => hw.weaken
  · refine Agree.bind (S := SameWork False fun _ => True) ?_ fun bm => .pure
    exact (textDecode_same h (hd.params refs.syms idCode)).weaken fun _ _ hw => ⟨hw.sp, hw.arr, fun h => h.elim⟩

theorem aggregateSymbol_same (h : SameInput E E') (p : SdParams) (syms : List Bitmap) (x y : Nat) :
    SameSyms p.hd.huff (aggregateSymbol E p syms x y) (aggregateSymbol E' p syms x y) := by
  have href : ∀ id rdx rdy, Same True (fun _ => True) (refineSymbol E p (p.inSyms ++ syms) x y id rdx rdy)
      (refineSymbol E' p (p.inSyms ++ syms) x y id rdx rdy) := by
    intro id rdx rdy
    unfold refineSymbol
    refine (needValue_same _).bind fun _ => (needValue_same _).bind fun _ => ?_
    split
    · exact .throw
    · exact refineDecode_same h trivial _ _ _
  have hn : SameSyms p.hd.huff (decodeAggInst E p) (decodeAggInst E' p) := by
    unfold decodeAggInst
    split
    · exact htDecode_same h _
    · exact .arith ‹_› (iaDecode_same h trivial)
  unfold aggregateSymbol
  refine hn.bind fun n => (needValue_same _).bind fun n => (require_same _ _).bind fun _ => ?_
  split
  · exact textDecode_same h (aggregateParams p (p.inSyms ++ syms) x y n.toNat)
  · unfold oneInstance
    split
    · refine (readBits_same h _).bind fun id => (stdDecode_same h _).bind fun rdx => (stdDecode_same h _).bind
        fun rdy => (stdDecode_same h _).bind fun size => (needValue_same _).bind fun size => ?_
      refine (openBlock_same h _).bind fun stop => (href _ _ _).bind fun bm => ?_
      exact ((seekByte_same stop).bind fun _ => .pure).weaken fun _ _ hw => hw.weaken
    · refine .arith ‹_› ?_
      exact (iaidDecode_same h trivial _).bind fun id => (iaDecode_same h trivial).bind fun rdx =>
        (iaDecode_same h trivial).bind fun rdy => href _ _ _

theorem symbolBitmap_same (h : SameInput E E') (p : SdParams) (hp : p.hd.huff = true → p.hd.refagg = true)
    (syms : List Bitmap) (x y : Nat) :
    SameSyms p.hd.huff (symbolBitmap E p syms x y) (symbolBitmap E' p syms x y) := by
  unfold symbolBitmap
  split
  · exact aggregateSymbol_same h p syms x y
  · refine .arith ?_ (genericDecode_same h trivial _ _ _ _ _)
    simp_all

theorem decodeDw_same (h : SameInput E E') (p : SdParams) : SameSyms p.hd.huff (decodeDw E p) (decodeDw E' p) := by
  unfold decodeDw
  split
  · exact htDecode_same h _
  · exact .arith ‹_› (iaDecode_same h trivial)

theorem decodeDh_same (h : SameInput E E') (p : SdParams) : SameSyms p.hd.huff (decodeDh E p) (decodeDh E' p) := by
  unfold decodeDh
  split
  · exact htDecode_same h _
  · exact .arith ‹_› (iaDecode_same h trivial)

theorem classSymbol_same (h : SameInput E E') (p : SdParams) (ht dw : Int) (c : ClassState) :
    SameSyms p.hd.huff (classSymbol E p ht dw c) (classSymbol E' p ht dw c) := by
  unfold classSymbol
  refine (require_same _ _).bind fun _ => ?_
  split
  · exact .pure
  · refine (symbolBitmap_same h p (fun hh => ?_) _ _ _).bind fun _ => .pure
    rename_i hc
    simp only [SdParams.collective, hh, Bool.true_and, Bool.not_eq_true, Bool.not_eq_false'] at hc
    exact hc

theorem heightClass_same (h : SameInput E E') (p : SdParams) (ht : Int) :
    ∀ room c, SameSyms p.hd.huff (heightClass E p ht room c) (heightClass E' p ht room c)
  | 0, c => by
    unfold heightClass
    exact (decodeDw_same h p).bind fun _ => (require_same _ _).bind fun _ => .pure
  | room + 1, c => by
    unfold heightClass
    refine (decodeDw_same h p).bind fun dw => ?_
    split
    · exact .pure
    · exact (classSymbol_same h p ht _ c).bind fun c' => heightClass_same h p ht room c'

theorem classCollective_same (h : SameInput E E') (p : SdParams) (ht : Int) (c : ClassState) :
    Same b ns (classCollective E p ht c) (classCollective E' p ht c) := by
  unfold classCollective
  refine (htDecode_same h _).bind fun size => (needValue_same _).bind fun size => alignByte_same.bind fun _ => ?_
  refine (require_same _ _).bind fun _ => cursorByte_same.bind fun st => Agree.bind (S := SameWork b ns) ?_ fun _ => .pure
  unfold collectiveBitmap
  refine (newBitmap_same h _ _ _).bind fun bm => ?_
  refine (Agree.loopM (fun y c => Agree.loopM (fun x d => (inByte_same h _ _).bind fun _ => .pure) _ _ _) _ _ _).bind
    fun _ => ?_
  exact (seekByte_same _).bind fun _ => .pure

theorem symbolClasses_same (h : SameInput E E') (p : SdParams) :
    ∀ n ht syms, SameSyms p.hd.huff (symbolClasses E p n ht syms) (symbolClasses E' p n ht syms)
  | 0, _, _ => .pure
  | n + 1, ht, syms => by
    unfold symbolClasses
    split
    · refine (decodeDh_same h p).bind fun dh => ?_
      split
      · exact .pure
      · refine (require_same _ _).bind fun _ => Agree.bind (S := SameWork (p.hd.huff = false) fun _ => True) ?_
          fun syms' => symbolClasses_same h p n _ syms'
        unfold decodeClass
        refine (heightClass_same h p _ _ _).bind fun c => (require_same _ _).bind fun _ => ?_
        split
        · exact classCollective_same h p _ c
        · exact .pure
    · exact .pure

theorem exportRuns_same (h : SameInput E E') (huff : Bool) (tot : Nat) :
    ∀ n first flag flags, SameSyms huff (exportRuns E huff tot n first flag flags) (exportRuns E' huff tot n first flag flags)
  | 0, _, _, _ => .pure
  | n + 1, first, flag, flags => by
    have hrest : ∀ v : Option Int, SameSyms huff
        (do
          let run ← needValue v
          require (decide (0 ≤ run) && decide (flags.length + run ≤ tot)) .malformedSegment
          require (decide (run ≠ 0) || first) .malformedSegment
          exportRuns E huff tot n false (!flag) (flags ++ List.replicate run.toNat flag) : Dec (List Bool))
        (do
          let run ← needValue v
          require (decide (0 ≤ run) && decide (flags.length + run ≤ tot)) .malformedSegment
          require (decide (run ≠ 0) || first) .malformedSegment
          exportRuns E' huff tot n false (!flag) (flags ++ List.replicate run.toNat flag)) := fun v =>
      (needValue_same _).bind fun run => (require_same _ _).bind fun _ => (require_same _ _).bind fun _ =>
        exportRuns_same h huff tot n _ _ _
    unfold exportRuns
    dsimp only
    split
    · split
      · exact (stdDecode_same h 1).bind fun v => hrest v
      · exact (Agree.arith ‹_› (iaDecode_same h trivial)).bind fun v => hrest v
    · exact .pure

theorem parseSdHeader_same (h : SameInput E E') : Same b ns (parseSdHeader E) (parseSdHeader E') := by
  have hend : ∀ (f : Nat) (a c : AtPixels), Same b ns
      (do
        let numEx ← readU32 E
        let numNew ← readU32 E
        pure { flags := f, sdat := a, sdrat := c, numEx := numEx, numNew := numNew : SdHeader })
      (do
        let numEx ← readU32 E'
        let numNew ← readU32 E'
        pure { flags := f, sdat := a, sdrat := c, numEx := numEx, numNew := numNew : SdHeader }) :=
    fun _ _ _ => (readBits_same h 32).bind fun _ => (readBits_same h 32).bind fun _ => .pure
  have hrat : ∀ (f : Nat) (a : AtPixels), Same b ns
      (do
        let sdrat ← if f.testBit 1 && !f.testBit 12 then readRefineAt E else pure []
        let numEx ← readU32 E
        let numNew ← readU32 E
        pure { flags := f, sdat := a, sdrat := sdrat, numEx := numEx, numNew := numNew : SdHeader })
      (do
        let sdrat ← if f.testBit 1 && !f.testBit 12 then readRefineAt E' else pure []
        let numEx ← readU32 E'
        let numNew ← readU32 E'
        pure { flags := f, sdat := a, sdrat := sdrat, numEx := numEx, numNew := numNew : SdHeader }) := by
    intro f a
    dsimp only
    split
    · exact (readRefineAt_same h).bind fun _ => hend _ _ _
    · exact hend _ _ _
  unfold parseSdHeader
  refine (readBits_same h 16).bind fun f => Agree.bind (S := SameWork b ns) ?_ fun _ => ?_
  · unfold checkSdFlags
    exact (require_same _ _).bind fun _ => (require_same _ _).bind fun _ => (require_same _ _).bind fun _ =>
      (require_same _ _).bind fun _ => (require_same _ _).bind fun _ => require_same _ _
  · dsimp only
    split
    · exact hrat _ _
    · exact (readGenericAt_same h _).bind fun _ => hrat _ _

theorem sdParams_same (h : SameInput E E') (hd : SdHeader) (refs : Refs) :
    Same b ns (sdParams E hd refs) (sdParams E' hd refs) := by
  unfold sdParams
  rw [h.cfg]
  refine (require_same _ _).bind fun _ => ?_
  dsimp only
  split
  · refine Agree.bind (S := SameWork b ns) ?_ fun _ => .pure
    unfold chooseSdTables
    exact (chooseTable_same h _ _).bind fun _ => (chooseTable_same h _ _).bind fun _ =>
      (chooseTable_same h _ _).bind fun _ => (chooseTable_same h _ _).bind fun _ => .pure
  · exact .pure

theorem startContexts_same (hd : SdHeader) (last : Option (Option Retained)) :
    Agree (SameWork False ns) (SameWork False fun _ => True) (startContexts hd last) (startContexts hd last) := by
  unfold startContexts
  refine (clearArrays_same (b := False) allArrays (fun _ => True) fun n _ => .inr (by cases n <;> simp [allArrays])).bind
    fun _ => ?_
  split
  · unfold inheritContexts
    split
    · refine (require_same _ _).bind fun _ => .modify fun w u hw => ⟨hw.sp, fun n _ => ?_, fun h => h.elim⟩
      have := hw.arr n trivial
      cases n <;> first | rfl | exact this
    · exact .throw
    · exact .throw
  · exact .pure

/-- The parameters of the symbol decoding carry the header. -/
theorem sdParams_hd {hd : SdHeader} {refs : Refs} {p : SdParams} {w w' : Work} (hp : sdParams E hd refs w = .ok p w') :
    p.hd = hd :=
  (((sdParams_stable (E := E) StableAll.trivial hd refs).ok trivial hp).1).1

/-- The outcome of a symbol dictionary segment depends on its window and the referred slots only. -/
theorem segSd_same (h : SameInput E E') (slots : List Slot) :
    Agree (SameWork False fun _ => False) (SameWork False fun _ => True) (segSd E slots) (segSd E' slots) := by
  unfold segSd
  refine (collectRefs_same slots).bind fun refs => (parseSdHeader_same h).bind fun hd => ?_
  have htail : ∀ p : SdParams, Agree (SameWork (p.hd.huff = false) fun _ => True) (SameWork False fun _ => True)
      (do
        let newSyms ← decodeSymbols E p
        let ex ← decodeExport E p newSyms
        let w ← get
        pure { slot := .symDict ex (retained hd w.cx), idlen := some p.symCodeLen : SegmentResult })
      (do
        let newSyms ← decodeSymbols E' p
        let ex ← decodeExport E' p newSyms
        let w ← get
        pure { slot := .symDict ex (retained hd w.cx), idlen := some p.symCodeLen : SegmentResult }) := by
    intro p
    refine Agree.bind (S := SameWork (p.hd.huff = false) fun _ => True) ?_ fun news => ?_
    · unfold decodeSymbols
      exact (symbolClasses_same h p _ _ _).bind fun _ => (require_same _ _).bind fun _ => .pure
    refine Agree.bind (S := SameWork (p.hd.huff = false) fun _ => True) ?_ fun ex => ?_
    · unfold decodeExport
      exact (exportRuns_same h _ _ _ _ _ _).bind fun _ => (require_same _ _).bind fun _ => .pure
    refine .get_bind fun w u hw => Agree.pure_of ?_ fun x y hxy => ?_
    · have h1 := hw.arr .gb trivial
      have h2 := hw.arr .gr trivial
      unfold retained
      rw [show u.cx.gb = w.cx.gb from h1, show u.cx.gr = w.cx.gr from h2]
    · rw [hxy.1, hxy.2]
      exact ⟨hw.sp, hw.arr, fun h => h.elim⟩
  -- the tail is the same procedure whatever `p`, and its `huff` is the header's
  intro w u hw
  rw [Dec.run_bind, Dec.run_bind]
  have hp := sdParams_same h hd refs w u hw
  cases h1 : sdParams E hd refs w with
  | error e x =>
    cases h2 : sdParams E' hd refs u with
    | error e' y => rw [h1, h2] at hp; exact hp
    | ok q y => rw [h1, h2] at hp; exact hp.elim
  | ok p x =>
    cases h2 : sdParams E' hd refs u with
    | error e' y => rw [h1, h2] at hp; exact hp.elim
    | ok q y =>
      rw [h1, h2] at hp
      obtain ⟨rfl, hxy⟩ := hp
      have hhd := sdParams_hd h1
      refine (Agree.bind (startContexts_same hd refs.lastRet) fun _ => Agree.bind ?_ fun _ => htail p) x y hxy
      rw [hhd]
      unfold openSdData
      split
      · refine Agree.pure_of rfl fun _ _ hw => ⟨hw.sp, hw.arr, fun h0 => by simp_all⟩
      · exact (cursorByte_same.bind fun i => adInitAt_same h i).weaken fun _ _ hw => hw.weaken

end Sys2Proof.Machine
end

