-- ==== Sys2Proof/Laws/PerInstr.lean ====
section
/-! SUPPORT. Statements made per instruction. `EncodeFields`: the three fields of a command's word are its opcode and its
immediates (`30_encoding.md` R91, R117). -/

namespace Sys2Proof.Laws

/-- The fields of three parts put together are the parts. -/
theorem fields_of_parts (b : BitVec 16) (a o : BitVec 8) :
    opcField (b ++ a ++ o) = o ∧ aField (b ++ a ++ o) = a ∧ bField (b ++ a ++ o) = b := by
  refine ⟨?_, ?_, ?_⟩
  · unfold opcField
    ext i hi
    simp only [BitVec.getElem_extractLsb', BitVec.getLsbD_append]
    rw [if_pos (by omega), Nat.zero_add, BitVec.getLsbD_eq_getElem hi]
  · unfold aField
    ext i hi
    simp only [BitVec.getElem_extractLsb', BitVec.getLsbD_append]
    rw [if_neg (by omega), if_pos (by omega), show 8 + i - 8 = i by omega, BitVec.getLsbD_eq_getElem hi]
  · unfold bField
    ext i hi
    simp only [BitVec.getElem_extractLsb', BitVec.getLsbD_append]
    rw [if_neg (by omega), if_neg (by omega), show 16 + i - 8 - 8 = i by omega, BitVec.getLsbD_eq_getElem hi]

/-- A word is its three fields put together. -/
theorem parts_of_fields (w : Word) : bField w ++ aField w ++ opcField w = w := by
  unfold bField aField opcField
  ext i hi
  simp only [BitVec.getElem_append]
  split
  · simp [BitVec.getLsbD_eq_getElem hi]
  · split
    · simp only [BitVec.getElem_extractLsb']
      rw [show 8 + (i - 8) = i by omega, BitVec.getLsbD_eq_getElem hi]
    · simp only [BitVec.getElem_extractLsb']
      rw [show 16 + (i - 8 - 8) = i by omega, BitVec.getLsbD_eq_getElem hi]

/-- The fields of the word of `i` are its opcode and its immediates. -/
def EncodeFields.Statement (i : Instr) : Prop :=
  opcField (encode i) = i.opc ∧ aField (encode i) = i.immA ∧ bField (encode i) = i.immB

theorem EncodeFields.segSd : EncodeFields.Statement .segSd := fields_of_parts _ _ _
theorem EncodeFields.segTrInt : EncodeFields.Statement .segTrInt := fields_of_parts _ _ _
theorem EncodeFields.segTrImm : EncodeFields.Statement .segTrImm := fields_of_parts _ _ _
theorem EncodeFields.segTrImml : EncodeFields.Statement .segTrImml := fields_of_parts _ _ _
theorem EncodeFields.segGrInt : EncodeFields.Statement .segGrInt := fields_of_parts _ _ _
theorem EncodeFields.segGrImm : EncodeFields.Statement .segGrImm := fields_of_parts _ _ _
theorem EncodeFields.segGrImml : EncodeFields.Statement .segGrImml := fields_of_parts _ _ _
theorem EncodeFields.segRrInt : EncodeFields.Statement .segRrInt := fields_of_parts _ _ _
theorem EncodeFields.segRrImm : EncodeFields.Statement .segRrImm := fields_of_parts _ _ _
theorem EncodeFields.segRrImml : EncodeFields.Statement .segRrImml := fields_of_parts _ _ _
theorem EncodeFields.segTables : EncodeFields.Statement .segTables := fields_of_parts _ _ _
theorem EncodeFields.strmBind : EncodeFields.Statement .strmBind := fields_of_parts _ _ _
theorem EncodeFields.strmSeek : EncodeFields.Statement .strmSeek := fields_of_parts _ _ _
theorem EncodeFields.strmReadbits (a : BitVec 8) : EncodeFields.Statement (.strmReadbits a) := fields_of_parts _ _ _
theorem EncodeFields.strmAlign : EncodeFields.Statement .strmAlign := fields_of_parts _ _ _
theorem EncodeFields.adInit : EncodeFields.Statement .adInit := fields_of_parts _ _ _
theorem EncodeFields.adDecode (a : BitVec 8) (b : BitVec 16) : EncodeFields.Statement (.adDecode a b) := fields_of_parts _ _ _
theorem EncodeFields.adCxreset (a : BitVec 8) (b : BitVec 16) : EncodeFields.Statement (.adCxreset a b) := fields_of_parts _ _ _
theorem EncodeFields.iaDecode (a : BitVec 8) : EncodeFields.Statement (.iaDecode a) := fields_of_parts _ _ _
theorem EncodeFields.iaidDecode : EncodeFields.Statement .iaidDecode := fields_of_parts _ _ _
theorem EncodeFields.htStd (a : BitVec 8) : EncodeFields.Statement (.htStd a) := fields_of_parts _ _ _
theorem EncodeFields.htDecode (a : BitVec 8) : EncodeFields.Statement (.htDecode a) := fields_of_parts _ _ _
theorem EncodeFields.bmCombine (a : BitVec 8) : EncodeFields.Statement (.bmCombine a) := fields_of_parts _ _ _
theorem EncodeFields.bmNew (a : BitVec 8) : EncodeFields.Statement (.bmNew a) := fields_of_parts _ _ _

end Sys2Proof.Laws
end

