-- ==== Sys2Proof/Laws/Regions.lean ====
section
/-! SUPPORT. Pixels: what one write reads as, and that the generic and the refinement procedures decode the bits that the
finished bitmap holds. -/

namespace Sys2Proof.Machine

/-! ## One pixel -/

theorem pixel_index_lt {w h x y : Nat} (hx : x < w) (hy : y < h) : y * w + x < w * h := by nlinarith

theorem pixel_index_inj {w x y x' y' : Nat} (hx : x < w) (hx' : x' < w) (h : y * w + x = y' * w + x') :
    x = x' ∧ y = y' := by
  have hy : y = y' := by
    rcases Nat.lt_trichotomy y y' with hlt | rfl | hlt
    · nlinarith
    · rfl
    · nlinarith
  subst hy
  exact ⟨by omega, rfl⟩

/-- A written pixel reads back, and every other pixel reads as before. -/
theorem Bitmap.get_set (b : Bitmap) {x y : Nat} (hx : x < b.w) (hy : y < b.h) (v : Bool) (i j : Int) :
    (b.set x y v).get i j = if i = x ∧ j = y then v else b.get i j := by
  unfold Bitmap.get
  rw [Bitmap.set_w, Bitmap.set_h]
  by_cases hin : 0 ≤ i ∧ i < b.w ∧ 0 ≤ j ∧ j < b.h
  · rw [if_pos hin, if_pos hin]
    obtain ⟨i, rfl⟩ := Int.eq_ofNat_of_zero_le hin.1
    obtain ⟨j, rfl⟩ := Int.eq_ofNat_of_zero_le hin.2.2.1
    have hi : i < b.w := by omega
    have hj : j < b.h := by omega
    have hlt := pixel_index_lt hi hj
    unfold Bitmap.set
    rw [if_pos ⟨hx, hy⟩]
    unfold Bitmap.pixAt
    dsimp only [Int.ofNat_eq_natCast, Int.toNat_natCast]
    by_cases heq : (i : Int) = x ∧ (j : Int) = y
    · obtain ⟨rfl, rfl⟩ : i = x ∧ j = y := by omega
      rw [if_pos heq]
      cases v <;> simp [hlt]
    · rw [if_neg heq]
      have hne : y * b.w + x ≠ j * b.w + i := fun h => by
        have := pixel_index_inj hx hi h
        omega
      cases v <;> simp [hlt, Ne.symm hne]
  · have hout : ¬(i = x ∧ j = y) := by omega
    rw [if_neg hin, if_neg hin, if_neg hout]

/-- Two bitmaps of one size with one value at every pixel are equal. -/
theorem Bitmap.ext_get {b c : Bitmap} (hw : b.w = c.w) (hh : b.h = c.h)
    (h : ∀ x y : Nat, x < b.w → y < b.h → b.get x y = c.get x y) : b = c := by
  obtain ⟨w, ht, p⟩ := b
  obtain ⟨w', ht', q⟩ := c
  dsimp only at hw hh
  subst hw hh
  congr 1
  refine BitVec.eq_of_getLsbD_eq fun k hk => ?_
  have hw : 0 < w := by
    rcases Nat.eq_zero_or_pos w with rfl | h0
    · simp at hk
    · exact h0
  have hx : k % w < w := Nat.mod_lt _ hw
  have hy : k / w < ht := by
    rw [Nat.div_lt_iff_lt_mul hw, Nat.mul_comm]
    exact hk
  have := h (k % w) (k / w) hx hy
  unfold Bitmap.get Bitmap.pixAt at this
  dsimp only at this hx hy
  rw [if_pos ⟨Int.natCast_nonneg _, Int.ofNat_lt.mpr hx, Int.natCast_nonneg _, Int.ofNat_lt.mpr hy⟩,
    if_pos ⟨Int.natCast_nonneg _, Int.ofNat_lt.mpr hx, Int.natCast_nonneg _, Int.ofNat_lt.mpr hy⟩] at this
  simp only [Int.toNat_natCast] at this
  have e : k / w * w + k % w = k := by rw [Nat.mul_comm]; exact Nat.div_add_mod k w
  rwa [e] at this

theorem Bitmap.get_filled {w h x y : Nat} (hx : x < w) (hy : y < h) (v : Bool) :
    (Bitmap.filled w h v).get x y = v := by
  have hlt := pixel_index_lt hx hy
  unfold Bitmap.get Bitmap.filled Bitmap.pixAt
  dsimp only
  rw [if_pos (by omega)]
  cases v <;> simp [hlt]

/-! ## Raster order -/

/-- Pixel (u, v) comes before pixel (x, y) in raster order. -/
def Before (x y u v : Int) : Prop := v < y ∨ v = y ∧ u < x

/-- Two bitmaps have one size and agree on every pixel before (x, y). -/
def SameBefore (x y : Int) (b c : Bitmap) : Prop :=
  b.w = c.w ∧ b.h = c.h ∧ ∀ u v : Int, Before x y u v → b.get u v = c.get u v

theorem SameBefore.trans {x y : Int} {a b c : Bitmap} (h : SameBefore x y a b) (h' : SameBefore x y b c) :
    SameBefore x y a c :=
  ⟨h.1.trans h'.1, h.2.1.trans h'.2.1, fun u v hb => (h.2.2 u v hb).trans (h'.2.2 u v hb)⟩

theorem SameBefore.refl (x y : Int) (b : Bitmap) : SameBefore x y b b := ⟨rfl, rfl, fun _ _ _ => rfl⟩

/-- What agrees further on agrees before. -/
theorem SameBefore.mono {x y x' y' : Int} {b c : Bitmap} (h : SameBefore x y b c)
    (hle : ∀ u v, Before x' y' u v → Before x y u v) : SameBefore x' y' b c :=
  ⟨h.1, h.2.1, fun u v hb => h.2.2 u v (hle u v hb)⟩

/-- Writing a pixel leaves those before it. -/
theorem SameBefore.set (b : Bitmap) {x y : Nat} (hx : x < b.w) (hy : y < b.h) (v : Bool) :
    SameBefore x y b (b.set x y v) := by
  refine ⟨by simp, by simp, fun i j hb => ?_⟩
  rw [Bitmap.get_set b hx hy, if_neg]
  rintro ⟨rfl, rfl⟩
  rcases hb with h | ⟨-, h⟩ <;> omega

/-- A loop along a row whose turns each leave the pixels before their own, and extend a relation of the working state. -/
theorem loopM_chain {f : Nat → Bitmap → Dec Bitmap} {y : Nat} {C : Bitmap} {R : Nat → Work → Work → Prop}
    {n : Nat} :
    ∀ (i : Nat) {b b' : Bitmap} {w w' : Work}, i + n = b.w → y < b.h →
      (∀ x c d u u', x < c.w → y < c.h → f x c u = .ok d u' → SameBefore x y c d) →
      (∀ x c d u u', x < c.w → y < c.h → f x c u = .ok d u' → SameBefore (x + 1) y d C → SameBefore x y c C → R x u u') →
      loopM f n i b w = .ok b' w' → SameBefore b.w y b' C → chain R n i w w' ∧ SameBefore i y b b' := by
  induction n with
  | zero =>
    intro i b b' w w' hi hy _ _ h hC
    cases h
    exact ⟨rfl, .refl _ _ _⟩
  | succ n ih =>
    intro i b b' w w' hi hy hs hR h hC
    unfold loopM at h
    obtain ⟨c, u, hc, h⟩ := Dec.bind_ok h
    have hbc := hs i b c w u (by omega) hy hc
    have hcw : b.w = c.w := hbc.1
    obtain ⟨h1, h2⟩ := ih (i + 1) (by omega) (by rw [← hbc.2.1]; exact hy) hs hR h (by rw [← hcw]; exact hC)
    have hcC : SameBefore (i + 1) y c C := (show SameBefore (i + 1) y c b' from by exact_mod_cast h2).trans
      (hC.mono fun a v hb => by rcases hb with hb | ⟨hb, hb'⟩ <;> [exact .inl hb; exact .inr ⟨hb, by omega⟩])
    have hmono : ∀ a v, Before (i : Int) y a v → Before ((i : Int) + 1) y a v := fun a v hb => by
      rcases hb with hb | ⟨hb, hb'⟩ <;> [exact .inl hb; exact .inr ⟨hb, by omega⟩]
    refine ⟨⟨u, hR i b c w u (by omega) hy hc hcC (hbc.trans (hcC.mono hmono)), h1⟩, ?_⟩
    exact hbc.trans ((show SameBefore (i + 1) y c b' from by exact_mod_cast h2).mono hmono)

/-- A row step: it writes nothing above its row and keeps the size. -/
theorem loopM_rows {f : Nat → RowState → Dec RowState} {C : Bitmap} {R : Nat → Bool × Work → Bool × Work → Prop}
    {n : Nat} :
    ∀ (i : Nat) {r r' : RowState} {w w' : Work}, i + n = r.bm.h →
      (∀ y q q' u u', y < q.bm.h → f y q u = .ok q' u' → SameBefore 0 y q.bm q'.bm) →
      (∀ y q q' u u', y < q.bm.h → f y q u = .ok q' u' → SameBefore 0 (y + 1) q'.bm C → R y (q.ltp, u) (q'.ltp, u')) →
      loopM f n i r w = .ok r' w' → SameBefore 0 r.bm.h r'.bm C →
      chain R n i (r.ltp, w) (r'.ltp, w') ∧ SameBefore 0 i r.bm r'.bm := by
  induction n with
  | zero =>
    intro i r r' w w' _ _ _ h _
    cases h
    exact ⟨rfl, .refl _ _ _⟩
  | succ n ih =>
    intro i r r' w w' hi hs hR h hC
    unfold loopM at h
    obtain ⟨q, u, hq, h⟩ := Dec.bind_ok h
    have hrq := hs i r q w u (by omega) hq
    obtain ⟨h1, h2⟩ := ih (i + 1) (by rw [← hrq.2.1]; omega) hs hR h (by rw [← hrq.2.1]; exact hC)
    have hqC : SameBefore 0 (i + 1) q.bm C := (show SameBefore 0 (i + 1) q.bm r'.bm from by exact_mod_cast h2).trans
      (hC.mono fun a v hb => by
        rcases hb with hb | ⟨hb, hb'⟩
        · exact .inl (by omega)
        · exact (Int.lt_or_eq_of_le (show v ≤ (r.bm.h : Int) by omega)).imp id fun e => ⟨e, hb'⟩)
    refine ⟨⟨(q.ltp, u), hR i r q w u (by omega) hq hqC, h1⟩, ?_⟩
    exact hrq.trans ((show SameBefore 0 (i + 1) q.bm r'.bm from by exact_mod_cast h2).mono fun a v hb => by
      rcases hb with hb | ⟨hb, hb'⟩ <;> [exact .inl (by omega); exact .inl (by omega)])

/-! ## The contexts look only at pixels decoded before -/

theorem ofBits_congr {α : Type} {l : List α} {f g : α → Bool} (h : ∀ a ∈ l, f a = g a) :
    ofBits (l.map f) = ofBits (l.map g) := by
  rw [List.map_congr_left h]

/-- The adaptive pixels a template uses are legal (`45_generic.md` R263). -/
def AtOk (t : Fin 4) (at_ : AtPixels) : Prop := ∀ j, j < atCount t → atLegal (at_.getD j (0, 0)) = true

theorem atLegal_before {p : Int × Int} (h : atLegal p = true) (x y : Int) : Before x y (x + p.1) (y + p.2) := by
  unfold atLegal at h
  simp only [Bool.and_eq_true, decide_eq_true_eq, Bool.not_eq_true', Bool.and_eq_false_iff, decide_eq_false_iff_not] at h
  obtain ⟨h1, h2⟩ := h
  rcases h2 with h2 | h2
  · exact .inl (by omega)
  · rcases Int.lt_or_eq_of_le h1 with h1 | h1
    · exact .inl (by omega)
    · exact .inr ⟨by omega, by omega⟩

/-- A fixed offset that points to a pixel decoded before. -/
theorem fixed_before {dx dy : Int} (h : dy < 0 ∨ dy = 0 ∧ dx < 0) (x y : Int) : Before x y (x + dx) (y + dy) := by
  rcases h with h | ⟨h, h'⟩ <;> [exact .inl (by omega); exact .inr ⟨by omega, by omega⟩]

/-- What a template of R261 lists: pixels decoded before, and its own adaptive pixels. -/
theorem gbTemplate_offsets (t : Fin 4) :
    ∀ q ∈ gbTemplate t,
      match q with
      | .fixed dx dy => dy < 0 ∨ dy = 0 ∧ dx < 0
      | .adaptive j => j < atCount t := by
  fin_cases t <;> simp [gbTemplate, atCount]

/-- A generic context reads only pixels before its own. -/
theorem gctx_congr {b c : Bitmap} {x y : Nat} (t : Fin 4) {at_ : AtPixels} (ha : AtOk t at_) (h : SameBefore x y b c) :
    gctx b x y t at_ = gctx c x y t at_ := by
  refine ofBits_congr fun q hq => h.2.2 _ _ ?_
  have := gbTemplate_offsets t q hq
  cases q with
  | fixed dx dy => exact fixed_before this _ _
  | adaptive j => exact atLegal_before (ha j this) _ _

/-- A refinement context reads only pixels of the new bitmap before its own. -/
theorem rctx_congr {b c : Bitmap} {x y : Nat} (p : RefineParams)
    (ha : p.template = false → atLegal (p.at_.getD 0 (0, 0)) = true) (h : SameBefore x y b c) :
    rctx p b x y = rctx p c x y := by
  refine ofBits_congr fun q hq => ?_
  cases ht : p.template <;> rw [ht] at hq <;> simp only [grTemplate, List.mem_cons, List.not_mem_nil, or_false] at hq <;>
    rcases hq with rfl | rfl | rfl | rfl | rfl | rfl | rfl | rfl | rfl | rfl | rfl | rfl | rfl <;>
    first
      | exact h.2.2 _ _ (fixed_before (by decide) _ _)
      | rfl
      | exact h.2.2 _ _ (atLegal_before (ha ht) _ _)

/-! ## The regions -/

variable {E : Env}

theorem newBitmap_ok {cfg : Params} {w h : Nat} {fill : Bool} {u u' : Work} {b : Bitmap}
    (hb : newBitmap cfg w h fill u = .ok b u') : b = Bitmap.filled w h fill ∧ u' = u := by
  unfold newBitmap at hb
  obtain ⟨_, z, hz, hb'⟩ := Dec.bind_ok hb
  obtain ⟨-, rfl⟩ := Dec.require_ok hz
  obtain ⟨rfl, rfl⟩ := Dec.pure_ok hb'
  exact ⟨rfl, rfl⟩

theorem nextLtp_run {on : Bool} {arr : Arr} {cx : Nat} {ltp ltp' : Bool} {w u : Work}
    (h : nextLtp E on arr cx ltp w = .ok ltp' u) : sltpRun E on arr cx (ltp, w) (ltp', u) := by
  unfold nextLtp at h
  unfold sltpRun
  split at h
  · rename_i hon
    rw [if_pos hon]
    obtain ⟨d, v, hd, h⟩ := Dec.bind_ok h
    cases h
    exact ⟨d, hd, rfl⟩
  · rename_i hon
    rw [if_neg hon]
    cases h
    rfl

/-- A copied row: its pixels are those above, and nothing before it changes. -/
theorem copyRow_run {b : Bitmap} {y : Nat} (hy : y < b.h) :
    SameBefore 0 y b (copyRow y b) ∧ ∀ x : Nat, x < b.w → (copyRow y b).get x y = (copyRow y b).get x ((y : Int) - 1) := by
  have key : ∀ n i (c : Bitmap), i + n = b.w → SameBefore 0 y b c →
      (∀ x : Nat, x < i → c.get x y = c.get x ((y : Int) - 1)) →
      SameBefore 0 y b (loopPure (fun x b => b.set x y (b.get x ((y : Int) - 1))) n i c) ∧
        ∀ x : Nat, x < b.w →
          (loopPure (fun x b => b.set x y (b.get x ((y : Int) - 1))) n i c).get x y =
            (loopPure (fun x b => b.set x y (b.get x ((y : Int) - 1))) n i c).get x ((y : Int) - 1) := by
    intro n
    induction n with
    | zero =>
      intro i c hi hc hx
      exact ⟨hc, fun x h => hx x (by omega)⟩
    | succ n ih =>
      intro i c hi hc hx
      have hcw : i < c.w := by rw [← hc.1]; omega
      have hch : y < c.h := by rw [← hc.2.1]; exact hy
      refine ih (i + 1) _ (by omega) (hc.trans ((SameBefore.set c hcw hch _).mono fun u v hb => ?_)) fun x h => ?_
      · rcases hb with hb | ⟨hb, hb'⟩ <;> [exact .inl hb; exact .inr ⟨hb, by omega⟩]
      · rw [Bitmap.get_set c hcw hch, Bitmap.get_set c hcw hch, if_neg (show ¬((x : Int) = i ∧ (y : Int) - 1 = y) by omega)]
        split
        · rename_i he
          rw [he.1]
        · exact hx x (by omega)
  exact key b.w 0 b (by omega) (.refl _ _ _) fun x h => absurd h (Nat.not_lt_zero _)

/-- One row of the generic procedure, against any bitmap the finished one agrees with up to the row. -/
theorem genericRow_run {t : Fin 4} {on : Bool} {at_ : AtPixels} (ha : AtOk t at_) {y : Nat} {r r' : RowState}
    {w w' : Work} (hy : y < r.bm.h) (h : genericRow E t on at_ y r w = .ok r' w') :
    SameBefore 0 y r.bm r'.bm ∧
      ∀ C, SameBefore 0 (y + 1) r'.bm C → genericRowRun E t on at_ C y (r.ltp, w) (r'.ltp, w') := by
  unfold genericRow at h
  obtain ⟨ltp, u, hl, h⟩ := Dec.bind_ok h
  have hrow : ∀ {b C : Bitmap} (k : Int), SameBefore 0 (y + 1) b C → SameBefore k y b C := fun k hb =>
    hb.mono fun a v hv => by rcases hv with hv | ⟨hv, -⟩ <;> exact .inl (by omega)
  split at h
  · rename_i hltp
    cases h
    obtain ⟨h1, h2⟩ := copyRow_run hy
    refine ⟨h1, fun C hC => ⟨_, nextLtp_run hl, fun _ => ⟨rfl, fun x hx => ?_⟩, fun hf => absurd (hltp.symm.trans hf) (by decide)⟩⟩
    rw [← hC.2.2 _ _ (.inl (by omega)), ← hC.2.2 _ _ (.inl (by omega))]
    exact h2 x (by rw [h1.1, hC.1]; exact hx)
  · rename_i hltp
    obtain ⟨b, v, hb, h⟩ := Dec.bind_ok h
    cases h
    have hs : ∀ x c d u u', x < c.w → y < c.h → genericPixel E t at_ y x c u = .ok d u' → SameBefore x y c d := by
      intro x c d u u' hx hy' hp
      obtain ⟨e, z, -, hp⟩ := Dec.bind_ok hp
      cases hp
      exact SameBefore.set c hx hy' e
    have hR : ∀ (C : Bitmap) x c d u u', x < c.w → y < c.h → genericPixel E t at_ y x c u = .ok d u' →
        SameBefore (x + 1) y d C → SameBefore x y c C → adDecode E .gb (gctx C x y t at_) u = .ok (C.get x y) u' := by
      intro C x c d u u' hx hy' hp hd hc
      obtain ⟨e, z, he, hp⟩ := Dec.bind_ok hp
      cases hp
      rw [← gctx_congr t ha hc, he, ← hd.2.2 x y (.inr ⟨rfl, by omega⟩), Bitmap.get_set c hx hy', if_pos ⟨rfl, rfl⟩]
    refine ⟨?_, fun C hC => ⟨u, nextLtp_run hl, fun ht => absurd ht hltp, fun _ => ?_⟩⟩
    · exact_mod_cast (loopM_chain (C := b) (R := fun _ _ _ => True) 0 (by omega) hy hs (fun _ _ _ _ _ _ _ _ _ _ => trivial)
        hb (.refl _ _ _)).2
    · have hw : r.bm.w = C.w := (loopM_chain (C := b) (R := fun _ _ _ => True) 0 (by omega) hy hs
        (fun _ _ _ _ _ _ _ _ _ _ => trivial) hb (.refl _ _ _)).2.1.trans hC.1
      have := (loopM_chain 0 (by omega) hy hs (hR C) hb (hrow _ hC)).1
      rwa [hw] at this

/-- The generic procedure decodes exactly the bits its bitmap holds (`45_generic.md` R265). -/
theorem genericDecode_run {w h : Nat} {t : Fin 4} {on : Bool} {at_ : AtPixels} (ha : AtOk t at_) {B : Bitmap}
    {u u' : Work} (hd : genericDecode E w h t on at_ u = .ok B u') :
    B.w = w ∧ B.h = h ∧ genericRun E t on at_ B u u' := by
  unfold genericDecode at hd
  obtain ⟨b, v, hb, hd'⟩ := Dec.bind_ok hd
  obtain ⟨rfl, rfl⟩ := newBitmap_ok hb
  obtain ⟨r, z, hr, hd''⟩ := Dec.bind_ok hd'
  obtain ⟨rfl, rfl⟩ := Dec.pure_ok hd''
  have h1 := loopM_rows (C := r.bm) (R := genericRowRun E t on at_ r.bm) 0 (by simp [Bitmap.filled])
    (fun y q q' a a' hy hq => (genericRow_run ha hy hq).1)
    (fun y q q' a a' hy hq hC => (genericRow_run ha hy hq).2 _ hC) hr (.refl _ _ _)
  have hh : r.bm.h = h := h1.2.2.1.symm
  refine ⟨h1.2.1.symm, hh, r.ltp, ?_⟩
  rw [hh]
  exact h1.1

theorem tpgrPix_eq (p : RefineParams) (x y : Nat) :
    (p.uniform x y → tpgrPix p x y = some (p.refPix x y 0 0)) ∧ (¬p.uniform x y → tpgrPix p x y = none) := by
  have key : (neighbourhood.all (fun o => p.refPix x y o.1 o.2 == p.refPix x y 0 0)) = true ↔ p.uniform x y := by
    rw [List.all_eq_true]
    constructor
    · intro h i j h1 h2 h3 h4
      have := h (i, j) (by
        obtain rfl | rfl | rfl : i = -1 ∨ i = 0 ∨ i = 1 := by omega
        all_goals obtain rfl | rfl | rfl : j = -1 ∨ j = 0 ∨ j = 1 := by omega
        all_goals decide)
      simpa using this
    · intro h o ho
      simp only [neighbourhood, List.mem_cons, List.not_mem_nil, or_false] at ho
      rcases ho with rfl | rfl | rfl | rfl | rfl | rfl | rfl | rfl | rfl <;>
        exact beq_iff_eq.mpr (h _ _ (by decide) (by decide) (by decide) (by decide))
  unfold tpgrPix
  dsimp only
  exact ⟨fun h => if_pos (key.mpr h), fun h => if_neg (mt key.mp h)⟩

/-- One row of the refinement procedure, against any bitmap the finished one agrees with up to the row. -/
theorem refineRow_run {p : RefineParams} (ha : p.template = false → atLegal (p.at_.getD 0 (0, 0)) = true) {y : Nat}
    {r r' : RowState} {w w' : Work} (hy : y < r.bm.h) (h : refineRow E p y r w = .ok r' w') :
    SameBefore 0 y r.bm r'.bm ∧
      ∀ C, SameBefore 0 (y + 1) r'.bm C → refineRowRun E p C y (r.ltp, w) (r'.ltp, w') := by
  unfold refineRow at h
  obtain ⟨ltp, u, hl, h⟩ := Dec.bind_ok h
  obtain ⟨b, v, hb, h⟩ := Dec.bind_ok h
  cases h
  have hs : ∀ x c d u u', x < c.w → y < c.h → refinePixel E p ltp y x c u = .ok d u' → SameBefore x y c d := by
    intro x c d u u' hx hy' hp
    unfold refinePixel at hp
    generalize (if ltp = true then tpgrPix p x y else none) = o at hp
    cases o with
    | some v =>
      cases hp
      exact SameBefore.set c hx hy' _
    | none =>
      obtain ⟨e, z, -, hp⟩ := Dec.bind_ok hp
      cases hp
      exact SameBefore.set c hx hy' e
  have hR : ∀ (C : Bitmap) x c d u u', x < c.w → y < c.h → refinePixel E p ltp y x c u = .ok d u' →
      SameBefore (x + 1) y d C → SameBefore x y c C → refinePixelRun E p C ltp y x u u' := by
    intro C x c d u u' hx hy' hp hd hc
    obtain ⟨ht1, ht2⟩ := tpgrPix_eq p x y
    have hval : ∀ e, d = c.set x y e → C.get x y = e := fun e he => by
      rw [← hd.2.2 x y (.inr ⟨rfl, by omega⟩), he, Bitmap.get_set c hx hy', if_pos ⟨rfl, rfl⟩]
    unfold refinePixel at hp
    refine ⟨fun hu => ?_, fun hu => ?_⟩
    · rw [if_pos hu.1, ht1 hu.2] at hp
      cases hp
      exact ⟨hval _ rfl, rfl⟩
    · have hn : (if ltp = true then tpgrPix p x y else none) = none := by
        split
        · exact ht2 fun h => hu ⟨‹_›, h⟩
        · rfl
      rw [hn] at hp
      obtain ⟨e, z, he, hp⟩ := Dec.bind_ok hp
      cases hp
      rw [← rctx_congr p ha hc, he, hval e rfl]
  refine ⟨?_, fun C hC => ⟨u, nextLtp_run hl, ?_⟩⟩
  · exact_mod_cast (loopM_chain (C := b) (R := fun _ _ _ => True) 0 (by omega) hy hs (fun _ _ _ _ _ _ _ _ _ _ => trivial)
      hb (.refl _ _ _)).2
  · have hw : r.bm.w = C.w := (loopM_chain (C := b) (R := fun _ _ _ => True) 0 (by omega) hy hs
      (fun _ _ _ _ _ _ _ _ _ _ => trivial) hb (.refl _ _ _)).2.1.trans hC.1
    have := (loopM_chain 0 (by omega) hy hs (hR C) hb
      (hC.mono fun a v hv => by rcases hv with hv | ⟨hv, -⟩ <;> exact .inl (by omega))).1
    rwa [hw] at this

/-- The refinement procedure decodes exactly the bits its bitmap holds (`46_refinement.md` R295). -/
theorem refineDecode_run {w h : Nat} {p : RefineParams}
    (ha : p.template = false → atLegal (p.at_.getD 0 (0, 0)) = true) {B : Bitmap} {u u' : Work}
    (hd : refineDecode E (w : Int) (h : Int) p u = .ok B u') : B.w = w ∧ B.h = h ∧ refineRun E p B u u' := by
  unfold refineDecode at hd
  obtain ⟨_, v, hv, hd'⟩ := Dec.bind_ok hd
  obtain ⟨-, rfl⟩ := Dec.require_ok hv
  obtain ⟨b, v', hb, hd''⟩ := Dec.bind_ok hd'
  obtain ⟨rfl, rfl⟩ := newBitmap_ok hb
  obtain ⟨r, z, hr, hd'''⟩ := Dec.bind_ok hd''
  obtain ⟨rfl, rfl⟩ := Dec.pure_ok hd'''
  have h1 := loopM_rows (C := r.bm) (R := refineRowRun E p r.bm) 0 (by simp [Bitmap.filled])
    (fun y q q' a a' hy hq => (refineRow_run ha hy hq).1)
    (fun y q q' a a' hy hq hC => (refineRow_run ha hy hq).2 _ hC) hr (.refl _ _ _)
  have hh : r.bm.h = h := h1.2.2.1.symm
  refine ⟨h1.2.1.symm, hh, r.ltp, ?_⟩
  rw [hh]
  exact h1.1

/-! ## Completion -/

variable {I : Work → Prop}

theorem newBitmap_of_le {cfg : Params} {w h : Nat} (hpix : w * h ≤ cfg.maxpix) (fill : Bool) (u : Work) :
    newBitmap cfg w h fill u = .ok (Bitmap.filled w h fill) u := by
  unfold newBitmap
  rw [decide_eq_true hpix]
  rfl

/-- Where no bit decode fails a generic region within the capacity completes. -/
theorem genericDecode_completes (hd : ∀ i, Keeps I (fun _ => False) (fun _ => True) (adDecode E .gb i)) {w h : Nat}
    (hpix : w * h ≤ E.cfg.maxpix) (t : Fin 4) (on : Bool) (at_ : AtPixels) :
    Keeps I (fun _ => False) (fun _ => True) (genericDecode E w h t on at_) := by
  unfold genericDecode
  refine Keeps.bind (Q := fun _ => True) (fun u hu => ?_) fun b _ => ?_
  · rw [newBitmap_of_le hpix]
    exact ⟨trivial, hu⟩
  · exact (Keeps.loopM (Q := fun r : RowState => r.bm.SameSize b)
      (fun y r hr => genericRow_keeps hd t on at_ b y r hr) _ _ _ ⟨rfl, rfl⟩).bind fun r _ => .pure trivial

/-- Where no bit decode fails a refinement region within the capacity completes. -/
theorem refineDecode_completes (hd : ∀ i, Keeps I (fun _ => False) (fun _ => True) (adDecode E .gr i)) {w h : Nat}
    (hpix : w * h ≤ E.cfg.maxpix) (p : RefineParams) :
    Keeps I (fun _ => False) (fun _ => True) (refineDecode E (w : Int) (h : Int) p) := by
  unfold refineDecode
  refine (Keeps.require fun hc => ?_).bind fun _ _ => ?_
  · simp at hc
  refine Keeps.bind (Q := fun _ => True) (fun u hu => ?_) fun b _ => ?_
  · rw [Int.toNat_natCast, Int.toNat_natCast, newBitmap_of_le hpix]
    exact ⟨trivial, hu⟩
  · exact (Keeps.loopM (Q := fun r : RowState => r.bm.SameSize b) (fun y r hr => refineRow_keeps hd p b y r hr) _ _ _
      ⟨rfl, rfl⟩).bind fun r _ => .pure trivial

end Sys2Proof.Machine
end

