-- ==== Sys2Proof/Laws/ReadBack.lean ====
section
/-! SUPPORT. Reading back coded data: where the bound stream spells a value, height classes, export runs, a symbol-ID code or
strips of instances (`Safety.lean`), the procedure that reads it gives them; and what the segment commands' bodies read
from a whole window. -/

namespace Sys2Proof.Machine

/-! ## One code -/

theorem Line.Apart.symm {l m : Line} (h : l.Apart m) : m.Apart l :=
  fun c d hc hd => ⟨(h d c hd hc).2, (h d c hd hc).1⟩

/-- Two lines of a prefix-free table, of which one code begins the other, are one line. -/
theorem Table.PrefixFree.unique {T : Table} (hT : Table.PrefixFree T) {l m : Line} (hl : l ∈ T) (hm : m ∈ T) {c d : Nat}
    (hc : l.code = some c) (hd : m.code = some d) (hle : m.preflen ≤ l.preflen)
    (h : c >>> (l.preflen - m.preflen) = d) : m = l := by
  by_contra hne
  have : Std.Symm Line.Apart := ⟨fun _ _ => Line.Apart.symm⟩
  exact (List.Pairwise.forall hT hm hl hne d c hd hc).1 ⟨hle, h⟩

/-- The first bits of a field. -/
theorem Env.bitsOnto_shift (E : Env) (p n k : Nat) (h : k ≤ n) : E.bitsOnto p n 0 >>> (n - k) = E.bitsOnto p k 0 := by
  obtain ⟨m, rfl⟩ := Nat.exists_eq_add_of_le h
  rw [Nat.add_sub_cancel_left, Env.bitsOnto_add, Env.bitsOnto_split, Nat.shiftRight_eq_div_pow,
    Nat.mul_comm, Nat.mul_add_div (Nat.two_pow_pos m), Nat.div_eq_of_lt (Env.bitsOnto_lt E m _), Nat.add_zero]

theorem preflen_le_lenMax {T : Table} {l : Line} (h : l ∈ T) : l.preflen ≤ lenMax T := by
  induction T with
  | nil => cases h
  | cons m T ih =>
    unfold lenMax
    rw [List.foldr_cons]
    rcases List.mem_cons.mp h with rfl | h
    · exact le_max_left _ _
    · exact le_max_of_le_right (ih h)

theorem readCodeBit_ok {E : Env} {w : Work} (h1 : E.wb ≤ w.sp / 8) (h2 : w.sp < 8 * E.we) :
    readCodeBit E w = .ok (E.bit w.sp).toNat { w with sp := w.sp + 1 } := by
  unfold readCodeBit
  rw [readBit_ok h1 h2]

/-- The prefix walk stops at the line whose code stands at the cursor (`43_huffman.md` R195). -/
theorem htWalk_ok {E : Env} {T : Table} (hT : Table.PrefixFree T) {l : Line} (hl : l ∈ T) {c p : Nat} (w : Work)
    (hc : l.code = some c) (hbits : E.bitsOnto p l.preflen 0 = c) (h1 : E.wb ≤ p / 8)
    (h2 : p + l.preflen ≤ 8 * E.we) :
    ∀ (k len room : Nat), len + k + 1 = l.preflen → k < room →
      htWalk E T room len (E.bitsOnto p len 0) { w with sp := p + len } =
        .ok l { w with sp := p + l.preflen } := by
  have hfind : ∀ n m, n ≤ l.preflen → lineOfCode T n (E.bitsOnto p n 0) = some m → m = l := by
    intro n m hn hm
    have hmem := List.mem_of_find?_eq_some hm
    have hp := List.find?_some hm
    simp only [Bool.and_eq_true, decide_eq_true_eq] at hp
    exact hT.unique hl hmem hc hp.2 (by omega) (by rw [← hbits, hp.1, Env.bitsOnto_shift E p _ _ hn])
  intro k
  induction k with
  | zero =>
    intro len room hk hroom
    obtain ⟨room, rfl⟩ : ∃ r, room = r + 1 := ⟨room - 1, by omega⟩
    unfold htWalk
    rw [Dec.run_bind, readCodeBit_ok (by dsimp only; omega) (by dsimp only; omega)]
    dsimp only
    rw [← Env.bitsOnto_succ]
    cases hm : lineOfCode T (len + 1) (E.bitsOnto p (len + 1) 0) with
    | some m =>
      dsimp only
      rw [hfind _ _ (by omega) hm, Dec.run_pure, ← hk]
      rfl
    | none =>
      refine absurd (List.find?_eq_none.mp hm l hl) ?_
      have hlen : len + 1 = l.preflen := by omega
      rw [hlen, hbits]
      simp [hc]
  | succ k ih =>
    intro len room hk hroom
    obtain ⟨room, rfl⟩ : ∃ r, room = r + 1 := ⟨room - 1, by omega⟩
    unfold htWalk
    rw [Dec.run_bind, readCodeBit_ok (by dsimp only; omega) (by dsimp only; omega)]
    dsimp only
    rw [← Env.bitsOnto_succ]
    cases hm : lineOfCode T (len + 1) (E.bitsOnto p (len + 1) 0) with
    | some m =>
      obtain rfl := hfind _ _ (by omega) hm
      have hp := List.find?_some hm
      simp only [Bool.and_eq_true, decide_eq_true_eq] at hp
      omega
    | none => exact ih (len + 1) room (by omega) (by omega)

variable {s : State} {T : Table} {p q : Nat} {v : Option Int}

/-- What stands in the window of a segment command: from its first byte to its last. -/
def State.inWindow (s : State) (p q : Nat) : Prop := 8 * (s.sp.toNat / 8) ≤ p ∧ q ≤ 8 * s.windowEnd

theorem State.inWindow.left {p m q : Nat} (h : s.inWindow p q) (hm : m ≤ q) : s.inWindow p m :=
  ⟨h.1, hm.trans h.2⟩

theorem State.inWindow.right {p m q : Nat} (h : s.inWindow p q) (hm : p ≤ m) : s.inWindow m q :=
  ⟨h.1.trans hm, h.2⟩

theorem needValue_some (v : Int) (w : Work) : needValue (some v) w = .ok v w := rfl

theorem alignByte_ok (p : Nat) (w : Work) :
    alignByte { w with sp := p } = .ok () { w with sp := 8 * ((p + 7) / 8) } := rfl

theorem State.codedAt.lt (h : s.codedAt T p v q) : p < q := by
  obtain ⟨l, c, -, h1, -, -, rfl, -⟩ := h
  omega

/-- A coded value is read back, and the cursor stands after it (`43_huffman.md` R195, R196). -/
theorem State.codedAt.read (hT : Table.PrefixFree T) (h : s.codedAt T p v q) (hw : s.inWindow p q) (w : Work) :
    htDecode s.segmentEnv T { w with sp := p } = .ok v { w with sp := q } := by
  obtain ⟨l, c, hl, h1, hc, hbits, rfl, rfl⟩ := h
  obtain ⟨hwb, hwe⟩ := hw
  have hwb' : s.segmentEnv.wb ≤ p / 8 := by show s.sp.toNat / 8 ≤ p / 8; omega
  have hwe' : p + l.preflen + l.rawBits ≤ 8 * s.segmentEnv.we := hwe
  have hwalk : htWalk s.segmentEnv T (lenMax T) 0 0 { w with sp := p } = .ok l { w with sp := p + l.preflen } :=
    htWalk_ok hT hl w hc ((s.segmentEnv_bitsOnto p l.preflen).trans hbits) hwb' (by omega)
      (l.preflen - 1) 0 (lenMax T) (by omega) (lt_of_lt_of_le (by omega) (preflen_le_lenMax hl))
  unfold htDecode
  rw [Dec.bind_of_ok hwalk]
  have hread : ∀ n, n ≤ l.rawBits → readBits s.segmentEnv n { w with sp := p + l.preflen } =
      .ok (s.streamNum (p + l.preflen) n) { w with sp := p + l.preflen + n } := by
    intro n hn
    rw [readBits_ok (w := { w with sp := p + l.preflen }) (by dsimp only; omega) (by dsimp only; omega),
      s.segmentEnv_bitsOnto]
  unfold leafValue Line.value Line.rawBits
  unfold Line.rawBits at hread
  cases hk : l.kind <;> rw [hk] at hread <;> dsimp only at hread ⊢ <;>
    first
      | rw [Dec.bind_of_ok (hread _ (Nat.le_refl _))]; rfl
      | rfl


/-! ## Bitmaps drawn pixel by pixel -/

/-- A loop whose turns change no working state. -/
theorem loopM_of_pure {σ : Type} {f : Nat → σ → Dec σ} {g : Nat → σ → σ} {w : Work} {hi : Nat}
    (h : ∀ i c, i < hi → f i c w = .ok (g i c) w) :
    ∀ (n i : Nat) (c : σ), i + n ≤ hi → loopM f n i c w = .ok (loopPure g n i c) w := by
  intro n
  induction n with
  | zero => intro i c _; rfl
  | succ n ih =>
    intro i c hi'
    unfold loopM loopPure
    rw [Dec.bind_of_ok (h i c (by omega))]
    exact ih (i + 1) _ (by omega)

/-- A row drawn from column `i` on. -/
theorem drawRow_get {y : Nat} (val : Nat → Bool) :
    ∀ (n i : Nat) (b : Bitmap), i + n ≤ b.w → y < b.h →
      (loopPure (fun x c => c.set x y (val x)) n i b).SameSize b ∧
        ∀ u v : Nat, (loopPure (fun x c => c.set x y (val x)) n i b).get u v =
          if v = y ∧ i ≤ u ∧ u < i + n then val u else b.get u v := by
  intro n
  induction n with
  | zero =>
    intro i b _ _
    exact ⟨⟨rfl, rfl⟩, fun u v => (if_neg (by omega)).symm⟩
  | succ n ih =>
    intro i b hi hy
    have hsz : (b.set i y (val i)).SameSize b := ⟨by simp, by simp⟩
    obtain ⟨h1, h2⟩ := ih (i + 1) (b.set i y (val i)) (by rw [hsz.1]; omega) (by rw [hsz.2]; exact hy)
    refine ⟨⟨h1.1.trans hsz.1, h1.2.trans hsz.2⟩, fun u v => ?_⟩
    refine (h2 u v).trans ?_
    rw [Bitmap.get_set b (by omega) hy]
    by_cases hv : v = y
    · by_cases hu : u = i
      · subst hu hv
        rw [if_neg (by omega), if_pos ⟨rfl, rfl⟩, if_pos (by omega)]
      · rw [if_neg (show ¬((u : Int) = i ∧ (v : Int) = y) by omega)]
        congr 1
        simp only [eq_iff_iff]
        omega
    · rw [if_neg (by omega), if_neg (by omega), if_neg (by omega)]

/-- Rows drawn from row `j` on. -/
theorem drawRows_get {w : Nat} (val : Nat → Nat → Bool) :
    ∀ (n j : Nat) (b : Bitmap), b.w = w → j + n ≤ b.h →
      (loopPure (fun y c => loopPure (fun x c => c.set x y (val x y)) w 0 c) n j b).SameSize b ∧
        ∀ u v : Nat, u < w →
          (loopPure (fun y c => loopPure (fun x c => c.set x y (val x y)) w 0 c) n j b).get u v =
            if j ≤ v ∧ v < j + n then val u v else b.get u v := by
  intro n
  induction n with
  | zero =>
    intro j b _ _
    exact ⟨⟨rfl, rfl⟩, fun u v _ => (if_neg (by omega)).symm⟩
  | succ n ih =>
    intro j b hw hj
    obtain ⟨h1, h2⟩ := drawRow_get (y := j) (fun x => val x j) w 0 b (by omega) (by omega)
    obtain ⟨h3, h4⟩ := ih (j + 1) (loopPure (fun x c => c.set x j (val x j)) w 0 b) (h1.1.trans hw) (by rw [h1.2]; omega)
    refine ⟨⟨h3.1.trans h1.1, h3.2.trans h1.2⟩, fun u v hu => ?_⟩
    refine (h4 u v hu).trans ?_
    rw [h2]
    by_cases hv : v = j
    · subst hv
      rw [if_neg (by omega), if_pos (by omega), if_pos (by omega)]
    · rw [if_neg (show ¬(v = j ∧ 0 ≤ u ∧ u < 0 + w) by omega)]
      congr 1
      simp only [eq_iff_iff]
      omega

/-- A bitmap drawn whole. -/
theorem draw_get {w h : Nat} (val : Nat → Nat → Bool) (fill : Bool) :
    let b := loopPure (fun y c => loopPure (fun x c => c.set x y (val x y)) w 0 c) h 0 (Bitmap.filled w h fill)
    b.w = w ∧ b.h = h ∧ ∀ x y : Nat, x < w → y < h → b.get x y = val x y := by
  obtain ⟨h1, h2⟩ := drawRows_get val h 0 (Bitmap.filled w h fill) rfl (by show 0 + h ≤ h; omega)
  exact ⟨h1.1, h1.2, fun x y hx hy => (h2 x y hx).trans (if_pos (by omega))⟩

theorem columns_get (col : Bitmap) (x0 w : Nat) :
    (columns col x0 w).w = w ∧ (columns col x0 w).h = col.h ∧
      ∀ x y : Nat, x < w → y < col.h → (columns col x0 w).get x y = col.get ((x0 : Int) + x) y :=
  draw_get (fun x y => col.get ((x0 : Int) + x) y) false

/-! ## Symbol dictionaries -/

/-- The symbols cut from a collective bitmap are those its columns spell (`47_symbol_dict.md` R329). -/
theorem State.columnsAt.cut {st stride h : Nat} {col : Bitmap} (hh : col.h = h) :
    ∀ {x0 : Nat} {syms : List Bitmap}, s.columnsAt st stride h x0 syms →
      (∀ x y : Nat, x < x0 + (syms.map Bitmap.w).sum → y < h → col.get x y = s.streamBit (8 * (st + y * stride) + x)) →
      cutColumns col x0 (syms.map Bitmap.w) = syms := by
  intro x0 syms
  induction syms generalizing x0 with
  | nil => intro _ _; rfl
  | cons b more ih =>
    intro hc hcol
    obtain ⟨hbh, hbits, hmore⟩ := hc
    rw [List.map_cons, List.sum_cons] at hcol
    rw [List.map_cons, cutColumns, ih hmore fun x y hx hy => hcol x y (by omega) hy]
    congr 1
    obtain ⟨h1, h2, h3⟩ := columns_get col x0 b.w
    refine Bitmap.ext_get h1 (by rw [h2, hh, hbh]) fun x y hx hy => ?_
    rw [h1] at hx
    rw [h2] at hy
    rw [h3 x y hx hy, hbits x y hx (by omega), ← hcol (x0 + x) y (by omega) (by omega)]
    push_cast
    rfl

/-- The rows of an uncompressed collective bitmap are read as they stand (`47_symbol_dict.md` R329). -/
theorem collectiveBitmap_ok {st w h : Nat} (u : Work) (hpix : w * h ≤ s.cfg.maxpix)
    (hw : s.inWindow (8 * st) (8 * (st + (w + 7) / 8 * h))) :
    ∃ col : Bitmap, collectiveBitmap s.segmentEnv st w h u = .ok col { u with sp := 8 * (st + (w + 7) / 8 * h) } ∧
      col.w = w ∧ col.h = h ∧
      ∀ x y : Nat, x < w → y < h → col.get x y = s.streamBit (8 * (st + y * ((w + 7) / 8)) + x) := by
  obtain ⟨h1, h2⟩ := hw
  have hpixel : ∀ (y x : Nat) (b : Bitmap), y < h → x < w →
      collectivePixel s.segmentEnv st ((w + 7) / 8) y x b u =
        .ok (b.set x y (s.streamBit (8 * (st + y * ((w + 7) / 8)) + x))) u := by
    intro y x b hy hx
    have hle : y * ((w + 7) / 8) + (w + 7) / 8 ≤ (w + 7) / 8 * h := by
      rw [← Nat.succ_mul, Nat.mul_comm _ h]
      exact Nat.mul_le_mul_right _ hy
    have hin : s.segmentEnv.wb ≤ st + y * ((w + 7) / 8) + x / 8 := by
      show s.sp.toNat / 8 ≤ _
      omega
    unfold collectivePixel
    rw [Dec.bind_of_ok (inByte_ok hin (show _ < s.windowEnd by omega) u), Dec.run_pure]
    unfold State.streamBit State.streamByte
    rw [show (8 * (st + y * ((w + 7) / 8)) + x) / 8 = st + y * ((w + 7) / 8) + x / 8 by omega,
      show (8 * (st + y * ((w + 7) / 8)) + x) % 8 = x % 8 by omega]
    rfl
  have hloop := loopM_of_pure (w := u) (hi := h)
    (f := fun y b => loopM (collectivePixel s.segmentEnv st ((w + 7) / 8) y) w 0 b)
    (g := fun y b => loopPure (fun x c => c.set x y (s.streamBit (8 * (st + y * ((w + 7) / 8)) + x))) w 0 b)
    (fun y b hy => loopM_of_pure (hi := w) (fun x c hx => hpixel y x c hy hx) w 0 b (by omega)) h 0
    (Bitmap.filled w h false) (by omega)
  refine ⟨_, ?_, draw_get (fun x y => s.streamBit (8 * (st + y * ((w + 7) / 8)) + x)) false⟩
  unfold collectiveBitmap
  rw [Dec.bind_of_ok (newBitmap_of_le (cfg := s.segmentEnv.cfg) hpix false u), Dec.bind_of_ok hloop]
  rfl

variable {P : SdParams} {TDW : Table}

theorem State.widthsAt.le : ∀ {ws : List Nat} {w p q : Nat}, s.widthsAt TDW w p ws q → p ≤ q
  | [], _, _, _, h => (State.codedAt.lt h).le
  | _ :: _, _, _, _, ⟨_, hm, hmore⟩ => hm.lt.le.trans hmore.le

theorem State.classAt.le {h p q : Nat} {syms : List Bitmap} (hc : s.classAt TDW h p syms q) : p ≤ q := by
  obtain ⟨m, n, -, hwidths, hsize, -, rfl, -⟩ := hc
  have := hwidths.le
  have := hsize.lt
  omega

theorem State.classesAt.le {TDH : Table} :
    ∀ {classes : List (List Bitmap)} {h p q : Nat}, s.classesAt TDH TDW h p classes q → p ≤ q
  | [], _, _, _, h => Nat.le_of_eq h
  | _ :: _, _, _, _, ⟨_, _, _, hdh, hclass, hmore⟩ => hdh.lt.le.trans (hclass.le.trans hmore.le)

theorem State.runsAt.le : ∀ {runs : List Nat} {p q : Nat}, s.runsAt p runs q → p ≤ q
  | [], _, _, h => Nat.le_of_eq h
  | _ :: _, _, _, ⟨_, hm, hmore⟩ => hm.lt.le.trans hmore.le

/-- The widths of a height class (`47_symbol_dict.md` R325), in collective coding. -/
theorem State.widthsAt.read (hP : P.collective = true) (hT : Table.PrefixFree P.tables.dw) (h : Int) (u : Work) :
    ∀ {ws : List Nat} {w p q room : Nat} {c : ClassState}, s.widthsAt P.tables.dw w p ws q → c.symWidth = w →
      s.inWindow p q → ws.length ≤ room →
      ∃ c', heightClass s.segmentEnv P h room c { u with sp := p } = .ok c' { u with sp := q } ∧
        c'.syms = c.syms ∧ c'.widths = c.widths ++ ws ∧ c'.totWidth = c.totWidth + ws.sum := by
  have hhuff : P.hd.huff = true := (Bool.and_eq_true_iff.mp hP).1
  have hdec : ∀ p' q' v, s.codedAt P.tables.dw p' v q' → s.inWindow p' q' →
      decodeDw s.segmentEnv P { u with sp := p' } = .ok v { u with sp := q' } := by
    intro p' q' v hv hin
    unfold decodeDw
    rw [hhuff]
    exact hv.read hT hin u
  intro ws
  induction ws with
  | nil =>
    intro w p q room c hw hc hin _
    refine ⟨c, ?_, rfl, by simp, by simp⟩
    cases room <;> (unfold heightClass; rw [Dec.bind_of_ok (hdec _ _ _ hw hin)]; rfl)
  | cons v ws ih =>
    intro w p q room c hw hc hin hroom
    obtain ⟨m, hm, hmore⟩ := hw
    rw [List.length_cons] at hroom
    obtain ⟨room, rfl⟩ : ∃ r, room = r + 1 := ⟨room - 1, by omega⟩
    obtain ⟨c', hc', h1, h2, h3⟩ := ih (room := room)
      (c := { c with symWidth := v, totWidth := c.totWidth + v, widths := c.widths ++ [v] }) hmore rfl
      (hin.right hm.lt.le) (by omega)
    refine ⟨c', ?_, h1, by rw [h2]; simp, by rw [h3, List.sum_cons]; push_cast; ring⟩
    unfold heightClass
    rw [Dec.bind_of_ok (hdec _ _ _ hm (hin.left hmore.le))]
    have hcls : classSymbol s.segmentEnv P h ((v : Int) - w) c { u with sp := m } =
        .ok { c with symWidth := v, totWidth := c.totWidth + v, widths := c.widths ++ [v] } { u with sp := m } := by
      unfold classSymbol
      rw [hc, show (w : Int) + ((v : Int) - w) = v by ring,
        show decide (0 ≤ (v : Int)) = true from decide_eq_true (Int.natCast_nonneg _),
        Dec.bind_of_ok (Dec.run_require_true _ _), hP]
      rfl
    dsimp only
    rw [Dec.bind_of_ok hcls]
    exact hc'

/-- A height class with its collective bitmap (`47_symbol_dict.md` R325, R329); `acc` are the symbols before it. -/
theorem State.classAt.read (hP : P.collective = true) (hT : Table.PrefixFree P.tables.dw)
    (hB : P.tables.bmsize = stdTable 1) (hB1 : Table.PrefixFree (stdTable 1)) (u : Work) {h p q : Nat}
    {syms acc : List Bitmap} (hc : s.classAt P.tables.dw h p syms q) (hw : s.inWindow p q)
    (hroom : acc.length + syms.length ≤ P.hd.numNew) :
    decodeClass s.segmentEnv P h acc { u with sp := p } = .ok (acc ++ syms) { u with sp := q } := by
  obtain ⟨m, n, hne, hwidths, hsize, hpix, rfl, hcols⟩ := hc
  have hle := hwidths.le
  have hmn := hsize.lt
  obtain ⟨hw1, hw2⟩ := hw
  obtain ⟨c', hc', h1, h2, h3⟩ := State.widthsAt.read hP hT h u (room := P.hd.numNew - acc.length)
    (c := { symWidth := 0, totWidth := 0, widths := [], syms := acc }) hwidths rfl ⟨hw1, by omega⟩
    (by rw [List.length_map]; omega)
  dsimp only at h1 h2 h3
  rw [List.nil_append] at h2
  rw [Int.zero_add] at h3
  obtain ⟨col, hcol, hcw, hch, hget⟩ := collectiveBitmap_ok (s := s) (st := (n + 7) / 8)
    { u with sp := 8 * ((n + 7) / 8) } hpix ⟨by omega, by omega⟩
  unfold decodeClass
  rw [Dec.bind_of_ok hc']
  have hcount : c'.count ≠ acc.length := by
    unfold ClassState.count
    rw [h1, h2, List.length_map]
    have := List.length_pos_iff.mpr hne
    omega
  rw [show decide (c'.count ≠ acc.length) = true from decide_eq_true hcount, Dec.bind_of_ok (Dec.run_require_true _ _),
    hP, if_pos rfl]
  unfold classCollective
  have hbyte : cursorByte { u with sp := 8 * ((n + 7) / 8) } = .ok ((n + 7) / 8) { u with sp := 8 * ((n + 7) / 8) } := by
    show EStateM.Result.ok (8 * ((n + 7) / 8) / 8) _ = _
    rw [Nat.mul_div_cancel_left _ (by decide)]
  have hcol' : collectiveBitmap s.segmentEnv ((n + 7) / 8) c'.totWidth.toNat (h : Int).toNat
      { u with sp := 8 * ((n + 7) / 8) } =
      .ok col { u with sp := 8 * ((n + 7) / 8 + ((syms.map Bitmap.w).sum + 7) / 8 * h) } := by
    rw [h3]
    exact hcol
  rw [hB, Dec.bind_of_ok (hsize.read hB1 ⟨by omega, by omega⟩ u), Dec.bind_of_ok (needValue_some _ _),
    Dec.bind_of_ok (alignByte_ok _ _), show decide ((0 : Int) = 0) = true from rfl,
    Dec.bind_of_ok (Dec.run_require_true _ _), Dec.bind_of_ok hbyte, Dec.bind_of_ok hcol', Dec.run_pure, h1, h2,
    hcols.cut hch fun x y hx hy => hget x y (by omega) hy]

/-- Height classes one after the other (`47_symbol_dict.md` R325). -/
theorem State.classesAt.read (hP : P.collective = true) (hTH : Table.PrefixFree P.tables.dh)
    (hT : Table.PrefixFree P.tables.dw) (hB : P.tables.bmsize = stdTable 1) (hB1 : Table.PrefixFree (stdTable 1))
    (u : Work) :
    ∀ {classes : List (List Bitmap)} {h p q turns : Nat} {acc : List Bitmap},
      s.classesAt P.tables.dh P.tables.dw h p classes q → s.inWindow p q →
      acc.length + classes.flatten.length = P.hd.numNew → classes.length ≤ turns →
      symbolClasses s.segmentEnv P turns h acc { u with sp := p } = .ok (acc ++ classes.flatten) { u with sp := q } := by
  have hhuff : P.hd.huff = true := (Bool.and_eq_true_iff.mp hP).1
  intro classes
  induction classes with
  | nil =>
    intro h p q turns acc hc hw hn _
    obtain rfl : p = q := hc
    rw [List.flatten_nil, List.append_nil]
    rw [List.flatten_nil, List.length_nil, Nat.add_zero] at hn
    cases turns with
    | zero => rfl
    | succ n =>
      unfold symbolClasses
      rw [if_neg (by omega)]
      rfl
  | cons syms more ih =>
    intro h p q turns acc hc hw hn ht
    obtain ⟨h', m, n, hdh, hclass, hmore⟩ := hc
    rw [List.flatten_cons, List.length_append] at hn
    rw [List.length_cons] at ht
    obtain ⟨turns, rfl⟩ : ∃ r, turns = r + 1 := ⟨turns - 1, by omega⟩
    have hlen : 0 < syms.length := by
      obtain ⟨_, _, hne, _⟩ := hclass
      exact List.length_pos_iff.mpr hne
    have hwn : s.inWindow m q := hw.right hdh.lt.le
    unfold symbolClasses decodeDh
    rw [if_pos (by omega), hhuff, if_pos rfl,
      Dec.bind_of_ok (hdh.read hTH (hw.left (hclass.le.trans hmore.le)) u)]
    dsimp only
    rw [show (h : Int) + ((h' : Int) - h) = h' by ring,
      show decide (0 ≤ (h' : Int)) = true from decide_eq_true (Int.natCast_nonneg _),
      Dec.bind_of_ok (Dec.run_require_true _ _),
      Dec.bind_of_ok (hclass.read hP hT hB hB1 u (hwn.left hmore.le) (by omega)),
      ih hmore (hwn.right hclass.le) (by rw [List.length_append]; omega) (by omega), List.flatten_cons, List.append_assoc]

/-- A standard table, constructed before or now, is its constant. -/
theorem std_ok {n : Nat} (hstd : sparseFind s.stdTab n = none ∨ sparseFind s.stdTab n = some (stdTable n)) (u : Work) :
    std s.segmentEnv n u = .ok (stdTable n) { u with built := u.built ||| BitVec.twoPow 16 n } := by
  have : (sparseFind s.segmentEnv.stdTab n).getD (stdTable n) = stdTable n := by
    show (sparseFind s.stdTab n).getD (stdTable n) = stdTable n
    rcases hstd with h | h <;> rw [h] <;> rfl
  unfold std
  rw [Dec.bind_of_ok (Dec.run_modify _ _), Dec.run_pure, this]

theorem stdDecode_ok {n p q : Nat} {v : Option Int}
    (hstd : sparseFind s.stdTab n = none ∨ sparseFind s.stdTab n = some (stdTable n))
    (hT : Table.PrefixFree (stdTable n)) (h : s.codedAt (stdTable n) p v q) (hw : s.inWindow p q) (u : Work)
    (hb : u.built ||| BitVec.twoPow 16 n = u.built) :
    stdDecode s.segmentEnv n { u with sp := p } = .ok v { u with sp := q } := by
  unfold stdDecode
  rw [Dec.bind_of_ok (std_ok hstd _)]
  dsimp only
  rw [hb]
  exact h.read hT hw u

theorem length_runFlags : ∀ (f : Bool) (runs : List Nat), (runFlags f runs).length = runs.sum
  | _, [] => rfl
  | f, r :: more => by
    rw [runFlags, List.length_append, List.length_replicate, length_runFlags, List.sum_cons]

/-- The export runs (`47_symbol_dict.md` R330). -/
theorem State.runsAt.read (hstd : sparseFind s.stdTab 1 = none ∨ sparseFind s.stdTab 1 = some (stdTable 1))
    (hT : Table.PrefixFree (stdTable 1)) (u : Work) (hb : u.built ||| BitVec.twoPow 16 1 = u.built) {tot : Nat} :
    ∀ {runs : List Nat} {p q turns : Nat} {first flag : Bool} {flags : List Bool}, s.runsAt p runs q → s.inWindow p q →
      flags.length + runs.sum = tot → (∀ r ∈ runs.tail, r ≠ 0) → (first = false → ∀ r ∈ runs, r ≠ 0) →
      (flags.length = tot → runs = []) → runs.length ≤ turns →
      exportRuns s.segmentEnv true tot turns first flag flags { u with sp := p } =
        .ok (flags ++ runFlags flag runs) { u with sp := q } := by
  intro runs
  induction runs with
  | nil =>
    intro p q turns first flag flags hr hw hsum _ _ _ _
    obtain rfl : p = q := hr
    rw [runFlags, List.append_nil]
    rw [List.sum_nil, Nat.add_zero] at hsum
    cases turns with
    | zero => rfl
    | succ n =>
      unfold exportRuns
      rw [if_neg (by omega)]
      rfl
  | cons r more ih =>
    intro p q turns first flag flags hr hw hsum htail hfirst hend hturns
    obtain ⟨m, hm, hmore⟩ := hr
    rw [List.length_cons] at hturns
    rw [List.sum_cons] at hsum
    rw [List.tail_cons] at htail
    obtain ⟨turns, rfl⟩ : ∃ r, turns = r + 1 := ⟨turns - 1, by omega⟩
    have hlt : flags.length < tot := by
      rcases Nat.lt_or_ge flags.length tot with h | h
      · exact h
      · exact absurd (hend (by omega)) (by simp)
    have hzero : (decide ((r : Int) ≠ 0) || first) = true := by
      cases hf : first
      · rw [Bool.or_false]
        exact decide_eq_true (by exact_mod_cast hfirst hf r List.mem_cons_self)
      · rw [Bool.or_true]
    have hrange : (decide (0 ≤ (r : Int)) && decide ((flags.length : Int) + r ≤ tot)) = true := by
      rw [decide_eq_true (Int.natCast_nonneg _), Bool.true_and]
      exact decide_eq_true (by omega)
    unfold exportRuns
    rw [if_pos hlt, if_pos rfl, Dec.bind_of_ok (stdDecode_ok hstd hT hm (hw.left hmore.le) u hb)]
    dsimp only
    rw [Dec.bind_of_ok (needValue_some _ _), hrange, Dec.bind_of_ok (Dec.run_require_true _ _), hzero,
      Dec.bind_of_ok (Dec.run_require_true _ _)]
    rw [ih hmore (hw.right hm.lt.le) (by rw [List.length_append, List.length_replicate]; simp; omega)
      (fun x hx => htail x (List.mem_of_mem_tail hx)) (fun _ => htail) (fun h => ?_) (by omega), runFlags,
      Int.toNat_natCast, List.append_assoc]
    rw [List.length_append, List.length_replicate, Int.toNat_natCast] at h
    cases more with
    | nil => rfl
    | cons r' more' =>
      have := htail r' List.mem_cons_self
      rw [List.sum_cons] at hsum
      omega

/-- What usable references supply (`47_symbol_dict.md` R322, `48_text_region.md` R374). -/
theorem collectRefs_ok (u : Work) {hs : List Nat}
    (h : ∀ x ∈ hs, (∃ syms ret, s.slot x = .symDict syms ret) ∨ ∃ t, s.slot x = .table t) :
    ∃ r : Refs, collectRefs (hs.map s.slot) u = .ok r u ∧ r.syms = hs.flatMap fun x => (s.slot x).symbols := by
  induction hs with
  | nil => exact ⟨_, rfl, rfl⟩
  | cons x hs ih =>
    obtain ⟨r, hr, hsyms⟩ := ih fun y hy => h y (List.mem_cons_of_mem _ hy)
    rw [List.map_cons, List.flatMap_cons]
    rcases h x List.mem_cons_self with ⟨syms, ret, hx⟩ | ⟨t, hx⟩
    · refine ⟨{ r with syms := syms ++ r.syms, lastRet := some (r.lastRet.getD ret) }, ?_, ?_⟩
      · rw [hx]
        unfold collectRefs
        rw [Dec.bind_of_ok hr]
        rfl
      · rw [hx, ← hsyms]
        rfl
    · refine ⟨{ r with tabs := t :: r.tabs }, ?_, ?_⟩
      · rw [hx]
        unfold collectRefs
        rw [Dec.bind_of_ok hr]
        rfl
      · rw [hx, ← hsyms]
        rfl

theorem chooseTable_std {n : Nat} (hstd : sparseFind s.stdTab n = none ∨ sparseFind s.stdTab n = some (stdTable n))
    (tabs : List Table) (u : Work) :
    chooseTable s.segmentEnv (.std n) tabs u =
      .ok (stdTable n, tabs) { u with built := u.built ||| BitVec.twoPow 16 n } := by
  unfold chooseTable
  dsimp only
  rw [Dec.bind_of_ok (std_ok hstd _), Dec.run_pure]

/-- The cache holds nothing but the standard tables. -/
theorem State.Canonical.std (hs : s.Canonical) (n : Nat) :
    sparseFind s.stdTab n = none ∨ sparseFind s.stdTab n = some (stdTable n) := by
  cases h : sparseFind s.stdTab n with
  | none => exact .inl rfl
  | some t =>
    exact .inr (congrArg some (hs.2.2.2.2.2.2.2.1 _ (mem_of_sparseFind h)).2.2)

theorem readBits_stream {p n : Nat} (hw : s.inWindow p (p + n)) (u : Work) :
    readBits s.segmentEnv n { u with sp := p } = .ok (s.streamNum p n) { u with sp := p + n } := by
  obtain ⟨h1, h2⟩ := hw
  rw [readBits_ok (w := { u with sp := p }) (by show s.sp.toNat / 8 ≤ p / 8; omega) h2, s.segmentEnv_bitsOnto]

theorem exported_eq (bs : List Bitmap) (fs : List Bool) :
    exported bs fs = ((bs.zip fs).filter Prod.snd).map Prod.fst := by
  induction bs generalizing fs with
  | nil => cases fs <;> rfl
  | cons b bs ih =>
    cases fs with
    | nil => rfl
    | cons f fs => cases f <;> simp [exported, ih]

theorem State.classesAt.length_le {TDH : Table} :
    ∀ {classes : List (List Bitmap)} {h p q : Nat}, s.classesAt TDH TDW h p classes q →
      classes.length ≤ classes.flatten.length
  | [], _, _, _, _ => Nat.le_refl _
  | syms :: more, _, _, _, ⟨_, _, _, _, ⟨_, _, hne, _⟩, hmore⟩ => by
    have := hmore.length_le
    have := List.length_pos_iff.mpr hne
    rw [List.length_cons, List.flatten_cons, List.length_append]
    omega

/-- Runs that are not zero, but for the first, are at most one more than their sum. -/
theorem length_le_sum : ∀ {runs : List Nat}, (∀ r ∈ runs.tail, r ≠ 0) → runs.length ≤ runs.sum + 1
  | [], _ => Nat.zero_le _
  | r :: more, h => by
    have key : ∀ l : List Nat, (∀ r ∈ l, r ≠ 0) → l.length ≤ l.sum := by
      intro l
      induction l with
      | nil => exact fun _ => Nat.le_refl _
      | cons a l ih =>
        intro h
        have := ih fun x hx => h x (List.mem_cons_of_mem _ hx)
        have := h a List.mem_cons_self
        rw [List.length_cons, List.sum_cons]
        omega
    have := key more h
    rw [List.length_cons, List.sum_cons]
    omega

/-- A Huffman-coded dictionary with standard tables, read whole (`47_symbol_dict.md` R324). -/
theorem segSd_read {dh dw q1 q2 : Nat} {classes : List (List Bitmap)} {runs : List Nat} {ex : List Bitmap}
    (hs : s.Canonical) (hrefs : s.refsUsable) (hdh : dh ≤ 1) (hdw : dw ≤ 1) (hT1 : Table.PrefixFree (stdTable 1))
    (hTH : Table.PrefixFree (stdTable (4 + dh))) (hTW : Table.PrefixFree (stdTable (2 + dw)))
    (hcap : (s.refSymbols ++ classes.flatten).length ≤ s.cfg.maxsyms) (hal : s.sp.toNat % 8 = 0)
    (hexd : ex = (((s.refSymbols ++ classes.flatten).zip (runFlags false runs)).filter Prod.snd).map Prod.fst)
    (hf : s.streamNum s.sp.toNat 16 = 1 + 4 * dh + 16 * dw) (hex : s.streamNum (s.sp.toNat + 16) 32 = ex.length)
    (hnew : s.streamNum (s.sp.toNat + 48) 32 = classes.flatten.length)
    (hcls : s.classesAt (stdTable (4 + dh)) (stdTable (2 + dw)) 0 (s.sp.toNat + 80) classes q1)
    (hsum : runs.sum = (s.refSymbols ++ classes.flatten).length) (htail : ∀ r ∈ runs.tail, r ≠ 0)
    (hnone : s.refSymbols ++ classes.flatten = [] → runs = []) (hruns : s.runsAt q1 runs q2)
    (hend : q2 ≤ 8 * s.windowEnd) :
    segSd s.segmentEnv s.refSlots s.work =
      .ok
        { slot := .symDict ex none, idlen := some (ceilLog2 (s.refSymbols ++ classes.flatten).length) }
        { sp := q2, ad := s.ad, cx := s.cx.mapArr fun _ _ => .cleared
          built :=
            0 ||| BitVec.twoPow 16 (4 + dh) ||| BitVec.twoPow 16 (2 + dw) ||| BitVec.twoPow 16 1 |||
              BitVec.twoPow 16 1 } := by
  obtain ⟨refs, hr, hsyms⟩ := collectRefs_ok s.work hrefs
  have hsyms : refs.syms = s.refSymbols := hsyms
  have hq1 := hcls.le
  have hq2 := hruns.le
  have hin : s.inWindow s.sp.toNat q2 := ⟨by omega, hend⟩
  have hstd := hs.std
  rw [List.length_append] at hcap hsum
  -- the header
  obtain ⟨h0, h1, h6, h7, h8, h9, hb1, hb2⟩ :
      (1 + 4 * dh + 16 * dw).testBit 0 = true ∧ (1 + 4 * dh + 16 * dw).testBit 1 = false ∧
        (1 + 4 * dh + 16 * dw).testBit 6 = false ∧ (1 + 4 * dh + 16 * dw).testBit 7 = false ∧
        (1 + 4 * dh + 16 * dw).testBit 8 = false ∧ (1 + 4 * dh + 16 * dw).testBit 9 = false ∧
        choiceOf4 (bitField (1 + 4 * dh + 16 * dw) 3 2) 4 5 = .std (4 + dh) ∧
        choiceOf4 (bitField (1 + 4 * dh + 16 * dw) 5 4) 2 3 = .std (2 + dw) := by
    interval_cases dh <;> interval_cases dw <;> decide
  have hflags : ∀ u : Work, checkSdFlags (1 + 4 * dh + 16 * dw) u = .ok () u := by
    intro u
    interval_cases dh <;> interval_cases dw <;> rfl
  have hhead : parseSdHeader s.segmentEnv s.work =
      .ok
        { flags := 1 + 4 * dh + 16 * dw, sdat := [], sdrat := [], numEx := ex.length, numNew := classes.flatten.length }
        { s.work with sp := s.sp.toNat + 80 } := by
    have e1 : readU16 s.segmentEnv s.work = .ok (1 + 4 * dh + 16 * dw) { s.work with sp := s.sp.toNat + 16 } := by
      rw [← hf]
      exact readBits_stream (hin.left (by omega)) s.work
    have e2 : readU32 s.segmentEnv { s.work with sp := s.sp.toNat + 16 } =
        .ok ex.length { s.work with sp := s.sp.toNat + 48 } := by
      rw [← hex]
      exact readBits_stream ((hin.right (by omega)).left (by omega)) s.work
    have e3 : readU32 s.segmentEnv { s.work with sp := s.sp.toNat + 48 } =
        .ok classes.flatten.length { s.work with sp := s.sp.toNat + 80 } := by
      rw [← hnew]
      exact readBits_stream ((hin.right (by omega)).left (by omega)) s.work
    unfold parseSdHeader
    refine (Dec.bind_of_ok e1).trans ((Dec.bind_of_ok (hflags _)).trans ?_)
    simp only [h0, h1, Bool.false_and, if_true, Bool.false_eq_true, if_false]
    exact (Dec.bind_of_ok e2).trans ((Dec.bind_of_ok e3).trans rfl)
  generalize hhd :
    (⟨1 + 4 * dh + 16 * dw, [], [], ex.length, classes.flatten.length⟩ : SdHeader) = hd at hhead
  have hhuff : hd.huff = true := hhd ▸ h0
  have hagg : hd.refagg = false := hhd ▸ h1
  have hused : hd.used = false := hhd ▸ h8
  have hret : hd.retain = false := hhd ▸ h9
  have hnum : hd.numNew = classes.flatten.length := hhd ▸ rfl
  have hnex : hd.numEx = ex.length := hhd ▸ rfl
  have hflag : hd.flags = 1 + 4 * dh + 16 * dw := hhd ▸ rfl
  -- the tables
  generalize hbuilt : (0 ||| BitVec.twoPow 16 (4 + dh) ||| BitVec.twoPow 16 (2 + dw) ||| BitVec.twoPow 16 1 |||
    BitVec.twoPow 16 1 : BitVec 16) = built
  have htabs : sdParams s.segmentEnv hd refs { s.work with sp := s.sp.toNat + 80 } =
      .ok
        { hd := hd, inSyms := refs.syms
          tables := { dh := stdTable (4 + dh), dw := stdTable (2 + dw), bmsize := stdTable 1, agginst := stdTable 1 }
          symCodeLen := ceilLog2 (refs.syms.length + hd.numNew) }
        { s.work with sp := s.sp.toNat + 80, built := built } := by
    have hc : decide (refs.syms.length + hd.numNew ≤ s.segmentEnv.cfg.maxsyms) = true := by
      rw [hsyms, hnum]
      exact decide_eq_true hcap
    have ht : chooseSdTables s.segmentEnv hd.flags refs.tabs { s.work with sp := s.sp.toNat + 80 } =
        .ok { dh := stdTable (4 + dh), dw := stdTable (2 + dw), bmsize := stdTable 1, agginst := stdTable 1 }
          { s.work with sp := s.sp.toNat + 80, built := built } := by
      unfold chooseSdTables
      rw [hflag, hb1, hb2, h6, h7, ← hbuilt]
      refine (Dec.bind_of_ok (chooseTable_std (hstd _) _ _)).trans ?_
      refine (Dec.bind_of_ok (chooseTable_std (hstd _) _ _)).trans ?_
      refine (Dec.bind_of_ok (chooseTable_std (hstd _) _ _)).trans ?_
      exact (Dec.bind_of_ok (chooseTable_std (hstd _) _ _)).trans rfl
    unfold sdParams
    rw [hc, hhuff, if_pos rfl]
    exact (Dec.bind_of_ok (Dec.run_require_true _ _)).trans ((Dec.bind_of_ok ht).trans rfl)
  generalize hP :
    (⟨hd, refs.syms, ⟨stdTable (4 + dh), stdTable (2 + dw), stdTable 1, stdTable 1⟩,
      ceilLog2 (refs.syms.length + hd.numNew)⟩ : SdParams) = P at htabs
  have hPhd : P.hd = hd := hP ▸ rfl
  have hPin : P.inSyms = s.refSymbols := by rw [← hP, ← hsyms]
  have hPdh : P.tables.dh = stdTable (4 + dh) := hP ▸ rfl
  have hPdw : P.tables.dw = stdTable (2 + dw) := hP ▸ rfl
  have hPbm : P.tables.bmsize = stdTable 1 := hP ▸ rfl
  have hPlen : P.symCodeLen = ceilLog2 (s.refSymbols ++ classes.flatten).length := by
    rw [← hP, hsyms, hnum, List.length_append]
  have hcol : P.collective = true := by
    unfold SdParams.collective
    rw [hPhd, hhuff, hagg]
    rfl
  -- the data
  have hstart : startContexts hd refs.lastRet { s.work with sp := s.sp.toNat + 80, built := built } =
      .ok () { sp := s.sp.toNat + 80, ad := s.ad, cx := s.cx.mapArr fun _ _ => .cleared, built := built } := by
    unfold startContexts
    rw [hused]
    rfl
  generalize hu : ({ sp := 0, ad := s.ad, cx := s.cx.mapArr fun _ _ => .cleared, built := built } : Work) = u
  have hsym : decodeSymbols s.segmentEnv P { u with sp := s.sp.toNat + 80 } = .ok classes.flatten { u with sp := q1 } := by
    have := State.classesAt.read (P := P) hcol (hPdh ▸ hTH) (hPdw ▸ hTW) hPbm hT1 u (turns := P.hd.numNew) (acc := [])
      (by rw [hPdh, hPdw]; exact hcls) ((hin.right (by omega)).left hq2)
      (by rw [hPhd, hnum, List.length_nil, Nat.zero_add]) (by rw [hPhd, hnum]; exact hcls.length_le)
    unfold decodeSymbols
    refine (Dec.bind_of_ok this).trans ?_
    rw [List.nil_append, hPhd, hnum]
    simp only [decide_true]
    rfl
  have hexp : decodeExport s.segmentEnv P classes.flatten { u with sp := q1 } = .ok ex { u with sp := q2 } := by
    have := State.runsAt.read (s := s) (hstd 1) hT1 u (by rw [← hu, ← hbuilt]; simp [BitVec.or_assoc])
      (tot := s.refSymbols.length + classes.flatten.length)
      (turns := s.refSymbols.length + classes.flatten.length + 1) (first := true) (flag := false) (flags := [])
      hruns (hin.right (by omega)) (by rw [List.length_nil, Nat.zero_add, hsum]) htail (fun h => nomatch h)
      (fun h => hnone (List.eq_nil_of_length_eq_zero (by rw [List.length_append]; exact h.symm)))
      (by have := length_le_sum htail; omega)
    unfold decodeExport
    rw [hPhd, hhuff, hPin, hnum]
    refine (Dec.bind_of_ok this).trans ?_
    rw [List.nil_append, exported_eq, ← hexd, hnex]
    simp only [decide_true]
    rfl
  unfold segSd
  refine (Dec.bind_of_ok hr).trans ((Dec.bind_of_ok hhead).trans ((Dec.bind_of_ok htabs).trans
    ((Dec.bind_of_ok hstart).trans ?_)))
  rw [hhuff]
  refine (Dec.bind_of_ok (v := ()) (u := { u with sp := s.sp.toNat + 80 }) (by rw [← hu]; rfl)).trans
    ((Dec.bind_of_ok hsym).trans ((Dec.bind_of_ok hexp).trans ?_))
  refine (Dec.bind_of_ok (Dec.run_get _)).trans ?_
  rw [hPlen, ← hu]
  unfold retained
  rw [hret]
  rfl

/-! ## Text regions -/

theorem readFields_stream {len : Nat} (u : Work) :
    ∀ {n p : Nat}, s.inWindow p (p + len * n) →
      readFields s.segmentEnv len n { u with sp := p } =
        .ok ((List.range n).map fun j => s.streamNum (p + len * j) len) { u with sp := p + len * n }
  | 0, _, _ => rfl
  | n + 1, p, hw => by
    have hp : p + len * (n + 1) = p + len + len * n := by ring
    rw [hp] at hw ⊢
    unfold readFields
    refine (Dec.bind_of_ok (readBits_stream (hw.left (Nat.le_add_right _ _)) u)).trans
      ((Dec.bind_of_ok (readFields_stream u (hw.right (Nat.le_add_right _ _)))).trans ?_)
    rw [Dec.run_pure, List.range_succ_eq_map, List.map_cons, List.map_map]
    congr 2
    refine List.map_congr_left fun j _ => ?_
    show s.streamNum (p + len + len * j) len = s.streamNum (p + len * (j + 1)) len
    congr 1
    ring

theorem State.idLensAt.le {RL : Table} {lens all : List Nat} (h : s.idLensAt RL lens p all q) :
    p ≤ q ∧ lens.length ≤ all.length := by
  induction h with
  | done => exact ⟨Nat.le_refl _, Nat.le_refl _⟩
  | literal _ hm _ ih => exact ⟨hm.lt.le.trans ih.1, by have := ih.2; rw [List.length_append] at this; omega⟩
  | again hm _ _ ih =>
    have := hm.lt
    have h2 := ih.2
    rw [List.length_append] at h2
    exact ⟨by omega, by omega⟩
  | zeros hm _ ih =>
    have := hm.lt
    have h2 := ih.2
    rw [List.length_append] at h2
    exact ⟨by omega, by omega⟩
  | manyZeros hm _ ih =>
    have := hm.lt
    have h2 := ih.2
    rw [List.length_append] at h2
    exact ⟨by omega, by omega⟩

/-- The code lengths of symbol IDs (`48_text_region.md` R373). -/
theorem State.idLensAt.read {RL : Table} (hT : Table.PrefixFree RL) (u : Work) {num : Nat} {lens all : List Nat}
    (h : s.idLensAt RL lens p all q) :
    s.inWindow p q → all.length = num → ∀ turns, num ≤ lens.length + turns →
      symIdLens s.segmentEnv RL num turns lens { u with sp := p } = .ok all { u with sp := q } := by
  -- one turn: a run code `v` at `p`, and the lengths `more` it appends
  have turn : ∀ {lens more all : List Nat} {p m n q v : Nat}, s.codedAt RL p (some (v : Int)) m → s.inWindow p q →
      m ≤ n → n ≤ q → more ≠ [] → (lens ++ more).length ≤ num →
      runLens s.segmentEnv lens v { u with sp := m } = .ok more { u with sp := n } →
      (∀ turns, num ≤ (lens ++ more).length + turns →
        symIdLens s.segmentEnv RL num turns (lens ++ more) { u with sp := n } = .ok all { u with sp := q }) →
      ∀ turns, num ≤ lens.length + turns →
        symIdLens s.segmentEnv RL num turns lens { u with sp := p } = .ok all { u with sp := q } := by
    intro lens more all p m n q v hm hw hmn hnq hne hlen hrun hmore turns hturns
    have hpos := List.length_pos_iff.mpr hne
    have hl := hlen
    rw [List.length_append] at hl
    obtain ⟨turns, rfl⟩ : ∃ r, turns = r + 1 := ⟨turns - 1, by omega⟩
    unfold symIdLens
    rw [if_pos (by omega)]
    refine (Dec.bind_of_ok (hm.read hT (hw.left (hmn.trans hnq)) u)).trans
      ((Dec.bind_of_ok (needValue_some _ _)).trans ((Dec.bind_of_ok hrun).trans ?_))
    rw [decide_eq_true hlen]
    exact (Dec.bind_of_ok (Dec.run_require_true _ _)).trans
      (hmore turns (by rw [List.length_append]; omega))
  induction h with
  | done lens p =>
    intro hw hall turns _
    cases turns with
    | zero => rfl
    | succ n =>
      unfold symIdLens
      rw [if_neg (by omega)]
      rfl
  | literal hv hm hmore ih =>
    intro hw hall
    have hle := State.idLensAt.le hmore
    refine turn hm hw (Nat.le_refl _) hle.1 (List.cons_ne_nil _ _) (by rw [← hall]; exact hle.2) ?_
      (ih (hw.right hm.lt.le) hall)
    unfold runLens
    rw [if_pos hv]
    rfl
  | again hm hlast hmore ih =>
    intro hw hall
    have hle := State.idLensAt.le hmore
    have hlt := hm.lt
    refine turn (v := 32) hm hw (Nat.le_add_right _ 2) hle.1 (by simp) (by rw [← hall]; exact hle.2) ?_
      (ih (hw.right (by omega)) hall)
    unfold runLens
    rw [if_neg (by decide), if_pos rfl, hlast]
    exact (Dec.bind_of_ok (readBits_stream ((hw.right (by omega)).left hle.1) u)).trans rfl
  | zeros hm hmore ih =>
    intro hw hall
    have hle := State.idLensAt.le hmore
    have hlt := hm.lt
    refine turn (v := 33) hm hw (Nat.le_add_right _ 3) hle.1 (by simp) (by rw [← hall]; exact hle.2) ?_
      (ih (hw.right (by omega)) hall)
    unfold runLens
    rw [if_neg (by decide), if_neg (by decide), if_pos rfl]
    exact (Dec.bind_of_ok (readBits_stream ((hw.right (by omega)).left hle.1) u)).trans rfl
  | manyZeros hm hmore ih =>
    intro hw hall
    have hle := State.idLensAt.le hmore
    have hlt := hm.lt
    refine turn (v := 34) hm hw (Nat.le_add_right _ 7) hle.1 (by simp) (by rw [← hall]; exact hle.2) ?_
      (ih (hw.right (by omega)) hall)
    unfold runLens
    rw [if_neg (by decide), if_neg (by decide), if_neg (by decide)]
    exact (Dec.bind_of_ok (readBits_stream ((hw.right (by omega)).left hle.1) u)).trans rfl

/-- What a Huffman-coded text region without refinement decodes with. -/
structure TextParams.Huffman (P : TextParams) (TFS TDS TDT SC : Table) : Prop where
  huff : P.huff = true
  refine : P.refine = false
  fs : P.tables.fs = .given TFS
  ds : P.tables.ds = .given TDS
  dt : P.tables.dt = .given TDT
  idCode : P.idCode = .coded SC
  fsFree : Table.PrefixFree TFS
  dsFree : Table.PrefixFree TDS
  dtFree : Table.PrefixFree TDT
  idFree : Table.PrefixFree SC

/-- Two sets of parameters that draw instances alike. -/
def TextParams.DrawsAs (P tp : TextParams) : Prop :=
  P.syms = tp.syms ∧ P.logStrips = tp.logStrips ∧ P.refCorner = tp.refCorner ∧ P.transposed = tp.transposed ∧
    P.combOp = tp.combOp ∧ P.dsOffset = tp.dsOffset

variable {Q tp : TextParams} {TFS TDS TDT SC : Table}

theorem textDec_given (hH : Q.huff = true) {t : Table} (ht : Table.PrefixFree t) (arr : Arr) (u : Work)
    (h : s.codedAt t p v q) (hw : s.inWindow p q) :
    textDec s.segmentEnv Q (.given t) arr { u with sp := p } = .ok v { u with sp := q } := by
  unfold textDec
  rw [hH, if_pos rfl]
  exact (Dec.bind_of_ok (Dec.run_pure _ _)).trans (h.read ht hw u)

theorem State.instanceAt.le {st st' : TextState} (h : s.instanceAt tp SC st p st' q) : p ≤ q ∧ st'.n = st.n + 1 := by
  obtain ⟨id, ib, hid, -, rfl⟩ := h
  have := hid.lt
  exact ⟨by omega, rfl⟩

/-- One instance (`48_text_region.md` R376, R377). -/
theorem State.instanceAt.read (hQ : Q.Huffman TFS TDS TDT SC) (hD : Q.DrawsAs tp) (u : Work) {st st' : TextState}
    (h : s.instanceAt tp SC st p st' q) (hw : s.inWindow p q) :
    textInstance s.segmentEnv Q st { u with sp := p } = .ok st' { u with sp := q } := by
  obtain ⟨id, ib, hid, hsym, rfl⟩ := h
  obtain ⟨h1, h2, h3, h4, h5, h6⟩ := hD
  have hlt := hid.lt
  have hcurt : decodeCurT s.segmentEnv Q { u with sp := p } =
      .ok (s.streamNum p tp.logStrips : Int) { u with sp := p + tp.logStrips } := by
    unfold decodeCurT
    rw [h2, hQ.huff]
    split
    · rename_i h0
      rw [h0]
      rfl
    · exact (Dec.bind_of_ok (readBits_stream (hw.left (by omega)) u)).trans rfl
  have hdid : decodeId s.segmentEnv Q { u with sp := p + tp.logStrips } = .ok id { u with sp := q } := by
    unfold decodeId
    rw [hQ.huff, hQ.idCode]
    exact (Dec.bind_of_ok (hid.read hQ.idFree (hw.right (Nat.le_add_right _ _)) u)).trans
      ((Dec.bind_of_ok (needValue_some _ _)).trans rfl)
  unfold textInstance
  refine (Dec.bind_of_ok hcurt).trans ((Dec.bind_of_ok hdid).trans ?_)
  rw [h1, hsym]
  have hbm : ∀ w, instanceBitmap s.segmentEnv Q ib w = .ok ib w := by
    intro w
    unfold instanceBitmap decodeRi
    rw [hQ.refine]
    rfl
  refine (Dec.bind_of_ok (hbm _)).trans ?_
  unfold place
  rw [h3, h4, h5]
  rfl

theorem State.instancesAt.le :
    ∀ {k : Nat} {st st' : TextState} {p q : Nat}, s.instancesAt tp TDS SC k st p st' q → p ≤ q ∧ st'.n = st.n + k
  | 0, _, _, _, _, ⟨h, he⟩ => ⟨h.lt.le, he ▸ rfl⟩
  | k + 1, _, _, _, _, ⟨_, _, _, _, hids, hinst, hmore⟩ => by
    have h1 := hids.lt
    have h2 := hinst.le
    have h3 := State.instancesAt.le hmore
    have h4 := h2.2
    dsimp only at h4
    exact ⟨by omega, by omega⟩

/-- The rest of a strip (`48_text_region.md` R376). -/
theorem State.instancesAt.read (hQ : Q.Huffman TFS TDS TDT SC) (hD : Q.DrawsAs tp) (u : Work) :
    ∀ {k room : Nat} {st st' : TextState} {p q : Nat}, s.instancesAt tp TDS SC k st p st' q → s.inWindow p q → k ≤ room →
      stripRest s.segmentEnv Q room st { u with sp := p } = .ok st' { u with sp := q }
  | 0, room, st, st', p, q, ⟨h, he⟩, hw, _ => by
    have hd := textDec_given hQ.huff hQ.dsFree .iads u h hw
    rw [← hQ.ds] at hd
    subst he
    cases room <;> (unfold stripRest; exact (Dec.bind_of_ok hd).trans rfl)
  | k + 1, room, st, st', p, q, ⟨ids, m, v, r, hids, hinst, hmore⟩, hw, hroom => by
    obtain ⟨room, rfl⟩ : ∃ r, room = r + 1 := ⟨room - 1, by omega⟩
    have h1 := hids.lt
    have h2 := hinst.le
    have h3 := hmore.le
    have hd := textDec_given hQ.huff hQ.dsFree .iads u hids (hw.left (by omega))
    rw [← hQ.ds] at hd
    unfold stripRest
    refine (Dec.bind_of_ok hd).trans ?_
    rw [show Q.dsOffset = tp.dsOffset from hD.2.2.2.2.2]
    exact (Dec.bind_of_ok (hinst.read hQ hD u ((hw.right (by omega)).left (by omega)))).trans
      (State.instancesAt.read hQ hD u hmore (hw.right (by omega)) (by omega))

theorem State.stripsAt.le :
    ∀ {counts : List Nat} {st st' : TextState} {p q : Nat}, s.stripsAt tp TFS TDS TDT SC counts st p st' q →
      p ≤ q ∧ st'.n = st.n + (counts.map (· + 1)).sum ∧ counts.length ≤ (counts.map (· + 1)).sum
  | [], _, _, _, _, ⟨he, hq⟩ => ⟨hq.ge, he ▸ rfl, Nat.le_refl _⟩
  | k :: counts, _, _, _, _, ⟨_, _, _, _, _, _, _, _, hdt, hfs, hinst, hrest, hmore⟩ => by
    have h1 := hdt.lt
    have h2 := hfs.lt
    have h3 := hinst.le
    have h4 := hrest.le
    have h5 := State.stripsAt.le hmore
    have h6 := h3.2
    dsimp only at h6
    rw [List.map_cons, List.sum_cons, List.length_cons]
    exact ⟨by omega, by omega, by omega⟩

/-- Strips one after the other (`48_text_region.md` R376). -/
theorem State.stripsAt.read (hQ : Q.Huffman TFS TDS TDT SC) (hD : Q.DrawsAs tp) (u : Work) :
    ∀ {counts : List Nat} {turns : Nat} {st st' : TextState} {p q : Nat},
      s.stripsAt tp TFS TDS TDT SC counts st p st' q → s.inWindow p q →
      st.n + (counts.map (· + 1)).sum = Q.numInstances → counts.length ≤ turns →
      textStrips s.segmentEnv Q turns st { u with sp := p } = .ok st' { u with sp := q }
  | [], turns, st, st', p, q, ⟨he, hq⟩, _, hn, _ => by
    subst he hq
    rw [List.map_nil, List.sum_nil, Nat.add_zero] at hn
    cases turns with
    | zero => rfl
    | succ n =>
      unfold textStrips
      rw [if_neg (by omega)]
      rfl
  | k :: counts, turns, st, st', p, q, ⟨dt, m, dfs, n, a, r, b, i, hdt, hfs, hinst, hrest, hmore⟩, hw, hn, ht => by
    rw [List.length_cons] at ht
    rw [List.map_cons, List.sum_cons] at hn
    obtain ⟨turns, rfl⟩ : ∃ r, turns = r + 1 := ⟨turns - 1, by omega⟩
    have h1 := hdt.lt
    have h2 := hfs.lt
    have h3 := hinst.le
    have h4 := hrest.le
    have h5 := hmore.le
    have h6 := h3.2
    dsimp only at h6
    have hd := textDec_given hQ.huff hQ.dtFree .iadt u hdt (hw.left (by omega))
    have hf := textDec_given hQ.huff hQ.fsFree .iafs u hfs ((hw.right (by omega)).left (by omega))
    rw [← hQ.dt] at hd
    rw [← hQ.fs] at hf
    have hstrips : ((Q.strips : Nat) : Int) = 2 ^ tp.logStrips := by
      unfold TextParams.strips
      rw [hD.2.1]
      push_cast
      rfl
    have hstrip : textStrip s.segmentEnv Q st { u with sp := p } = .ok b { u with sp := i } := by
      unfold textStrip textVal
      refine (Dec.bind_of_ok ((Dec.bind_of_ok hd).trans (needValue_some _ _))).trans
        ((Dec.bind_of_ok ((Dec.bind_of_ok hf).trans (needValue_some _ _))).trans ?_)
      rw [hstrips]
      exact (Dec.bind_of_ok (hinst.read hQ hD u ((hw.right (by omega)).left (by omega)))).trans
        (hrest.read hQ hD u ((hw.right (by omega)).left (by omega)) (by omega))
    unfold textStrips
    rw [if_pos (by omega)]
    exact (Dec.bind_of_ok hstrip).trans
      (State.stripsAt.read hQ hD u hmore (hw.right (by omega)) (by omega) (by omega))

/-- A legal region segment information field (`30_encoding.md` R97). -/
theorem parseRegionInfo_ok {p : Nat} {op : CombOp} (u : Work) (hw : s.inWindow p (p + 136))
    (hg : bitField (s.streamNum (p + 128) 8) 7 3 = 0)
    (hop : combOpOfCode (bitField (s.streamNum (p + 128) 8) 2 0) = some op)
    (hpix : s.streamNum p 32 * s.streamNum (p + 32) 32 ≤ s.cfg.maxpix) :
    parseRegionInfo s.segmentEnv { u with sp := p } =
      .ok
        { w := s.streamNum p 32, h := s.streamNum (p + 32) 32, x := s.streamNum (p + 64) 32
          y := s.streamNum (p + 96) 32, op := op }
        { u with sp := p + 136 } := by
  have field : ∀ d, d + 32 ≤ 136 → readU32 s.segmentEnv { u with sp := p + d } =
      .ok (s.streamNum (p + d) 32) { u with sp := p + d + 32 } := fun d hd =>
    readBits_stream ((hw.right (Nat.le_add_right _ _)).left (by omega)) u
  have flags : readU8 s.segmentEnv { u with sp := p + 128 } = .ok (s.streamNum (p + 128) 8) { u with sp := p + 128 + 8 } :=
    readBits_stream (p := p + 128) (n := 8) (hw.right (Nat.le_add_right _ _)) u
  unfold parseRegionInfo
  refine (Dec.bind_of_ok (field 0 (by omega))).trans ((Dec.bind_of_ok (field 32 (by omega))).trans
    ((Dec.bind_of_ok (field 64 (by omega))).trans ((Dec.bind_of_ok (field 96 (by omega))).trans
      ((Dec.bind_of_ok flags).trans ?_))))
  rw [hg, hop]
  refine (Dec.bind_of_ok (Dec.run_require_true _ _)).trans ?_
  have hc : decide (s.streamNum (p + 0) 32 * s.streamNum (p + 32) 32 ≤ s.segmentEnv.cfg.maxpix) = true :=
    decide_eq_true hpix
  dsimp only
  rw [hc]
  exact (Dec.bind_of_ok (Dec.run_require_true _ _)).trans rfl

/-- The standard tables a text region without refinement selects (`48_text_region.md` R372). -/
theorem parseTextTables_std (hs : s.Canonical) {fs ds dt : Nat} (hfs : fs ≤ 1) (hds : ds ≤ 2) (hdt : dt ≤ 2)
    (tabs : List Table) (u : Work) (hw : s.inWindow p (p + 16)) (hh : s.streamNum p 16 = fs + 4 * ds + 16 * dt) :
    parseTextTables s.segmentEnv false tabs { u with sp := p } =
      .ok
        { fs := .given (stdTable (6 + fs)), ds := .given (stdTable (8 + ds)), dt := .given (stdTable (11 + dt))
          rdw := .given (stdTable 14), rdh := .given (stdTable 14), rdx := .given (stdTable 14)
          rdy := .given (stdTable 14), rsize := .given (stdTable 1) }
        { u with
          sp := p + 16
          built :=
            u.built ||| BitVec.twoPow 16 (6 + fs) ||| BitVec.twoPow 16 (8 + ds) ||| BitVec.twoPow 16 (11 + dt) |||
              BitVec.twoPow 16 14 ||| BitVec.twoPow 16 14 ||| BitVec.twoPow 16 14 ||| BitVec.twoPow 16 14 |||
              BitVec.twoPow 16 1 } := by
  have hstd := hs.std
  obtain ⟨h15, hres, h1, h2, h3, h4, h5, h6, h7, h8⟩ :
      (fs + 4 * ds + 16 * dt).testBit 15 = false ∧ bitField (fs + 4 * ds + 16 * dt) 14 6 = 0 ∧
        choiceOf4 (bitField (fs + 4 * ds + 16 * dt) 1 0) 6 7 = .std (6 + fs) ∧
        choiceOf4Full (bitField (fs + 4 * ds + 16 * dt) 3 2) 8 9 10 = .std (8 + ds) ∧
        choiceOf4Full (bitField (fs + 4 * ds + 16 * dt) 5 4) 11 12 13 = .std (11 + dt) ∧
        choiceOf4 (bitField (fs + 4 * ds + 16 * dt) 7 6) 14 15 = .std 14 ∧
        choiceOf4 (bitField (fs + 4 * ds + 16 * dt) 9 8) 14 15 = .std 14 ∧
        choiceOf4 (bitField (fs + 4 * ds + 16 * dt) 11 10) 14 15 = .std 14 ∧
        choiceOf4 (bitField (fs + 4 * ds + 16 * dt) 13 12) 14 15 = .std 14 ∧
        choiceOf2 ((fs + 4 * ds + 16 * dt).testBit 14) 1 = .std 1 := by
    interval_cases fs <;> interval_cases ds <;> interval_cases dt <;> decide
  have hread : readU16 s.segmentEnv { u with sp := p } = .ok (fs + 4 * ds + 16 * dt) { u with sp := p + 16 } := by
    rw [← hh]
    exact readBits_stream hw u
  unfold parseTextTables
  refine (Dec.bind_of_ok hread).trans ?_
  rw [h15, hres, h1, h2, h3, h4, h5, h6, h7, h8]
  refine (Dec.bind_of_ok (Dec.run_require_true _ _)).trans ((Dec.bind_of_ok (Dec.run_require_true _ _)).trans ?_)
  refine (Dec.bind_of_ok (chooseTable_std (hstd _) _ _)).trans ?_
  refine (Dec.bind_of_ok (chooseTable_std (hstd _) _ _)).trans ?_
  refine (Dec.bind_of_ok (chooseTable_std (hstd _) _ _)).trans ?_
  refine (Dec.bind_of_ok (chooseTable_std (hstd _) _ _)).trans ?_
  refine (Dec.bind_of_ok (chooseTable_std (hstd _) _ _)).trans ?_
  refine (Dec.bind_of_ok (chooseTable_std (hstd _) _ _)).trans ?_
  refine (Dec.bind_of_ok (chooseTable_std (hstd _) _ _)).trans ?_
  exact (Dec.bind_of_ok (chooseTable_std (hstd _) _ _)).trans rfl

theorem assignCodes_ok {t : Table} (h : oversubscribed t = false) (u : Work) : assignCodes t u = .ok (codesOf t) u := by
  unfold assignCodes
  rw [h]
  rfl

/-- A Huffman-coded text region without refinement and with standard tables, read whole (`48_text_region.md` R375). -/
theorem segTr_read {op : CombOp} {fs ds dt q q1 q2 : Nat} {lens counts : List Nat} {dt0 : Int} {st : TextState}
    {f : Nat} {lines : Table} (hs : s.Canonical) (hrefs : s.refsUsable) (hcap : s.refSymbols.length ≤ s.cfg.maxsyms)
    (hal : s.sp.toNat % 8 = 0) (hfd : s.streamNum (s.sp.toNat + 136) 16 = f)
    (hg : bitField (s.streamNum (s.sp.toNat + 128) 8) 7 3 = 0)
    (hop : combOpOfCode (bitField (s.streamNum (s.sp.toNat + 128) 8) 2 0) = some op)
    (hpix : s.streamNum s.sp.toNat 32 * s.streamNum (s.sp.toNat + 32) 32 ≤ s.cfg.maxpix)
    (hf0 : f.testBit 0 = true) (hf1 : f.testBit 1 = false) (hf15 : f.testBit 15 = false) (hfs : fs ≤ 1) (hds : ds ≤ 2)
    (hdt : dt ≤ 2) (hh : s.streamNum (s.sp.toNat + 152) 16 = fs + 4 * ds + 16 * dt)
    (hn : s.streamNum (s.sp.toNat + 168) 32 = (counts.map (· + 1)).sum)
    (hlines : lines = linesOfLens ((List.range 35).map fun j => s.streamNum (s.sp.toNat + 200 + 4 * j) 4))
    (hrl : oversubscribed lines = false) (hlens : s.idLensAt (codesOf lines) [] (s.sp.toNat + 340) lens q)
    (hnum : lens.length = s.refSymbols.length) (hsc : oversubscribed (linesOfLens lens) = false)
    (hdt0 : s.codedAt (stdTable (11 + dt)) (8 * ((q + 7) / 8)) (some dt0) q1) (hsyms : tp.syms = s.refSymbols)
    (hlog : tp.logStrips = bitField f 3 2) (hcor : tp.refCorner = refCornerOfCode (bitField f 5 4))
    (htr : tp.transposed = f.testBit 6) (hcop : combOpOfCode (bitField f 8 7) = some tp.combOp)
    (hdso : tp.dsOffset = sext 5 (bitField f 14 10))
    (hstrips : s.stripsAt tp (stdTable (6 + fs)) (stdTable (8 + ds)) (stdTable (11 + dt)) (codesOf (linesOfLens lens))
      counts
      { reg := Bitmap.filled (s.streamNum s.sp.toNat 32) (s.streamNum (s.sp.toNat + 32) 32) (f.testBit 9)
        stript := -(dt0 * 2 ^ tp.logStrips), firsts := 0, curs := 0, n := 0 } q1 st q2)
    (hend : q2 ≤ 8 * s.windowEnd) (hTF : Table.PrefixFree (stdTable (6 + fs)))
    (hTS : Table.PrefixFree (stdTable (8 + ds))) (hTT : Table.PrefixFree (stdTable (11 + dt)))
    (hRL : Table.PrefixFree (codesOf lines)) (hSC : Table.PrefixFree (codesOf (linesOfLens lens))) :
    segTr s.segmentEnv s.refSlots s.work =
      .ok
        { slot :=
            .region st.reg (BitVec.ofNat 32 (s.streamNum (s.sp.toNat + 64) 32))
              (BitVec.ofNat 32 (s.streamNum (s.sp.toNat + 96) 32)) op
          idlen := some (ceilLog2 s.refSymbols.length) }
        { sp := q2, ad := s.ad, cx := s.cx.mapArr fun _ _ => .cleared
          built :=
            0 ||| BitVec.twoPow 16 (6 + fs) ||| BitVec.twoPow 16 (8 + ds) ||| BitVec.twoPow 16 (11 + dt) |||
              BitVec.twoPow 16 14 ||| BitVec.twoPow 16 14 ||| BitVec.twoPow 16 14 ||| BitVec.twoPow 16 14 |||
              BitVec.twoPow 16 1 } := by
  obtain ⟨refs, hr, hrs⟩ := collectRefs_ok s.work hrefs
  have hrs : refs.syms = s.refSymbols := hrs
  have hl1 := hlens.le.1
  have hl2 := hdt0.lt
  have hl3 := hstrips.le
  have hin : s.inWindow s.sp.toNat q2 := ⟨by omega, hend⟩
  -- the header
  generalize hu : ({ sp := 0, ad := s.ad, cx := s.cx.mapArr fun _ _ => .cleared, built := 0 } : Work) = u
  have hclear : clearArrays allArrays s.work = .ok () { u with sp := s.sp.toNat } := by
    rw [← hu]
    rfl
  have hinfo := parseRegionInfo_ok u (hin.left (by omega)) hg hop hpix
  have hflags : readU16 s.segmentEnv { u with sp := s.sp.toNat + 136 } = .ok f { u with sp := s.sp.toNat + 152 } := by
    rw [← hfd]
    exact readBits_stream ((hin.right (by omega)).left (by omega)) u
  have htab := parseTextTables_std hs hfs hds hdt refs.tabs u ((hin.right (by omega)).left (by omega)) hh
  generalize hbuilt : (u.built ||| BitVec.twoPow 16 (6 + fs) ||| BitVec.twoPow 16 (8 + ds) ||| BitVec.twoPow 16 (11 + dt) |||
    BitVec.twoPow 16 14 ||| BitVec.twoPow 16 14 ||| BitVec.twoPow 16 14 ||| BitVec.twoPow 16 14 |||
      BitVec.twoPow 16 1 : BitVec 16) = built at htab
  generalize ht : (⟨.given (stdTable (6 + fs)), .given (stdTable (8 + ds)), .given (stdTable (11 + dt)),
    .given (stdTable 14), .given (stdTable 14), .given (stdTable 14), .given (stdTable 14), .given (stdTable 1)⟩ :
    TextTables) = tables at htab
  generalize hi : (⟨s.streamNum s.sp.toNat 32, s.streamNum (s.sp.toNat + 32) 32, s.streamNum (s.sp.toNat + 64) 32,
    s.streamNum (s.sp.toNat + 96) 32, op⟩ : RegionInfo) = info at hinfo
  generalize hu' : ({ u with sp := 0, built := built } : Work) = u'
  have hu1 : ∀ k, ({ u with sp := k, built := built } : Work) = { u' with sp := k } := fun k => by rw [← hu']
  rw [hu1] at htab
  have hcount : readU32 s.segmentEnv { u' with sp := s.sp.toNat + 168 } =
      .ok (counts.map (· + 1)).sum { u' with sp := s.sp.toNat + 200 } := by
    rw [← hn]
    exact readBits_stream ((hin.right (by omega)).left (by omega)) u'
  have hhead : parseTextHeader s.segmentEnv refs.tabs { u with sp := s.sp.toNat } =
      .ok { info := info, flags := f, tables := tables, rat := [], numInstances := (counts.map (· + 1)).sum }
        { u' with sp := s.sp.toNat + 200 } := by
    unfold parseTextHeader
    refine (Dec.bind_of_ok hinfo).trans ((Dec.bind_of_ok hflags).trans ?_)
    rw [hf0, hf1, hf15]
    refine (Dec.bind_of_ok (Dec.run_require_true _ _)).trans ((Dec.bind_of_ok htab).trans ?_)
    exact (Dec.bind_of_ok hcount).trans rfl
  -- the symbol-ID code
  have hopen : openTextData s.segmentEnv true refs.syms.length { u' with sp := s.sp.toNat + 200 } =
      .ok (.coded (codesOf (linesOfLens lens))) { u' with sp := 8 * ((q + 7) / 8) } := by
    have hfields := readFields_stream (s := s) (len := 4) u' (n := 35) (p := s.sp.toNat + 200)
      ((hin.right (by omega)).left (by omega))
    have hids := hlens.read (num := refs.syms.length) hRL u' ((hin.right (by omega)).left (by omega)) (by rw [hnum, hrs]) refs.syms.length
      (by rw [List.length_nil, Nat.zero_add])
    unfold openTextData parseSymIdTable
    rw [if_pos rfl]
    refine (Dec.bind_of_ok ((Dec.bind_of_ok hfields).trans ?_)).trans rfl
    rw [← hlines]
    exact (Dec.bind_of_ok (assignCodes_ok hrl _)).trans ((Dec.bind_of_ok hids).trans
      ((Dec.bind_of_ok (alignByte_ok _ _)).trans (assignCodes_ok hsc _)))
  -- the instances
  generalize hQ : TextHeader.params
    { info := info, flags := f, tables := tables, rat := [], numInstances := (counts.map (· + 1)).sum } refs.syms
    (.coded (codesOf (linesOfLens lens))) = Q
  have hQH : Q.Huffman (stdTable (6 + fs)) (stdTable (8 + ds)) (stdTable (11 + dt)) (codesOf (linesOfLens lens)) :=
    ⟨by rw [← hQ]; exact hf0, by rw [← hQ]; exact hf1, by rw [← hQ, ← ht]; rfl, by rw [← hQ, ← ht]; rfl,
      by rw [← hQ, ← ht]; rfl, by rw [← hQ]; rfl, hTF, hTS, hTT, hSC⟩
  have hD : Q.DrawsAs tp := by
    refine ⟨by rw [← hQ, hsyms, ← hrs]; rfl, by rw [← hQ, hlog]; rfl, by rw [← hQ, hcor]; rfl, by rw [← hQ, htr]; rfl,
      ?_, ?_⟩
    · rw [← hQ]
      show (combOpOfCode (bitField f 8 7)).getD .or = _
      rw [hcop]
      rfl
    · rw [← hQ, hdso]
      show (if 15 < bitField f 14 10 then (bitField f 14 10 : Int) - 32 else (bitField f 14 10 : Int)) = _
      have hlt : bitField f 14 10 < 32 := Nat.mod_lt _ (by decide)
      generalize bitField f 14 10 = k at hlt
      interval_cases k <;> rfl
  have hnew : newBitmap s.segmentEnv.cfg Q.w Q.h Q.defPixel { u' with sp := 8 * ((q + 7) / 8) } =
      .ok (Bitmap.filled (s.streamNum s.sp.toNat 32) (s.streamNum (s.sp.toNat + 32) 32) (f.testBit 9))
        { u' with sp := 8 * ((q + 7) / 8) } := by
    have hw : Q.w = s.streamNum s.sp.toNat 32 := by rw [← hQ, ← hi]; rfl
    have hh : Q.h = s.streamNum (s.sp.toNat + 32) 32 := by rw [← hQ, ← hi]; rfl
    have hd : Q.defPixel = f.testBit 9 := by rw [← hQ]; rfl
    rw [hw, hh, hd]
    exact newBitmap_of_le hpix _ _
  have hdec : textDecode s.segmentEnv Q { u' with sp := 8 * ((q + 7) / 8) } = .ok st.reg { u' with sp := q2 } := by
    have hdtv := textDec_given hQH.huff hTT .iadt u' hdt0 ((hin.right (by omega)).left (by omega))
    rw [← hQH.dt] at hdtv
    have hni : Q.numInstances = (counts.map (· + 1)).sum := by rw [← hQ]; rfl
    have hst : ((Q.strips : Nat) : Int) = 2 ^ tp.logStrips := by
      unfold TextParams.strips
      rw [hD.2.1]
      push_cast
      rfl
    have hall := hstrips.read hQH hD u' (turns := Q.numInstances) (hin.right (by omega)) (by rw [hni, Nat.zero_add])
      (by rw [hni]; exact hl3.2.2)
    unfold textDecode textVal
    refine (Dec.bind_of_ok hnew).trans ((Dec.bind_of_ok ((Dec.bind_of_ok hdtv).trans (needValue_some _ _))).trans ?_)
    rw [hst]
    exact (Dec.bind_of_ok hall).trans rfl
  unfold segTr
  refine (Dec.bind_of_ok hr).trans ?_
  rw [show decide (refs.syms.length ≤ s.segmentEnv.cfg.maxsyms) = true from decide_eq_true (by rw [hrs]; exact hcap)]
  refine (Dec.bind_of_ok (Dec.run_require_true _ _)).trans ((Dec.bind_of_ok hclear).trans
    ((Dec.bind_of_ok hhead).trans ?_))
  dsimp only
  rw [hf0]
  refine (Dec.bind_of_ok hopen).trans ?_
  rw [hQ]
  refine (Dec.bind_of_ok hdec).trans ?_
  rw [← hu', ← hbuilt, ← hu, hrs, ← hi]
  rfl

/-! ## Generic and refinement regions -/

theorem readS8_stream {p : Nat} (hw : s.inWindow p (p + 8)) (u : Work) :
    readS8 s.segmentEnv { u with sp := p } = .ok (sext 8 (s.streamNum p 8)) { u with sp := p + 8 } :=
  (Dec.bind_of_ok (readBits_stream hw u)).trans rfl

/-- Adaptive pixels as they stand in the header (`45_generic.md` R266). -/
theorem readAtPixels_stream (u : Work) :
    ∀ {n p : Nat}, s.inWindow p (p + 16 * n) →
      readAtPixels s.segmentEnv n { u with sp := p } =
        .ok ((List.range n).map fun j => (sext 8 (s.streamNum (p + 16 * j) 8), sext 8 (s.streamNum (p + 8 + 16 * j) 8)))
          { u with sp := p + 16 * n }
  | 0, _, _ => rfl
  | n + 1, p, hw => by
    have hp : p + 16 * (n + 1) = p + 16 + 16 * n := by ring
    rw [hp] at hw ⊢
    unfold readAtPixels
    refine (Dec.bind_of_ok (readS8_stream (hw.left (by omega)) u)).trans
      ((Dec.bind_of_ok (readS8_stream ((hw.right (Nat.le_add_right p 8)).left (by omega)) u)).trans
        ((Dec.bind_of_ok (readAtPixels_stream u (hw.right (Nat.le_add_right p 16)))).trans ?_))
    rw [Dec.run_pure, List.range_succ_eq_map, List.map_cons, List.map_map]
    congr 2
    refine List.map_congr_left fun j _ => ?_
    show (sext 8 (s.streamNum (p + 16 + 16 * j) 8), sext 8 (s.streamNum (p + 16 + 8 + 16 * j) 8)) =
      (sext 8 (s.streamNum (p + 16 * (j + 1)) 8), sext 8 (s.streamNum (p + 8 + 16 * (j + 1)) 8))
    rw [show p + 16 + 16 * j = p + 16 * (j + 1) by ring, show p + 16 + 8 + 16 * j = p + 8 + 16 * (j + 1) by ring]

theorem cursorByte_ok (i : Nat) (u : Work) : cursorByte { u with sp := 8 * i } = .ok i { u with sp := 8 * i } := by
  show EStateM.Result.ok (8 * i / 8) _ = _
  rw [Nat.mul_div_cancel_left _ (by decide)]

theorem Contexts.mapArr_one (c : Contexts) (n : Arr) :
    c.mapArr (fun m x => if m ∈ [n] then CxArray.cleared else x) = c.setArr n .cleared := by
  cases n <;> rfl

/-- A marker ahead in the window of a segment command. -/
theorem markerAt_of {i : Nat} (hok : s.windowOk = true) (hlow : s.sp.toNat / 8 ≤ i) (hm : s.markerFrom i s.windowEnd) :
    ∃ j, i ≤ j ∧ MarkerAt s.segmentEnv j := by
  obtain ⟨j, h1, h2, h3, h4⟩ := hm
  unfold State.windowOk at hok
  simp only [Bool.and_eq_true, decide_eq_true_eq] at hok
  have hslen := s.slen.isLt
  exact ⟨j, h1, hlow.trans h1, h2, by show s.sp.toNat / 8 + s.datalen ≤ 2 ^ 32; omega, h3, h4⟩

/-- A bit decode before a marker completes and uses no table. -/
theorem adDecode_fed_plain {j : Nat} (hm : MarkerAt s.segmentEnv j) (arr : Arr) (i : Nat) :
    Keeps (fun w => Fed s.segmentEnv j w ∧ w.built = 0) (fun _ => False) (fun _ => True)
      (adDecode s.segmentEnv arr i) :=
  ((adDecode_fed hm arr i).and (adDecode_stable (X := fun _ => True) .noTables trivial arr i)).mono
    (fun _ _ => trivial) fun _ h => h.1

/-- A generic region segment with a legal header and a marker in its data, read whole (`45_generic.md` R266). -/
theorem segGr_read {op : CombOp} {n start f : Nat} {at_ : AtPixels} (hok : s.windowOk = true)
    (hg : bitField (s.streamNum (s.sp.toNat + 128) 8) 7 3 = 0)
    (hop : combOpOfCode (bitField (s.streamNum (s.sp.toNat + 128) 8) 2 0) = some op)
    (hpix : s.streamNum s.sp.toNat 32 * s.streamNum (s.sp.toNat + 32) 32 ≤ s.cfg.maxpix)
    (hfd : s.streamNum (s.sp.toNat + 136) 8 = f) (hf7 : bitField f 7 4 = 0) (hf0 : f.testBit 0 = false)
    (hn : n = if bitField f 2 1 = 0 then 4 else 1)
    (hat : at_ = (List.range n).map fun j =>
      (sext 8 (s.streamNum (s.sp.toNat + 144 + 16 * j) 8), sext 8 (s.streamNum (s.sp.toNat + 152 + 16 * j) 8)))
    (hlegal : ∀ a ∈ at_, atLegal a = true) (hstart : start = s.sp.toNat / 8 + 18 + 2 * n)
    (hm : s.markerFrom start s.windowEnd) :
    ∃ B u v,
      segGr s.segmentEnv s.work =
        .ok
          { slot :=
              .region B (BitVec.ofNat 32 (s.streamNum (s.sp.toNat + 64) 32))
                (BitVec.ofNat 32 (s.streamNum (s.sp.toNat + 96) 32)) op
            idlen := none } v ∧
        B.w = s.streamNum s.sp.toNat 32 ∧ B.h = s.streamNum (s.sp.toNat + 32) 32 ∧
        adInitAt s.segmentEnv start { s.work with sp := 8 * start, cx := s.cx.setArr .gb .cleared } = .ok () u ∧
        genericRun s.segmentEnv (template4 (bitField f 2 1)) (f.testBit 3) at_ B u v ∧ v.built = 0 := by
  have hal : s.sp.toNat % 8 = 0 := by
    unfold State.windowOk at hok
    simp only [Bool.and_eq_true, decide_eq_true_eq] at hok
    exact hok.1.2
  obtain ⟨j, hj, hma⟩ := markerAt_of hok (by omega) hm
  have hjw : j + 1 < s.windowEnd := hma.high
  have hin : s.inWindow s.sp.toNat (8 * start) := ⟨by omega, by omega⟩
  have hcount : atCount (template4 (bitField f 2 1)) = n := by
    have hlt : bitField f 2 1 < 4 := Nat.mod_lt _ (by decide)
    rw [hn]
    generalize bitField f 2 1 = k at hlt
    interval_cases k <;> decide
  have hlen : at_.length = n := by rw [hat, List.length_map, List.length_range]
  have hAtOk : AtOk (template4 (bitField f 2 1)) at_ := by
    intro k hk
    rw [List.getD_eq_getElem _ _ (by omega)]
    exact hlegal _ (List.getElem_mem _)
  have hflags : readU8 s.segmentEnv { s.work with sp := s.sp.toNat + 136 } =
      .ok f { s.work with sp := s.sp.toNat + 144 } := by
    rw [← hfd]
    exact readBits_stream ((hin.right (by omega)).left (by omega)) s.work
  have hread : readGenericAt s.segmentEnv (template4 (bitField f 2 1)) { s.work with sp := s.sp.toNat + 144 } =
      .ok at_ { s.work with sp := 8 * start } := by
    have := readAtPixels_stream (s := s) s.work (n := n) (p := s.sp.toNat + 144) ((hin.right (by omega)).left (by omega))
    rw [← hat, show s.sp.toNat + 144 + 16 * n = 8 * start by omega] at this
    unfold readGenericAt
    rw [hcount]
    refine (Dec.bind_of_ok this).trans ?_
    rw [List.all_eq_true.mpr hlegal]
    rfl
  have hhead : parseGenericHeader s.segmentEnv s.work =
      .ok
        { info :=
            { w := s.streamNum s.sp.toNat 32, h := s.streamNum (s.sp.toNat + 32) 32
              x := s.streamNum (s.sp.toNat + 64) 32, y := s.streamNum (s.sp.toNat + 96) 32, op := op }
          template := template4 (bitField f 2 1), tpgdon := f.testBit 3, at_ := at_ }
        { s.work with sp := 8 * start } := by
    unfold parseGenericHeader
    refine (Dec.bind_of_ok (parseRegionInfo_ok s.work (hin.left (by omega)) hg hop hpix)).trans
      ((Dec.bind_of_ok hflags).trans ?_)
    rw [hf7, hf0]
    exact (Dec.bind_of_ok (Dec.run_require_true _ _)).trans ((Dec.bind_of_ok (Dec.run_require_true _ _)).trans
      ((Dec.bind_of_ok hread).trans rfl))
  generalize hu0 : ({ s.work with sp := 8 * start, cx := s.cx.setArr .gb .cleared } : Work) = u0
  have hclear : clearArrays [.gb] { s.work with sp := 8 * start } = .ok () u0 := by
    rw [← hu0, ← Contexts.mapArr_one]
    rfl
  have hcur : cursorByte u0 = .ok start u0 := by
    rw [← hu0]
    exact cursorByte_ok start { s.work with cx := s.cx.setArr .gb .cleared }
  obtain ⟨u, hu, hfed, -, -, hb, -⟩ := adInitAt_fed hma (by show s.sp.toNat / 8 ≤ start; omega) hj u0
  have hb0 : u.built = 0 := by rw [hb, ← hu0]; rfl
  obtain ⟨B, v, hB, -, hv⟩ := (genericDecode_completes (fun i => adDecode_fed_plain hma .gb i)
    (w := s.streamNum s.sp.toNat 32) (h := s.streamNum (s.sp.toNat + 32) 32) hpix (template4 (bitField f 2 1))
    (f.testBit 3) at_).completes ⟨hfed, hb0⟩
  obtain ⟨hBw, hBh, hrun⟩ := genericDecode_run hAtOk hB
  refine ⟨B, u, v, ?_, hBw, hBh, hu, hrun, hv.2⟩
  unfold segGr
  exact (Dec.bind_of_ok hhead).trans ((Dec.bind_of_ok hclear).trans ((Dec.bind_of_ok hcur).trans
    ((Dec.bind_of_ok hu).trans ((Dec.bind_of_ok hB).trans rfl))))

/-- A refinement region segment with a legal header and a marker in its data, read whole (`46_refinement.md` R296). -/
theorem segRr_read {op : CombOp} {start f : Nat} {a1 a2 : Int × Int} {R : Bitmap} {x y : Word} {o : CombOp}
    {slots : List Slot} (hok : s.windowOk = true) (hslots : slots = [.region R x y o])
    (hg : bitField (s.streamNum (s.sp.toNat + 128) 8) 7 3 = 0)
    (hop : combOpOfCode (bitField (s.streamNum (s.sp.toNat + 128) 8) 2 0) = some op)
    (hpix : s.streamNum s.sp.toNat 32 * s.streamNum (s.sp.toNat + 32) 32 ≤ s.cfg.maxpix)
    (hRw : R.w = s.streamNum s.sp.toNat 32) (hRh : R.h = s.streamNum (s.sp.toNat + 32) 32)
    (hfd : s.streamNum (s.sp.toNat + 136) 8 = f) (hf7 : bitField f 7 2 = 0)
    (ha1 : a1 = (sext 8 (s.streamNum (s.sp.toNat + 144) 8), sext 8 (s.streamNum (s.sp.toNat + 152) 8)))
    (ha2 : a2 = (sext 8 (s.streamNum (s.sp.toNat + 160) 8), sext 8 (s.streamNum (s.sp.toNat + 168) 8)))
    (hlegal : f.testBit 0 = false → atLegal a1 = true)
    (hstart : start = s.sp.toNat / 8 + if f.testBit 0 = true then 18 else 22) (hm : s.markerFrom start s.windowEnd) :
    ∃ B u v,
      segRr s.segmentEnv slots s.work =
        .ok
          { slot :=
              .region B (BitVec.ofNat 32 (s.streamNum (s.sp.toNat + 64) 32))
                (BitVec.ofNat 32 (s.streamNum (s.sp.toNat + 96) 32)) op
            idlen := none } v ∧
        B.w = s.streamNum s.sp.toNat 32 ∧ B.h = s.streamNum (s.sp.toNat + 32) 32 ∧
        adInitAt s.segmentEnv start { s.work with sp := 8 * start, cx := s.cx.setArr .gr .cleared } = .ok () u ∧
        refineRun s.segmentEnv
          { template := f.testBit 0, refb := R, dx := 0, dy := 0, tpgron := f.testBit 1
            at_ := if f.testBit 0 = true then [] else [a1, a2] } B u v ∧
        v.built = 0 := by
  have hal : s.sp.toNat % 8 = 0 := by
    unfold State.windowOk at hok
    simp only [Bool.and_eq_true, decide_eq_true_eq] at hok
    exact hok.1.2
  have hle : s.sp.toNat / 8 + 18 ≤ start := by
    rw [hstart]
    split <;> omega
  obtain ⟨j, hj, hma⟩ := markerAt_of hok (by omega) hm
  have hjw : j + 1 < s.windowEnd := hma.high
  have hin : s.inWindow s.sp.toNat (8 * start) := ⟨by omega, by omega⟩
  have hflags : readU8 s.segmentEnv { s.work with sp := s.sp.toNat + 136 } =
      .ok f { s.work with sp := s.sp.toNat + 144 } := by
    rw [← hfd]
    exact readBits_stream ((hin.right (by omega)).left (by omega)) s.work
  generalize hat : (if f.testBit 0 = true then [] else [a1, a2] : AtPixels) = at_
  have hread : (if f.testBit 0 = true then pure [] else readRefineAt s.segmentEnv : Dec AtPixels)
      { s.work with sp := s.sp.toNat + 144 } = .ok at_ { s.work with sp := 8 * start } := by
    rw [← hat]
    cases hf : f.testBit 0 with
    | true =>
      rw [hf, if_pos rfl] at hstart
      rw [if_pos rfl, if_pos rfl, show 8 * start = s.sp.toNat + 144 by omega]
      rfl
    | false =>
      rw [hf, if_neg (by decide)] at hstart
      rw [if_neg (by decide), if_neg (by decide)]
      have := readAtPixels_stream (s := s) s.work (n := 2) (p := s.sp.toNat + 144)
        ((hin.right (by omega)).left (by omega))
      rw [show s.sp.toNat + 144 + 16 * 2 = 8 * start by omega] at this
      unfold readRefineAt
      refine (Dec.bind_of_ok this).trans ?_
      have hl := hlegal hf
      rw [ha1] at hl ⊢
      rw [ha2]
      show (do
        require (([(sext 8 (s.streamNum (s.sp.toNat + 144) 8), sext 8 (s.streamNum (s.sp.toNat + 152) 8))].all atLegal)) .malformedSegment
        pure _ : Dec AtPixels) _ = _
      rw [List.all_cons, hl]
      rfl
  have hhead : parseRefineHeader s.segmentEnv s.work =
      .ok
        { info :=
            { w := s.streamNum s.sp.toNat 32, h := s.streamNum (s.sp.toNat + 32) 32
              x := s.streamNum (s.sp.toNat + 64) 32, y := s.streamNum (s.sp.toNat + 96) 32, op := op }
          template := f.testBit 0, tpgron := f.testBit 1, at_ := at_ }
        { s.work with sp := 8 * start } := by
    unfold parseRefineHeader
    refine (Dec.bind_of_ok (parseRegionInfo_ok s.work (hin.left (by omega)) hg hop hpix)).trans
      ((Dec.bind_of_ok hflags).trans ?_)
    rw [hf7]
    refine (Dec.bind_of_ok (Dec.run_require_true _ _)).trans ?_
    cases hf : f.testBit 0 <;> rw [hf] at hread <;> exact (Dec.bind_of_ok hread).trans rfl
  generalize hu0 : ({ s.work with sp := 8 * start, cx := s.cx.setArr .gr .cleared } : Work) = u0
  have hclear : clearArrays [.gr] { s.work with sp := 8 * start } = .ok () u0 := by
    rw [← hu0, ← Contexts.mapArr_one]
    rfl
  have hcur : cursorByte u0 = .ok start u0 := by
    rw [← hu0]
    exact cursorByte_ok start { s.work with cx := s.cx.setArr .gr .cleared }
  obtain ⟨u, hu, hfed, -, -, hb, -⟩ := adInitAt_fed hma (by show s.sp.toNat / 8 ≤ start; omega) hj u0
  have hb0 : u.built = 0 := by rw [hb, ← hu0]; rfl
  obtain ⟨B, v, hB, -, hv⟩ := (refineDecode_completes (fun i => adDecode_fed_plain hma .gr i)
    (w := s.streamNum s.sp.toNat 32) (h := s.streamNum (s.sp.toNat + 32) 32) hpix
    { template := f.testBit 0, refb := R, dx := 0, dy := 0, tpgron := f.testBit 1, at_ := at_ }).completes ⟨hfed, hb0⟩
  obtain ⟨hBw, hBh, hrun⟩ := refineDecode_run (fun hf => by
    rw [← hat]
    dsimp only at hf ⊢
    rw [if_neg (by rw [hf]; decide)]
    exact hlegal hf) hB
  refine ⟨B, u, v, ?_, hBw, hBh, hu, hrun, hv.2⟩
  subst hslots
  unfold segRr
  refine (Dec.bind_of_ok (Dec.run_pure R _)).trans ((Dec.bind_of_ok hhead).trans ?_)
  dsimp only
  rw [hRw, hRh, decide_eq_true rfl, decide_eq_true rfl]
  exact (Dec.bind_of_ok (Dec.run_require_true _ _)).trans ((Dec.bind_of_ok hclear).trans ((Dec.bind_of_ok hcur).trans
    ((Dec.bind_of_ok hu).trans ((Dec.bind_of_ok hB).trans rfl))))

end Sys2Proof.Machine
end

