-- ==== Sys2Proof/Tests/Slice0.lean ====
section
/-! SUPPORT. Tests and witnesses. A test's expected value comes from the spec (`95_test_vectors.md`, or the rule named), never
from the model. A witness shows one concrete state that meets all hypotheses of a statement. -/

open Sys2Proof Sys2Proof.Machine

namespace Sys2Proof.Tests

/-! The kernel evaluations below run one after the other: started together, each holds a thread while it waits. -/
set_option Elab.async false

/-! ## Small states -/

/-- INMEM[0 ..] holds the bytes. -/
def bytesAt0 (bs : List Nat) : Memory := bs.zipIdx.map fun p => (p.2, BitVec.ofNat 8 p.1)

/-- The bytes are the bound stream, P1 is their number, P0 names slot 1, SP = 0. -/
def bound (bs : List Nat) : State :=
  { State.reset with
    inmem := bytesAt0 bs, slen := BitVec.ofNat 32 bs.length, p0 := 1, p1 := BitVec.ofNat 32 bs.length }

/-- The same with slot 3 filled and referred to by REF[0]. -/
def boundRef (bs : List Nat) (v : Slot) : State :=
  { bound bs with segstore := [(3, v)], refn := 1, ref := [(0, 3)] }

/-- The state a command leaves. -/
def after (i : Instr) (s : State) : State :=
  match exec i s with
  | .next t => t
  | .fault _ => State.reset
  | .refused _ => State.reset

/-- A bitmap from its rows, the leftmost pixel the most significant of `w` bits. -/
def drawn (w : Nat) (rows : List Nat) : Bitmap :=
  rows.zipIdx.foldl (fun b r => loopPure (fun x b => b.set x r.2 (r.1.testBit (w - 1 - x))) w 0 b)
    (Bitmap.filled w rows.length false)

/-- The packed image of the Region in a slot. -/
def packed (s : State) (h : Nat) : List Byte :=
  match s.slot h with
  | .region b _ _ _ => b.image
  | .empty => []
  | .symDict _ _ => []
  | .table _ => []

/-- The symbols S0, S1, S2 of `95_test_vectors.md`. -/
def sym0 : Bitmap := drawn 3 [0b100, 0b100, 0b100, 0b111]
def sym1 : Bitmap := drawn 4 [0b1111, 0b0100, 0b0100, 0b0100]
def sym2 : Bitmap := drawn 2 [0b11, 0b11, 0b11, 0b11, 0b11, 0b11]

/-! ## Well-formedness: each check refuses an ill-formed command -/

theorem test_wf_refuses :
    (Instr.strmReadbits 33).wf = false ∧ (Instr.adDecode 16 0).wf = false ∧ (Instr.adCxreset 14 1).wf = false ∧
      (Instr.adCxreset 16 0).wf = false ∧ (Instr.adCxreset 254 0).wf = false ∧ (Instr.iaDecode 1).wf = false ∧
      (Instr.iaDecode 15).wf = false ∧ (Instr.htStd 0).wf = false ∧ (Instr.htStd 16).wf = false ∧
      (Instr.htDecode 16).wf = false ∧ (Instr.bmCombine 5).wf = false ∧ (Instr.bmNew 2).wf = false := by decide

theorem test_wf_accepts :
    (Instr.strmReadbits 32).wf = true ∧ (Instr.adDecode 15 65535).wf = true ∧ (Instr.adCxreset 14 0).wf = true ∧
      (Instr.adCxreset 15 20).wf = true ∧ (Instr.adCxreset 255 20).wf = true ∧ (Instr.iaDecode 2).wf = true ∧
      (Instr.iaDecode 14).wf = true ∧ (Instr.htStd 15).wf = true ∧ (Instr.htDecode 0).wf = true ∧
      (Instr.bmCombine 4).wf = true ∧ (Instr.bmNew 1).wf = true := by decide

/-! ## Decoding: words written from `30_encoding.md` R91, R95, R98 as b, a, OPC, bit by bit -/

theorem test_decode_seg_sd_tr :
    decode (0b0000000000000000#16 ++ 0b00000000#8 ++ 0b00000000#8) = .ok .segSd ∧
      decode (0b0000000000000000#16 ++ 0b00000000#8 ++ 0b00000100#8) = .ok .segTrInt ∧
      decode (0b0000000000000000#16 ++ 0b00000000#8 ++ 0b00000110#8) = .ok .segTrImm ∧
      decode (0b0000000000000000#16 ++ 0b00000000#8 ++ 0b00000111#8) = .ok .segTrImml := by decide

theorem test_decode_seg_gr_rr :
    decode (0b0000000000000000#16 ++ 0b00000000#8 ++ 0b00100100#8) = .ok .segGrInt ∧
      decode (0b0000000000000000#16 ++ 0b00000000#8 ++ 0b00100110#8) = .ok .segGrImm ∧
      decode (0b0000000000000000#16 ++ 0b00000000#8 ++ 0b00100111#8) = .ok .segGrImml ∧
      decode (0b0000000000000000#16 ++ 0b00000000#8 ++ 0b00101000#8) = .ok .segRrInt ∧
      decode (0b0000000000000000#16 ++ 0b00000000#8 ++ 0b00101010#8) = .ok .segRrImm ∧
      decode (0b0000000000000000#16 ++ 0b00000000#8 ++ 0b00101011#8) = .ok .segRrImml ∧
      decode (0b0000000000000000#16 ++ 0b00000000#8 ++ 0b00110101#8) = .ok .segTables := by decide

theorem test_decode_strm :
    decode (0b0000000000000000#16 ++ 0b00000000#8 ++ 0b01000000#8) = .ok .strmBind ∧
      decode (0b0000000000000000#16 ++ 0b00000000#8 ++ 0b01000001#8) = .ok .strmSeek ∧
      decode (0b0000000000000000#16 ++ 0b00100000#8 ++ 0b01000010#8) = .ok (.strmReadbits 32) ∧
      decode (0b0000000000000000#16 ++ 0b00000000#8 ++ 0b01000011#8) = .ok .strmAlign := by decide

theorem test_decode_ad :
    decode (0b0000000000000000#16 ++ 0b00000000#8 ++ 0b01001000#8) = .ok .adInit ∧
      decode (0b1000000000000001#16 ++ 0b00000001#8 ++ 0b01001001#8) = .ok (.adDecode 1 32769) ∧
      decode (0b0000000000010100#16 ++ 0b11111111#8 ++ 0b01001010#8) = .ok (.adCxreset 255 20) ∧
      decode (0b0000000000000000#16 ++ 0b00001110#8 ++ 0b01001011#8) = .ok (.iaDecode 14) ∧
      decode (0b0000000000000000#16 ++ 0b00000000#8 ++ 0b01001100#8) = .ok .iaidDecode := by decide

theorem test_decode_ht_bm :
    decode (0b0000000000000000#16 ++ 0b00001111#8 ++ 0b01010000#8) = .ok (.htStd 15) ∧
      decode (0b0000000000000000#16 ++ 0b00000001#8 ++ 0b01010010#8) = .ok (.htDecode 1) ∧
      decode (0b0000000000000000#16 ++ 0b00000011#8 ++ 0b01011000#8) = .ok (.bmCombine 3) ∧
      decode (0b0000000000000000#16 ++ 0b00000001#8 ++ 0b01011001#8) = .ok (.bmNew 1) := by decide

/-- V-E1, V-E2, V-E4, V-E5, V-S6. -/
theorem test_decode_refuses :
    decode 0x00000010 = .error .unsupportedFeature ∧ decode 0x00FF0010 = .error .unsupportedFeature ∧
      decode 0x00000001 = .error .malformedSegment ∧ decode 0x00000044 = .error .illegalCommand ∧
      decode 0x00000080 = .error .illegalCommand ∧ decode 0xFFFFFFFF = .error .illegalCommand ∧
      decode 0x00000100 = .error .illegalCommand ∧ decode 0x00002142 = .error .illegalCommand ∧
      decode 0x00010842 = .error .illegalCommand ∧ decode 0x00001049 = .error .illegalCommand := by decide

/-! ## The vectors of `95_test_vectors.md`, one step each -/

/-- V-S5. -/
theorem test_strmBind_exact_sum :
    (after .strmBind { State.reset with p0 := 0x01000000, p1 := 0 }).sbase = 0x01000000 ∧
      (after .strmBind { State.reset with p0 := 0xFFFFFFFF, p1 := 0xFFFFFFFF }).err = 6 := by decide +kernel

/-- V-S4. -/
theorem test_strmSeek_end :
    (after .strmSeek { bound [0x57, 0xF4, 0xF8, 0x00] with p0 := 4 }).sp = 32 ∧
      (after .strmSeek { bound [0x57, 0xF4, 0xF8, 0x00] with p0 := 5 }).err = 6 := by decide +kernel

/-- V-S1, V-S2. -/
theorem test_strmReadbits :
    (after (.strmReadbits 32) (bound [0x57, 0xF4, 0xF8, 0x00])).r0 = 0x57F4F800 ∧
      (after (.strmReadbits 7) { bound [0x57, 0xF4, 0xF8, 0x00] with sp := 5 }).r0 = 127 := by decide +kernel

/-- V-S3. -/
theorem test_strmAlign :
    (after .strmAlign { bound [0x57, 0xF4, 0xF8, 0x00] with sp := 12 }).sp = 16 ∧
      (after .strmAlign { bound [0x57, 0xF4, 0xF8, 0x00] with sp := 32 }).sp = 32 := by decide +kernel

/-- V-A1, V-A2. -/
theorem test_adInit :
    (after .adInit (bound [0x84, 0xC7])).ad = { c := 0x42638000, a := 0x8000, ct := 1, b := 0xC7, bp := 1 } ∧
      (after .adInit (bound [0xFF, 0x00])).ad = { c := 0x7F800000, a := 0x8000, ct := 0, b := 0x00, bp := 1 } := by
  decide +kernel

/-- V-A1, rows 0 and 14. -/
theorem test_adDecode :
    (let t := after (.adDecode 0 0) (after .adInit (bound [0x84, 0xC7, 0x3B]));
      t.ad = { c := 0x84C70000, a := 0xAC02, ct := 0, b := 0xC7, bp := 1 } ∧ t.r0 = 0 ∧
        t.cx.gb.entry 0 = { idx := 1, mps := false }) ∧
      (let t := after (.adDecode 0 0)
          { bound [0x84, 0xC7, 0x3B] with
            ad := { c := 0x07C7EC00, a := 0xA4B3, ct := 6, b := 0x3B, bp := 2 }, advalid := true
            cx := State.reset.cx.setArr .gb (CxArray.cleared.setEntry 0 { idx := 3, mps := false }) };
        t.ad = { c := 0x7C7EC000, a := 0xAC10, ct := 2, b := 0x3B, bp := 2 } ∧ t.r0 = 1 ∧
          t.cx.gb.entry 0 = { idx := 12, mps := false }) := by decide +kernel

/-- R146. -/
theorem test_adCxreset :
    (after (.adCxreset 15 3) (bound [])).idlen = 3 ∧ (after (.adCxreset 15 21) (bound [])).err = 6 := by
  decide +kernel

/-- V-I1, the first two values. -/
theorem test_iaDecode :
    (let t := after (.iaDecode 2) (after .adInit (bound [0x51, 0x2B, 0xFF, 0xAC]));
      t.r0 = 5 ∧ t.oob = false ∧ (after (.iaDecode 2) t).oob = true ∧ (after (.iaDecode 2) t).r0 = 0) := by
  decide +kernel

/-- V-I4, the first two values. -/
theorem test_iaidDecode :
    (let t := after .iaidDecode (after .adInit { bound [0x86, 0x65, 0x5F, 0xFF, 0xAC] with idlen := 3 });
      t.r0 = 0 ∧ (after .iaidDecode t).r0 = 5) := by decide +kernel

/-- P2, steps 2 and 8. -/
theorem test_htStd : (after (.htStd 15) (after (.htStd 1) (bound []))).stdvalid = 0x8002 := by decide +kernel

/-- P2, steps 3 and 9. -/
theorem test_htDecode :
    (let t := after (.htDecode 1) (bound [0x57, 0xF4, 0xF8, 0x00]);
      t.r0 = 10 ∧ t.r1 = 5 ∧ t.sp = 5) ∧
      (let t := after (.htDecode 15) { bound [0x57, 0xF4, 0xF8, 0x00] with sp := 16 };
        t.r0.toInt = -24 ∧ t.r1 = 11 ∧ t.oob = false) := by decide +kernel

/-- V-H16. -/
theorem test_htDecode_runs_out :
    (after (.htDecode 1) (bound [])).err = 5 ∧ (after (.htDecode 1) (bound [0xFE])).err = 3 ∧
      (after (.htDecode 2) (bound [0xFE])).oob = true := by decide +kernel

/-- V-H17. -/
theorem test_segTables :
    (after .segTables (bound [0x13, 0, 0, 0, 0, 0, 0, 0, 8, 0x6A, 0x3C])).slot 1 =
      .table
        [{ plainLine 1 2 0 with code := some 0b0 }, { plainLine 2 2 4 with code := some 0b10 }, lowerLine 0 (-1),
          { upperLine 3 8 with code := some 0b110 }, { oobLine 3 with code := some 0b111 }] := by decide +kernel

/-- P3, step 2. -/
theorem test_bmNew :
    packed (after (.bmNew 0) { bound [] with p0 := 7, p1 := 8, p2 := 4 }) 7 = [0, 0, 0, 0] ∧
      packed (after (.bmNew 1) { bound [] with p0 := 7, p1 := 9, p2 := 1 }) 7 = [0xFF, 0x80] := by decide +kernel

/-- V-B1, the last two steps. -/
theorem test_bmCombine :
    packed
        (after (.bmCombine 3)
          { bound [] with
            p0 := 7, p1 := 1, p2 := 0xFFFFFFFF
            segstore :=
              [(1, .region (drawn 3 [0b101, 0b010]) 0 0 .or),
                (7, .region (drawn 8 [0x00, 0x28, 0x10, 0x02]) 0 0 .or)] })
        7 =
      [0x80, 0x68, 0x10, 0x02] := by decide +kernel

/-- The window of V-G9. -/
def windowG9 : List Nat := [0, 0, 0, 3, 0, 0, 0, 2, 0, 0, 0, 0, 0, 0, 0, 0, 0, 0x04, 0x02, 0xFF, 0xBB, 0xFF, 0xAC]

/-- V-G9; the three spellings decode identically (`30_encoding.md` R95). -/
theorem test_segGr :
    packed (after .segGrImm (bound windowG9)) 1 = [0xA0, 0x40] ∧
      (after .segGrInt (bound windowG9)).slot 1 = (after .segGrImm (bound windowG9)).slot 1 ∧
      (after .segGrImml (bound windowG9)).slot 1 = (after .segGrImm (bound windowG9)).slot 1 ∧
      (after .segGrImm (bound windowG9)).sp = 184 := by decide +kernel

/-- V-G10: MMR coding, and a window too short for its field. -/
theorem test_segGr_errors :
    (after .segGrImm (bound [0, 0, 0, 8, 0, 0, 0, 8, 0, 0, 0, 0, 0, 0, 0, 0, 0, 0x01])).err = 2 ∧
      (after .segGrImm (bound [0x57, 0xF4, 0xF8, 0x00])).err = 3 := by decide +kernel

/-- The window of V-R5 with TPGRON = 1. -/
def windowR5 : List Nat := [0, 0, 0, 8, 0, 0, 0, 8, 0, 0, 0, 0, 0, 0, 0, 0, 0, 3, 0xB6, 0xAB, 0x89, 0xFF, 0xAC]

/-- V-R5, V-R6. -/
theorem test_segRr :
    packed (after .segRrImm (boundRef windowR5 (.region (drawn 8 [0, 0, 0, 0x18, 0x18, 0, 0, 0]) 0 0 .or))) 1 =
        [0, 0, 0, 0x10, 0x18, 0, 0, 0] ∧
      (after .segRrImm (boundRef windowR5 (.region (drawn 6 [0, 0, 0, 0, 0, 0]) 0 0 .or))).err = 4 := by
  decide +kernel

/-- The window of V-D3: the dictionary that defines the three symbols. -/
def windowD3 : List Nat :=
  [0x00, 0x01, 0, 0, 0, 3, 0, 0, 0, 3, 0xE1, 0xC2, 0xFC, 0x00, 0x9E, 0x88, 0x88, 0xE8, 0xB7, 0xE0, 0xC0, 0xC0, 0xC0, 0xC0,
    0xC0, 0xC0, 0x00, 0xC0]

/-- V-D3, the Huffman-coded dictionary. -/
theorem test_segSd_huffman : (after .segSd (bound windowD3)).slot 1 = .symDict [sym0, sym1, sym2] none := by
  decide +kernel

/-- V-D2, the arithmetic-coded dictionary with two of its symbols exported. -/
theorem test_segSd_arithmetic :
    (after .segSd
        (bound
          [0x08, 0x00, 0x02, 0xFF, 0, 0, 0, 2, 0, 0, 0, 3, 0x55, 0x67, 0x61, 0xFE, 0x59, 0x1B, 0x9A, 0xF2, 0x82, 0xBF,
            0xFF, 0xAC])).slot 1 =
      .symDict [sym0, sym2] none := by decide +kernel

/-- The window of V-T3. -/
def windowT3 : List Nat :=
  [0, 0, 0, 0x0C, 0, 0, 0, 0x10, 0, 0, 0, 0, 0, 0, 0, 0, 0, 0x7C, 0x70, 0, 0, 0, 2, 0xAE, 0xB1, 0x8D, 0x7F, 0xFF, 0xAC]

/-- V-T3, transposed. -/
theorem test_segTr_transposed :
    packed (after .segTrImm (boundRef windowT3 (.symDict [sym0, sym1, sym2] none))) 1 =
      [0x40, 0, 0x40, 0, 0x40, 0, 0x70, 0, 0x30, 0, 0x30, 0, 0x30, 0, 0x30, 0, 0x30, 0, 0x30, 0, 0, 0, 0, 0, 0, 0, 0, 0,
        0, 0, 0, 0] := by decide +kernel

/-- The window of V-T4. -/
def windowT4 : List Nat :=
  [0, 0, 0, 0x10, 0, 0, 0, 0x0C, 0, 0, 0, 4, 0, 0, 0, 5, 0, 0x00, 0x11, 0, 0, 0, 0, 0, 4, 0x01, 0x10, 0, 0, 0, 0, 0, 0, 0, 0,
    0, 0, 0, 0, 0, 0, 0, 0x06, 0x40, 0x0B, 0x56, 0xB7, 0x60, 0x92]

/-- V-T4, Huffman-coded; the bitmap is that of V-T1. -/
theorem test_segTr_huffman :
    packed (after .segTrImm (boundRef windowT4 (.symDict [sym0, sym1, sym2] none))) 1 =
      [0x00, 0x00, 0x47, 0xB0, 0x42, 0x30, 0x42, 0x30, 0x72, 0x30, 0x00, 0x30, 0x00, 0x30, 0x00, 0x20, 0x00, 0x20, 0x00,
        0x20, 0x00, 0x38, 0x00, 0x00] := by decide +kernel

/-- V-E1: the error record of a refused word. -/
theorem test_step_records_error :
    (match step { State.reset with p0 := 0x12345, advalid := true, host := [.write 0 0x10] } with
      | .next t => decide (t.err = 2) && decide (t.firstErr = 0x23451002) && !t.advalid
      | .fault _ => false
      | .refused _ => false) = true := by decide +kernel

/-- V-H19: the code of every symbol, and the run that passes five symbols. -/
def windowH19 : List Nat :=
  [0x20, 0x02, 0, 0, 0, 0, 0, 0, 0, 0, 0, 0, 0, 0, 0, 0, 0x22, 0x06, 0x30, 0xAA, 0x00]

theorem test_symbol_id_table :
    (match parseSymIdTable (bound windowH19).streamEnv 12 (bound windowH19).work with
      | .ok t w => decide (t.map (fun l => l.code) =
          [some 0, some 1, some 2, some 3, none, none, none, some 4, some 5, some 6, some 7, none]) && decide (w.sp = 168)
      | .error _ _ => false) = true ∧
      (match parseSymIdTable (bound windowH19).streamEnv 5 (bound windowH19).work with
        | .ok _ _ => false
        | .error e _ => decide (e = .malformedSegment)) = true := by decide +kernel

/-! ## Witnesses: for every statement with hypotheses, a concrete state that meets them all -/

/-- Nothing is in an empty list. -/
theorem all_nil {α : Type} {P : α → Prop} : ∀ p ∈ ([] : List α), P p := fun _ h => nomatch h

theorem exec_after (i : Instr) (s : State) : exec i s = .next (after i s) := by
  obtain ⟨t, h⟩ := exec_next i s
  unfold after
  rw [h]

/-- The step that a write of CMD gives. -/
theorem step_of_write {s : State} {v : Nat} {rest : List HostMove} {i : Instr} (hs : s.host = .write 0 v :: rest)
    (hd : decode (BitVec.ofNat 32 v) = .ok i) :
    step s = .next (after i { s with host := rest, cmd := BitVec.ofNat 32 v }) := by
  rw [← exec_after]
  unfold step
  rw [hs]
  simp only [State.hostMove, State.writeCmd, hd]

/-- The canonical form of a state whose arrays are cleared, from its lists. -/
theorem canonical_of_lists {s : State} (hcx : s.cx = Contexts.cleared)
    (h : Memory.wf s.inmem ∧ (∀ p ∈ s.inmem, p.1 < s.cfg.inmemSize) ∧ SparseWf 0 s.ref ∧
      (∀ p ∈ s.ref, p.1 < s.cfg.refmax) ∧ SparseWf .empty s.segstore ∧ (∀ p ∈ s.segstore, p.1 < s.cfg.nslot) ∧
      SparseRising s.stdTab ∧ ∀ p ∈ s.stdTab, 1 ≤ p.1 ∧ p.1 ≤ 15 ∧ p.2 = stdTable p.1)
    (hs : ∀ p ∈ s.segstore, p.2.Canonical) : s.Canonical := by
  obtain ⟨h1, h2, h3, h4, h5, h6, h7, h8⟩ := h
  refine ⟨h1, h2, h3, h4, h5, fun p hp => ⟨h6 p hp, hs p hp⟩, h7, h8, fun n => ?_⟩
  rw [hcx, Contexts.arr_cleared]
  exact ⟨.nil, all_nil⟩

/-- The capacities of a state, from its list of slots. -/
theorem slotsFit_of_list {s : State} (hv : s.cfg.Valid) (h : ∀ p ∈ s.segstore, p.2.Fits s.cfg) : s.SlotsFit := by
  refine ⟨hv, fun k => ?_⟩
  unfold State.slot sparseGetD
  cases hf : sparseFind s.segstore k with
  | none => trivial
  | some v => exact h _ (mem_of_sparseFind hf)

/-- Neither code is a prefix of the other, as a computation. -/
def apart (l m : Line) : Bool :=
  match l.code, m.code with
  | some c, some d =>
    !(decide (l.preflen ≤ m.preflen) && decide (d >>> (m.preflen - l.preflen) = c)) &&
      !(decide (m.preflen ≤ l.preflen) && decide (c >>> (l.preflen - m.preflen) = d))
  | none, _ => true
  | some _, none => true

theorem prefixFree_of_apart {t : List Line} (h : t.Pairwise fun l m => apart l m = true) : Table.PrefixFree t := by
  refine h.imp fun {l m} hlm c d hc hd => ?_
  unfold apart at hlm
  rw [hc, hd] at hlm
  simp only [Bool.and_eq_true, Bool.not_eq_true', Bool.and_eq_false_iff, decide_eq_false_iff_not] at hlm
  exact ⟨fun h => hlm.1.elim (fun h' => h' h.1) fun h' => h' h.2, fun h => hlm.2.elim (fun h' => h' h.1) fun h' => h' h.2⟩

theorem stdTable3_prefixFree : Table.PrefixFree (stdTable 3) := prefixFree_of_apart (by decide +kernel)

theorem stdTable1_prefixFree : Table.PrefixFree (stdTable 1) := prefixFree_of_apart (by decide +kernel)

theorem reset_canonical : State.reset.Canonical := canonical_of_lists rfl (by decide +kernel) all_nil

/-- The three symbols are in slot 3, which REF[0] names. -/
def withSyms (bs : List Nat) : State := boundRef bs (.symDict [sym0, sym1, sym2] none)

theorem withSyms_handles (bs : List Nat) : (withSyms bs).refHandles = [3] := rfl

theorem withSyms_usable (bs : List Nat) : (withSyms bs).refsUsable := by
  intro h hh
  rw [withSyms_handles] at hh
  rw [List.mem_singleton.mp hh]
  exact .inl ⟨_, _, rfl⟩

theorem withSyms_canonical {bs : List Nat} (h : Memory.wf (bytesAt0 bs) ∧ ∀ p ∈ bytesAt0 bs, p.1 < 16777216) :
    (withSyms bs).Canonical := by
  refine canonical_of_lists rfl ⟨h.1, h.2, ?_⟩ fun p hp => ?_
  · refine ⟨(by decide : SparseWf (0 : BitVec 16) [(0, 3)]), (by decide : ∀ p ∈ [(0, (3 : BitVec 16))], p.1 < 256),
      ⟨.cons all_nil .nil, fun p hp => ?_⟩, fun p hp => ?_, .nil, all_nil⟩
    · rw [List.mem_singleton.mp hp]
      exact fun h => nomatch h
    · rw [List.mem_singleton.mp hp]
      exact (by decide : 3 < 256)
  · rw [List.mem_singleton.mp hp]
    trivial

/-! ### Encoding and the step -/

theorem witness_DecodeOfEncode :
    (Instr.adCxreset 255 65535).wf = true ∧ (Instr.strmReadbits 32).wf = true ∧ (Instr.bmNew 1).wf = true := by decide

theorem witness_EncodeOfDecode : decode 0x0014FF4A = .ok (.adCxreset 255 20) := by decide

/-- A word for each clause, at the ends of its range. -/
theorem witness_RefusedWords :
    128 ≤ (opcField 0x00000080).toNat ∧ (opcField 0x0000003E).toNat = 62 ∧ (opcField 0x0000003F).toNat = 63 ∧
      (opcField 0x00000001).toNat = 1 ∧ (opcField 0x00000044).toNat = 68 ∧ (opcField 0x0000005A).toNat = 90 ∧
      ((opcField 0x0000014C).toNat = 76 ∧ aField 0x0000014C ≠ 0) ∧
      ((opcField 0x00010035).toNat = 53 ∧ bField 0x00010035 ≠ 0) ∧
      ((opcField 0x80000059).toNat = 89 ∧ bField 0x80000059 ≠ 0) ∧
      ((opcField 0x00002142).toNat = 66 ∧ (aField 0x00002142).toNat = 33) ∧
      ((opcField 0x00001049).toNat = 73 ∧ (aField 0x00001049).toNat = 16) ∧
      ((opcField 0x0000104A).toNat = 74 ∧ (aField 0x0000104A).toNat = 16) ∧
      ((opcField 0x0000FE4A).toNat = 74 ∧ (aField 0x0000FE4A).toNat = 254) ∧
      ((opcField 0x00010E4A).toNat = 74 ∧ (aField 0x00010E4A).toNat = 14 ∧ bField 0x00010E4A ≠ 0) ∧
      ((opcField 0x0000014B).toNat = 75 ∧ (aField 0x0000014B).toNat = 1) ∧
      ((opcField 0x00000F4B).toNat = 75 ∧ (aField 0x00000F4B).toNat = 15) ∧
      ((opcField 0x00000050).toNat = 80 ∧ (aField 0x00000050).toNat = 0) ∧
      ((opcField 0x00001050).toNat = 80 ∧ (aField 0x00001050).toNat = 16) ∧
      ((opcField 0x00001052).toNat = 82 ∧ (aField 0x00001052).toNat = 16) ∧
      ((opcField 0x00000558).toNat = 88 ∧ (aField 0x00000558).toNat = 5) ∧
      (opcField 0x00000259).toNat = 89 ∧ (aField 0x00000259).toNat = 2 := by decide

theorem witness_StepRunsDecodedCommand :
    ({ State.reset with host := [.write 0 0x0014FF4A, .reset] } : State).host = [.write 0 0x0014FF4A, .reset] ∧
      decode (BitVec.ofNat 32 0x0014FF4A) = .ok (.adCxreset 255 20) := by decide

/-- For a refusal that clears ADVALID and for one that does not. -/
theorem witness_StepRefusesWord :
    ({ State.reset with host := [.write 0 0x3E] } : State).host = [.write 0 0x3E] ∧
      decode (BitVec.ofNat 32 0x3E) = .error .unsupportedFeature ∧
      ({ State.reset with host := [.write 0 0x80] } : State).host = [.write 0 0x80] ∧
      decode (BitVec.ofNat 32 0x80) = .error .illegalCommand := by decide

/-- A state with any one pending move is canonical, and the numbers of every clause at the ends of their ranges. -/
theorem witness_HostWritesRegister :
    (∀ n v, ({ State.reset with host := [.write n v] } : State).host = [.write n v] ∧
        ({ State.reset with host := [.write n v] } : State).Canonical) ∧
      (4096 ≤ 4096 ∧ 4096 < 4096 + State.reset.cfg.refmax) ∧ (4096 ≤ 4351 ∧ 4351 < 4096 + State.reset.cfg.refmax) ∧
      4096 + State.reset.cfg.refmax ≤ 4352 ∧ (24 ≤ 24 ∧ 24 < 4096) ∧ 24 ≤ 4095 ∧ 4095 < 4096 :=
  ⟨fun _ _ => ⟨rfl, reset_canonical⟩, by decide⟩

theorem witness_HostWritesMemory :
    0 < State.reset.cfg.inmemSize ∧ 16777215 < State.reset.cfg.inmemSize ∧ State.reset.cfg.inmemSize ≤ 16777216 ∧
      ({ State.reset with host := [.poke 16777215 7] } : State).host = [.poke 16777215 7] := by decide

theorem witness_HostResets :
    ({ bound windowG9 with host := [.reset, .write 5 1] } : State).host = [.reset, .write 5 1] := rfl

/-! ### Every command -/

/-- A command that completes, one that ends in an error and a refused word, before and after a first error; a step for every
kind of host move, and an idle one. -/
theorem witness_ErrorRecord :
    (after .strmAlign (bound [])).status = .done ∧ (after .adInit (bound [])).status = .error ∧
      (bound []).firstErr = 0 ∧ ({ bound [] with firstErr := 0x00004203 } : State).firstErr ≠ 0 ∧
      exec .adInit (bound []) = .next (after .adInit (bound [])) ∧
      exec .strmAlign (bound []) = .next (after .strmAlign (bound [])) ∧
      decode 0x000000FF = .error .illegalCommand ∧ decode 0x00000010 = .error .unsupportedFeature ∧
      (∃ t, step { bound [] with firstErr := 0x00004203, host := [.write 0 0x48] } = .next t) ∧
      (∃ t, step { bound [] with firstErr := 0x00004203, host := [.write 5 1] } = .next t) ∧
      (∃ t, step { bound [] with firstErr := 0x00004203, host := [.poke 0 7] } = .next t) ∧
      (∃ t, step { bound [] with firstErr := 0x00004203, host := [] } = .next t) ∧
      ∃ t, step { bound [] with firstErr := 0x00004203, host := [.reset, .write 0 0x48] } = .next t :=
  ⟨by decide +kernel, by decide +kernel, by decide, by decide, exec_after _ _, exec_after _ _, rfl, rfl,
    ⟨_, step_of_write (i := .adInit) rfl (by decide)⟩, ⟨_, rfl⟩, ⟨_, rfl⟩, ⟨_, rfl⟩, _, rfl⟩

theorem witness_IllegalCommandChangesNothing :
    exec .iaidDecode (bound []) = .next (after .iaidDecode (bound [])) ∧
      (after .iaidDecode (bound [])).status = .error ∧ (after .iaidDecode (bound [])).err = 6 :=
  ⟨exec_after _ _, by decide +kernel, by decide +kernel⟩

/-- A segment command and a primitive command, each ending in an error other than IllegalCommand. -/
theorem witness_ErrorsLeaveNoPartialResult :
    (withSyms [0x57]).Canonical ∧ exec .segSd (withSyms [0x57]) = .next (after .segSd (withSyms [0x57])) ∧
      (after .segSd (withSyms [0x57])).status = .error ∧ (after .segSd (withSyms [0x57])).err ≠ 6 ∧
      exec .adInit (withSyms [0x57]) = .next (after .adInit (withSyms [0x57])) ∧
      (after .adInit (withSyms [0x57])).status = .error ∧ (after .adInit (withSyms [0x57])).err ≠ 6 ∧
      (withSyms [0x57]).sp.toNat ≤ 8 * (withSyms [0x57]).slen.toNat ∧
      (withSyms [0x57]).idlen.toNat ≤ ceilLog2 (withSyms [0x57]).cfg.maxsyms :=
  ⟨withSyms_canonical (by decide +kernel), exec_after _ _, by decide +kernel, by decide +kernel, exec_after _ _,
    by decide +kernel, by decide +kernel, by decide +kernel, by decide +kernel⟩

theorem witness_CommandsLeaveHostSide :
    exec .segGrImm (bound windowG9) = .next (after .segGrImm (bound windowG9)) ∧
      (after .segGrImm (bound windowG9)).status = .done := ⟨exec_after _ _, by decide +kernel⟩

/-- A command for each register it does not write. -/
theorem witness_CommandsWriteTheirRegisters :
    (∀ i s, exec i s = .next (after i s)) ∧ Instr.segTables ≠ .strmBind ∧ (Instr.adDecode 0 0).writesSp = false ∧
      Instr.segSd.writesR0 = false ∧ (Instr.adDecode 0 0).writesR1 = false ∧ Instr.iaidDecode.writesOob = false ∧
      Instr.segTables.writesAd = false ∧ Instr.segGrImm.writesIdlen = false ∧ Instr.segRrImm.writesStdTab = false :=
  ⟨exec_after, by decide, by decide, by decide, by decide, by decide, by decide, by decide, by decide⟩

theorem witness_CommandsWriteTheirArrays :
    exec .segGrImm (bound windowG9) = .next (after .segGrImm (bound windowG9)) ∧
      Instr.segGrImm.writesArr .gr = false ∧ (Instr.adDecode 1 0).writesArr .gb = false := by
  exact ⟨exec_after _ _, by decide, by decide⟩

theorem witness_CommandsWriteTheirSlot :
    (withSyms [0x57]).Canonical ∧ exec (.strmReadbits 8) (withSyms [0x57]) = .next (after (.strmReadbits 8) (withSyms [0x57])) ∧
      (Instr.strmReadbits 8).writesDst = false :=
  ⟨withSyms_canonical (by decide +kernel), exec_after _ _, by decide⟩

theorem witness_CommandsRaiseTheirErrors :
    exec (.htDecode 1) (bound []) = .next (after (.htDecode 1) (bound [])) ∧
      (after (.htDecode 1) (bound [])).status = .error := ⟨exec_after _ _, by decide +kernel⟩

/-! ### Invariants: a state whose next move starts a region segment -/

/-- V-G9 about to be started. -/
def startG9 : State := { bound windowG9 with host := [.write 0 0x26] }

theorem startG9_step :
    step startG9 = .next (after .segGrImm { startG9 with host := [], cmd := BitVec.ofNat 32 0x26 }) :=
  step_of_write rfl (by decide)

theorem witness_StepKeepsRegistersOk :
    startG9.RegistersOk ∧ step startG9 = .next (after .segGrImm { startG9 with host := [], cmd := BitVec.ofNat 32 0x26 }) :=
  ⟨by unfold State.RegistersOk; decide +kernel, startG9_step⟩

theorem witness_StepKeepsCanonical :
    startG9.Canonical ∧ step startG9 = .next (after .segGrImm { startG9 with host := [], cmd := BitVec.ofNat 32 0x26 }) :=
  ⟨canonical_of_lists rfl (by decide +kernel) all_nil, startG9_step⟩

/-- With a dictionary, a table and a Region in the store. -/
theorem witness_StepKeepsSlotsFit :
    (let s : State :=
        { startG9 with
          segstore :=
            [(3, .symDict [sym0, sym1, sym2] none), (4, .table (stdTable 1)), (5, .region sym1 0 0 .or)] };
      s.Canonical ∧ s.SlotsFit ∧ ∃ t, step s = .next t) := by
  refine ⟨canonical_of_lists rfl ⟨by decide +kernel, by decide +kernel, by decide +kernel, by decide +kernel,
      ⟨.cons (by decide) (.cons (by decide) (.cons all_nil .nil)), fun p hp => ?_⟩, by decide +kernel, by decide +kernel,
      by decide +kernel⟩ fun p hp => ?_,
    slotsFit_of_list (by decide +kernel) fun p hp => ?_, ⟨_, step_of_write (i := .segGrImm) rfl (by decide)⟩⟩ <;>
    simp only [List.mem_cons, List.not_mem_nil, or_false] at hp
  · rcases hp with rfl | rfl | rfl <;> exact fun h => nomatch h
  · rcases hp with rfl | rfl | rfl <;> trivial
  rcases hp with rfl | rfl | rfl
  · refine ⟨by decide +kernel, fun b hb => ?_⟩
    simp only [List.mem_cons, List.not_mem_nil, or_false] at hb
    rcases hb with rfl | rfl | rfl <;> (unfold Bitmap.Fits; decide +kernel)
  · exact ⟨by decide +kernel, stdTable1_prefixFree⟩
  · show Bitmap.Fits _ _
    unfold Bitmap.Fits
    decide +kernel

/-! ### The stream -/

theorem witness_BindResult :
    (let s : State := { State.reset with p0 := 0x00FFFFFF, p1 := 1 };
      s.p0.toNat + s.p1.toNat ≤ s.cfg.inmemSize) ∧
      (let s : State := { State.reset with p0 := 0x01000000, p1 := 1 };
        s.cfg.inmemSize < s.p0.toNat + s.p1.toNat) := by decide

theorem witness_SeekResult :
    (let s : State := { bound [1, 2] with p0 := 2 }; s.p0.toNat ≤ s.slen.toNat) ∧
      (let s : State := { bound [1, 2] with p0 := 3 }; s.slen.toNat < s.p0.toNat) := by decide

theorem witness_ReadbitsResult :
    (let s : State := bound [1, 2, 3, 4];
      s.sp.toNat ≤ 8 * s.slen.toNat ∧ (32 : BitVec 8).toNat ≤ 32 ∧ s.sp.toNat + (32 : BitVec 8).toNat ≤ 8 * s.slen.toNat) ∧
      (let s : State := { bound [1, 2, 3, 4] with sp := 1 };
        s.sp.toNat ≤ 8 * s.slen.toNat ∧ (32 : BitVec 8).toNat ≤ 32 ∧
          8 * s.slen.toNat < s.sp.toNat + (32 : BitVec 8).toNat) ∧
      32 < (33 : BitVec 8).toNat := by decide

theorem witness_AlignResult :
    (let s : State := { bound [1, 2, 3, 4] with sp := 32 }; s.sp.toNat ≤ 8 * s.slen.toNat) := by decide

/-! ### The arithmetic decoder -/

theorem witness_AdInitResult :
    (let s := bound [0x84, 0xC7];
      s.sp.toNat = 8 * 0 ∧ 0 + 1 < s.slen.toNat ∧ s.streamByte 0 ≠ 0xFF) ∧
      (let s := bound [0xFF, 0x8F];
        s.sp.toNat = 8 * 0 ∧ 0 + 1 < s.slen.toNat ∧ s.streamByte 0 = 0xFF ∧ s.streamByte 1 ≤ 0x8F) ∧
      (let s : State := { bound [0, 0xFF, 0x90] with sp := 8 };
        s.sp.toNat = 8 * 1 ∧ 1 + 1 < s.slen.toNat ∧ s.streamByte 1 = 0xFF ∧ 0x8F < s.streamByte 2) := by decide +kernel

theorem witness_AdInitErrors :
    (let s : State := { bound [0, 0] with sp := 1 }; s.sp.toNat % 8 ≠ 0) ∧
      (let s := bound []; s.sp.toNat % 8 = 0 ∧ s.slen.toNat ≤ s.sp.toNat / 8 + 1) ∧
      (let s : State := { bound [0, 0] with sp := 8 }; s.sp.toNat % 8 = 0 ∧ s.slen.toNat ≤ s.sp.toNat / 8 + 1) := by
  decide

theorem witness_AdDecodeWithoutRenormalisation :
    (let s : State :=
        { bound [] with ad := { c := 0x56010000, a := 0xD601, ct := 0, b := 0, bp := 0 }, advalid := true };
      arrOfSel (0 : BitVec 8).toNat = some .gb ∧ (65535 : BitVec 16).toNat < arrSize s.idlen.toNat .gb ∧
        s.advalid = true ∧ 0x8000 ≤ s.ad.a ∧
        (qe ((s.cx.arr .gb).entry (65535 : BitVec 16).toNat).idx).qe ≤ s.ad.c.extractLsb' 16 16 ∧
        0x8000 ≤ s.ad.a - (qe ((s.cx.arr .gb).entry (65535 : BitVec 16).toNat).idx).qe) := by decide +kernel

/-- The decoder stands at a marker. -/
def atMarker : State :=
  { bound [0xFF, 0x90] with ad := { c := 0, a := 0x8000, ct := 0, b := 0xFF, bp := 0 }, advalid := true }

theorem atMarker_fed : atMarker.decoderFed :=
  ⟨rfl, by decide +kernel, 0, by decide, by decide +kernel, by decide +kernel, by decide +kernel⟩

/-- The lower branch, and the upper branch with an interval below 0x8000. -/
theorem witness_AdDecodeExchange :
    atMarker.decoderFed ∧ SparseRising (atMarker.cx.arr .gb).cells ∧
      (arrOfSel (0 : BitVec 8).toNat = some .gb ∧ (65535 : BitVec 16).toNat < arrSize atMarker.idlen.toNat .gb ∧
        0x8000 ≤ atMarker.ad.a ∧ atMarker.ad.ct ≤ 8 ∧
        atMarker.ad.c.extractLsb' 16 16 < (qe ((atMarker.cx.arr .gb).entry 65535).idx).qe) ∧
      (let s : State := { atMarker with ad := { c := 0x7FFF8000, a := 0x8000, ct := 8, b := 0xFF, bp := 0 } };
        0x8000 ≤ s.ad.a ∧ s.ad.ct ≤ 8 ∧ ¬s.ad.c.extractLsb' 16 16 < (qe ((s.cx.arr .gb).entry 65535).idx).qe ∧
          s.ad.a - (qe ((s.cx.arr .gb).entry 65535).idx).qe < 0x8000) :=
  ⟨atMarker_fed, by decide, by decide +kernel, by decide +kernel⟩

theorem witness_MarkerNeverFaults :
    atMarker.advalid = true ∧ atMarker.ad.b = 0xFF ∧ atMarker.ad.bp.toNat + 1 < atMarker.slen.toNat ∧
      0x8F < atMarker.streamByte (atMarker.ad.bp.toNat + 1) ∧ arrOfSel (15 : BitVec 8).toNat = some .iaid ∧
      (0 : BitVec 16).toNat < arrSize atMarker.idlen.toNat .iaid ∧ 2 ≤ (2 : BitVec 8).toNat ∧
      (14 : BitVec 8).toNat ≤ 14 := by decide +kernel

theorem witness_DecodesNeedAdvalid : State.reset.advalid = false := rfl

/-- Legal and illegal immediates at the ends of their ranges; MAXSYMS = 2^20. -/
theorem witness_CxresetResult :
    State.reset.cfg.Valid ∧ ((14 : BitVec 8).toNat ≤ 14 ∧ (0 : BitVec 16) = 0) ∧
      ((15 : BitVec 8).toNat = 15 ∧ (20 : BitVec 16).toNat ≤ ceilLog2 State.reset.cfg.maxsyms) ∧
      ((255 : BitVec 8).toNat = 255 ∧ ¬(21 : BitVec 16).toNat ≤ ceilLog2 State.reset.cfg.maxsyms) ∧
      ¬((16 : BitVec 8).toNat ≤ 14 ∨ (16 : BitVec 8).toNat = 15 ∨ (16 : BitVec 8).toNat = 255) := by decide +kernel

/-! ### Integers and symbol IDs -/

theorem witness_IaDecodeIsAdDecodes :
    exec (.iaDecode 2) atMarker = .next (after (.iaDecode 2) atMarker) ∧
      (after (.iaDecode 2) atMarker).status = .done := ⟨exec_after _ _, by decide +kernel⟩

theorem witness_IaDecodeCompletes :
    atMarker.decoderFed ∧ (2 ≤ (2 : BitVec 8).toNat ∧ arrOfSel (2 : BitVec 8).toNat = some .iadh) ∧
      (14 : BitVec 8).toNat ≤ 14 ∧ arrOfSel (14 : BitVec 8).toNat = some .iardy := ⟨atMarker_fed, by decide⟩

/-- IDLEN = 16, the last whose PREV are all immediates, and 20, the greatest. -/
theorem witness_IaidDecodeIsAdDecodes :
    (let s : State := { atMarker with idlen := 16 };
      s.idlen.toNat ≤ 16 ∧ exec .iaidDecode s = .next (after .iaidDecode s) ∧ (after .iaidDecode s).status = .done) ∧
      (let s : State := { atMarker with idlen := 20 };
        s.idlen.toNat = ceilLog2 s.cfg.maxsyms ∧ exec .iaidDecode s = .next (after .iaidDecode s) ∧
          (after .iaidDecode s).status = .done) :=
  ⟨⟨by decide, exec_after _ _, by decide +kernel⟩, by decide +kernel, exec_after _ _, by decide +kernel⟩

theorem witness_IaidDecodeCompletes : atMarker.advalid = true ∧ atMarker.idlen = 0 ∧ atMarker.decoderFed :=
  ⟨rfl, rfl, atMarker_fed⟩

/-! ### Huffman tables -/

theorem witness_HtStdResult :
    State.reset.Canonical ∧ 1 ≤ (1 : BitVec 8).toNat ∧ (15 : BitVec 8).toNat ≤ 15 := ⟨reset_canonical, by decide⟩

theorem witness_StandardTables :
    stdTable 1 ≠ [] ∧ stdTable 15 ≠ [] ∧ (stdTable 15).any (fun l => decide (l.kind = .lower)) = true ∧
      (stdTable 15).any (fun l => decide (l.kind = .upper)) = true := by decide +kernel

/-- Kraft sum exactly 1. -/
theorem witness_AssignedCodesPrefixFree :
    oversubscribed [plainLine 1 0 0, plainLine 2 0 1, plainLine 2 0 2] = false ∧
      { plainLine 2 0 2 with code := some 3 } ∈ codesOf [plainLine 1 0 0, plainLine 2 0 1, plainLine 2 0 2] := by
  decide +kernel

/-- Table B.3 in slot 3, selected by P0. -/
def withB3 (bs : List Nat) : State := { bound bs with p0 := 3, segstore := [(3, .table (stdTable 3))] }

theorem withB3_canonical {bs : List Nat} (h : Memory.wf (bytesAt0 bs) ∧ ∀ p ∈ bytesAt0 bs, p.1 < 16777216) :
    (withB3 bs).Canonical := by
  refine canonical_of_lists rfl ⟨h.1, h.2, ⟨.nil, all_nil⟩, all_nil, ?_, ?_, .nil,
    all_nil⟩ fun p hp => ?_
  · refine ⟨.cons all_nil .nil, fun p hp => ?_⟩
    rw [List.mem_singleton.mp hp]
    exact fun h => nomatch h
  · intro p hp
    rw [List.mem_singleton.mp hp]
    exact (by decide : 3 < 256)
  · rw [List.mem_singleton.mp hp]
    trivial

/-- A line of each kind, in the table of slot P0: the code and the range bits end with the stream (V-H3 gives the codes). -/
theorem witness_HtDecodeResult :
    Table.PrefixFree (stdTable 3) ∧
      (let s := withB3 [0xFE, 0x00];
        s.Canonical ∧ s.dst < s.cfg.nslot ∧ s.slot s.dst = .table (stdTable 3) ∧
          { plainLine 8 8 (-256) with code := some 0xFE } ∈ stdTable 3 ∧ s.streamNum s.sp.toNat 8 = 0xFE ∧
          s.sp.toNat + 8 + 8 ≤ 8 * s.slen.toNat) ∧
      (let s := withB3 [0xFF, 0, 0, 0, 0x2B];
        s.Canonical ∧ { lowerLine 8 (-257) with code := some 0xFF } ∈ stdTable 3 ∧ s.streamNum s.sp.toNat 8 = 0xFF ∧
          s.sp.toNat + 8 + 32 ≤ 8 * s.slen.toNat) ∧
      (let s : State := { withB3 [0xFF, 0xFC, 0, 0, 0, 0x01] with sp := 8 };
        { upperLine 7 75 with code := some 0x7E } ∈ stdTable 3 ∧ s.streamNum s.sp.toNat 7 = 0x7E ∧
          s.sp.toNat + 7 + 32 ≤ 8 * s.slen.toNat) ∧
      (let s := withB3 [0xF8];
        { oobLine 6 with code := some 0x3E } ∈ stdTable 3 ∧ s.streamNum s.sp.toNat 6 = 0x3E ∧
          s.sp.toNat + 6 + 0 ≤ 8 * s.slen.toNat) ∧
      ((15 : BitVec 8).toNat ≤ 15 ∧ (15 : BitVec 8) ≠ 0) :=
  ⟨stdTable3_prefixFree,
    ⟨withB3_canonical (by decide +kernel), by decide, rfl, by decide +kernel, by decide +kernel, by decide +kernel⟩,
    ⟨withB3_canonical (by decide +kernel), by decide +kernel, by decide +kernel, by decide +kernel⟩, by decide +kernel,
    by decide +kernel, by decide⟩

/-- No bits at all, and range bits that do not fit. -/
theorem witness_HtDecodeErrors :
    (bound []).Canonical ∧ (1 : BitVec 8).toNat ≤ 15 ∧ (bound []).sp.toNat ≤ 8 * (bound []).slen.toNat ∧
      ({ bound [] with p0 := 256 } : State).cfg.nslot ≤ ({ bound [] with p0 := 256 } : State).dst ∧
      ({ bound [] with p0 := 255 } : State).dst < ({ bound [] with p0 := 255 } : State).cfg.nslot ∧
      (∀ T, ({ bound [] with p0 := 255 } : State).slot ({ bound [] with p0 := 255 } : State).dst ≠ .table T) ∧
      (∀ l ∈ stdTable 1, ∀ c, l.code = some c → 1 ≤ l.preflen →
        (bound []).sp.toNat + l.preflen ≤ 8 * (bound []).slen.toNat → (bound []).streamNum (bound []).sp.toNat l.preflen ≠ c) ∧
      Table.PrefixFree (stdTable 1) ∧
      (let s := bound [0x80];
        s.Canonical ∧ { plainLine 2 8 16 with code := some 2 } ∈ stdTable 1 ∧
          s.sp.toNat + 2 ≤ 8 * s.slen.toNat ∧ s.streamNum s.sp.toNat 2 = 2 ∧ 8 * s.slen.toNat < s.sp.toNat + 2 + 8) ∧
      (let s := bound [0xE0, 0, 0, 0];
        s.Canonical ∧ { upperLine 3 65808 with code := some 7 } ∈ stdTable 1 ∧
          s.sp.toNat + 3 ≤ 8 * s.slen.toNat ∧ s.streamNum s.sp.toNat 3 = 7 ∧
          8 * s.slen.toNat < s.sp.toNat + 3 + 32) := by
  have hempty : ({ bound [] with p0 := 255 } : State).slot 255 = .empty := by decide
  refine ⟨canonical_of_lists rfl (by decide +kernel) all_nil, by decide, by decide, by decide, by decide,
    fun T (h : ({ bound [] with p0 := 255 } : State).slot 255 = .table T) => Slot.noConfusion (hempty.symm.trans h), ?_, stdTable1_prefixFree, ⟨canonical_of_lists rfl (by decide +kernel) all_nil, by decide +kernel⟩,
    canonical_of_lists rfl (by decide +kernel) all_nil, by decide +kernel⟩
  intro l _ c _ h1 h2
  have h3 : (bound []).sp.toNat = 0 := rfl
  have h4 : (bound []).slen.toNat = 0 := rfl
  omega

/-- V-H17, and a table with no plain line. -/
theorem witness_SegTablesResult :
    (let s := bound [0x13, 0, 0, 0, 0, 0, 0, 0, 8, 0x6A, 0x3C];
      s.windowOk = true ∧ (s.streamNum 0 8).testBit 7 = false ∧ sext 32 (s.streamNum 8 32) ≤ sext 32 (s.streamNum 40 32) ∧
        tiles (sext 32 (s.streamNum 40 32)) (sext 32 (s.streamNum 8 32)) [(1, 2), (2, 2)] ∧ 2 + 2 < s.cfg.maxlines ∧
        s.linesAt 2 2 72 [(1, 2), (2, 2)] ∧ 80 + 3 * 2 ≤ 8 * s.windowEnd ∧
        oversubscribed
            (plainLines 0 [(1, 2), (2, 2)] ++
              ([lowerLine (s.streamNum 80 2) (-1), upperLine (s.streamNum 82 2) 8] ++ [oobLine (s.streamNum 84 2)])) =
          false) ∧
      (let s := bound [0, 0, 0, 0, 5, 0, 0, 0, 5, 0xC0];
        s.windowOk = true ∧ sext 32 (s.streamNum 8 32) ≤ sext 32 (s.streamNum 40 32) ∧
          tiles (sext 32 (s.streamNum 40 32)) (sext 32 (s.streamNum 8 32)) [] ∧ s.linesAt 1 1 72 [] ∧
          72 + 2 * 1 ≤ 8 * s.windowEnd ∧
          oversubscribed [lowerLine (s.streamNum 72 1) 4, upperLine (s.streamNum 73 1) 5] = false) := by
  refine ⟨⟨by decide +kernel, by decide +kernel, by decide +kernel, ?_, by decide +kernel, ?_, by decide +kernel,
    by decide +kernel⟩, by decide +kernel, by decide +kernel, ?_, trivial, by decide +kernel, by decide +kernel⟩
  · unfold tiles tiles tiles
    decide +kernel
  · unfold State.linesAt State.linesAt State.linesAt
    decide +kernel
  · unfold tiles
    decide +kernel

/-! ### Bitmaps and regions -/

theorem witness_BmNewResult :
    (1 : BitVec 8).toNat ≤ 1 ∧
      (let s : State := { State.reset with p0 := 255, p1 := 16384, p2 := 16384 };
        s.dst < s.cfg.nslot ∧ s.p1.toNat * s.p2.toNat ≤ s.cfg.maxpix) ∧
      (let s : State := { State.reset with p0 := 0, p1 := 16385, p2 := 16384 };
        s.dst < s.cfg.nslot ∧ s.cfg.maxpix < s.p1.toNat * s.p2.toNat) ∧
      (let s : State := { State.reset with p0 := 256 }; s.cfg.nslot ≤ s.dst) := by decide

theorem witness_BmCombineResult :
    (let s : State :=
        { State.reset with p0 := 7, p1 := 7, p2 := 0xFFFFFFFF, segstore := [(7, .region sym1 5 6 .xor)] };
      combOpOfCode (4 : BitVec 8).toNat = some .replace ∧ s.dst < s.cfg.nslot ∧ s.src < s.cfg.nslot ∧
        s.slot s.dst = .region sym1 5 6 .xor ∧ s.slot s.src = .region sym1 5 6 .xor) := by
  exact ⟨rfl, by decide, by decide, rfl, rfl⟩

theorem witness_BmCombineErrors :
    (4 : BitVec 8).toNat ≤ 4 ∧ (let s : State := { State.reset with p1 := 256 }; s.cfg.nslot ≤ s.src) ∧
      (let s := State.reset;
        s.dst < s.cfg.nslot ∧ s.src < s.cfg.nslot ∧ ∀ b x y o, s.slot s.dst ≠ .region b x y o) :=
  ⟨by decide, by decide, by decide, by decide, fun _ _ _ _ h => nomatch h⟩

/-- The last padding bit and the last pixel of the last row of the symbol's image. -/
theorem witness_ImageOfBitmap :
    (sym1.h - 1 < sym1.h ∧ 8 * ((sym1.w + 7) / 8) - 1 < 8 * ((sym1.w + 7) / 8)) ∧
      ¬8 * ((sym1.w + 7) / 8) - 1 < sym1.w ∧ sym1.w - 1 < sym1.w := by decide

/-- A bit decoded at a marker from a cleared entry is 1 (V-A3). -/
theorem atMarker_bit (E : Env) (arr : Arr) (i : Nat) (w : Work)
    (h : (match adDecode E arr i w with | .ok d _ => d | .error _ _ => false) = true) :
    ∃ w', adDecode E arr i w = .ok true w' := by
  cases hd : adDecode E arr i w with
  | ok d w' =>
    rw [hd] at h
    exact ⟨w', by rw [show d = true from h]⟩
  | error e w' =>
    rw [hd] at h
    cases h

/-- The working state of a decoder started at a marker. -/
def markerWork : Work := (after .adInit (bound [0xFF, 0xAC])).work

/-- Template 0 with two adaptive pixels, and template 1. -/
theorem witness_TemplateContexts :
    (let p : RefineParams :=
        { template := false, refb := sym0, dx := -1, dy := 1, tpgron := false, at_ := [(-1, -1), (-1, -1)] };
      p.template = false ∧ p.at_ = [(-1, -1), (-1, -1)]) ∧
      (let p : RefineParams := { template := true, refb := sym0, dx := 0, dy := 0, tpgron := false, at_ := [] };
        p.template = true) := ⟨⟨rfl, rfl⟩, rfl⟩

/-- Row 0 of one row, and row 1 of two. -/
theorem witness_TypicalRowCopies :
    ∃ w', adDecode (bound [0xFF, 0xAC]).streamEnv .gb (sltpCx 0) markerWork = .ok true w' ∧ (false ^^ true) = true ∧
      0 < (drawn 3 [0b101]).h ∧ 1 < (drawn 3 [0b101, 0b010]).h := by
  obtain ⟨w', h⟩ := atMarker_bit (bound [0xFF, 0xAC]).streamEnv .gb (sltpCx 0) markerWork (by decide +kernel)
  exact ⟨w', h, by decide, by decide +kernel, by decide +kernel⟩

/-- The window of V-G1, template 0. -/
def windowG1 : List Nat :=
  [0, 0, 0, 8, 0, 0, 0, 8, 0, 0, 0, 0, 0, 0, 0, 0, 0, 0x00, 0x03, 0xFF, 0xFD, 0xFF, 0x02, 0xFE, 0xFE, 0xFE, 0x39, 0x48,
    0xC7, 0x5F, 0x4F, 0x45, 0x43, 0x2B, 0xFF, 0xAC]

/-- One adaptive pixel (V-G9, template 2) and four (V-G1, template 0). -/
theorem witness_SegGrCompletes :
    (let s := bound windowG9;
      s.windowOk = true ∧ bitField (s.streamNum 128 8) 7 3 = 0 ∧
        combOpOfCode (bitField (s.streamNum 128 8) 2 0) = some .or ∧ s.streamNum 0 32 * s.streamNum 32 32 ≤ s.cfg.maxpix ∧
        bitField (s.streamNum 136 8) 7 4 = 0 ∧ (s.streamNum 136 8).testBit 0 = false ∧
        bitField (s.streamNum 136 8) 2 1 ≠ 0 ∧
        (∀ a ∈ (List.range 1).map fun j => (sext 8 (s.streamNum (144 + 16 * j) 8), sext 8 (s.streamNum (152 + 16 * j) 8)),
          atLegal a = true) ∧
        s.markerFrom (0 / 8 + 18 + 2 * 1) s.windowEnd) ∧
      (let s := bound windowG1;
        s.windowOk = true ∧ bitField (s.streamNum 136 8) 7 4 = 0 ∧ bitField (s.streamNum 136 8) 2 1 = 0 ∧
          (∀ a ∈ (List.range 4).map fun j => (sext 8 (s.streamNum (144 + 16 * j) 8), sext 8 (s.streamNum (152 + 16 * j) 8)),
            atLegal a = true) ∧
          s.markerFrom (0 / 8 + 18 + 2 * 4) s.windowEnd) :=
  ⟨⟨by decide +kernel, by decide +kernel, by decide +kernel, by decide +kernel, by decide +kernel, by decide +kernel,
      by decide +kernel, by decide +kernel, 21, by decide +kernel⟩,
    by decide +kernel, by decide +kernel, by decide +kernel, by decide +kernel, 34, by decide +kernel⟩

/-- The window of V-R1, template 0. -/
def windowR1 : List Nat :=
  [0, 0, 0, 6, 0, 0, 0, 6, 0, 0, 0, 0, 0, 0, 0, 0, 0, 0x00, 0xFF, 0xFF, 0xFF, 0xFF, 0x9E, 0xD3, 0x88, 0x2C, 0x7F, 0xFF,
    0xAC]

/-- Template 1 (V-R5) and template 0 (V-R1). -/
theorem witness_SegRrCompletes :
    (let s := boundRef windowR5 (.region (drawn 8 [0, 0, 0, 0x18, 0x18, 0, 0, 0]) 0 0 .or);
      s.windowOk = true ∧ s.refsOk = true ∧ s.refn = 1 ∧
        s.slot (s.refAt 0) = .region (drawn 8 [0, 0, 0, 0x18, 0x18, 0, 0, 0]) 0 0 .or ∧
        (drawn 8 [0, 0, 0, 0x18, 0x18, 0, 0, 0]).w = s.streamNum 0 32 ∧
        (drawn 8 [0, 0, 0, 0x18, 0x18, 0, 0, 0]).h = s.streamNum 32 32 ∧ bitField (s.streamNum 128 8) 7 3 = 0 ∧
        combOpOfCode (bitField (s.streamNum 128 8) 2 0) = some .or ∧ s.streamNum 0 32 * s.streamNum 32 32 ≤ s.cfg.maxpix ∧
        bitField (s.streamNum 136 8) 7 2 = 0 ∧ (s.streamNum 136 8).testBit 0 = true ∧ s.markerFrom 18 s.windowEnd) ∧
      (let s := boundRef windowR1 (.region (drawn 6 [0, 0, 0, 0, 0, 0]) 0 0 .or);
        s.windowOk = true ∧ (drawn 6 [0, 0, 0, 0, 0, 0]).w = s.streamNum 0 32 ∧ (s.streamNum 136 8).testBit 0 = false ∧
          atLegal (sext 8 (s.streamNum 144 8), sext 8 (s.streamNum 152 8)) = true ∧ s.markerFrom 22 s.windowEnd) :=
  ⟨⟨by decide +kernel, by decide +kernel, by decide +kernel, rfl, by decide +kernel, by decide +kernel, by decide +kernel,
      by decide +kernel, by decide +kernel, by decide +kernel, by decide +kernel, 21, by decide +kernel⟩,
    by decide +kernel, by decide +kernel, by decide +kernel, by decide +kernel, 27, by decide +kernel⟩

/-- A reference of one pixel, seen from far away (uniform) and from its own place (not uniform). -/
theorem witness_TypicalRefinementPixel :
    (let p : RefineParams :=
        { template := true, refb := drawn 1 [1], dx := 0, dy := 0, tpgron := true, at_ := [] };
      (∀ i j : Int, -1 ≤ i → i ≤ 1 → -1 ≤ j → j ≤ 1 → p.refPix 2 0 i j = false) ∧
        p.refPix 0 0 1 0 ≠ p.refPix 0 0 0 0 ∧
        ∃ w', adDecode (bound [0xFF, 0xAC]).streamEnv .gr (rctx p (Bitmap.filled 3 1 false) 0 0) markerWork =
          .ok true w') := by
  refine ⟨fun i j h1 h2 h3 h4 => ?_, by decide +kernel, atMarker_bit _ _ _ _ (by decide +kernel)⟩
  have hw : (drawn 1 [1]).w = 1 := by decide +kernel
  unfold RefineParams.refPix Bitmap.get
  refine if_neg fun h => ?_
  have h5 := h.2.1
  dsimp only at h5
  rw [hw] at h5
  omega

/-- Table `T` codes `v` in bits `p` .. `q - 1`, as a computation. -/
def codes (s : State) (T : Table) (p : Nat) (v : Option Int) (q : Nat) : Bool :=
  T.any fun l =>
    decide (q = p + l.preflen + l.rawBits) && decide (v = l.value (s.streamNum (p + l.preflen) l.rawBits)) &&
      decide (l.code = some (s.streamNum p l.preflen)) && decide (1 ≤ l.preflen)

theorem codedAt_of_codes {s : State} {T : Table} {p q : Nat} {v : Option Int} (h : codes s T p v q = true) :
    s.codedAt T p v q := by
  obtain ⟨l, hl, h⟩ := List.any_eq_true.mp h
  simp only [Bool.and_eq_true, decide_eq_true_eq] at h
  exact ⟨l, _, hl, h.2, h.1.2, rfl, h.1.1.1, h.1.1.2⟩

/-- The pixels of a collective bitmap, as a computation. -/
def columns (s : State) (st stride h : Nat) : Nat → List Bitmap → Bool
  | _, [] => true
  | x0, b :: more =>
    decide (b.h = h) &&
      (decide (∀ x, x < b.w → ∀ y, y < h →
        b.get (x : Nat) (y : Nat) = s.streamBit (8 * (st + y * stride) + (x0 + x))) && columns s st stride h (x0 + b.w) more)

theorem columnsAt_of_columns {s : State} {st stride h x0 : Nat} {syms : List Bitmap}
    (hc : columns s st stride h x0 syms = true) : s.columnsAt st stride h x0 syms := by
  induction syms generalizing x0 with
  | nil => trivial
  | cons b more ih =>
    simp only [columns, Bool.and_eq_true, decide_eq_true_eq] at hc
    exact ⟨hc.1, fun x y hx hy => hc.2.1 x hx y hy, ih hc.2.2⟩

/-- The two height classes of V-D3. -/
theorem windowD3_classes :
    (bound windowD3).classesAt (stdTable 4) (stdTable 2) 0 80 [[sym0, sym1], [sym2]] 208 := by
  refine ⟨4, 87, 144, codedAt_of_codes (by decide +kernel), ?_, 6, 146, 208, codedAt_of_codes (by decide +kernel), ?_, rfl⟩
  · refine ⟨102, 107, by decide, ⟨94, codedAt_of_codes (by decide +kernel), 96, codedAt_of_codes (by decide +kernel),
      codedAt_of_codes (by decide +kernel)⟩, codedAt_of_codes (by decide +kernel), by decide +kernel, by decide +kernel,
      columnsAt_of_columns (by decide +kernel)⟩
  · exact ⟨155, 160, by decide, ⟨149, codedAt_of_codes (by decide +kernel), codedAt_of_codes (by decide +kernel)⟩,
      codedAt_of_codes (by decide +kernel), by decide +kernel, by decide +kernel, columnsAt_of_columns (by decide +kernel)⟩

/-- New symbols and no references (V-D3), symbols of a reference exported again, and no symbols at all. -/
theorem witness_SegSdResult :
    (let s := bound windowD3;
      let ex := (([[sym0, sym1], [sym2]].flatten.zip (runFlags false [0, 3])).filter Prod.snd).map Prod.fst;
      s.Canonical ∧ s.windowOk = true ∧ s.refsOk = true ∧ s.refsUsable ∧ s.refSymbols = [] ∧ 3 ≤ s.cfg.maxsyms ∧
        s.streamNum 0 16 = 1 + 4 * 0 + 16 * 0 ∧ s.streamNum 16 32 = ex.length ∧
        s.streamNum 48 32 = [[sym0, sym1], [sym2]].flatten.length ∧
        s.classesAt (stdTable (4 + 0)) (stdTable (2 + 0)) 0 (0 + 80) [[sym0, sym1], [sym2]] 208 ∧
        [0, 3].sum = [[sym0, sym1], [sym2]].flatten.length ∧ (∀ r ∈ [0, 3].tail, r ≠ 0) ∧ s.runsAt 208 [0, 3] 218 ∧
        218 ≤ 8 * s.windowEnd) ∧
      (let s := withSyms [0x00, 0x01, 0, 0, 0, 3, 0, 0, 0, 0, 0x00, 0xC0];
        s.Canonical ∧ s.windowOk = true ∧ s.refsOk = true ∧ s.refsUsable ∧ s.refSymbols.length = 3 ∧
          s.streamNum 0 16 = 1 ∧ s.streamNum 16 32 = 3 ∧ s.streamNum 48 32 = 0 ∧
          s.classesAt (stdTable 4) (stdTable 2) 0 80 [] 80 ∧ s.runsAt 80 [0, 3] 90 ∧ 90 ≤ 8 * s.windowEnd) ∧
      (let s := bound [0x00, 0x01, 0, 0, 0, 0, 0, 0, 0, 0, 0x00, 0x00];
        s.Canonical ∧ s.windowOk = true ∧ s.refsOk = true ∧ s.refsUsable ∧ s.refSymbols.length = 0 ∧
          s.streamNum 0 16 = 1 ∧ s.streamNum 16 32 = 0 ∧ s.streamNum 48 32 = 0 ∧ s.runsAt 80 [] 80) := by
  refine ⟨⟨canonical_of_lists rfl (by decide +kernel) all_nil, by decide +kernel, by decide +kernel, all_nil,
    by decide +kernel, by decide +kernel, by decide +kernel, by decide +kernel, by decide +kernel, windowD3_classes, rfl,
    by decide, ⟨213, codedAt_of_codes (by decide +kernel), 218, codedAt_of_codes (by decide +kernel), rfl⟩,
    by decide +kernel⟩, ⟨withSyms_canonical (by decide +kernel), by decide +kernel, by decide +kernel, withSyms_usable _,
    by decide +kernel, by decide +kernel, by decide +kernel, by decide +kernel, rfl,
    ⟨85, codedAt_of_codes (by decide +kernel), 90, codedAt_of_codes (by decide +kernel), rfl⟩, by decide +kernel⟩,
    canonical_of_lists rfl (by decide +kernel) all_nil, by decide +kernel, by decide +kernel,
    all_nil, by decide +kernel, by decide +kernel, by decide +kernel, by decide +kernel, rfl⟩

/-- The parameters of V-T4. -/
def textT4 : TextParams :=
  { huff := true, refine := false, w := 16, h := 12, numInstances := 4, logStrips := 0, syms := [sym0, sym1, sym2]
    symCodeLen := 2, defPixel := false, combOp := .or, transposed := false, refCorner := .topLeft, dsOffset := 0
    rtemplate := false, rat := []
    tables :=
      { fs := .standard 6, ds := .standard 8, dt := .standard 11, rdw := .standard 14, rdh := .standard 14, rdx := .standard 14
        rdy := .standard 14, rsize := .standard 1 }
    idCode := .coded (codesOf (linesOfLens [1, 2, 2])) }

/-- The two strips of V-T4. -/
theorem windowT4_strips :
    ∃ st, (withSyms windowT4).stripsAt textT4 (stdTable 6) (stdTable 8) (stdTable 11) (codesOf (linesOfLens [1, 2, 2]))
      [2, 0] { reg := Bitmap.filled 16 12 false, stript := -(1 * 2 ^ 0), firsts := 0, curs := 0, n := 0 } 345 st 391 := by
  refine ⟨_, 2, 348, 1, 357, _, 358, _, 374, codedAt_of_codes (by decide +kernel), codedAt_of_codes (by decide +kernel),
    ⟨0, sym0, codedAt_of_codes (by decide +kernel), rfl, rfl⟩,
    ⟨2, 363, _, 365, codedAt_of_codes (by decide +kernel), ⟨1, sym1, codedAt_of_codes (by decide +kernel), rfl, rfl⟩,
      2, 370, _, 372, codedAt_of_codes (by decide +kernel), ⟨2, sym2, codedAt_of_codes (by decide +kernel), rfl, rfl⟩,
      codedAt_of_codes (by decide +kernel), rfl⟩,
    6, 379, 9, 388, _, 389, _, 391, codedAt_of_codes (by decide +kernel), codedAt_of_codes (by decide +kernel),
    ⟨0, sym0, codedAt_of_codes (by decide +kernel), rfl, rfl⟩, ⟨codedAt_of_codes (by decide +kernel), rfl⟩, rfl, rfl⟩

/-- Arithmetic-coded with SBDEFPIXEL = 1 and three symbols in the dictionary, and the Huffman-coded V-T4. -/
theorem witness_SegTrResult :
    (let s := withSyms [0, 0, 0, 3, 0, 0, 0, 2, 0, 0, 0, 5, 0, 0, 0, 6, 0x00, 0x02, 0x00, 0, 0, 0, 0, 0xFF, 0x90];
      s.windowOk = true ∧ s.refsOk = true ∧ s.refsUsable ∧ s.refSymbols.length ≤ s.cfg.maxsyms ∧
        bitField (s.streamNum 128 8) 7 3 = 0 ∧ combOpOfCode (bitField (s.streamNum 128 8) 2 0) = some .or ∧
        s.streamNum 0 32 * s.streamNum 32 32 ≤ s.cfg.maxpix ∧ (s.streamNum 136 16).testBit 0 = false ∧
        (s.streamNum 136 16).testBit 1 = false ∧ (s.streamNum 136 16).testBit 15 = false ∧ s.streamNum 152 32 = 0 ∧
        24 < s.windowEnd ∧ s.streamByte 23 = 0xFF ∧ 0x8F < s.streamByte 24) ∧
      (let s := withSyms windowT4;
        let f := s.streamNum 136 16;
        let lines := linesOfLens ((List.range 35).map fun j => s.streamNum (200 + 4 * j) 4);
        s.Canonical ∧ s.windowOk = true ∧ s.refsOk = true ∧ s.refsUsable ∧ s.refSymbols.length ≤ s.cfg.maxsyms ∧
          (bitField (s.streamNum 128 8) 7 3 = 0 ∧ combOpOfCode (bitField (s.streamNum 128 8) 2 0) = some .or ∧
            s.streamNum 0 32 * s.streamNum 32 32 ≤ s.cfg.maxpix ∧ f.testBit 1 = false ∧ f.testBit 15 = false ∧
            f.testBit 0 = true ∧ s.streamNum 152 16 = 0 + 4 * 0 + 16 * 0 ∧
            s.streamNum 168 32 = ([2, 0].map (· + 1)).sum ∧ oversubscribed lines = false) ∧
          s.idLensAt (codesOf lines) [] 340 [1, 2, 2] 343 ∧ [1, 2, 2].length = s.refSymbols.length ∧
          oversubscribed (linesOfLens [1, 2, 2]) = false ∧ s.codedAt (stdTable 11) (8 * ((343 + 7) / 8)) (some 1) 345 ∧
          textT4.syms = s.refSymbols ∧ textT4.logStrips = bitField f 3 2 ∧
          textT4.refCorner = refCornerOfCode (bitField f 5 4) ∧ textT4.transposed = f.testBit 6 ∧
          combOpOfCode (bitField f 8 7) = some textT4.combOp ∧ textT4.dsOffset = sext 5 (bitField f 14 10) ∧
          (∃ st, s.stripsAt textT4 (stdTable 6) (stdTable 8) (stdTable 11) (codesOf (linesOfLens [1, 2, 2])) [2, 0]
            { reg := Bitmap.filled (s.streamNum 0 32) (s.streamNum 32 32) (f.testBit 9)
              stript := -(1 * 2 ^ textT4.logStrips), firsts := 0, curs := 0, n := 0 } 345 st 391) ∧
          391 ≤ 8 * s.windowEnd) := by
  refine ⟨⟨by decide +kernel, by decide +kernel, withSyms_usable _, by decide +kernel⟩,
    withSyms_canonical (by decide +kernel), by decide +kernel, by decide +kernel, withSyms_usable _, by decide +kernel,
    by decide +kernel, .literal (v := 1) (by decide) (codedAt_of_codes (q := 341) (by decide +kernel))
      (.literal (v := 2) (by decide) (codedAt_of_codes (q := 342) (by decide +kernel))
        (.literal (v := 2) (by decide) (codedAt_of_codes (by decide +kernel)) (.done _ _))),
    by decide +kernel, by decide +kernel, codedAt_of_codes (by decide +kernel), by decide +kernel, by decide +kernel,
    by decide +kernel, by decide +kernel, by decide +kernel, by decide +kernel, ?_, by decide +kernel⟩
  rw [show (withSyms windowT4).streamNum 0 32 = 16 by decide +kernel,
    show (withSyms windowT4).streamNum 32 32 = 12 by decide +kernel,
    show ((withSyms windowT4).streamNum 136 16).testBit 9 = false by decide +kernel]
  exact windowT4_strips

/-- Each of the four checks fails alone, at the ends of its range. -/
theorem witness_SegmentOperandChecks :
    Instr.segTables.isSegment = true ∧ Instr.segSd.isSegment = true ∧ Instr.segSd.readsRef = true ∧
      (let s : State := { bound [1, 2] with p0 := 256 }; s.cfg.nslot ≤ s.p0.toNat) ∧
      (let s : State := { bound [1, 2] with sp := 15 }; s.sp.toNat % 8 ≠ 0) ∧
      (let s : State := { bound [1, 2] with sp := 8 }; s.slen.toNat < s.sp.toNat / 8 + s.p1.toNat) ∧
      (let s : State := { bound [1, 2] with refn := 257 }; s.cfg.refmax < s.refn.toNat) ∧
      (let s : State := { bound [1, 2] with refn := 1, ref := [(0, 256)] };
        0 < s.refn.toNat ∧ s.cfg.nslot ≤ s.refAt 0) := by decide

/-- A dictionary that refers to an Empty slot and to a Region, a refinement without its one Region. -/
theorem witness_SegmentBadReference :
    (let s : State := { bound windowG9 with refn := 1, ref := [(0, 255)] };
      s.Canonical ∧ s.windowOk = true ∧ s.refsOk = true ∧ (∃ h ∈ s.refHandles, s.slot h = .empty) ∧ s.refn = 1 ∧
        ∀ b x y o, s.slot (s.refAt 0) ≠ .region b x y o) ∧
      (let s : State := boundRef windowG9 (.region sym0 0 0 .or);
        s.windowOk = true ∧ s.refsOk = true ∧ ∃ h ∈ s.refHandles, ∃ b x y o, s.slot h = .region b x y o) ∧
      (bound windowG9).refsOk = true ∧ (bound windowG9).refn ≠ 1 :=
  ⟨⟨canonical_of_lists rfl (by decide +kernel) all_nil, by decide +kernel, by decide +kernel,
      ⟨255, by decide +kernel, rfl⟩, rfl, fun _ _ _ _ h => nomatch h⟩,
    ⟨by decide +kernel, by decide +kernel, 3, by decide +kernel, sym0, 0, 0, .or, rfl⟩, by decide +kernel, by decide⟩

/-- An empty window for a command without references, with a dictionary, and with a Region. -/
theorem witness_SegmentOfNoBytes :
    Instr.segGrInt.isSegment = true ∧
      (let s := withSyms [];
        s.Canonical ∧ s.windowOk = true ∧ s.refsOk = true ∧ s.p1 = 0 ∧ s.refsUsable ∧
          s.refSymbols.length ≤ s.cfg.maxsyms) ∧
      (let s := boundRef [] (.region sym0 0 0 .or);
        s.windowOk = true ∧ s.refsOk = true ∧ s.p1 = 0 ∧ s.refn = 1 ∧
          ∃ b x y o, s.slot (s.refAt 0) = .region b x y o) :=
  ⟨rfl, ⟨withSyms_canonical (by decide +kernel), by decide +kernel, by decide +kernel, rfl, withSyms_usable _,
      by decide +kernel⟩, by decide +kernel, by decide +kernel, rfl, rfl, sym0, 0, 0, .or, rfl⟩

/-- Two states that differ in everything an earlier command may have left. -/
theorem witness_SegmentDependsOnItsInputs :
    (let s := bound windowG9;
      let s' : State :=
        { s with
          ad := { c := 1, a := 2, ct := 3, b := 4, bp := 5 }, advalid := true, idlen := 7, r0 := 8, r1 := 9, oob := true
          stdTab := [(1, stdTable 1)] };
      Instr.segGrImm.isSegment = true ∧ s.Canonical ∧ s'.Canonical ∧ s' ≠ s ∧ s'.cfg = s.cfg ∧ s'.p0 = s.p0 ∧
        s'.p1 = s.p1 ∧ s'.refn = s.refn ∧ s'.ref = s.ref ∧ s'.sp = s.sp ∧ s'.slen = s.slen ∧
        (∀ k, s.sp.toNat / 8 ≤ k → k < s.windowEnd → s'.streamByte k = s.streamByte k) ∧
        (∀ h ∈ s.refHandles, s'.slot h = s.slot h) ∧ s'.slot s.dst = s.slot s.dst) :=
  ⟨rfl, canonical_of_lists rfl (by decide +kernel) all_nil, canonical_of_lists rfl (by decide +kernel) all_nil,
    by decide +kernel, rfl, rfl, rfl, rfl, rfl, rfl, rfl, fun _ _ _ => rfl, fun _ _ => rfl, rfl⟩

/-- Both sides of each clause: a far corner and a near one, transposed and not. -/
theorem witness_TextPlacement :
    farCorner false .topRight = true ∧ farCorner false .bottomLeft = false ∧ farCorner true .bottomLeft = true ∧
      farCorner true .topRight = false := by decide

end Sys2Proof.Tests
end

section
/-! SUPPORT. What a command of each row of `10_state.md` R41 may have written, whatever its outcome: one relation between the
state before and the state after, proved once per command. -/

namespace Sys2Proof.Machine

/-- A procedure of which nothing is asked. -/
theorem Dec.keeps_any {α : Type} (p : Dec α) : Keeps (fun _ => True) anyError (fun _ => True) p := by
  intro w _
  cases p w <;> exact ⟨trivial, trivial⟩

/-! ## The rows of R41 -/

theorem footprintOf_sp (i : Instr) : (footprintOf i).sp = i.writesSp := by cases i <;> rfl

theorem footprintOf_r0 (i : Instr) : (footprintOf i).r0 = i.writesR0 := by cases i <;> rfl

theorem footprintOf_r1 (i : Instr) : (footprintOf i).r1 = i.writesR1 := by cases i <;> rfl

theorem footprintOf_oob (i : Instr) : (footprintOf i).oob = i.writesOob := by cases i <;> rfl

theorem footprintOf_ad (i : Instr) : (footprintOf i).ad = i.writesAd := by cases i <;> rfl

theorem footprintOf_segment (i : Instr) : (footprintOf i).segment = i.isSegment := by cases i <;> rfl

/-- IDLEN is unspecified after an error of a segment command only: `AD.CXRESET` writes it where it completes. -/
theorem footprintOf_idlen (i : Instr) : (footprintOf i).idlen = (i.writesIdlen && i.isSegment) := by cases i <;> rfl

theorem arrSel_of_arrOfSel {k : Nat} {n : Arr} (h : arrOfSel k = some n) : arrSel n = k := by
  unfold arrOfSel at h
  split at h <;> cases h <;> rfl

theorem arrOfSel_of_iaArr {k : Nat} {n : Arr} (h : iaArr k = some n) : arrOfSel k = some n := by
  unfold iaArr at h
  split at h
  · exact h
  · cases h

theorem writesArr_of_mem_footprintOf {i : Instr} {n : Arr} (h : n ∈ (footprintOf i).arrs) : i.writesArr n = true := by
  cases i with
  | segSd | segTrInt | segTrImm | segTrImml => rfl
  | segGrInt | segGrImm | segGrImml | segRrInt | segRrImm | segRrImml | iaidDecode =>
    exact decide_eq_true (List.mem_singleton.mp h)
  | adDecode a b => exact decide_eq_true (arrSel_of_arrOfSel (Option.mem_toList.mp h))
  | iaDecode a => exact decide_eq_true (arrSel_of_arrOfSel (arrOfSel_of_iaArr (Option.mem_toList.mp h)))
  | segTables | strmBind | strmSeek | strmReadbits | strmAlign | adInit | adCxreset | htStd | htDecode | bmCombine
  | bmNew => exact absurd h List.not_mem_nil

theorem writesDst_of_isSegment {i : Instr} (h : i.isSegment = true) : i.writesDst = true ∧ i.writesSp = true := by
  cases i <;> cases h <;> exact ⟨rfl, rfl⟩

/-- `t` differs from `s` in SBASE, SLEN, SP, R0, R1, RFLAGS, the decoder registers, IDLEN, STDTAB, the context arrays and
SEGSTORE only where the row of `i` allows it (`10_state.md` R41), and in SEGSTORE by one write of SEGSTORE[P0]. -/
structure WritesOnly (i : Instr) (s t : State) : Prop where
  binding : i ≠ .strmBind → s.BindingKept t
  sp : i.writesSp = false → t.sp = s.sp
  r0 : i.writesR0 = false → t.r0 = s.r0
  r1 : i.writesR1 = false → t.r1 = s.r1
  oob : i.writesOob = false → t.oob = s.oob
  ad : i.writesAd = false → t.ad = s.ad
  idlen : i.writesIdlen = false → t.idlen = s.idlen
  stdTab : i.writesStdTab = false → t.stdTab = s.stdTab
  arr : ∀ n, i.writesArr n = false → t.cx.arr n = s.cx.arr n
  store : t.segstore = s.segstore ∨
    i.writesDst = true ∧ ∃ v, t.segstore = sparseSetD .empty s.segstore s.dst v

theorem WritesOnly.raise (i : Instr) (s : State) {built : BitVec 16} (e : CoreError)
    (hb : i.writesStdTab = false → built = 0) : WritesOnly i s (s.raise i.opc (footprintOf i) built e) where
  binding _ := (State.raise_hostSide s _ _ _ _).2
  sp h := State.raise_sp _ _ _ _ _ (by rw [footprintOf_sp, h])
  r0 h := State.raise_r0 _ _ _ _ _ (by rw [footprintOf_r0, h])
  r1 h := State.raise_r1 _ _ _ _ _ (by rw [footprintOf_r1, h])
  oob h := State.raise_oob _ _ _ _ _ (by rw [footprintOf_oob, h])
  ad h := State.raise_ad _ _ _ _ _ (by rw [footprintOf_ad, h])
  idlen h := State.raise_idlen _ _ _ _ _ (by rw [footprintOf_idlen, h, Bool.false_and])
  stdTab h := by rw [State.raise_stdTab, hb h, commitBuilt_zero, ite_self]
  arr n h := State.raise_arr _ _ _ _ _ n fun hn => by rw [writesArr_of_mem_footprintOf hn] at h; cases h
  store := by
    rw [State.raise_segstore]
    split
    · rename_i he
      rw [footprintOf_segment] at he
      exact .inr ⟨(writesDst_of_isSegment he.2).1, _, rfl⟩
    · exact .inl rfl

theorem WritesOnly.commit (i : Instr) (s : State) {w : Work} (hb : i.writesStdTab = false → w.built = 0) :
    WritesOnly i s (s.commit (footprintOf i) w) where
  binding _ := ⟨rfl, rfl⟩
  sp h := by rw [State.commit_sp, footprintOf_sp, h, if_neg Bool.false_ne_true]
  r0 _ := rfl
  r1 _ := rfl
  oob _ := rfl
  ad h := by rw [State.commit_ad, footprintOf_ad, h, if_neg Bool.false_ne_true]
  idlen _ := rfl
  stdTab h := by rw [State.commit_stdTab, hb h, commitBuilt_zero]
  arr n h := by
    rw [State.commit_arr, if_neg fun hn => by rw [writesArr_of_mem_footprintOf hn] at h; cases h]
  store := .inl rfl

/-- A command of row `i` writes only what the row names, if its procedure uses no standard table the row does not
allow, and its rule's own writes stay in the row. -/
theorem runCommand_writesOnly {α : Type} {i : Instr} {body : Dec α} {post : α → State → State} {s t : State}
    {I : Work → Prop} {Q : α → Prop} (h : runCommand i.opc (footprintOf i) body post s = .next t)
    (hbody : Keeps I anyError Q body) (h0 : I s.work) (hI : ∀ w, I w → i.writesStdTab = false → w.built = 0)
    (hpost : ∀ v u, Q v → WritesOnly i s u → u.segstore = s.segstore → WritesOnly i s (post v u)) :
    WritesOnly i s t := by
  rcases runCommand_cases h with ⟨v, w, hv, rfl⟩ | ⟨e, w, he, rfl⟩
  · obtain ⟨hQ, hw⟩ := hbody.ok h0 hv
    exact { hpost v _ hQ (.commit i s (hI w hw)) rfl with }
  · exact .raise i s e (hI w (hbody.error h0 he).2)

/-- `runCommand_writesOnly` for a command that uses no standard table. -/
theorem runCommand_writesOnly_noTables {α : Type} {i : Instr} {body : Dec α} {post : α → State → State} {s t : State}
    {Q : α → Prop} (h : runCommand i.opc (footprintOf i) body post s = .next t)
    (hbody : Keeps (fun w => w.built = 0) anyError Q body)
    (hpost : ∀ v u, WritesOnly i s u → u.segstore = s.segstore → WritesOnly i s (post v u)) : WritesOnly i s t :=
  runCommand_writesOnly h hbody rfl (fun _ hw _ => hw) fun v u _ => hpost v u

/-- `runCommand_writesOnly` for a command that may write STDTAB: nothing is asked of its procedure. -/
theorem runCommand_writesOnly_tables {α : Type} {i : Instr} {body : Dec α} {post : α → State → State} {s t : State}
    (h : runCommand i.opc (footprintOf i) body post s = .next t) (hi : i.writesStdTab = true)
    (hpost : ∀ v u, WritesOnly i s u → u.segstore = s.segstore → WritesOnly i s (post v u)) : WritesOnly i s t :=
  runCommand_writesOnly h (Dec.keeps_any body) trivial
    (fun _ _ hf => by rw [hi] at hf; cases hf) fun v u _ => hpost v u

theorem WritesOnly.setSlot {i : Instr} {s u : State} (hi : i.writesDst = true) (hu : WritesOnly i s u)
    (hstore : u.segstore = s.segstore) (v : Slot) : WritesOnly i s (u.setSlot s.dst v) :=
  { hu with store := .inr ⟨hi, v, by rw [← hstore]; rfl⟩ }

theorem WritesOnly.finishSegment {i : Instr} {s u : State} {r : SegmentResult} (hi : i.isSegment = true)
    (hr : i.writesIdlen = false → r.idlen = none) (hu : WritesOnly i s u) (hstore : u.segstore = s.segstore) :
    WritesOnly i s (s.finishSegment r u) :=
  { hu.setSlot (writesDst_of_isSegment hi).1 hstore r.slot with
    sp := fun h => by rw [(writesDst_of_isSegment hi).2] at h; cases h
    idlen := fun h => by
      unfold State.finishSegment
      rw [hr h]
      exact hu.idlen h }

/-- A segment command writes its row, if its procedure names an IDLEN only where the row allows it. -/
theorem runSegment_writesOnly {i : Instr} {readsRef : Bool} {body : Dec SegmentResult} {s t : State}
    {I : Work → Prop} {Q : SegmentResult → Prop}
    (h : runSegment i.opc (footprintOf i) readsRef body s = .next t) (hi : i.isSegment = true)
    (hbody : Keeps I anyError Q body) (h0 : I s.work) (hI : ∀ w, I w → i.writesStdTab = false → w.built = 0)
    (hQ : ∀ r, Q r → i.writesIdlen = false → r.idlen = none) : WritesOnly i s t :=
  runCommand_writesOnly h
    ((Keeps.require fun _ => trivial).bind fun _ _ => (Keeps.require fun _ => trivial).bind fun _ _ => hbody) h0 hI
    fun r _ hr => .finishSegment hi (hQ r hr)

/-- Whatever its outcome, every command writes only what its row of R41 names. -/
theorem exec_writesOnly {i : Instr} {s t : State} (h : exec i s = .next t) : WritesOnly i s t := by
  unfold exec at h
  cases i with
  | segSd | segTrInt | segTrImm | segTrImml =>
    exact runSegment_writesOnly h rfl (Dec.keeps_any _) trivial (fun _ _ => nofun) fun _ _ => nofun
  | segGrInt | segGrImm | segGrImml =>
    exact runSegment_writesOnly h rfl (segGr_stable .noTables trivial trivial trivial) rfl (fun _ hw _ => hw)
      fun _ hr _ => hr.2
  | segRrInt | segRrImm | segRrImml =>
    exact runSegment_writesOnly h rfl (segRr_stable .noTables trivial trivial trivial trivial _) rfl
      (fun _ hw _ => hw) fun _ hr _ => hr.2
  | segTables =>
    exact runSegment_writesOnly h rfl (Q := fun r => r.idlen = none)
      ((parseTable_stable .noTables trivial trivial trivial).bind fun _ _ => .pure rfl) rfl (fun _ hw _ => hw)
      fun _ hr _ => hr
  | strmBind =>
    exact runCommand_writesOnly_noTables h (Keeps.require fun _ => trivial) fun _ _ hu _ =>
      { hu with binding := fun hne => absurd rfl hne, sp := nofun }
  | strmSeek =>
    exact runCommand_writesOnly_noTables h
      ((Keeps.require fun _ => trivial).bind fun _ _ => seekByte_stable .noTables _) fun _ _ hu _ => hu
  | strmReadbits a =>
    exact runCommand_writesOnly_noTables h
      ((Keeps.require fun _ => trivial).bind fun _ _ => readBits_stable .noTables trivial _) fun _ _ hu _ =>
      { hu with r0 := nofun, r1 := nofun }
  | strmAlign => exact runCommand_writesOnly_noTables h (alignByte_stable .noTables) fun _ _ hu _ => hu
  | adInit =>
    exact runCommand_writesOnly_noTables h
      ((Keeps.require fun _ => trivial).bind fun _ _ => adInitAt_stable .noTables trivial _) fun _ _ hu _ => { hu with }
  | adDecode a b =>
    refine runCommand_writesOnly_noTables (Q := fun _ => True) h
      ((Keeps.require fun _ => trivial).bind fun _ _ => ?_) fun _ _ hu _ => { hu with r0 := nofun }
    split
    · exact .throw trivial
    · exact (Keeps.require fun _ => trivial).bind fun _ _ => adDecode_stable .noTables trivial _ _
  | adCxreset a b =>
    refine runCommand_writesOnly_noTables h (Keeps.require fun _ => trivial) fun _ _ hu _ =>
      { hu with idlen := nofun, arr := fun n hn => ?_ }
    have hn : ¬cxresetCovers a.toNat n = true := Bool.eq_false_iff.mp hn
    exact (Contexts.arr_mapArr _ _ _).trans (if_neg hn)
  | iaDecode a =>
    refine runCommand_writesOnly_noTables (Q := fun _ => True) h
      ((Keeps.require fun _ => trivial).bind fun _ _ => ?_) fun v u hu _ => ?_
    · split
      · exact .throw trivial
      · exact iaDecode_keeps fun _ => adDecode_stable .noTables trivial _ _
    · cases v <;> exact { hu with r0 := nofun, oob := nofun }
  | iaidDecode =>
    exact runCommand_writesOnly_noTables h
      ((Keeps.require fun _ => trivial).bind fun _ _ =>
        iaidDecode_keeps (fun _ => adDecode_stable .noTables trivial _ _) _) fun _ _ hu _ =>
      { hu with r0 := nofun }
  | htStd a => exact runCommand_writesOnly_tables h rfl fun _ _ hu _ => hu
  | htDecode a =>
    refine runCommand_writesOnly_tables h rfl fun v u hu _ => ?_
    obtain ⟨v, n⟩ := v
    cases v <;> exact { hu with r0 := nofun, r1 := nofun, oob := nofun }
  | bmCombine a =>
    refine runCommand_writesOnly_noTables (Q := fun _ => True) h ?_ fun v _ hu hstore => hu.setSlot rfl hstore v
    split
    · exact .throw trivial
    · refine (Keeps.require fun _ => trivial).bind fun _ _ => ?_
      split
      · exact .pure trivial
      · exact .throw trivial
  | bmNew a =>
    exact runCommand_writesOnly_noTables (Q := fun _ => True) h
      ((Keeps.require fun _ => trivial).bind fun _ _ => (Keeps.require fun _ => trivial).bind fun _ _ =>
        (newBitmap_keeps trivial _ _ _).bind fun _ _ => .pure trivial) fun v _ hu hstore => hu.setSlot rfl hstore v

end Sys2Proof.Machine
end

section
/-! SUPPORT. What a step can do, and what every step keeps. -/

namespace Sys2Proof.Machine

/-! ## What a step can do -/

/-- The ways a step ends in a next state. -/
inductive StepCase (s t : State) : Prop
  | idle (hs : s.host = []) (ht : t = s)
  | command (v : Nat) (rest : List HostMove) (i : Instr) (hs : s.host = .write 0 v :: rest)
      (hd : decode (BitVec.ofNat 32 v) = .ok i)
      (ht : exec i { s with host := rest, cmd := BitVec.ofNat 32 v } = .next t)
  | refused (v : Nat) (rest : List HostMove) (e : CoreError) (hs : s.host = .write 0 v :: rest)
      (hd : decode (BitVec.ofNat 32 v) = .error e)
      (ht : t = { s with host := rest, cmd := BitVec.ofNat 32 v }.refuseWord (BitVec.ofNat 32 v) e)
  | write (n v : Nat) (rest : List HostMove) (hs : s.host = .write n v :: rest) (hn : n ≠ 0)
      (ht : t = { s with host := rest }.writeReg n v)
  | poke (addr : Nat) (byte : Byte) (rest : List HostMove) (hs : s.host = .poke addr byte :: rest)
      (ht : t = { s with host := rest, inmem := memPoke s.inmem addr byte })
  | reset (rest : List HostMove) (hs : s.host = .reset :: rest) (ht : t = { s with host := rest }.applyReset)

/-- A host write to any register but CMD. -/
theorem step_write {s : State} {n v : Nat} {rest : List HostMove} (hs : s.host = .write n v :: rest) (hn : n ≠ 0) :
    step s = .next ({ s with host := rest }.writeReg n v) := by
  unfold step
  rw [hs]
  cases n with
  | zero => exact absurd rfl hn
  | succ n => rfl

/-- The inversion of a step: one case per kind of host move. -/
theorem step_cases {s t : State} (h : step s = .next t) : StepCase s t := by
  cases hs : s.host with
  | nil =>
    unfold step at h
    rw [hs] at h
    cases h
    exact .idle hs rfl
  | cons m rest =>
    have h : { s with host := rest }.hostMove m = .next t := by
      unfold step at h
      rw [hs] at h
      exact h
    cases m with
    | write n v =>
      cases n with
      | zero =>
        have h : { s with host := rest }.writeCmd (BitVec.ofNat 32 v) = .next t := h
        unfold State.writeCmd at h
        cases hd : decode (BitVec.ofNat 32 v) with
        | ok i => rw [hd] at h; exact .command v rest i hs hd h
        | error e => rw [hd] at h; cases h; exact .refused v rest e hs hd rfl
      | succ n =>
        cases h
        exact .write (n + 1) v rest hs (Nat.succ_ne_zero n) rfl
    | poke addr byte =>
      dsimp only [State.hostMove] at h
      split at h <;> cases h
      exact .poke addr byte rest hs rfl
    | reset =>
      cases h
      exact .reset rest hs rfl

/-- A host write of a register other than CMD changes nothing but P0..P3, REFN and REF. -/
theorem State.writeReg_frame (s : State) (n v : Nat) :
    ∃ a b c d e f, s.writeReg n v = { s with p0 := a, p1 := b, p2 := c, p3 := d, refn := e, ref := f } := by
  unfold State.writeReg
  split
  case h_6 => split <;> exact ⟨_, _, _, _, _, _, rfl⟩
  all_goals exact ⟨_, _, _, _, _, _, rfl⟩

/-- What every command keeps, every refused word keeps, and no move of the host disturbs, every step keeps. -/
theorem step_keeps {P : State → Prop}
    (hmove : ∀ (s : State) host cmd p0 p1 p2 p3 refn ref inmem, P s →
      P { s with
        host := host, cmd := cmd, p0 := p0, p1 := p1, p2 := p2, p3 := p3, refn := refn, ref := ref, inmem := inmem })
    (hexec : ∀ i s t, P s → exec i s = .next t → P t) (hrefuse : ∀ s w e, P s → P (State.refuseWord s w e))
    (hreset : ∀ s, P s → P (State.applyReset s)) {s t : State} (hs : P s) (h : step s = .next t) : P t := by
  cases step_cases h with
  | idle _ ht => exact ht ▸ hs
  | command v rest i _ _ ht => exact hexec i _ t (hmove s _ _ _ _ _ _ _ _ _ hs) ht
  | refused v rest e _ _ ht => exact ht ▸ hrefuse _ _ e (hmove s _ _ _ _ _ _ _ _ _ hs)
  | write n v rest _ _ ht =>
    obtain ⟨a, b, c, d, e, f, hw⟩ := State.writeReg_frame { s with host := rest } n v
    rw [ht, hw]
    exact hmove s _ _ _ _ _ _ _ _ _ hs
  | poke addr byte rest _ ht => exact ht ▸ hmove s _ _ _ _ _ _ _ _ _ hs
  | reset rest _ ht => exact ht ▸ hreset _ (hmove s _ _ _ _ _ _ _ _ _ hs)

end Sys2Proof.Machine
end

section
/-! SUPPORT. The error record: the fields of FIRSTERR, and what a command leaves of ERR, ERRPOS and FIRSTERR. -/

namespace Sys2Proof.Machine

/-! ## FIRSTERR and the agreement of the error registers (`60_exceptions.md` R424, `10_state.md` R34) -/

theorem CoreError.code_ne_zero (e : CoreError) : e.code ≠ 0 := by cases e <;> decide

theorem CoreError.code_le (e : CoreError) : e.code ≤ 6 := by cases e <;> decide

/-- A field within the low byte of a word is a field of that byte. -/
theorem extractLsb'_low_byte (w : Word) (k n : Nat) (h : k + n ≤ 8) :
    w.extractLsb' k n = (opcField w).extractLsb' k n := by
  unfold opcField
  ext i hi
  simp only [BitVec.getElem_extractLsb', BitVec.getLsbD_extractLsb', Nat.zero_add]
  rw [decide_eq_true (by omega), Bool.true_and]

/-- The fields of the word FIRSTERR records. -/
theorem firstErrWord_fields (p0 : Word) (opc : BitVec 8) (e : CoreError) :
    (firstErrWord p0 opc e).extractLsb' 0 3 = e.code ∧ (firstErrWord p0 opc e).extractLsb' 3 5 = 0 ∧
      (firstErrWord p0 opc e).extractLsb' 8 8 = opc ∧
      (firstErrWord p0 opc e).extractLsb' 16 16 = p0.extractLsb' 0 16 := by
  obtain ⟨hlow, hopc, hp0⟩ := Laws.fields_of_parts (p0.extractLsb' 0 16) opc (e.code.setWidth 8)
  have hbyte : opcField (firstErrWord p0 opc e) = e.code.setWidth 8 := hlow
  refine ⟨?_, ?_, hopc, hp0⟩
  · rw [extractLsb'_low_byte _ _ _ (by decide), hbyte]
    cases e <;> decide
  · rw [extractLsb'_low_byte _ _ _ (by decide), hbyte]
    cases e <;> decide

theorem firstErrWord_ne_zero (p0 : Word) (opc : BitVec 8) (e : CoreError) : firstErrWord p0 opc e ≠ 0 := by
  intro h
  have hcode := (firstErrWord_fields p0 opc e).1
  rw [h] at hcode
  exact CoreError.code_ne_zero e hcode.symm

/-- STATUS, ERR and FIRSTERR agree (`10_state.md` R29, R30, R34). -/
structure RecordOk (s : State) : Prop where
  error_iff : s.status = .error ↔ s.err ≠ 0
  err_le : s.err ≤ 6
  first : s.status = .error → s.firstErr ≠ 0
  zeros : s.firstErr.extractLsb' 3 5 = 0

theorem RecordOk.raise {s : State} (hs : RecordOk s) (opc : BitVec 8) (fp : Footprint) (built : BitVec 16)
    (e : CoreError) : RecordOk (s.raise opc fp built e) where
  error_iff := ⟨fun _ => CoreError.code_ne_zero e, fun _ => rfl⟩
  err_le := CoreError.code_le e
  first _ := by
    rw [State.raise_firstErr]
    split
    · exact firstErrWord_ne_zero _ _ _
    · assumption
  zeros := by
    rw [State.raise_firstErr]
    split
    · exact (firstErrWord_fields _ _ _).2.1
    · exact hs.zeros

theorem RecordOk.done {s t : State} (hs : RecordOk s) (h : DoneFrame s t) : RecordOk t where
  error_iff := ⟨fun he => (nomatch h.status.symm.trans he), fun he => absurd h.err he⟩
  err_le := by rw [h.err]; decide
  first he := nomatch h.status.symm.trans he
  zeros := by
    obtain ⟨-, hfirst, -⟩ := h.record
    rw [hfirst]
    exact hs.zeros

/-- Every command leaves STATUS, ERR and FIRSTERR in agreement. -/
theorem exec_recordOk {i : Instr} {s t : State} (hs : RecordOk s) (h : exec i s = .next t) : RecordOk t := by
  rcases exec_ends h with ⟨e, built, rfl⟩ | hdone
  · exact hs.raise _ _ _ e
  · exact hs.done hdone

theorem State.raise_raised (s : State) (opc : BitVec 8) (fp : Footprint) (built : BitVec 16) (e : CoreError) :
    s.Raised (s.raise opc fp built e) opc e := ⟨rfl, rfl, rfl, rfl⟩

/-- A command completes with the error record as it was, or ends in an error that it records. -/
theorem exec_errorRecord {i : Instr} {s t : State} (h : exec i s = .next t) :
    s.RecordKept t ∧ t.status = .done ∨ ∃ e, s.Raised t i.opc e := by
  rcases exec_ends h with ⟨e, built, rfl⟩ | hdone
  · exact .inr ⟨e, State.raise_raised ..⟩
  · exact .inl ⟨hdone.record, hdone.status⟩

/-- FIRSTERR after an error is the one recorded before, or names this error (`10_state.md` R34). -/
theorem State.Raised.firstErr {s t : State} {opc : BitVec 8} {e : CoreError} (h : s.Raised t opc e) :
    (s.firstErr ≠ 0 → t.firstErr = s.firstErr) ∧
      (s.firstErr = 0 →
        t.firstErr.extractLsb' 0 3 = t.err ∧ t.firstErr.extractLsb' 3 5 = 0 ∧
          t.firstErr.extractLsb' 8 8 = opc ∧ t.firstErr.extractLsb' 16 16 = s.p0.extractLsb' 0 16) := by
  obtain ⟨-, herr, -, hfirst⟩ := h
  rw [hfirst, herr]
  exact ⟨fun h0 => if_neg h0, fun h0 => by rw [if_pos h0]; exact firstErrWord_fields _ _ _⟩

/-- The error record by the status a command leaves (`10_state.md` R31, R34). -/
theorem exec_record_of_status {i : Instr} {s t : State} (h : exec i s = .next t) :
    (t.status = .done → t.firstErr = s.firstErr ∧ t.errPos = s.errPos) ∧ (t.status = .error → t.errPos = s.sp) ∧
      (t.status = .error → s.firstErr = 0 →
        t.firstErr.extractLsb' 0 3 = t.err ∧ t.firstErr.extractLsb' 3 5 = 0 ∧
          t.firstErr.extractLsb' 8 8 = i.opc ∧ t.firstErr.extractLsb' 16 16 = s.p0.extractLsb' 0 16) := by
  rcases exec_errorRecord h with ⟨⟨hpos, hfirst, -⟩, hstatus⟩ | ⟨e, he⟩
  · exact ⟨fun _ => ⟨hfirst, hpos⟩, fun herr => (nomatch hstatus.symm.trans herr),
      fun herr => (nomatch hstatus.symm.trans herr)⟩
  · have hfirst := he.firstErr.2
    obtain ⟨hstatus, -, hpos, -⟩ := he
    exact ⟨fun hdone => (nomatch hstatus.symm.trans hdone), fun _ => hpos, fun _ => hfirst⟩

/-- No command changes a FIRSTERR that is not zero. -/
theorem exec_firstErr_sticky {i : Instr} {s t : State} (h : exec i s = .next t) (h0 : s.firstErr ≠ 0) :
    t.firstErr = s.firstErr := by
  rcases exec_errorRecord h with ⟨⟨-, hfirst, -⟩, -⟩ | ⟨e, he⟩
  · exact hfirst
  · exact he.firstErr.1 h0

/-- A step that does not reset keeps a FIRSTERR that is not zero, and the whole record where it starts no command. -/
theorem step_record {s t : State} (h : step s = .next t) (hreset : ∀ rest, s.host ≠ .reset :: rest) :
    (s.firstErr ≠ 0 → t.firstErr = s.firstErr) ∧
      ((∀ v rest, s.host ≠ .write 0 v :: rest) → t.firstErr = s.firstErr ∧ t.errPos = s.errPos) := by
  cases step_cases h with
  | idle _ ht =>
    subst ht
    exact ⟨fun _ => rfl, fun _ => ⟨rfl, rfl⟩⟩
  | command v rest i hs _ ht =>
    have hsticky := exec_firstErr_sticky ht
    exact ⟨hsticky, fun hcmd => absurd hs (hcmd v rest)⟩
  | refused v rest e hs _ ht =>
    subst ht
    exact ⟨(State.raise_raised { s with host := rest, cmd := BitVec.ofNat 32 v } _ noFootprint 0 e).firstErr.1,
      fun hcmd => absurd hs (hcmd v rest)⟩
  | write n v rest _ _ ht =>
    obtain ⟨a, b, c, d, e, f, hw⟩ := State.writeReg_frame { s with host := rest } n v
    rw [ht, hw]
    exact ⟨fun _ => rfl, fun _ => ⟨rfl, rfl⟩⟩
  | poke _ _ _ _ ht =>
    subst ht
    exact ⟨fun _ => rfl, fun _ => ⟨rfl, rfl⟩⟩
  | reset rest hs _ => exact absurd hs (hreset rest)

end Sys2Proof.Machine
end

section
/-! SUPPORT. The ranges of the registers: what a procedure that completes leaves of A, CT and the cursor, and that every command
keeps the ranges. -/

namespace Sys2Proof.Machine

/-! ## Preserves -/

/-- A run of `p` that completes from a working state with `I` ends in one with `I`. Nothing is said of an error: inside
RENORMD A is below 0x8000, and a refill may fail there. -/
def Preserves {α : Type} (I : Work → Prop) (p : Dec α) : Prop := ∀ w v w', I w → p w = .ok v w' → I w'

section
variable {α β : Type} {I : Work → Prop} {E : Env}

theorem Preserves.bind {p : Dec α} {f : α → Dec β} (hp : Preserves I p) (hf : ∀ v, Preserves I (f v)) :
    Preserves I (p >>= f) := by
  intro w v w' hw h
  obtain ⟨x, u, hx, h⟩ := Dec.bind_ok h
  exact hf x u v w' (hp w x u hw hx) h

theorem Preserves.pure (v : α) : Preserves I (pure v : Dec α) := by
  intro w r w' hw h
  exact (Dec.pure_ok h).2 ▸ hw

theorem Preserves.throw (e : CoreError) : Preserves I (throw e : Dec α) := fun _ _ _ _ h => nomatch h

theorem Preserves.require (c : Bool) (e : CoreError) : Preserves I (require c e) := by
  intro w v w' hw h
  exact (Dec.require_ok h).2 ▸ hw

/-! ### 0x8000 ≤ A and CT ≤ 8 (`41_arith.md` R147) -/

theorem renormD_interval {w w' : Work} {v : Unit} (h : renormD E w = .ok v w') (h1 : 1 ≤ w.ad.a.toNat)
    (h2 : w.ad.a.toNat < 0x8000) (hct : w.ad.ct.toNat ≤ 8) : IntervalOk w' := by
  obtain ⟨-, -, -, hi, -⟩ := renormUpTo_ok 16 h h2 (by omega) hct
  exact hi

/-- A - Qe does not wrap, and is at least 1: A ≥ 0x8000 and Qe ≤ 0x5601. -/
theorem interval_sub_qe {a : BitVec 16} (ha : 0x8000 ≤ a.toNat) (i : Fin 47) : 1 ≤ (a - (qe i).qe).toNat := by
  have hq := qe_range i
  rw [BitVec.toNat_sub_of_le (BitVec.le_def.mpr (by omega))]
  omega

/-- A bit decode that completes leaves A at 0x8000 or above: it subtracts without wrapping, and RENORMD doubles A where it
fell below. -/
theorem adDecode_interval (arr : Arr) (i : Nat) : Preserves IntervalOk (adDecode E arr i) := by
  intro w v w' ⟨ha, hct⟩ h
  unfold adDecode at h
  rw [Dec.run_bind, Dec.run_get] at h
  dsimp only at h
  have hq := qe_range ((w.cx.arr arr).entry i).idx
  have hrest := interval_sub_qe ha ((w.cx.arr arr).entry i).idx
  split at h
  · obtain ⟨_, u, hu, h⟩ := Dec.bind_ok h
    cases hu
    obtain ⟨_, u, hr, h⟩ := Dec.bind_ok h
    cases h
    exact renormD_interval hr hq.1 (lt_of_le_of_lt hq.2 (by decide)) hct
  · split at h
    · rename_i hlt
      obtain ⟨_, u, hu, h⟩ := Dec.bind_ok h
      cases hu
      obtain ⟨_, u, hr, h⟩ := Dec.bind_ok h
      cases h
      exact renormD_interval hr hrest hlt hct
    · rename_i hge
      cases h
      exact ⟨Nat.le_of_not_lt hge, hct⟩

theorem iaBitsOnto_interval (arr : Arr) : ∀ n prev r, Preserves IntervalOk (iaBitsOnto E arr n prev r)
  | 0, _, r => .pure r
  | n + 1, prev, _ => by
    unfold iaBitsOnto
    exact (adDecode_interval arr prev).bind fun _ => iaBitsOnto_interval arr n _ _

theorem iaMagnitude_interval (arr : Arr) : ∀ rows prev, Preserves IntervalOk (iaMagnitude E arr rows prev)
  | [], prev => (iaBitsOnto_interval arr 32 prev 0).bind fun _ => .pure _
  | (n, _) :: rows, prev => by
    unfold iaMagnitude
    refine (adDecode_interval arr prev).bind fun d => ?_
    split
    · exact iaMagnitude_interval arr rows _
    · exact (iaBitsOnto_interval arr n _ 0).bind fun _ => .pure _

theorem iaDecode_interval (arr : Arr) : Preserves IntervalOk (iaDecode E arr) :=
  (adDecode_interval arr 1).bind fun _ => (iaMagnitude_interval arr _ _).bind fun _ => .pure _

theorem iaidWalk_interval : ∀ n prev, Preserves IntervalOk (iaidWalk E n prev)
  | 0, prev => .pure prev
  | n + 1, prev => by
    unfold iaidWalk
    exact (adDecode_interval .iaid prev).bind fun _ => iaidWalk_interval n _

theorem iaidDecode_interval (n : Nat) : Preserves IntervalOk (iaidDecode E n) :=
  (iaidWalk_interval n 1).bind fun _ => .pure _

/-- A start of the decoder leaves A = 0x8000 and CT = 0 or 1 (`41_arith.md` R141). -/
theorem adInitAt_interval {i : Nat} {w w' : Work} {v : Unit} (h : adInitAt E i w = .ok v w') : IntervalOk w' := by
  obtain ⟨_, _, _, h⟩ := Dec.bind_ok h
  obtain ⟨_, _, _, h⟩ := Dec.bind_ok h
  obtain ⟨_, u, hin, h⟩ := Dec.bind_ok h
  obtain ⟨-, hct, -⟩ := byteIn_ok hin
  cases h
  refine ⟨le_refl _, ?_⟩
  rcases hct with hct | hct <;> (dsimp only; rw [hct]; decide)

/-! ### The cursor stays in the window (`10_state.md` R26) -/

/-- The cursor is inside the window, or at its end. -/
def CursorIn (E : Env) (w : Work) : Prop := w.sp ≤ 8 * E.we

theorem inByte_inside {i : Nat} {w w' : Work} {v : Byte} (h : inByte E i w = .ok v w') : i < E.we ∧ w' = w := by
  unfold inByte at h
  split at h <;> cases h
  exact ⟨by omega, rfl⟩

/-- A bit is read from a byte of the window only, so the cursor after it is at most the window's end. -/
theorem readBit_cursor : Preserves (CursorIn E) (readBit E) := by
  intro w v w' _ h
  obtain ⟨_, _, hg, h⟩ := Dec.bind_ok h
  obtain ⟨_, _, hb, h⟩ := Dec.bind_ok h
  obtain ⟨_, _, hset, h⟩ := Dec.bind_ok h
  cases hg
  obtain ⟨hlt, rfl⟩ := inByte_inside hb
  cases hset
  cases h
  unfold CursorIn
  dsimp only
  omega

theorem readBitsOnto_cursor : ∀ n r, Preserves (CursorIn E) (readBitsOnto E n r)
  | 0, r => .pure r
  | n + 1, _ => by
    unfold readBitsOnto
    exact readBit_cursor.bind fun _ => readBitsOnto_cursor n _

theorem readBits_cursor (n : Nat) : Preserves (CursorIn E) (readBits E n) := readBitsOnto_cursor n 0

theorem readCodeBit_cursor : Preserves (CursorIn E) (readCodeBit E) := by
  intro w v w' hw h
  unfold readCodeBit at h
  split at h <;> cases h
  exact readBit_cursor w v w' hw ‹_›

theorem htWalk_cursor (t : Table) : ∀ room len code, Preserves (CursorIn E) (htWalk E t room len code)
  | 0, _, _ => .throw _
  | room + 1, len, code => by
    unfold htWalk
    refine readCodeBit_cursor.bind fun d => ?_
    split
    · exact .pure _
    · exact htWalk_cursor t room _ _

theorem leafValue_cursor (l : Line) : Preserves (CursorIn E) (leafValue E l) := by
  unfold leafValue
  split
  · exact (readBits_cursor _).bind fun _ => .pure _
  · exact (readBits_cursor _).bind fun _ => .pure _
  · exact (readBits_cursor _).bind fun _ => .pure _
  · exact .pure _

theorem get_preserves : Preserves I get := fun _ _ _ hw h => by cases h; exact hw

theorem htDecodeCounted_cursor (t : Table) : Preserves (CursorIn E) (htDecodeCounted E t) :=
  get_preserves.bind fun _ => ((htWalk_cursor t _ _ _).bind fun _ => leafValue_cursor _).bind fun _ =>
    get_preserves.bind fun _ => .pure _

theorem std_cursor (n : Nat) : Preserves (CursorIn E) (std E n) := by
  intro w v w' hw h
  cases h
  exact hw

theorem htDecodeTable_cursor (s : State) (a : Nat) : Preserves (CursorIn s.streamEnv) (htDecodeTable s a) := by
  unfold htDecodeTable
  split
  · refine (Preserves.require _ _).bind fun _ => ?_
    split
    · exact .pure _
    · exact .throw _
    · exact .throw _
    · exact .throw _
  · exact std_cursor a

end

/-! ## The ranges of the registers -/

/-- The ranges of SBASE, SLEN, SP, IDLEN, and of A and CT while ADVALID. -/
structure RangesOk (s : State) : Prop where
  valid : s.cfg.Valid
  stream : s.sbase.toNat + s.slen.toNat ≤ s.cfg.inmemSize
  sp : s.sp.toNat ≤ 8 * s.slen.toNat
  idlen : s.idlen.toNat ≤ ceilLog2 s.cfg.maxsyms
  interval : s.advalid = true → 0x8000 ≤ s.ad.a ∧ s.ad.ct ≤ 8

theorem registersOk_iff (s : State) : s.RegistersOk ↔ RangesOk s ∧ RecordOk s :=
  ⟨fun ⟨h1, h2, h3, h4, h5, h6, h7, h8, h9⟩ => ⟨⟨h1, h2, h3, h4, h5⟩, h6, h7, h8, h9⟩,
    fun ⟨⟨h1, h2, h3, h4, h5⟩, h6, h7, h8, h9⟩ => ⟨h1, h2, h3, h4, h5, h6, h7, h8, h9⟩⟩

/-- An IllegalCommand leaves the decoder as it was; any other error clears ADVALID. -/
theorem State.raise_interval {s : State} (hs : s.advalid = true → 0x8000 ≤ s.ad.a ∧ s.ad.ct ≤ 8) (opc : BitVec 8)
    (fp : Footprint) (built : BitVec 16) (e : CoreError) (h : (s.raise opc fp built e).advalid = true) :
    0x8000 ≤ (s.raise opc fp built e).ad.a ∧ (s.raise opc fp built e).ad.ct ≤ 8 := by
  by_cases he : e = .illegalCommand
  · subst he
    exact hs h
  · rw [State.raise_advalid, if_neg he] at h
    cases h

theorem RangesOk.raise {s : State} (hs : RangesOk s) (opc : BitVec 8) (fp : Footprint) (built : BitVec 16)
    (e : CoreError) : RangesOk (s.raise opc fp built e) where
  valid := by rw [State.raise_cfg]; exact hs.valid
  stream := by rw [State.raise_cfg, State.raise_sbase, State.raise_slen]; exact hs.stream
  sp := by rw [State.raise_slen]; exact State.raise_sp_le s opc fp built e hs.sp
  idlen := by rw [State.raise_cfg]; exact State.raise_idlen_le s opc fp built e hs.idlen
  interval := State.raise_interval hs.interval opc fp built e

theorem toNat_ofNat_le {n v m : Nat} (h : v ≤ m) : (BitVec.ofNat n v).toNat ≤ m := by
  rw [BitVec.toNat_ofNat]
  exact (Nat.mod_le _ _).trans h

theorem ceilLog2_mono {m n : Nat} (h : m ≤ n) : ceilLog2 m ≤ ceilLog2 n := by
  unfold ceilLog2
  split
  · exact Nat.zero_le _
  · rw [if_neg (by omega), Nat.log2_eq_log_two, Nat.log2_eq_log_two]
    exact Nat.succ_le_succ (Nat.log_mono_right (Nat.sub_le_sub_right h 1))

/-- A committed command keeps the ranges if what it may write is in range. -/
theorem RangesOk.commit {s : State} (hs : RangesOk s) (fp : Footprint) (w : Work)
    (hsp : fp.sp = true → w.sp ≤ 8 * s.slen.toNat)
    (had : fp.ad = true → s.advalid = true → IntervalOk w) : RangesOk (s.commit fp w) where
  valid := hs.valid
  stream := hs.stream
  sp := by
    rw [State.commit_sp, State.commit_slen]
    split
    · exact toNat_ofNat_le (hsp ‹_›)
    · exact hs.sp
  idlen := hs.idlen
  interval h := by
    rw [State.commit_ad]
    split
    · exact had ‹_› h
    · exact hs.interval h

/-- A command keeps the ranges if it does where it completes. -/
theorem runCommand_rangesOk {α : Type} {opc : BitVec 8} {fp : Footprint} {body : Dec α} {post : α → State → State}
    {s t : State} (h : runCommand opc fp body post s = .next t) (hs : RangesOk s)
    (hdone : ∀ v w, body s.work = .ok v w → RangesOk (post v (s.commit fp w))) : RangesOk t := by
  rcases runCommand_cases h with ⟨v, w, hv, rfl⟩ | ⟨e, w, -, rfl⟩
  · exact { hdone v w hv with }
  · exact hs.raise opc fp w.built e

/-- A segment command keeps the ranges if the IDLEN its procedure names is in range: its cursor is the end of a window that
R96 checked, and ADVALID is cleared. -/
theorem runSegment_rangesOk {opc : BitVec 8} {fp : Footprint} {readsRef : Bool} {body : Dec SegmentResult} {s t : State}
    {Q : SegmentResult → Prop} (h : runSegment opc fp readsRef body s = .next t) (hs : RangesOk s)
    (hbody : Keeps (fun _ => True) anyError Q body)
    (hid : ∀ r n, Q r → r.idlen = some n → n ≤ ceilLog2 s.cfg.maxsyms) : RangesOk t := by
  rcases runSegment_cases h with ⟨hwin, -, r, w, hr, rfl⟩ | ⟨-, -, e, w, -, rfl⟩ | ⟨-, rfl⟩
  · refine ⟨hs.valid, hs.stream, toNat_ofNat_le ?_, ?_, nofun⟩
    · unfold State.windowOk at hwin
      simp only [Bool.and_eq_true, decide_eq_true_eq] at hwin
      exact Nat.mul_le_mul_left 8 hwin.2
    · show (State.finishSegment s r _).idlen.toNat ≤ _
      unfold State.finishSegment
      have hQ := (hbody.ok trivial hr).1
      cases hn : r.idlen with
      | none => exact hs.idlen
      | some n => exact toNat_ofNat_le (hid r n hQ hn)
  · exact hs.raise opc fp w.built e
  · exact hs.raise opc fp 0 _

/-- The IDLEN that a legal `AD.CXRESET` sets is in range (`41_arith.md` R146). -/
theorem cxresetOk_le {a b m : Nat} (h : cxresetOk a b m = true) (ha : ¬a ≤ 14) : b ≤ ceilLog2 m := by
  unfold cxresetOk at h
  rw [if_neg ha] at h
  split at h
  · exact of_decide_eq_true h
  · cases h

/-- Every command keeps the registers in their ranges. -/
theorem exec_rangesOk {i : Instr} {s t : State} (hs : RangesOk s) (h : exec i s = .next t) : RangesOk t := by
  unfold exec at h
  cases i with
  | segSd =>
    refine runSegment_rangesOk h hs (segSd_stable .trivial _ fun _ _ _ _ _ => trivial) fun r m hr hm => ?_
    obtain ⟨_, _, n, _, hn, hle, _⟩ := hr
    cases hn.symm.trans hm
    exact ceilLog2_mono hle
  | segTrInt | segTrImm | segTrImml =>
    refine runSegment_rangesOk h hs (segTr_stable .trivial _) fun r m hr hm => ?_
    obtain ⟨_, hn, hle⟩ := hr
    cases hn.symm.trans hm
    exact ceilLog2_mono hle
  | segGrInt | segGrImm | segGrImml =>
    exact runSegment_rangesOk h hs (segGr_stable StableAll.trivial.toStable trivial trivial trivial)
      fun r m hr hm => nomatch hr.2.symm.trans hm
  | segRrInt | segRrImm | segRrImml =>
    exact runSegment_rangesOk h hs (segRr_stable StableAll.trivial.toStable trivial trivial trivial trivial _)
      fun r m hr hm => nomatch hr.2.symm.trans hm
  | segTables =>
    exact runSegment_rangesOk h hs (Q := fun r => r.idlen = none)
      ((parseTable_stable StableAll.trivial.toStable trivial trivial trivial).bind fun _ _ => .pure rfl)
      fun r m hr hm => nomatch hr.symm.trans hm
  | strmBind =>
    refine runCommand_rangesOk h hs fun _ w hw => ?_
    have hfit := of_decide_eq_true (Dec.require_ok hw).1
    exact ⟨hs.valid, hfit, Nat.zero_le _, hs.idlen, nofun⟩
  | strmSeek =>
    refine runCommand_rangesOk h hs fun _ w hw => ?_
    obtain ⟨_, u, hreq, hseek⟩ := Dec.bind_ok hw
    have hfit := of_decide_eq_true (Dec.require_ok hreq).1
    cases hseek
    exact hs.commit _ _ (fun _ => Nat.mul_le_mul_left 8 hfit) nofun
  | strmReadbits a =>
    refine runCommand_rangesOk h hs fun _ w hw => ?_
    have hcur : CursorIn s.streamEnv w :=
      ((Preserves.require _ _).bind fun _ => readBits_cursor _) s.work _ w hs.sp hw
    exact { hs.commit readbitsFootprint w (fun _ => hcur) nofun with }
  | strmAlign =>
    refine runCommand_rangesOk h hs fun _ w hw => ?_
    cases hw
    refine hs.commit _ _ (fun _ => ?_) nofun
    have := hs.sp
    show 8 * ((s.sp.toNat + 7) / 8) ≤ _
    omega
  | adInit =>
    refine runCommand_rangesOk h hs fun _ w hw => ?_
    obtain ⟨_, u, hreq, hinit⟩ := Dec.bind_ok hw
    exact { hs.commit adInitFootprint w nofun fun _ _ => adInitAt_interval hinit with
      interval := fun _ => adInitAt_interval hinit }
  | adDecode a b =>
    refine runCommand_rangesOk h hs fun _ w hw => ?_
    refine { hs.commit (adDecodeFootprint (arrOfSel a.toNat).toList) w nofun fun _ hv => ?_ with }
    refine ((Preserves.require _ _).bind fun _ => ?_) s.work _ w (hs.interval hv) hw
    split
    · exact .throw _
    · exact (Preserves.require _ _).bind fun _ => adDecode_interval _ _
  | adCxreset a b =>
    refine runCommand_rangesOk h hs fun _ w hw => ?_
    have hok := (Dec.require_ok hw).1
    refine { hs.commit noFootprint w nofun nofun with idlen := ?_ }
    dsimp only
    split
    · exact hs.idlen
    · exact toNat_ofNat_le (cxresetOk_le hok ‹_›)
  | iaDecode a =>
    refine runCommand_rangesOk h hs fun v w hw => ?_
    have hcommit : RangesOk (s.commit (iaDecodeFootprint (iaArr a.toNat).toList) w) := by
      refine hs.commit _ w nofun fun _ hv => ?_
      refine ((Preserves.require _ _).bind fun _ => ?_) s.work _ w (hs.interval hv) hw
      split
      · exact .throw _
      · exact iaDecode_interval _
    cases v <;> exact { hcommit with }
  | iaidDecode =>
    refine runCommand_rangesOk h hs fun _ w hw => ?_
    refine { hs.commit (adDecodeFootprint [.iaid]) w nofun fun _ hv => ?_ with }
    exact ((Preserves.require _ _).bind fun _ => iaidDecode_interval _) s.work _ w (hs.interval hv) hw
  | htStd a => exact runCommand_rangesOk h hs fun _ w _ => hs.commit _ w nofun nofun
  | htDecode a =>
    refine runCommand_rangesOk h hs fun v w hw => ?_
    have hcur : CursorIn s.streamEnv w :=
      ((Preserves.require _ _).bind fun _ => (htDecodeTable_cursor s _).bind fun _ => htDecodeCounted_cursor _)
        s.work _ w hs.sp hw
    have hcommit := hs.commit htDecodeFootprint w (fun _ => hcur) nofun
    obtain ⟨v, n⟩ := v
    cases v <;> exact { hcommit with }
  | bmCombine a | bmNew a =>
    exact runCommand_rangesOk h hs fun _ w _ => { hs.commit noFootprint w nofun nofun with }

end Sys2Proof.Machine
end

section
/-! SUPPORT. No code that R192 assigns begins another (`43_huffman.md` R191 to R193). -/

namespace Sys2Proof.Machine

/-- The number of lines of length `j` among `t`, as R192 counts the codes given so far. -/
abbrev lenSeen (t : Table) (j : Nat) : Nat := t.countP fun l => l.preflen = j

theorem lenCount_eq_lenSeen (t : Table) {j : Nat} (h : j ≠ 0) : lenCount t j = lenSeen t j := if_neg h

/-- The codes of a length begin after the extensions of all codes of a shorter length `j`. -/
theorem firstCode_gap (t : Table) (j n : Nat) :
    (firstCode t j + lenCount t j) * 2 ^ (n + 1) ≤ firstCode t (j + (n + 1)) := by
  induction n with
  | zero => exact le_of_eq rfl
  | succ n ih =>
    calc (firstCode t j + lenCount t j) * 2 ^ (n + 1 + 1)
        = (firstCode t j + lenCount t j) * 2 ^ (n + 1) * 2 := by rw [pow_succ, Nat.mul_assoc]
      _ ≤ (firstCode t (j + (n + 1)) + lenCount t (j + (n + 1))) * 2 :=
        Nat.mul_le_mul_right 2 (ih.trans (Nat.le_add_right _ _))

/-- The code of a line is one of the codes of its length, of which there are as many as lines of that length. -/
def Line.CodeIn (t : Table) (l : Line) : Prop :=
  ∀ c, l.code = some c → firstCode t l.preflen ≤ c ∧ c < firstCode t l.preflen + lenCount t l.preflen

/-- No code begins a longer one: the first bits of the longer one are past the codes of the shorter length. -/
theorem Line.CodeIn.shiftRight_ne {t : Table} {l m : Line} {c d : Nat} (hl : l.CodeIn t) (hm : m.CodeIn t)
    (hc : l.code = some c) (hd : m.code = some d) (hlen : l.preflen < m.preflen) :
    d >>> (m.preflen - l.preflen) ≠ c := by
  obtain ⟨n, hn⟩ : ∃ n, m.preflen = l.preflen + (n + 1) := ⟨m.preflen - l.preflen - 1, by omega⟩
  have hgap := firstCode_gap t l.preflen n
  rw [← hn] at hgap
  have hpast : firstCode t l.preflen + lenCount t l.preflen ≤ d >>> (m.preflen - l.preflen) := by
    rw [Nat.shiftRight_eq_div_pow, Nat.le_div_iff_mul_le (Nat.two_pow_pos _), hn, Nat.add_sub_cancel_left]
    exact hgap.trans (hm d hd).1
  have := (hl c hc).2
  omega

/-- Two lines whose codes differ where their lengths agree are apart. -/
theorem Line.CodeIn.apart {t : Table} {l m : Line} (hl : l.CodeIn t) (hm : m.CodeIn t)
    (hne : l.preflen = m.preflen → ∀ c d, l.code = some c → m.code = some d → c ≠ d) : l.Apart m := by
  intro c d hc hd
  rcases Nat.lt_trichotomy l.preflen m.preflen with hlt | heq | hgt
  · exact ⟨fun h => hl.shiftRight_ne hm hc hd hlt h.2, fun h => absurd h.1 (by omega)⟩
  · have hcd := hne heq c d hc hd
    rw [heq, Nat.sub_self]
    exact ⟨fun h => hcd h.2.symm, fun h => hcd h.2⟩
  · exact ⟨fun h => absurd h.1 (by omega), fun h => hm.shiftRight_ne hl hd hc hgt h.2⟩

/-- A line with a code keeps its length, which is not 0, and its code comes after those of the lines before it. -/
theorem mem_assignFrom {t : Table} {m : Line} :
    ∀ {rest seen : Table}, m ∈ assignFrom t seen rest → ∀ d, m.code = some d →
      m.preflen ≠ 0 ∧ firstCode t m.preflen + lenSeen seen m.preflen ≤ d ∧
        d < firstCode t m.preflen + lenSeen (seen ++ rest) m.preflen
  | [], _, h, _, _ => nomatch h
  | l :: rest, seen, h, d, hd => by
    unfold assignFrom at h
    rcases List.mem_cons.mp h with rfl | h
    · dsimp only at hd ⊢
      split at hd <;> cases hd
      refine ⟨‹_›, le_refl _, ?_⟩
      simp only [lenSeen, List.countP_append, List.countP_cons, decide_true, if_true]
      omega
    · obtain ⟨h0, hlow, hhigh⟩ := mem_assignFrom h d hd
      simp only [lenSeen, List.countP_append, List.append_assoc, List.singleton_append] at hlow hhigh ⊢
      exact ⟨h0, by omega, hhigh⟩

theorem codeIn_of_mem_assignFrom {t rest seen : Table} {m : Line} (ht : seen ++ rest = t)
    (h : m ∈ assignFrom t seen rest) : m.CodeIn t := by
  intro d hd
  obtain ⟨h0, hlow, hhigh⟩ := mem_assignFrom h d hd
  rw [ht] at hhigh
  rw [lenCount_eq_lenSeen t h0]
  exact ⟨by omega, hhigh⟩

/-- The lines still to come get later codes of the same length, or codes of other lengths. -/
theorem assignFrom_prefixFree {t : Table} :
    ∀ {rest seen : Table}, seen ++ rest = t → Table.PrefixFree (assignFrom t seen rest)
  | [], _, _ => .nil
  | l :: rest, seen, ht => by
    have ht' : (seen ++ [l]) ++ rest = t := by rw [List.append_assoc]; exact ht
    have hhead := fun m hm => codeIn_of_mem_assignFrom (m := m) ht hm
    unfold assignFrom at hhead ⊢
    refine List.pairwise_cons.mpr ⟨fun m hm => ?_, assignFrom_prefixFree ht'⟩
    refine (hhead _ (List.mem_cons_self ..)).apart (codeIn_of_mem_assignFrom ht' hm) fun hlen c d hc hd => ?_
    obtain ⟨-, hlow, -⟩ := mem_assignFrom hm d hd
    dsimp only at hlen hc
    split at hc <;> cases hc
    simp only [lenSeen, List.countP_append, List.countP_singleton, ← hlen, decide_true, if_true] at hlow
    omega

/-- No code that R192 assigns begins another, whether the table is oversubscribed or not. -/
theorem codesOf_prefixFree (t : Table) : Table.PrefixFree (codesOf t) := assignFrom_prefixFree rfl

theorem assignFrom_length (t : Table) : ∀ seen rest : Table, (assignFrom t seen rest).length = rest.length
  | _, [] => rfl
  | seen, l :: rest => congrArg (· + 1) (assignFrom_length t (seen ++ [l]) rest)

@[simp] theorem codesOf_length (t : Table) : (codesOf t).length = t.length := assignFrom_length t [] t

end Sys2Proof.Machine
end

section
/-! SUPPORT. The capacities of the segment store: every command keeps them. -/

namespace Sys2Proof.Machine

/-! ## The capacities (`10_state.md` R44, `60_exceptions.md` R438) -/

theorem sparseSetD_rising {α : Type} [DecidableEq α] {d : α} {m : List (Nat × α)} (hm : SparseRising m) (i : Nat)
    (v : α) : SparseRising (sparseSetD d m i v) := by
  unfold sparseSetD
  split
  · exact sparseDrop_rising hm i
  · exact sparsePut_rising hm i v

/-- A slot depends on SEGSTORE only. -/
theorem State.slot_congr {s t : State} (hstore : t.segstore = s.segstore) (k : Nat) : t.slot k = s.slot k :=
  congrArg (sparseGetD Slot.empty · k) hstore

/-- What the slots read as where SEGSTORE differs by one write. -/
theorem State.slot_of_write {s t : State} {h : Nat} {v : Slot} (hrise : SparseRising s.segstore)
    (hstore : t.segstore = sparseSetD .empty s.segstore h v) (k : Nat) :
    t.slot k = if h = k then v else s.slot k := by
  rw [State.slot_congr (s := s.setSlot h v) hstore, State.slot_setSlot s hrise]

theorem three_le_maxlines {p : Params} (hp : p.Valid) : 3 ≤ p.maxlines := by
  obtain ⟨-, -, -, -, -, -, -, -, -, h⟩ := hp
  exact h

theorem State.SlotsFit.of_store {s t : State} (hs : s.SlotsFit) (hcfg : t.cfg = s.cfg)
    (hstore : t.segstore = s.segstore) : t.SlotsFit :=
  ⟨hcfg ▸ hs.1, fun k => by rw [State.slot_congr hstore, hcfg]; exact hs.2 k⟩

/-- One write of a value within the capacities keeps the store within them. -/
theorem State.SlotsFit.of_write {s t : State} {h : Nat} {v : Slot} (hs : s.SlotsFit) (hrise : SparseRising s.segstore)
    (hv : v.Fits s.cfg) (hcfg : t.cfg = s.cfg) (hstore : t.segstore = sparseSetD .empty s.segstore h v) :
    t.SlotsFit := by
  refine ⟨hcfg ▸ hs.1, fun k => ?_⟩
  rw [State.slot_of_write hrise hstore, hcfg]
  split
  · exact hv
  · exact hs.2 k

theorem State.SlotsFit.raise {s : State} (hs : s.SlotsFit) (hrise : SparseRising s.segstore) (opc : BitVec 8)
    (fp : Footprint) (built : BitVec 16) (e : CoreError) : (s.raise opc fp built e).SlotsFit := by
  have hstore := State.raise_segstore s opc fp built e
  split at hstore
  · exact hs.of_write hrise (v := .empty) trivial (State.raise_cfg ..) hstore
  · exact hs.of_store (State.raise_cfg ..) hstore

/-- The symbols the references supply are within the capacity. -/
theorem State.SlotsFit.symbols {s : State} (hs : s.SlotsFit) {b : Bitmap}
    (hb : b ∈ s.refSlots.flatMap Slot.symbols) : b.Fits s.cfg := by
  obtain ⟨v, hv, hb⟩ := List.mem_flatMap.mp hb
  obtain ⟨h, -, rfl⟩ := List.mem_map.mp hv
  have hfit := hs.2 h
  cases hslot : s.slot h with
  | symDict syms ret =>
    rw [hslot] at hb hfit
    exact hfit.2 b hb
  | empty | table | region =>
    rw [hslot] at hb
    exact absurd hb List.not_mem_nil

/-- A command that writes SEGSTORE[P0] keeps the store within the capacities if the value it writes is. -/
theorem runCommand_slotsFit {α : Type} {opc : BitVec 8} {fp : Footprint} {body : Dec α} {post : α → State → State}
    {s t : State} {Q : α → Prop} {val : α → Slot} (h : runCommand opc fp body post s = .next t) (hs : s.SlotsFit)
    (hrise : SparseRising s.segstore) (hbody : Keeps (fun _ => True) anyError Q body)
    (hval : ∀ v, Q v → (val v).Fits s.cfg)
    (hpost : ∀ v u, (post v u).cfg = u.cfg ∧ (post v u).segstore = sparseSetD .empty u.segstore s.dst (val v)) :
    t.SlotsFit := by
  rcases runCommand_cases h with ⟨v, w, hv, rfl⟩ | ⟨e, w, -, rfl⟩
  · exact hs.of_write hrise (hval v (hbody.ok trivial hv).1) (hpost v _).1 (hpost v _).2
  · exact hs.raise hrise opc fp w.built e

/-- A segment command keeps the store within the capacities if its result is. -/
theorem runSegment_slotsFit {opc : BitVec 8} {fp : Footprint} {readsRef : Bool} {body : Dec SegmentResult} {s t : State}
    {Q : SegmentResult → Prop} (h : runSegment opc fp readsRef body s = .next t) (hs : s.SlotsFit)
    (hrise : SparseRising s.segstore) (hbody : Keeps (fun _ => True) anyError Q body)
    (hval : ∀ r, Q r → r.slot.Fits s.cfg) : t.SlotsFit :=
  runCommand_slotsFit h hs hrise
    ((Keeps.require fun _ => trivial).bind fun _ _ => (Keeps.require fun _ => trivial).bind fun _ _ => hbody) hval
    fun _ _ => ⟨rfl, rfl⟩

/-- `BM.COMBINE` writes a Region of its destination's size. -/
theorem combine_fits {cfg : Params} {d : Bitmap} (hd : d.Fits cfg) (src : Bitmap) (x0 y0 : Int) (op : CombOp) :
    (combine d src x0 y0 op).Fits cfg :=
  (combine_size d src x0 y0 op).fits hd

theorem Slot.fits_of_region {cfg : Params} {v : Slot}
    (h : ∃ b x y op, v = .region b x y op ∧ b.Fits cfg) : v.Fits cfg := by
  obtain ⟨b, x, y, op, rfl, hfit⟩ := h
  exact hfit

theorem exec_cfg {i : Instr} {s t : State} (h : exec i s = .next t) : t.cfg = s.cfg := by
  rcases exec_ends h with ⟨e, built, rfl⟩ | hdone
  · exact State.raise_cfg ..
  · exact hdone.host.1

/-- Every command keeps the segment store within the capacities. -/
theorem exec_slotsFit {i : Instr} {s t : State} (hs : s.SlotsFit) (hrise : SparseRising s.segstore)
    (h : exec i s = .next t) : t.SlotsFit := by
  have hcfg := exec_cfg h
  have hstore := (exec_writesOnly h).store
  unfold exec at h
  cases i with
  | segSd =>
    refine runSegment_slotsFit h hs hrise (segSd_stable .trivial _ fun _ _ _ _ _ => trivial) fun r hr => ?_
    obtain ⟨syms, ret, n, hslot, -, hmax, hlen, hsyms, -⟩ := hr
    rw [hslot]
    exact ⟨hlen.trans hmax, fun b hb => (hsyms b hb).elim hs.symbols id⟩
  | segTrInt | segTrImm | segTrImml =>
    exact runSegment_slotsFit h hs hrise (segTr_stable .trivial _) fun r hr => Slot.fits_of_region hr.1
  | segGrInt | segGrImm | segGrImml =>
    exact runSegment_slotsFit h hs hrise (segGr_stable StableAll.trivial.toStable trivial trivial trivial)
      fun r hr => Slot.fits_of_region hr.1
  | segRrInt | segRrImm | segRrImml =>
    exact runSegment_slotsFit h hs hrise (segRr_stable StableAll.trivial.toStable trivial trivial trivial trivial _)
      fun r hr => Slot.fits_of_region hr.1
  | segTables =>
    refine runSegment_slotsFit h hs hrise (Q := fun r => r.slot.Fits s.cfg)
      ((parseTable_stable StableAll.trivial.toStable trivial trivial trivial).bind fun T hT => .pure ?_) fun _ hr => hr
    obtain ⟨u, rfl, -, hlen⟩ := hT
    refine ⟨?_, codesOf_prefixFree u⟩
    rw [codesOf_length]
    exact hlen.trans (max_le (three_le_maxlines hs.1) (le_refl _))
  | bmCombine a =>
    refine runCommand_slotsFit (Q := fun v => v.Fits s.cfg) (val := id) h hs hrise ?_ (fun _ hv => hv)
      fun _ _ => ⟨rfl, rfl⟩
    split
    · exact .throw trivial
    · refine (Keeps.require fun _ => trivial).bind fun _ _ => ?_
      split
      · rename_i hdst _
        have hfit := hs.2 s.dst
        rw [hdst] at hfit
        exact .pure (combine_fits hfit _ _ _ _)
      · exact .throw trivial
  | bmNew a =>
    exact runCommand_slotsFit (Q := fun v => v.Fits s.cfg) (val := id) h hs hrise
      ((Keeps.require fun _ => trivial).bind fun _ _ => (Keeps.require fun _ => trivial).bind fun _ _ =>
        (newBitmap_keeps (cfg := s.cfg) trivial _ _ _).bind fun _ hb => .pure hb.2) (fun _ hv => hv)
      fun _ _ => ⟨rfl, rfl⟩
  | strmBind | strmSeek | strmReadbits | strmAlign | adInit | adDecode | adCxreset | iaDecode | iaidDecode | htStd
  | htDecode => exact hs.of_store hcfg (hstore.resolve_right fun hw => nomatch hw.1)

/-- Every command keeps SEGSTORE's handles rising. -/
theorem exec_store_rising {i : Instr} {s t : State} (hrise : SparseRising s.segstore) (h : exec i s = .next t) :
    SparseRising t.segstore := by
  rcases (exec_writesOnly h).store with hstore | ⟨-, v, hstore⟩
  · exact hstore ▸ hrise
  · exact hstore ▸ sparseSetD_rising hrise _ v

end Sys2Proof.Machine
end

section
/-! SUPPORT. The state after reset, the host's register writes, and a command refused by its first check. -/

namespace Sys2Proof.Machine

theorem RangesOk.reset {p : Params} (hp : p.Valid) : RangesOk (State.resetWith p) :=
  ⟨hp, Nat.zero_le _, Nat.zero_le _, Nat.zero_le _, nofun⟩

theorem RecordOk.reset (p : Params) : RecordOk (State.resetWith p) :=
  ⟨⟨nofun, fun h => absurd rfl h⟩, (by decide : (0 : BitVec 3) ≤ 6), nofun, (by decide : (0 : Word).extractLsb' 3 5 = 0)⟩

theorem canonical_resetWith (p : Params) : (State.resetWith p).Canonical := by
  refine ⟨.nil, nofun, ⟨.nil, nofun⟩, nofun, ⟨.nil, nofun⟩, nofun, .nil, nofun, fun n => ?_⟩
  show (Contexts.cleared.arr n).Canonical
  rw [Contexts.arr_cleared]
  exact ⟨.nil, nofun⟩

theorem slotsFit_resetWith {p : Params} (hp : p.Valid) : (State.resetWith p).SlotsFit := ⟨hp, fun _ => trivial⟩

/-- A host write of REF[i], i < REFMAX (`10_state.md` R38). -/
theorem State.writeReg_ref (s : State) {n : Nat} (v : Nat) (h1 : 4096 ≤ n) (h2 : n < 4096 + s.cfg.refmax) :
    s.writeReg n v = { s with ref := sparseSetD 0 s.ref (n - 4096) (BitVec.ofNat 16 v) } := by
  unfold State.writeReg
  split
  case h_6 => exact if_pos ⟨h1, h2⟩
  all_goals omega

/-- A host write of a read-only register, or of a number not in the table (`10_state.md` R38). -/
theorem State.writeReg_ignored (s : State) {n : Nat} (v : Nat) (hn : n ∉ [5, 6, 7, 8, 12])
    (href : ¬(4096 ≤ n ∧ n < 4096 + s.cfg.refmax)) : s.writeReg n v = s := by
  unfold State.writeReg
  split
  case h_6 => exact if_neg href
  all_goals exact absurd (by decide) hn

/-- A command whose first check fails raises that check's error. -/
theorem runCommand_refused {α : Type} (opc : BitVec 8) (fp : Footprint) {c : Bool} {e : CoreError} (rest : Unit → Dec α)
    (post : α → State → State) (s : State) (hc : c = false) :
    ∃ t, runCommand opc fp (require c e >>= rest) post s = .next t ∧ s.Raised t opc e := by
  subst hc
  exact ⟨_, runCommand_of_error (Dec.bind_of_error rfl), State.raise_raised ..⟩

end Sys2Proof.Machine
end

section
/-! The statements of the family `10_state.md`. -/

namespace Sys2Proof.Machine

/-- Settles O20: the ranges and the error record are kept by every command, every refused word and reset, and no other move of
the host touches them. -/
theorem stepKeepsRegistersOk : Obligations.StepKeepsRegistersOk := by
  intro s t hs h
  rw [registersOk_iff] at hs ⊢
  refine step_keeps (P := fun s => RangesOk s ∧ RecordOk s) ?_ ?_ ?_ ?_ hs h
  · exact fun s _ _ _ _ _ _ _ _ _ ⟨hr, he⟩ => ⟨{ hr with }, { he with }⟩
  · exact fun i s t ⟨hr, he⟩ hexec => ⟨exec_rangesOk hr hexec, exec_recordOk he hexec⟩
  · exact fun s w e ⟨hr, he⟩ => ⟨hr.raise _ _ _ e, he.raise _ _ _ e⟩
  · exact fun s ⟨hr, _⟩ => ⟨{ RangesOk.reset hr.valid with }, { RecordOk.reset s.cfg with }⟩

/-- Settles O22, with the invariant that SEGSTORE lists each handle once: a command writes one slot, with a value within the
capacities. -/
theorem stepKeepsSlotsFit : Obligations.StepKeepsSlotsFit := by
  intro s t hcan hfit h
  obtain ⟨-, -, -, -, ⟨hrise, -⟩, -⟩ := hcan
  refine (step_keeps (P := fun s => SparseRising s.segstore ∧ s.SlotsFit) ?_ ?_ ?_ ?_ ⟨hrise, hfit⟩ h).2
  · exact fun s _ _ _ _ _ _ _ _ _ hs => hs
  · exact fun i s t ⟨hr, hs⟩ hexec => ⟨exec_store_rising hr hexec, exec_slotsFit hs hr hexec⟩
  · intro s w e ⟨hr, hs⟩
    refine ⟨?_, hs.raise hr _ _ _ e⟩
    unfold State.refuseWord
    rw [State.raise_segstore, if_neg (by rintro ⟨-, ⟨⟩⟩)]
    exact hr
  · exact fun s ⟨_, hs⟩ => ⟨.nil, hs.1, fun _ => trivial⟩

/-- Settles O7, by the register number. -/
theorem hostWritesRegister : Obligations.HostWritesRegister := by
  intro s n v rest hs hcan
  obtain ⟨-, -, ⟨hrise, -⟩, -⟩ := hcan
  refine ⟨?_, ?_, ?_, ?_, ?_, fun h1 h2 => ?_, fun h => ?_⟩
  iterate 5
    · rintro rfl
      exact step_write hs (by decide)
  · refine ⟨_, step_write hs (by omega), ?_⟩
    rw [State.writeReg_ref { s with host := rest } v h1 h2]
    refine ⟨rfl, fun i => ?_⟩
    show (sparseGetD 0 (sparseSetD 0 s.ref (n - 4096) (BitVec.ofNat 16 v)) i).toNat = _
    rw [sparseGetD_setD hrise, apply_ite BitVec.toNat, BitVec.toNat_ofNat]
    simp only [eq_comm, State.refAt]
  · simp only [List.mem_cons, List.not_mem_nil, or_false] at h
    rw [step_write hs (by omega), State.writeReg_ignored]
    · simp only [List.mem_cons, List.not_mem_nil, or_false]
      omega
    · dsimp only
      omega

/-- Settles O12: a command keeps the error record or records its error, and of the other moves only reset touches it. -/
theorem errorRecord : Obligations.ErrorRecord := by
  intro s
  refine ⟨fun i t h => ⟨exec_firstErr_sticky h, exec_record_of_status h⟩, fun w e _ => ?_,
    fun t h hreset => step_record h hreset, fun t rest hs h => ?_⟩
  · have he : s.Raised (s.refuseWord w e) (opcField w) e := State.raise_raised ..
    have hfirst := he.firstErr
    obtain ⟨hstatus, herr, hpos, -⟩ := he
    exact ⟨hstatus, herr, hpos, hfirst⟩
  · unfold step at h
    rw [hs] at h
    cases h
    exact ⟨rfl, rfl⟩

/-- Settles O15: an error leaves the host's side, and so does a command that completes. -/
theorem commandsLeaveHostSide : Obligations.CommandsLeaveHostSide := by
  intro i s t h
  rcases exec_ends h with ⟨e, built, rfl⟩ | hdone
  · exact (State.raise_hostSide s _ _ _ _).1
  · exact hdone.host

/-- Settles O16, from `exec_writesOnly`. -/
theorem commandsWriteTheirRegisters : Obligations.CommandsWriteTheirRegisters := by
  intro i s t h
  have hw := exec_writesOnly h
  exact ⟨hw.binding, hw.sp, hw.r0, hw.r1, hw.oob, hw.ad, hw.idlen, hw.stdTab⟩

/-- Settles O17, from `exec_writesOnly`. -/
theorem commandsWriteTheirArrays : Obligations.CommandsWriteTheirArrays := by
  intro i s t n h
  exact (exec_writesOnly h).arr n

/-- Settles O18: SEGSTORE differs by one write of SEGSTORE[P0] at most, and only for the commands that have one. -/
theorem commandsWriteTheirSlot : Obligations.CommandsWriteTheirSlot := by
  intro i s t hs h
  obtain ⟨-, -, -, -, ⟨hrise, -⟩, -⟩ := hs
  rcases (exec_writesOnly h).store with hstore | ⟨hdst, v, hstore⟩
  · exact ⟨fun k _ => State.slot_congr hstore k, fun _ => hstore⟩
  · exact ⟨fun k hk => (State.slot_of_write hrise hstore k).trans (if_neg (Ne.symm hk)),
      fun hf => (nomatch hdst.symm.trans hf)⟩

/-- Settles O9, field by field. -/
theorem resetValues : Obligations.ResetValues := by
  intro p
  refine ⟨rfl, rfl, rfl, rfl, rfl, rfl, rfl, rfl, rfl, rfl, rfl, rfl, rfl, rfl, fun _ => rfl, rfl, rfl, rfl, rfl, rfl,
    rfl, rfl, rfl, rfl, rfl, fun n i => ?_, fun _ => rfl, rfl, rfl⟩
  show (Contexts.cleared.arr n).entry i = _
  rw [Contexts.arr_cleared, CxArray.entry_cleared]

/-- Settles O23, from the reset state of any valid parameters. -/
theorem invariantsAtReset : Obligations.InvariantsAtReset := by
  have hvalid : Params.suggested.Valid := by decide
  exact ⟨(registersOk_iff _).mpr ⟨.reset hvalid, .reset _⟩, canonical_resetWith _, slotsFit_resetWith hvalid⟩

/-- Settles O33: the check of ADVALID is the first of each. -/
theorem decodesNeedAdvalid : Obligations.DecodesNeedAdvalid := by
  intro s hv
  unfold exec execAdDecode execIaDecode execIaidDecode
  exact ⟨fun _ _ => runCommand_refused _ _ _ _ s hv, fun _ => runCommand_refused _ _ _ _ s hv,
    runCommand_refused _ _ _ _ s hv⟩

end Sys2Proof.Machine
end

section
/-! SUPPORT. The canonical form of the state's sparse data: every command keeps it. -/

namespace Sys2Proof.Machine

/-! ## The parts of the canonical form (`20_memory.md` R60, `10_state.md` R24, R32, R33, R36) -/

/-- `State.Canonical`, with a name for each part. -/
structure CanonicalParts (s : State) : Prop where
  inmem : Memory.wf s.inmem ∧ ∀ p ∈ s.inmem, p.1 < s.cfg.inmemSize
  ref : SparseWf 0 s.ref ∧ ∀ p ∈ s.ref, p.1 < s.cfg.refmax
  store : SparseWf .empty s.segstore ∧ ∀ p ∈ s.segstore, p.1 < s.cfg.nslot ∧ p.2.Canonical
  stdTab : SparseRising s.stdTab ∧ ∀ p ∈ s.stdTab, 1 ≤ p.1 ∧ p.1 ≤ 15 ∧ p.2 = stdTable p.1
  cx : s.cx.Canonical

theorem canonical_iff (s : State) : s.Canonical ↔ CanonicalParts s :=
  ⟨fun ⟨h1, h2, h3, h4, h5, h6, h7, h8, h9⟩ => ⟨⟨h1, h2⟩, ⟨h3, h4⟩, ⟨h5, h6⟩, ⟨h7, h8⟩, h9⟩,
    fun ⟨⟨h1, h2⟩, ⟨h3, h4⟩, ⟨h5, h6⟩, ⟨h7, h8⟩, h9⟩ => ⟨h1, h2, h3, h4, h5, h6, h7, h8, h9⟩⟩

/-- A write keeps the canonical form and what holds of every listed entry, if it holds of the entry written; writing what
an unlisted key reads as lists nothing. -/
theorem sparseSetD_wf_forall {α : Type} [DecidableEq α] {d : α} {m : List (Nat × α)} {P : Nat × α → Prop} {i : Nat}
    {v : α} (hm : SparseWf d m ∧ ∀ p ∈ m, P p) (hv : v ≠ d → P (i, v)) :
    SparseWf d (sparseSetD d m i v) ∧ ∀ p ∈ sparseSetD d m i v, P p := by
  have hwf := sparseSetD_wf hm.1 i v
  refine ⟨hwf, fun p hp => ?_⟩
  rcases mem_sparseSetD hp with rfl | hold
  · exact hv (hwf.2 _ hp)
  · exact hm.2 p hold

theorem CxArray.canonical_of_no_cells {x : CxArray} (h : x.cells = []) : x.Canonical := by
  obtain ⟨base, cells⟩ := x
  cases h
  cases base with
  | fresh => exact ⟨.nil, nofun⟩
  | drawn => exact .nil

theorem Contexts.Canonical.setArr {c : Contexts} {n : Arr} {x : CxArray} (hc : c.Canonical) (hx : x.Canonical) :
    (c.setArr n x).Canonical := by
  intro m
  rw [Contexts.arr_setArr]
  split
  · exact hx
  · exact hc m

theorem Slot.canonical_of_region {v : Slot} {P : Bitmap → Prop} (h : ∃ b x y op, v = .region b x y op ∧ P b) :
    v.Canonical := by
  obtain ⟨_, _, _, _, rfl, _⟩ := h
  trivial

/-- A dictionary is canonical if the arrays it retains, if any, are. -/
theorem Slot.canonical_symDict {syms : List Bitmap} {ret : Option Retained}
    (h : ∀ q, ret = some q → q.gb.Canonical ∧ q.gr.Canonical) : (Slot.symDict syms ret).Canonical := by
  cases ret with
  | none => trivial
  | some q => exact h q rfl

/-- What an error leaves of an array: nothing but free values where it may have been written (`60_exceptions.md` R426). -/
theorem State.raise_arr_eq (s : State) (opc : BitVec 8) (fp : Footprint) (built : BitVec 16) (e : CoreError) (n : Arr) :
    (s.raise opc fp built e).cx.arr n =
      if e ≠ .illegalCommand ∧ n ∈ fp.arrs then { base := .drawn s.draws (arrSel n), cells := [] } else s.cx.arr n := by
  unfold State.raise State.abandon State.spoil
  by_cases he : e = .illegalCommand <;> by_cases hs : fp.segment = true <;> simp [he, hs]

namespace CanonicalParts

variable {s : State}

theorem slot (hs : CanonicalParts s) (k : Nat) : (s.slot k).Canonical := by
  unfold State.slot sparseGetD
  cases hf : sparseFind s.segstore k with
  | none => trivial
  | some v => exact (hs.store.2 _ (mem_of_sparseFind hf)).2

/-- The arrays a referred dictionary retains. -/
theorem retained (hs : CanonicalParts s) {syms : List Bitmap} {r : Retained}
    (h : .symDict syms (some r) ∈ s.refSlots) : r.gb.Canonical ∧ r.gr.Canonical := by
  obtain ⟨k, -, hk⟩ := List.mem_map.mp h
  have hslot := hs.slot k
  rwa [hk] at hslot

theorem setSlot (hs : CanonicalParts s) {h : Nat} {v : Slot} (hh : h < s.cfg.nslot) (hv : v.Canonical) :
    CanonicalParts (s.setSlot h v) :=
  { hs with store := sparseSetD_wf_forall hs.store fun _ => ⟨hh, hv⟩ }

theorem stdTab_commitBuilt (hs : CanonicalParts s) (built : BitVec 16) :
    SparseRising (commitBuilt built s.stdTab) ∧
      ∀ p ∈ commitBuilt built s.stdTab, 1 ≤ p.1 ∧ p.1 ≤ 15 ∧ p.2 = stdTable p.1 :=
  ⟨commitBuilt_rising built hs.stdTab.1, fun p hp => (mem_commitBuilt hp).elim (hs.stdTab.2 p) id⟩

theorem commit (hs : CanonicalParts s) (fp : Footprint) (w : Work) (hw : ∀ n ∈ fp.arrs, (w.cx.arr n).Canonical) :
    CanonicalParts (s.commit fp w) :=
  { hs with
    stdTab := hs.stdTab_commitBuilt w.built
    cx := fun n => by
      rw [State.commit_arr]
      split
      · exact hw n ‹_›
      · exact hs.cx n }

/-- An error empties at most one slot, keeps or adds standard tables, and leaves its arrays without listed entries. -/
theorem raise (hs : CanonicalParts s) (opc : BitVec 8) (fp : Footprint) (built : BitVec 16) (e : CoreError) :
    CanonicalParts (s.raise opc fp built e) where
  inmem := by rw [State.raise_inmem, State.raise_cfg]; exact hs.inmem
  ref := by rw [State.raise_ref, State.raise_cfg]; exact hs.ref
  store := by
    rw [State.raise_segstore, State.raise_cfg]
    split
    · exact sparseSetD_wf_forall hs.store fun hne => absurd rfl hne
    · exact hs.store
  stdTab := by
    rw [State.raise_stdTab]
    split
    · exact hs.stdTab_commitBuilt built
    · exact hs.stdTab
  cx n := by
    rw [State.raise_arr_eq]
    split
    · exact CxArray.canonical_of_no_cells rfl
    · exact hs.cx n

/-- A host write to any register but CMD: only REF[i], i < REFMAX, is sparse data. -/
theorem writeReg (hs : CanonicalParts s) (n v : Nat) : CanonicalParts (s.writeReg n v) := by
  unfold State.writeReg
  split
  case h_6 =>
    split
    · exact { hs with ref := sparseSetD_wf_forall hs.ref fun _ => by dsimp only; omega }
    · exact hs
  all_goals exact { hs with }

theorem poke (hs : CanonicalParts s) {addr : Nat} (h : addr < s.cfg.inmemSize) (byte : Byte) :
    CanonicalParts { s with inmem := memPoke s.inmem addr byte } :=
  { hs with
    inmem := ⟨memPoke_wf hs.inmem.1 addr byte, fun p hp => by
      rcases mem_sparsePut hp with rfl | hold
      · exact h
      · exact hs.inmem.2 p hold⟩ }

theorem applyReset (hs : CanonicalParts s) : CanonicalParts s.applyReset :=
  { (canonical_iff _).mp (canonical_resetWith s.cfg) with inmem := hs.inmem }

end CanonicalParts

/-! ## Commands -/

section
variable {α : Type} {opc : BitVec 8} {fp : Footprint} {body : Dec α} {post : α → State → State} {s t : State}

/-- A command keeps the canonical form if its procedure leaves the arrays it may write canonical, and its rule's own writes
keep the form. -/
theorem runCommand_canonical {I : Work → Prop} {Q : α → Prop} (h : runCommand opc fp body post s = .next t)
    (hs : CanonicalParts s) (hbody : Keeps I anyError Q body) (h0 : I s.work)
    (hI : ∀ w, I w → ∀ n ∈ fp.arrs, (w.cx.arr n).Canonical)
    (hpost : ∀ v u, Q v → CanonicalParts u → u.cfg = s.cfg → CanonicalParts (post v u)) : CanonicalParts t := by
  rcases runCommand_cases h with ⟨v, w, hv, rfl⟩ | ⟨e, w, -, rfl⟩
  · obtain ⟨hQ, hw⟩ := hbody.ok h0 hv
    exact { hpost v _ hQ (hs.commit fp w (hI w hw)) rfl with }
  · exact hs.raise opc fp w.built e

/-- `runCommand_canonical` for a command that commits arrays of its procedure. -/
theorem runCommand_canonical_arrays {Q : α → Prop} (h : runCommand opc fp body post s = .next t)
    (hs : CanonicalParts s) (hbody : Keeps (fun w => w.cx.Canonical) anyError Q body)
    (hpost : ∀ v u, Q v → CanonicalParts u → u.cfg = s.cfg → CanonicalParts (post v u)) : CanonicalParts t :=
  runCommand_canonical h hs hbody hs.cx (fun _ hw n _ => hw n) hpost

/-- `runCommand_canonical` for a command that commits no array of its procedure. -/
theorem runCommand_canonical_noArrays {Q : α → Prop} (h : runCommand opc fp body post s = .next t)
    (hs : CanonicalParts s) (hfp : fp.arrs = []) (hbody : Keeps (fun _ => True) anyError Q body)
    (hpost : ∀ v u, Q v → CanonicalParts u → u.cfg = s.cfg → CanonicalParts (post v u)) : CanonicalParts t :=
  runCommand_canonical h hs hbody trivial (fun _ _ n hn => by rw [hfp] at hn; cases hn) hpost

end

/-- A segment command keeps the canonical form if its result is canonical: its DST exists by the check of R96. -/
theorem runSegment_canonical {opc : BitVec 8} {fp : Footprint} {readsRef : Bool} {body : Dec SegmentResult} {s t : State}
    {Q : SegmentResult → Prop} (h : runSegment opc fp readsRef body s = .next t) (hs : CanonicalParts s)
    (hbody : Keeps (fun w => w.cx.Canonical) anyError Q body) (hval : ∀ r, Q r → r.slot.Canonical) :
    CanonicalParts t := by
  refine runCommand_canonical_arrays (Q := fun r => s.dst < s.cfg.nslot ∧ Q r) h hs ?_ fun r u ⟨hdst, hr⟩ hu hcfg => ?_
  · refine (Keeps.require fun _ => trivial).bind fun _ hwin => (Keeps.require fun _ => trivial).bind fun _ _ => ?_
    unfold State.windowOk at hwin
    simp only [Bool.and_eq_true, decide_eq_true_eq] at hwin
    obtain ⟨⟨hdst, -⟩, -⟩ := hwin
    exact hbody.mono (fun _ hr => ⟨hdst, hr⟩) fun _ => id
  · exact { hu.setSlot (hcfg ▸ hdst) (hval r hr) with }

/-- Every command keeps the canonical form. -/
theorem exec_canonical {i : Instr} {s t : State} (hs : CanonicalParts s) (h : exec i s = .next t) : CanonicalParts t := by
  unfold exec at h
  have hst := StableAll.canonical.toStable
  cases i with
  | segSd =>
    refine runSegment_canonical h hs (segSd_stable .canonical _ fun syms r hr w hw => ?_) fun r hr => ?_
    · obtain ⟨hgb, hgr⟩ := hs.retained hr
      exact (hw.setArr (n := .gb) hgb).setArr (n := .gr) hgr
    · obtain ⟨syms, ret, n, hslot, -, -, -, -, hret⟩ := hr
      rw [hslot]
      refine Slot.canonical_symDict fun q hq => ?_
      obtain ⟨w, hw, hgb, hgr⟩ := hret q hq
      rw [hgb, hgr]
      exact ⟨hw .gb, hw .gr⟩
  | segTrInt | segTrImm | segTrImml =>
    exact runSegment_canonical h hs (segTr_stable .canonical _) fun _ ⟨hr, _⟩ => Slot.canonical_of_region hr
  | segGrInt | segGrImm | segGrImml =>
    exact runSegment_canonical h hs (segGr_stable hst trivial trivial trivial) fun _ ⟨hr, _⟩ =>
      Slot.canonical_of_region hr
  | segRrInt | segRrImm | segRrImml =>
    exact runSegment_canonical h hs (segRr_stable hst trivial trivial trivial trivial _) fun _ ⟨hr, _⟩ =>
      Slot.canonical_of_region hr
  | segTables =>
    exact runSegment_canonical h hs (Q := fun r => r.slot.Canonical)
      ((parseTable_stable hst trivial trivial trivial).bind fun _ _ => .pure trivial) fun _ hr => hr
  | strmBind | strmSeek | strmReadbits | strmAlign | adInit | htStd =>
    exact runCommand_canonical_noArrays h hs rfl (Dec.keeps_any _) fun _ _ _ hu _ => { hu with }
  | htDecode a =>
    refine runCommand_canonical_noArrays h hs rfl (Dec.keeps_any _) fun v u _ hu _ => ?_
    obtain ⟨v, n⟩ := v
    cases v <;> exact { hu with }
  | adDecode a b =>
    refine runCommand_canonical_arrays (Q := fun _ => True) h hs ((Keeps.require fun _ => trivial).bind fun _ _ => ?_)
      fun _ _ _ hu _ => { hu with }
    split
    · exact .throw trivial
    · exact (Keeps.require fun _ => trivial).bind fun _ _ => adDecode_stable hst trivial _ _
  | adCxreset a b =>
    refine runCommand_canonical_noArrays h hs rfl (Dec.keeps_any _) fun _ _ _ hu _ => { hu with cx := fun n => ?_ }
    dsimp only
    rw [Contexts.arr_mapArr]
    split
    · exact CxArray.canonical_of_no_cells rfl
    · exact hs.cx n
  | iaDecode a =>
    refine runCommand_canonical_arrays (Q := fun _ => True) h hs ((Keeps.require fun _ => trivial).bind fun _ _ => ?_)
      fun v _ _ hu _ => ?_
    · split
      · exact .throw trivial
      · exact iaDecode_stable .canonical _
    · cases v <;> exact { hu with }
  | iaidDecode =>
    exact runCommand_canonical_arrays h hs
      ((Keeps.require fun _ => trivial).bind fun _ _ => iaidDecode_stable .canonical _) fun _ _ _ hu _ => { hu with }
  | bmCombine a =>
    refine runCommand_canonical_noArrays (Q := fun v => s.dst < s.cfg.nslot ∧ v.Canonical) h hs rfl ?_
      fun v u ⟨hdst, hv⟩ hu hcfg => hu.setSlot (hcfg ▸ hdst) hv
    split
    · exact .throw trivial
    · refine (Keeps.require fun _ => trivial).bind fun _ hlt => ?_
      split
      · exact .pure ⟨of_decide_eq_true (Bool.and_eq_true_iff.mp hlt).1, trivial⟩
      · exact .throw trivial
  | bmNew a =>
    exact runCommand_canonical_noArrays (Q := fun v => s.dst < s.cfg.nslot ∧ v.Canonical) h hs rfl
      ((Keeps.require fun _ => trivial).bind fun _ _ => (Keeps.require fun _ => trivial).bind fun _ hlt =>
        (Dec.keeps_any _).bind fun _ _ => .pure ⟨of_decide_eq_true hlt, trivial⟩)
      fun v u ⟨hdst, hv⟩ hu hcfg => hu.setSlot (hcfg ▸ hdst) hv

/-- A host write of a byte of INMEM (`20_memory.md` R60; log entry 9 for an address that does not exist). -/
theorem step_poke {s : State} {addr : Nat} {byte : Byte} {rest : List HostMove}
    (hs : s.host = .poke addr byte :: rest) :
    step s =
      if addr < s.cfg.inmemSize then .next { s with host := rest, inmem := memPoke s.inmem addr byte }
      else .fault (.inmemAddress addr) := by
  unfold step
  rw [hs]
  rfl

end Sys2Proof.Machine
end

section
/-! SUPPORT. The byte image of a bitmap (`20_memory.md` R69): the bits of one byte, and where each row begins. -/

namespace Sys2Proof.Machine

/-- Turns `i` to `i + n - 1` of the loop that gathers a byte of the image set bit `7 - j` where `g j`. -/
theorem getLsbD_gatherBits (g : Nat → Bool) {j : Nat} (hj : j < 8) :
    ∀ (n i : Nat) (v : Byte), i + n ≤ 8 →
      (loopPure (fun j v => if g j then v ||| BitVec.twoPow 8 (7 - j) else v) n i v).getLsbD (7 - j) =
        (v.getLsbD (7 - j) || decide (i ≤ j ∧ j < i + n) && g j)
  | 0, i, v, _ => by
    rw [loopPure, decide_eq_false (by omega), Bool.false_and, Bool.or_false]
  | n + 1, i, v, hn => by
    rw [loopPure, getLsbD_gatherBits g hj n (i + 1) _ (by omega)]
    by_cases hij : i = j
    · subst hij
      cases g i <;> simp
      omega
    · have hturn : (if g i = true then v ||| BitVec.twoPow 8 (7 - i) else v).getLsbD (7 - j) = v.getLsbD (7 - j) := by
        split
        · rw [BitVec.getLsbD_or, BitVec.getLsbD_twoPow, decide_eq_false (p := 7 - i = 7 - j) (by omega), Bool.and_false,
            Bool.or_false]
        · rfl
      have hrange : (i + 1 ≤ j ∧ j < i + 1 + n) ↔ i ≤ j ∧ j < i + (n + 1) := by omega
      simp only [hturn, hrange]

/-- Pixel `8 * k + j` of a row is bit `7 - j` of its byte `k`. -/
theorem Bitmap.getLsbD_imageByte (b : Bitmap) (y k : Nat) {j : Nat} (hj : j < 8) :
    (b.imageByte y k).getLsbD (7 - j) = b.get ((8 * k + j : Nat) : Int) y := by
  unfold Bitmap.imageByte
  rw [getLsbD_gatherBits (fun j => b.get ((8 * k + j : Nat) : Int) y) hj 8 0 0 (by omega),
    decide_eq_true (by omega), Bool.true_and, BitVec.ofNat_eq_ofNat, BitVec.getLsbD_zero, Bool.false_or]

/-- Pixels right of the bitmap read 0 (`20_memory.md` R70). -/
theorem Bitmap.get_of_width_le (b : Bitmap) {x : Nat} (hx : b.w ≤ x) (y : Int) : b.get x y = false :=
  if_neg fun h => by omega

/-- Entry `k` of row `y` of `h` rows that follow each other, each of length `n`. -/
theorem getD_flatMap_rows {α : Type} {f : Nat → List α} {n : Nat} (hf : ∀ y, (f y).length = n) (d : α) :
    ∀ {h y k : Nat}, y < h → k < n → ((List.range h).flatMap f).getD (y * n + k) d = (f y).getD k d
  | h + 1, y, k, hy, hk => by
    have hlen : ((List.range h).flatMap f).length = h * n := by simp [List.length_flatMap, hf]
    rw [List.range_succ, List.flatMap_append, List.flatMap_singleton]
    rcases Nat.lt_or_eq_of_le (Nat.le_of_lt_succ hy) with hlt | rfl
    · have hin : y * n + k < h * n := by
        calc y * n + k < (y + 1) * n := by rw [Nat.add_mul, Nat.one_mul]; omega
          _ ≤ h * n := Nat.mul_le_mul_right n hlt
      rw [List.getD_append _ _ _ _ (hlen ▸ hin), getD_flatMap_rows hf d hlt hk]
    · rw [List.getD_append_right _ _ _ _ (by omega), hlen, Nat.add_sub_cancel_left]

theorem Bitmap.length_image (b : Bitmap) : b.image.length = (b.w + 7) / 8 * b.h := by
  simp [Bitmap.image, List.length_flatMap, Nat.mul_comm]

/-- Byte `y * stride + k` of the image is byte `k` of row `y`. -/
theorem Bitmap.getD_image (b : Bitmap) {y k : Nat} (hy : y < b.h) (hk : k < (b.w + 7) / 8) :
    b.image.getD (y * ((b.w + 7) / 8) + k) 0 = b.imageByte y k := by
  unfold Bitmap.image
  rw [getD_flatMap_rows (fun _ => by rw [List.length_map, List.length_range]) 0 hy hk]
  simp [hk]

end Sys2Proof.Machine
end

section
/-! The statements of the family `20_memory.md`. -/

namespace Sys2Proof.Machine

/-- Settles O21: a host's write keeps the form where its index exists, and every command, every refused word and reset keep
it. -/
theorem stepKeepsCanonical : Obligations.StepKeepsCanonical := by
  intro s t hs h
  rw [canonical_iff] at hs ⊢
  have htaken (rest : List HostMove) (w : Word) : CanonicalParts { s with host := rest, cmd := w } := { hs with }
  cases step_cases h with
  | idle _ ht => exact ht ▸ hs
  | command v rest i _ _ ht => exact exec_canonical (htaken rest _) ht
  | refused v rest e _ _ ht => exact ht ▸ (htaken rest _).raise _ _ _ e
  | write n v rest _ _ ht => exact ht ▸ (htaken rest s.cmd).writeReg n v
  | poke addr byte rest hhost _ =>
    rw [step_poke hhost] at h
    split at h <;> cases h
    exact (htaken rest s.cmd).poke ‹_› byte
  | reset rest _ ht => exact ht ▸ (htaken rest s.cmd).applyReset

/-- Settles O8, by whether the address exists. -/
theorem hostWritesMemory : Obligations.HostWritesMemory := by
  intro s addr byte rest hs
  refine ⟨fun hlt => ⟨_, (step_poke hs).trans (if_pos hlt), rfl, memByte_poke_same _ _ _, fun a ha => ?_⟩,
    fun hge => (step_poke hs).trans (if_neg (Nat.not_lt.mpr hge))⟩
  exact memByte_poke_other _ byte (Ne.symm ha)

/-- Settles O48: pixel (x, y) is bit 7 - x mod 8 of byte x / 8 of row y, and a pixel right of the bitmap reads 0. -/
theorem imageOfBitmap : Obligations.ImageOfBitmap := by
  intro b
  refine ⟨b.length_image, fun x y hy hx => ?_⟩
  have hpixel : 8 * (x / 8) + x % 8 = x := Nat.div_add_mod x 8
  rw [b.getD_image hy (by omega), b.getLsbD_imageByte y (x / 8) (Nat.mod_lt x (by decide)), hpixel]
  split
  · rfl
  · exact b.get_of_width_le (Nat.not_lt.mp ‹_›) y

end Sys2Proof.Machine
end

section
/-! SUPPORT. The decoder, by the opcode of a word: the one command an opcode names, and the words that name none
(`30_encoding.md` R91, R101 to R107). -/

namespace Sys2Proof

open Machine (CoreError)

/-! ## The word of a command -/

theorem encode_fields (i : Instr) : Laws.EncodeFields.Statement i := Laws.fields_of_parts _ _ _

/-- A word is a command's word if its three fields are the command's. -/
theorem encode_eq_iff (i : Instr) (w : Word) :
    encode i = w ↔ opcField w = i.opc ∧ aField w = i.immA ∧ bField w = i.immB := by
  constructor
  · rintro rfl
    exact encode_fields i
  · rintro ⟨hopc, ha, hb⟩
    rw [← Laws.parts_of_fields w, hopc, ha, hb]
    rfl

/-- The same command with other immediates, as far as its format has them. -/
def Instr.withImms (a : BitVec 8) (b : BitVec 16) : Instr → Instr
  | .strmReadbits _ => .strmReadbits a
  | .adDecode _ _ => .adDecode a b
  | .adCxreset _ _ => .adCxreset a b
  | .iaDecode _ => .iaDecode a
  | .htStd _ => .htStd a
  | .htDecode _ => .htDecode a
  | .bmCombine _ => .bmCombine a
  | .bmNew _ => .bmNew a
  | i => i

@[simp] theorem Instr.opc_withImms (i : Instr) (a : BitVec 8) (b : BitVec 16) : (i.withImms a b).opc = i.opc := by
  cases i <;> rfl

@[simp] theorem Instr.withImms_self (i : Instr) : i.withImms i.immA i.immB = i := by cases i <;> rfl

/-! ## The formats (`30_encoding.md` R91, R101) -/

theorem accept_ok {c : Bool} {i j : Instr} (h : accept c i = .ok j) : c = true ∧ i.wf = true ∧ i = j := by
  unfold accept at h
  split at h <;> cases h
  exact ⟨(Bool.and_eq_true_iff.mp ‹_›).1, (Bool.and_eq_true_iff.mp ‹_›).2, rfl⟩

theorem accept_refuses {c : Bool} {i : Instr} (h : c = true → i.wf = false) : accept c i = .error .illegalCommand := by
  unfold accept
  cases c
  · rfl
  · rw [h rfl]
    rfl

section
variable {w : Word} {i : Instr} (hopc : opcField w = i.opc)
include hopc

/-- The check of a format asks that the word be the command's: what the format does not use is zero. -/
theorem formF0_eq (ha : i.immA = 0) (hb : i.immB = 0) :
    formF0 (aField w) (bField w) i = accept (decide (encode i = w)) i := by
  simp [formF0, encode_eq_iff, hopc, ha, hb]

theorem formFA_eq (ha : i.immA = aField w) (hb : i.immB = 0) :
    formFA (bField w) i = accept (decide (encode i = w)) i := by
  simp [formFA, encode_eq_iff, hopc, ha, hb]

theorem accept_true_eq (ha : i.immA = aField w) (hb : i.immB = bField w) :
    accept true i = accept (decide (encode i = w)) i := by
  rw [decide_eq_true ((encode_eq_iff i w).mpr ⟨hopc, ha.symm, hb.symm⟩)]

end

/-! ## The opcode -/

section
variable {w : Word}

theorem getLsbD_iff {opc : BitVec 8} {k : Nat} : opc.getLsbD k = true ↔ opc.toNat / 2 ^ k % 2 = 1 := by
  rw [BitVec.getLsbD, Nat.testBit_eq_decide_div_mod_eq, decide_eq_true_eq]

theorem decode_eq_fields :
    decode w =
      if (opcField w).getLsbD 7 then .error .illegalCommand
      else if (opcField w).getLsbD 6 then decodePrimitive (opcField w) (aField w) (bField w)
      else decodeSegment (opcField w) (aField w) (bField w) := rfl

theorem decode_of_bit7 (h : 128 ≤ (opcField w).toNat) : decode w = .error .illegalCommand := by
  have hlt := (opcField w).isLt
  rw [decode_eq_fields, if_pos (getLsbD_iff.mpr (by omega))]

theorem decode_of_primitive (h1 : 64 ≤ (opcField w).toNat) (h2 : (opcField w).toNat < 128) :
    decode w = decodePrimitive (opcField w) (aField w) (bField w) := by
  rw [decode_eq_fields, if_neg (mt getLsbD_iff.mp (by omega)), if_pos (getLsbD_iff.mpr (by omega))]

theorem decode_of_segment (h : (opcField w).toNat < 64) :
    decode w = decodeSegment (opcField w) (aField w) (bField w) := by
  rw [decode_eq_fields, if_neg (mt getLsbD_iff.mp (by omega)), if_neg (mt getLsbD_iff.mp (by omega))]

end

/-- The segment commands have the opcodes below 0x40, and the others those below 0x80 (`30_encoding.md` R95, R98). -/
theorem opc_range (i : Instr) :
    (i.isSegment = true → i.opc.toNat < 64) ∧ (i.isSegment = false → 64 ≤ i.opc.toNat ∧ i.opc.toNat < 128) := by
  cases i <;> simp [Instr.isSegment, Instr.opc]

theorem decode_of_isSegment {w : Word} {j : Instr} (h : opcField w = j.opc) (hj : j.isSegment = true) :
    decode w = decodeSegment j.opc (aField w) (bField w) := by
  rw [← h]
  exact decode_of_segment (h ▸ (opc_range j).1 hj)

theorem decode_of_not_isSegment {w : Word} {j : Instr} (h : opcField w = j.opc) (hj : j.isSegment = false) :
    decode w = decodePrimitive j.opc (aField w) (bField w) := by
  obtain ⟨hge, hlt⟩ := (opc_range j).2 hj
  rw [← h] at hge hlt ⊢
  exact decode_of_primitive hge hlt

/-- A word with the opcode of a command decodes to that command with the word's immediates, or is refused: it must be the
command's word, and the command well-formed. -/
theorem decode_of_opc {w : Word} (j : Instr) (h : opcField w = j.opc) :
    decode w =
      accept (decide (encode (j.withImms (aField w) (bField w)) = w)) (j.withImms (aField w) (bField w)) := by
  have hopc : opcField w = (j.withImms (aField w) (bField w)).opc := by rw [Instr.opc_withImms, h]
  cases j with
  | segSd | segTrInt | segTrImm | segTrImml | segGrInt | segGrImm | segGrImml | segRrInt | segRrImm | segRrImml
  | segTables => exact (decode_of_isSegment h rfl).trans (formF0_eq hopc rfl rfl)
  | strmBind | strmSeek | strmAlign | adInit | iaidDecode =>
    exact (decode_of_not_isSegment h rfl).trans (formF0_eq hopc rfl rfl)
  | strmReadbits | iaDecode | htStd | htDecode | bmCombine | bmNew =>
    exact (decode_of_not_isSegment h rfl).trans (formFA_eq hopc rfl rfl)
  | adDecode | adCxreset => exact (decode_of_not_isSegment h rfl).trans (accept_true_eq hopc rfl rfl)

/-- The commands of the segment class, by rising opcode (`30_encoding.md` R95). -/
def segmentCommands : List Instr :=
  [.segSd, .segTrInt, .segTrImm, .segTrImml, .segGrInt, .segGrImm, .segGrImml, .segRrInt, .segRrImm, .segRrImml,
    .segTables]

/-- One command of each opcode of the primitive class, by rising opcode (`30_encoding.md` R98). -/
def primitiveCommands : List Instr :=
  [.strmBind, .strmSeek, .strmReadbits 0, .strmAlign, .adInit, .adDecode 0 0, .adCxreset 0 0, .iaDecode 0, .iaidDecode,
    .htStd 0, .htDecode 0, .bmCombine 0, .bmNew 0]

/-- The commands of format F0 (`30_encoding.md` R95, R98). -/
def formatF0Commands : List Instr := segmentCommands ++ [.strmBind, .strmSeek, .strmAlign, .adInit, .iaidDecode]

/-- One command of each opcode of format FA (`30_encoding.md` R98). -/
def formatFACommands : List Instr := [.strmReadbits 0, .iaDecode 0, .htStd 0, .htDecode 0, .bmCombine 0, .bmNew 0]

theorem imms_of_formatF0 {j : Instr} (hj : j ∈ formatF0Commands) (a : BitVec 8) (b : BitVec 16) :
    (j.withImms a b).immA = 0 ∧ (j.withImms a b).immB = 0 := by
  revert j
  simp [formatF0Commands, segmentCommands, Instr.withImms, Instr.immA, Instr.immB]

theorem immB_of_formatFA {j : Instr} (hj : j ∈ formatFACommands) (a : BitVec 8) (b : BitVec 16) :
    (j.withImms a b).immB = 0 := by
  revert j
  simp [formatFACommands, Instr.withImms, Instr.immB]

/-- A word whose opcode is of one of the commands `js`, by number. -/
theorem exists_of_opc_mem {w : Word} {js : List Instr} (h : (opcField w).toNat ∈ js.map (·.opc.toNat)) :
    ∃ j ∈ js, opcField w = j.opc := by
  obtain ⟨j, hj, hopc⟩ := List.mem_map.mp h
  exact ⟨j, hj, BitVec.eq_of_toNat_eq hopc.symm⟩

section
variable {w : Word}

/-- An opcode of the segment class that is no command's: the first list of R103 is not implemented, every other one is
reserved. -/
theorem decodeSegment_of_other {opc : BitVec 8} (a : BitVec 8) (b : BitVec 16)
    (h : opc.toNat ∉ [0, 4, 6, 7, 36, 38, 39, 40, 42, 43, 53]) :
    decodeSegment opc a b =
      if opc.toNat ∈ [16, 20, 22, 23, 48, 49, 50, 51, 52, 62] then .error .unsupportedFeature
      else .error .malformedSegment := by
  unfold decodeSegment
  split
  case h_12 => rfl
  all_goals exact absurd (by rw [‹opc.toNat = _›]; decide) h

/-- The reserved opcodes of the primitive class (R102). -/
theorem decodePrimitive_of_other {opc : BitVec 8} (a : BitVec 8) (b : BitVec 16)
    (h : opc.toNat ∉ [0x40, 0x41, 0x42, 0x43, 0x48, 0x49, 0x4A, 0x4B, 0x4C, 0x50, 0x52, 0x58, 0x59]) :
    decodePrimitive opc a b = .error .illegalCommand := by
  unfold decodePrimitive
  split
  case h_14 => rfl
  all_goals exact absurd (by rw [‹opc.toNat = _›]; decide) h

/-- A word that decodes to a command has the opcode of one. -/
theorem exists_opc_of_decode_ok {i : Instr} (h : decode w = .ok i) : ∃ j : Instr, opcField w = j.opc := by
  by_contra hnone
  have hno (js : List Instr) : (opcField w).toNat ∉ js.map (·.opc.toNat) := fun hmem =>
    hnone ((exists_of_opc_mem hmem).imp fun _ hj => hj.2)
  rcases Nat.lt_or_ge (opcField w).toNat 64 with h1 | h1
  · rw [decode_of_segment h1, decodeSegment_of_other _ _ (hno segmentCommands)] at h
    split at h <;> cases h
  · rcases Nat.lt_or_ge (opcField w).toNat 128 with h2 | h2
    · rw [decode_of_primitive h1 h2, decodePrimitive_of_other _ _ (hno primitiveCommands)] at h
      cases h
    · rw [decode_of_bit7 h2] at h
      cases h

/-- A word with a command's opcode is refused if that command, with the word's immediates, has another word or is not
well-formed. -/
theorem decode_refuses (j : Instr) (hopc : opcField w = j.opc)
    (h : aField w = (j.withImms (aField w) (bField w)).immA → bField w = (j.withImms (aField w) (bField w)).immB →
      ¬(j.withImms (aField w) (bField w)).wf = true) :
    decode w = .error .illegalCommand := by
  rw [decode_of_opc j hopc]
  refine accept_refuses fun hw => ?_
  obtain ⟨-, ha, hb⟩ := (encode_eq_iff _ w).mp (of_decide_eq_true hw)
  exact Bool.eq_false_iff.mpr (h ha hb)

/-! ## The words that name no command (`30_encoding.md` R101 to R103) -/

theorem decode_of_unsupported (h : (opcField w).toNat ∈ [16, 20, 22, 23, 48, 49, 50, 51, 52, 62]) :
    decode w = .error .unsupportedFeature := by
  have hother : ∀ n ∈ [16, 20, 22, 23, 48, 49, 50, 51, 52, 62],
      n < 64 ∧ n ∉ [0, 4, 6, 7, 36, 38, 39, 40, 42, 43, 53] := by decide
  obtain ⟨hlt, hno⟩ := hother _ h
  rw [decode_of_segment hlt, decodeSegment_of_other _ _ hno, if_pos h]

theorem decode_of_reserved_segment (hlt : (opcField w).toNat < 64)
    (h : (opcField w).toNat ∉
      [0, 4, 6, 7, 36, 38, 39, 40, 42, 43, 53] ++ [16, 20, 22, 23, 48, 49, 50, 51, 52, 62]) :
    decode w = .error .malformedSegment := by
  obtain ⟨hno, hnot⟩ := not_or.mp (mt List.mem_append.mpr h)
  rw [decode_of_segment hlt, decodeSegment_of_other _ _ hno, if_neg hnot]

theorem decode_of_reserved_primitive (hge : 64 ≤ (opcField w).toNat)
    (h : (opcField w).toNat ∉ [0x40, 0x41, 0x42, 0x43, 0x48, 0x49, 0x4A, 0x4B, 0x4C, 0x50, 0x52, 0x58, 0x59]) :
    decode w = .error .illegalCommand := by
  rcases Nat.lt_or_ge (opcField w).toNat 128 with hlt | hge'
  · rw [decode_of_primitive hge hlt, decodePrimitive_of_other _ _ h]
  · exact decode_of_bit7 hge'

/-- Format F0 uses neither immediate. -/
theorem decode_refuses_formatF0 (h : (opcField w).toNat ∈ formatF0Commands.map (·.opc.toNat))
    (hab : aField w ≠ 0 ∨ bField w ≠ 0) : decode w = .error .illegalCommand := by
  obtain ⟨j, hj, hopc⟩ := exists_of_opc_mem h
  obtain ⟨ha0, hb0⟩ := imms_of_formatF0 hj (aField w) (bField w)
  refine decode_refuses j hopc fun ha hb => ?_
  rcases hab with hne | hne
  · exact absurd (ha.trans ha0) hne
  · exact absurd (hb.trans hb0) hne

/-- Format FA does not use `b`. -/
theorem decode_refuses_formatFA (h : (opcField w).toNat ∈ formatFACommands.map (·.opc.toNat)) (hb : bField w ≠ 0) :
    decode w = .error .illegalCommand := by
  obtain ⟨j, hj, hopc⟩ := exists_of_opc_mem h
  exact decode_refuses j hopc fun _ hb0 => absurd (hb0.trans (immB_of_formatFA hj _ _)) hb

end

end Sys2Proof
end

section
/-! SUPPORT. A step that writes CMD, how commands end, the operand checks of R96, and what a region segment leaves. -/

namespace Sys2Proof.Machine

/-! ## A step and the end of a command -/

/-- A host write of CMD (`30_encoding.md` R90). -/
theorem step_writeCmd {s : State} {v : Nat} {rest : List HostMove} (hs : s.host = .write 0 v :: rest) :
    step s = { s with host := rest }.writeCmd (BitVec.ofNat 32 v) := by
  unfold step
  rw [hs]
  rfl

/-- A word that the decoder refuses (`30_encoding.md` R107). -/
theorem step_refused {s : State} {v : Nat} {rest : List HostMove} {e : CoreError} (hs : s.host = .write 0 v :: rest)
    (hd : decode (BitVec.ofNat 32 v) = .error e) :
    step s = .next ({ s with host := rest, cmd := BitVec.ofNat 32 v }.refuseWord (BitVec.ofNat 32 v) e) := by
  rw [step_writeCmd hs]
  unfold State.writeCmd
  rw [hd]

theorem CoreError.code_range (e : CoreError) : 1 ≤ e.code.toNat ∧ e.code.toNat ≤ 6 := by cases e <;> decide

/-- What a refused word leaves: all but the error registers and ADVALID (`30_encoding.md` R102, R103). -/
theorem State.refuseWord_frame (s : State) (w : Word) (e : CoreError) :
    s.ResultsKept (s.refuseWord w e) ∧ s.BindingKept (s.refuseWord w e) ∧ (s.refuseWord w e).sp = s.sp ∧
      (s.refuseWord w e).ad = s.ad ∧ (s.refuseWord w e).idlen = s.idlen ∧ (s.refuseWord w e).cx = s.cx ∧
      (s.refuseWord w e).segstore = s.segstore ∧ (s.refuseWord w e).stdTab = s.stdTab := by
  unfold State.refuseWord
  refine ⟨⟨State.raise_r0 _ _ _ _ _ rfl, State.raise_r1 _ _ _ _ _ rfl, State.raise_oob _ _ _ _ _ rfl⟩,
    (State.raise_hostSide _ _ _ _ _).2, State.raise_sp _ _ _ _ _ rfl, State.raise_ad _ _ _ _ _ rfl,
    State.raise_idlen _ _ _ _ _ rfl, Contexts.ext_arr fun n => State.raise_arr _ _ _ _ _ n List.not_mem_nil, ?_, ?_⟩
  · rw [State.raise_segstore, if_neg (by rintro ⟨-, ⟨⟩⟩)]
  · rw [State.raise_stdTab, commitBuilt_zero, ite_self]

/-! ## The operand checks of a segment command (`30_encoding.md` R96) -/

theorem State.windowOk_iff (s : State) :
    s.windowOk = true ↔
      s.dst < s.cfg.nslot ∧ s.sp.toNat % 8 = 0 ∧ s.sp.toNat / 8 + s.datalen ≤ s.slen.toNat := by
  unfold State.windowOk
  simp only [Bool.and_eq_true, decide_eq_true_eq, and_assoc]

theorem State.refsOk_iff (s : State) :
    s.refsOk = true ↔ s.refn.toNat ≤ s.cfg.refmax ∧ ∀ k < s.refn.toNat, s.refAt k < s.cfg.nslot := by
  simp [State.refsOk, State.refHandles]

/-- Every segment command runs its procedure under the checks of R96. -/
theorem exec_of_isSegment {i : Instr} (hi : i.isSegment = true) (s : State) :
    ∃ body, exec i s = runSegment i.opc (footprintOf i) i.readsRef body s := by
  cases i with
  | segSd | segTrInt | segTrImm | segTrImml | segGrInt | segGrImm | segGrImml | segRrInt | segRrImm | segRrImml
  | segTables => exact ⟨_, rfl⟩
  | strmBind | strmSeek | strmReadbits | strmAlign | adInit | adDecode | adCxreset | iaDecode | iaidDecode | htStd
  | htDecode | bmCombine | bmNew => cases hi

/-- A segment command whose operands fail a check of R96 is refused. -/
theorem runSegment_refused {opc : BitVec 8} {fp : Footprint} {readsRef : Bool} {body : Dec SegmentResult} {s : State}
    (h : s.windowOk = false ∨ readsRef = true ∧ s.refsOk = false) :
    runSegment opc fp readsRef body s = .next (s.raise opc fp 0 .illegalCommand) := by
  obtain ⟨t, ht⟩ : ∃ t, runSegment opc fp readsRef body s = .next t := runCommand_next ..
  have hpass : ¬(s.windowOk = true ∧ (readsRef = true → s.refsOk = true)) := by
    rintro ⟨hw, hr⟩
    rcases h with h | ⟨h, h'⟩
    · exact nomatch h.symm.trans hw
    · exact nomatch h'.symm.trans (hr h)
  rcases runSegment_cases ht with ⟨hw, hr, -⟩ | ⟨hw, hr, -⟩ | ⟨-, rfl⟩
  · exact absurd ⟨hw, hr⟩ hpass
  · exact absurd ⟨hw, hr⟩ hpass
  · exact ht

/-! ## What a region segment leaves (`30_encoding.md` R96) -/

/-- A written slot that is not Empty reads back, and every other slot reads as before, whatever SEGSTORE lists. -/
theorem State.slot_setSlot_of_ne_empty (s : State) (h k : Nat) {v : Slot} (hv : v ≠ .empty) :
    (s.setSlot h v).slot k = if h = k then v else s.slot k := by
  unfold State.slot State.setSlot sparseGetD sparseSetD
  rw [if_neg hv, sparseFind_put]
  split <;> rfl

/-- A region segment that ran with array `n`, and used no standard table, writes its Region, SP, ADVALID, the decoder
registers and array `n`. -/
theorem finishSegment_region_frame (s : State) {fp : Footprint} {n : Arr} (w : Work) (hfp : fp.arrs = [n])
    (hbuilt : w.built = 0) (B : Bitmap) (x y : Word) (op : CombOp) :
    let t := (s.finishSegment { slot := .region B x y op, idlen := none } (s.commit fp w)).completed
    t.slot s.dst = .region B x y op ∧ t.sp = BitVec.ofNat 36 (8 * s.windowEnd) ∧ t.advalid = false ∧
      s.HostSideKept t ∧ s.RecordKept t ∧ s.ResultsKept t ∧ s.BindingKept t ∧ t.idlen = s.idlen ∧
      s.OtherArraysKept t [n] ∧ s.OtherSlotsKept t s.dst ∧ t.stdTab = s.stdTab := by
  intro t
  obtain ⟨hhost, hrecord⟩ := commit_frame s fp w
  have hslot (k : Nat) : t.slot k = if s.dst = k then .region B x y op else s.slot k :=
    State.slot_setSlot_of_ne_empty (s.commit fp w) s.dst k (v := .region B x y op) nofun
  refine ⟨(hslot _).trans (if_pos rfl), rfl, rfl, hhost, hrecord, ⟨rfl, rfl, rfl⟩, ⟨rfl, rfl⟩, rfl, fun m hm => ?_,
    fun k hk => (hslot k).trans (if_neg (Ne.symm hk)), ?_⟩
  · exact (State.commit_arr s fp w m).trans (if_neg (hfp ▸ hm))
  · show (s.commit fp w).stdTab = _
    rw [State.commit_stdTab, hbuilt, commitBuilt_zero]

end Sys2Proof.Machine
end

section
/-! The statements of the family `30_encoding.md`. -/

namespace Sys2Proof

open Machine

/-- Settles O1: the word of `i` has its opcode, and its immediates give `i` back. -/
theorem decodeOfEncode : Obligations.DecodeOfEncode := by
  intro i hwf
  obtain ⟨hopc, ha, hb⟩ := encode_fields i
  rw [decode_of_opc i hopc, ha, hb, Instr.withImms_self, decide_eq_true rfl]
  unfold accept
  rw [hwf]
  rfl

/-- Settles O2: a word that decodes has a command's opcode, and the decoder accepts only that command's word. -/
theorem encodeOfDecode : Obligations.EncodeOfDecode := by
  intro w i h
  obtain ⟨j, hopc⟩ := exists_opc_of_decode_ok h
  rw [decode_of_opc j hopc] at h
  obtain ⟨hword, hwf, rfl⟩ := accept_ok h
  exact ⟨hwf, of_decide_eq_true hword⟩

/-- Settles O3: each is the word of its command. -/
theorem wordsOfTheSpec : Obligations.WordsOfTheSpec :=
  ⟨decodeOfEncode .segSd rfl, decodeOfEncode .segTrImm rfl, decodeOfEncode .segGrImm rfl, decodeOfEncode .strmBind rfl,
    decodeOfEncode (.strmReadbits 32) rfl, decodeOfEncode (.adCxreset 0xFF 0) rfl, decodeOfEncode (.adDecode 0 0) rfl,
    decodeOfEncode (.htStd 15) rfl, decodeOfEncode (.htDecode 1) rfl, decodeOfEncode (.bmCombine 2) rfl,
    decodeOfEncode (.bmNew 0) rfl, decodeOfEncode (.iaDecode 6) rfl, decodeOfEncode .iaidDecode rfl,
    decodeOfEncode .segRrImm rfl, decodeOfEncode .segTables rfl⟩

/-- Settles O4: by the class of the opcode where it is no command's, by the format where it is, and then by the ranges of the
immediates. -/
theorem refusedWords : Obligations.RefusedWords := by
  intro w
  have hopc (j : Instr) (h : (opcField w).toNat = j.opc.toNat) : opcField w = j.opc := BitVec.eq_of_toNat_eq h
  refine ⟨decode_of_bit7, decode_of_unsupported, decode_of_reserved_segment, decode_of_reserved_primitive,
    decode_refuses_formatF0, decode_refuses_formatFA,
    fun h ha => decode_refuses (.strmReadbits 0) (hopc _ h) fun _ _ hwf => ?_,
    fun h ha => decode_refuses (.adDecode 0 0) (hopc _ h) fun _ _ hwf => ?_,
    fun h h1 h2 => decode_refuses (.adCxreset 0 0) (hopc _ h) fun _ _ hwf => ?_,
    fun h ha hb => decode_refuses (.adCxreset 0 0) (hopc _ h) fun _ _ hwf => ?cxresetB,
    fun h ha => decode_refuses (.iaDecode 0) (hopc _ h) fun _ _ hwf => ?_,
    fun h ha => decode_refuses (.htStd 0) (hopc _ h) fun _ _ hwf => ?_,
    fun h ha => decode_refuses (.htDecode 0) (hopc _ h) fun _ _ hwf => ?_,
    fun h ha => decode_refuses (.bmCombine 0) (hopc _ h) fun _ _ hwf => ?_,
    fun h ha => decode_refuses (.bmNew 0) (hopc _ h) fun _ _ hwf => ?_⟩
  all_goals simp only [Instr.withImms, Instr.wf, Bool.and_eq_true, Bool.or_eq_true, decide_eq_true_eq] at hwf
  case cxresetB =>
    rcases hwf with (⟨-, hb0⟩ | h15) | h255
    · exact hb hb0
    · omega
    · omega
  all_goals omega

/-- Settles O5. -/
theorem stepRunsDecodedCommand : Obligations.StepRunsDecodedCommand := by
  intro s v rest i hs hd
  rw [step_writeCmd hs]
  unfold State.writeCmd
  rw [hd]

/-- Settles O6: the word is refused in one place, `State.refuseWord`, which may write nothing but the error registers and
ADVALID. -/
theorem stepRefusesWord : Obligations.StepRefusesWord := by
  intro s v rest e hs hd
  exact ⟨_, step_refused hs hd, State.raise_raised .., State.raise_advalid .., State.raise_cmd .., State.raise_host ..,
    State.raise_cfg .., State.raise_p0 .., State.raise_p1 .., State.raise_p2 .., State.raise_p3 .., State.raise_refn ..,
    State.raise_ref .., State.raise_inmem .., State.refuseWord_frame _ _ e⟩

/-- Settles O11: a command that takes an error has its code in ERR, and otherwise it completes. -/
theorem everyCommandEnds : Obligations.EveryCommandEnds := by
  intro i s
  obtain ⟨t, ht⟩ := exec_next i s
  refine ⟨t, ht, ?_⟩
  rcases exec_ends ht with ⟨e, built, rfl⟩ | hdone
  · exact .inr ⟨rfl, CoreError.code_range e⟩
  · exact .inl ⟨hdone.status, hdone.err⟩

/-- Settles O51: the segment is read whole by `segGr_read`, and committed. -/
theorem segGrCompletes : Obligations.SegGrCompletes := by
  intro i s op hi hok p W H g f n at_ start hg hop hpix hf7 hf0 hlegal hm
  obtain ⟨B, u, v, hbody, hw, hh, hinit, hrun, hbuilt⟩ := segGr_read hok hg hop hpix rfl hf7 hf0 rfl rfl hlegal rfl hm
  have hexec : exec i s = runSegment i.opc grFootprint false (segGr s.segmentEnv) s := by
    rcases hi with rfl | rfl | rfl <;> rfl
  exact ⟨_, B, u, v, hexec.trans (runSegment_of_ok hok nofun hbody), ⟨rfl, rfl⟩, hw, hh, hinit, hrun, rfl, rfl,
    finishSegment_region_frame s v rfl hbuilt B _ _ op⟩

/-- Settles O52: the segment is read whole by `segRr_read`, and committed. -/
theorem segRrCompletes : Obligations.SegRrCompletes := by
  intro i s op R x y o hi hok hrefs hrefn hR p W H g f a1 a2 rp start hRw hRh hg hop hpix hf7 hlegal hm
  have hslots : s.refSlots = [.region R x y o] := by
    unfold State.refSlots State.refHandles
    rw [hrefn, ← hR]
    rfl
  obtain ⟨B, u, v, hbody, hw, hh, hinit, hrun, hbuilt⟩ :=
    segRr_read hok hslots hg hop hpix hRw hRh rfl hf7 rfl rfl hlegal rfl hm
  have hexec : exec i s = runSegment i.opc rrFootprint true (segRr s.segmentEnv s.refSlots) s := by
    rcases hi with rfl | rfl | rfl <;> rfl
  exact ⟨_, B, u, v, hexec.trans (runSegment_of_ok hok (fun _ => hrefs) hbody), ⟨rfl, rfl⟩, hw, hh, hinit, hrun, rfl,
    rfl, finishSegment_region_frame s v rfl hbuilt B _ _ op⟩

/-- Settles O57: operands that pass the checks of R96 are none of these. -/
theorem segmentOperandChecks : Obligations.SegmentOperandChecks := by
  intro i s hi hbad
  have hfail : s.windowOk = false ∨ i.readsRef = true ∧ s.refsOk = false := by
    rw [← Bool.not_eq_true, ← Bool.not_eq_true, State.windowOk_iff, State.refsOk_iff]
    unfold State.dst State.datalen
    rcases hbad with h | h | h | ⟨hr, h | ⟨k, hk, h⟩⟩
    · exact .inl (by omega)
    · exact .inl (by omega)
    · exact .inl (by omega)
    · exact .inr ⟨hr, by omega⟩
    · exact .inr ⟨hr, fun hok => absurd (hok.2 k hk) (by omega)⟩
  obtain ⟨body, hexec⟩ := exec_of_isSegment hi s
  exact ⟨_, hexec.trans (runSegment_refused hfail), State.raise_raised .., rfl, rfl⟩

end Sys2Proof
end

section
/-! SUPPORT. The STRM commands, a check on a proposition, and a command that commits the cursor alone. -/

namespace Sys2Proof.Machine

theorem exec_strmBind (s : State) : exec .strmBind s = execStrmBind s := rfl

theorem exec_strmSeek (s : State) : exec .strmSeek s = execStrmSeek s := rfl

theorem exec_strmReadbits (a : BitVec 8) (s : State) : exec (.strmReadbits a) s = execStrmReadbits a s := rfl

theorem exec_strmAlign (s : State) : exec .strmAlign s = execStrmAlign s := rfl

theorem Dec.run_require_of {p : Prop} [Decidable p] (h : p) (e : CoreError) (w : Work) :
    require (decide p) e w = .ok () w := by
  rw [decide_eq_true h, Dec.run_require_true]

theorem Dec.run_require_of_not {p : Prop} [Decidable p] (h : ¬p) (e : CoreError) (w : Work) :
    require (decide p) e w = .error e w := by
  rw [decide_eq_false h, Dec.run_require_false]

/-- A command whose first check passes goes on. -/
theorem runCommand_of_check {α : Type} {p : Prop} [Decidable p] (h : p) (opc : BitVec 8) (fp : Footprint) (e : CoreError)
    (rest : Unit → Dec α) (post : α → State → State) (s : State) :
    runCommand opc fp (require (decide p) e >>= rest) post s = runCommand opc fp (rest ()) post s := by
  unfold runCommand
  rw [Dec.bind_of_ok (Dec.run_require_of h _ _)]

/-- A command that may write neither an array nor the decoder registers, and used no standard table, commits the cursor; the
rest is what its rule names (`10_state.md` R41). -/
theorem runCommand_commits_cursor {α : Type} {opc : BitVec 8} {fp : Footprint} {body : Dec α} {post : α → State → State}
    {s : State} {v : α} {w : Work} (h : body s.work = .ok v w) (hsp : fp.sp = true) (had : fp.ad = false)
    (harrs : fp.arrs = []) (hbuilt : w.built = 0) :
    runCommand opc fp body post s = .next (post v { s with sp := BitVec.ofNat 36 w.sp }).completed := by
  rw [runCommand_of_ok h]
  unfold State.commit
  rw [hsp, had, harrs, hbuilt, commitBuilt_zero, Contexts.mapArr_self _ _ fun _ => if_neg List.not_mem_nil]
  rfl

/-- SP holds every bit position of a bound stream, its end included (`10_state.md` R26). -/
theorem State.toNat_ofNat_cursor (s : State) {p : Nat} (h : p ≤ 8 * s.slen.toNat) : (BitVec.ofNat 36 p).toNat = p := by
  have hslen := s.slen.isLt
  rw [BitVec.toNat_ofNat, Nat.mod_eq_of_lt (by omega)]

end Sys2Proof.Machine
end

section
/-! The statements of the family `40_stream.md`. -/

namespace Sys2Proof.Machine

/-- Settles O26: after the check of n, the field is read whole by `readBits_ok` or runs out by `readBits_error`. -/
theorem readbitsResult : Obligations.ReadbitsResult := by
  intro a s hsp
  rw [exec_strmReadbits]
  unfold execStrmReadbits
  refine ⟨fun ha hfit => ?_, fun ha hout => ?_, fun ha => ?_⟩
  · have hread : readBits s.streamEnv a.toNat s.work =
        .ok (s.streamNum s.sp.toNat a.toNat) { s.work with sp := s.sp.toNat + a.toNat } := by
      rw [← State.streamEnv_bitsOnto]
      exact readBits_ok (Nat.zero_le _) hfit
    rw [runCommand_of_check ha, ← BitVec.ofNat_toNat]
    exact runCommand_commits_cursor hread rfl rfl rfl rfl
  · have hread := readBits_error (E := s.streamEnv) (w := s.work) (Nat.zero_le _) hsp hout
    rw [runCommand_of_check ha]
    exact ⟨_, runCommand_of_error hread, State.raise_raised ..⟩
  · exact runCommand_refused _ _ _ _ s (decide_eq_false (by omega))

/-- Settles O24: the one check is the range, its sum exact. -/
theorem bindResult : Obligations.BindResult := by
  intro s
  rw [exec_strmBind]
  unfold execStrmBind
  refine ⟨fun hfit => ?_, fun hout => ?_⟩
  · exact runCommand_commits_cursor (Dec.run_require_of hfit _ _) rfl rfl rfl rfl
  · exact ⟨_, runCommand_of_error (Dec.run_require_of_not (by omega) _ _), State.raise_raised .., rfl, rfl, rfl, rfl⟩

/-- Settles O25: the one check is P0 ≤ SLEN, the end included. -/
theorem seekResult : Obligations.SeekResult := by
  intro s
  rw [exec_strmSeek]
  unfold execStrmSeek
  refine ⟨fun hin => ?_, fun hpast => ?_⟩
  · rw [runCommand_of_check hin]
    exact runCommand_commits_cursor (Dec.run_modify _ _) rfl rfl rfl rfl
  · exact ⟨_, runCommand_of_error (Dec.bind_of_error (Dec.run_require_of_not (by omega) _ _)), State.raise_raised .., rfl⟩

/-- Settles O27: the next byte boundary is not past the end of the stream, so SP holds it. -/
theorem alignResult : Obligations.AlignResult := by
  intro s hsp
  rw [exec_strmAlign]
  unfold execStrmAlign
  refine ⟨_, runCommand_commits_cursor (alignByte_ok s.sp.toNat s.work) rfl rfl rfl rfl, rfl, ?_⟩
  have hboundary : (BitVec.ofNat 36 (8 * ((s.sp.toNat + 7) / 8))).toNat = 8 * ((s.sp.toNat + 7) / 8) :=
    s.toNat_ofNat_cursor (by omega)
  simp only [State.completed, hboundary]
  omega

end Sys2Proof.Machine
end

section
/-! SUPPORT. The arithmetic primitives once their checks have passed, a bit decode branch by branch of `41_arith.md` R144, the
decoder standing at a marker, and what `AD.CXRESET` accepts and clears. -/

namespace Sys2Proof.Machine

/-! ## The commands -/

theorem exec_adInit (s : State) : exec .adInit s = execAdInit s := rfl

theorem exec_adDecode (a : BitVec 8) (b : BitVec 16) (s : State) : exec (.adDecode a b) s = execAdDecode a b s := rfl

theorem exec_adCxreset (a : BitVec 8) (b : BitVec 16) (s : State) : exec (.adCxreset a b) s = execAdCxreset a b s := rfl

theorem exec_iaDecode (a : BitVec 8) (s : State) : exec (.iaDecode a) s = execIaDecode a s := rfl

theorem exec_iaidDecode (s : State) : exec .iaidDecode s = execIaidDecode s := rfl

/-- `AD.INIT` at a byte boundary (`41_arith.md` R141). -/
theorem execAdInit_of_aligned {s : State} (h : s.sp.toNat % 8 = 0) :
    execAdInit s =
      runCommand 0x48 adInitFootprint (adInitAt s.streamEnv (s.sp.toNat / 8)) (fun _ t => { t with advalid := true }) s :=
  runCommand_of_check h ..

/-- `AD.DECODE` with ADVALID, a selector and an entry that exist (`41_arith.md` R144). -/
theorem execAdDecode_of_checks {a : BitVec 8} {b : BitVec 16} {s : State} {arr : Arr} (hv : s.advalid = true)
    (harr : arrOfSel a.toNat = some arr) (hb : b.toNat < arrSize s.idlen.toNat arr) :
    execAdDecode a b s =
      runCommand 0x49 (adDecodeFootprint [arr]) (adDecode s.streamEnv arr b.toNat)
        (fun d t => { t with r0 := BitVec.ofNat 64 d.toNat }) s := by
  unfold execAdDecode
  rw [hv, harr]
  exact runCommand_of_check hb ..

/-- `IA.DECODE` with ADVALID and the selector of an integer array (`42_intdec.md` R170). -/
theorem execIaDecode_of_checks {a : BitVec 8} {s : State} {arr : Arr} (hv : s.advalid = true)
    (harr : iaArr a.toNat = some arr) :
    execIaDecode a s =
      runCommand 0x4B (iaDecodeFootprint [arr]) (iaDecode s.streamEnv arr) (fun v t => t.putDecoded v) s := by
  unfold execIaDecode
  rw [hv, harr]
  rfl

/-- `IAID.DECODE` with ADVALID (`42_intdec.md` R175). -/
theorem execIaidDecode_of_advalid {s : State} (hv : s.advalid = true) :
    execIaidDecode s =
      runCommand 0x4C (adDecodeFootprint [.iaid]) (iaidDecode s.streamEnv s.idlen.toNat)
        (fun v t => { t with r0 := BitVec.ofNat 64 v }) s := by
  unfold execIaidDecode
  rw [hv]
  rfl

theorem exists_iaArr {k : Nat} (h1 : 2 ≤ k) (h2 : k ≤ 14) : ∃ arr, iaArr k = some arr := by
  have hnamed : ∀ k ≤ 14, (arrOfSel k).isSome = true := by decide
  unfold iaArr
  rw [if_pos ⟨h1, h2⟩]
  exact Option.isSome_iff_exists.mp (hnamed k h2)

section
variable {α : Type} {opc : BitVec 8} {fp : Footprint} {body : Dec α} {post : α → State → State} {s : State}

/-- A command that may not write the cursor, left the arrays and used no standard table, commits the decoder registers; the
rest is what its rule names (`10_state.md` R41). -/
theorem runCommand_commits_decoder {v : α} {w : Work} (h : body s.work = .ok v w) (hsp : fp.sp = false)
    (had : fp.ad = true) (hcx : w.cx = s.cx) (hbuilt : w.built = 0) :
    runCommand opc fp body post s = .next (post v { s with ad := w.ad }).completed := by
  rw [runCommand_of_ok h]
  unfold State.commit
  rw [hsp, had, hcx, hbuilt, commitBuilt_zero, Contexts.mapArr_self _ _ fun _ => ite_self _]
  rfl

/-- A command whose procedure keeps `I` and raises nothing completes, and commits a working state with `I`. -/
theorem runCommand_completes {I : Work → Prop} {Q : α → Prop} (h : Keeps I (fun _ => False) Q body) (h0 : I s.work) :
    ∃ v w, runCommand opc fp body post s = .next (post v (s.commit fp w)).completed ∧ I w := by
  obtain ⟨v, w, hw, -, hI⟩ := h.completes h0
  exact ⟨v, w, runCommand_of_ok hw, hI⟩

end

/-! ## A bit decode (`41_arith.md` R144, R145) -/

/-- The entry that a decode of entry `i` of `arr` reads. -/
abbrev Work.entry (w : Work) (arr : Arr) (i : Nat) : CxEntry := (w.cx.arr arr).entry i

/-- The row of the probability table that the entry names. -/
abbrev Work.row (w : Work) (arr : Arr) (i : Nat) : QeRow := qe (w.entry arr i).idx

/-- The size of the upper sub-interval, A - Qe. -/
abbrev Work.upperSize (w : Work) (arr : Arr) (i : Nat) : BitVec 16 := w.ad.a - (w.row arr i).qe

/-- The code lies in the lower sub-interval, whose size is Qe. -/
abbrev Work.InLower (w : Work) (arr : Arr) (i : Nat) : Prop := w.ad.c.extractLsb' 16 16 < (w.row arr i).qe

/-- The decoder registers with A and C narrowed to the sub-interval the code lies in. -/
def Work.narrowed (w : Work) (arr : Arr) (i : Nat) : ArithRegs :=
  { w.ad with
    a := if w.InLower arr i then (w.row arr i).qe else w.upperSize arr i
    c := if w.InLower arr i then w.ad.c else w.ad.c - ((w.row arr i).qe.setWidth 32 <<< 16) }

/-- The outcome where the interval falls below 0x8000: the MPS has the larger sub-interval (`41_arith.md` R145). -/
def Work.exchange (w : Work) (arr : Arr) (i : Nat) : Exchange :=
  if w.InLower arr i ↔ w.upperSize arr i < (w.row arr i).qe then mpsOutcome (w.entry arr i)
  else lpsOutcome (w.entry arr i)

section
variable {E : Env} {w : Work} {arr : Arr} {i : Nat}

theorem Work.exchange_of_lower (h : w.InLower arr i) :
    w.exchange arr i = lpsExchange (w.entry arr i) (w.upperSize arr i) := by
  unfold Work.exchange lpsExchange
  simp only [h, true_iff]

theorem Work.exchange_of_upper (h : ¬w.InLower arr i) :
    w.exchange arr i = mpsExchange (w.entry arr i) (w.upperSize arr i) := by
  unfold Work.exchange mpsExchange
  simp only [h, false_iff, ite_not]

/-- The last branch: the interval stays at 0x8000 or above. -/
theorem adDecode_without_renorm (hup : ¬w.InLower arr i) (hge : ¬w.upperSize arr i < 0x8000) :
    adDecode E arr i w =
      .ok (w.entry arr i).mps
        { w with
          ad := { w.ad with a := w.upperSize arr i, c := w.ad.c - ((w.row arr i).qe.setWidth 32 <<< 16) } } := by
  unfold adDecode
  rw [Dec.run_bind, Dec.run_get]
  dsimp only
  rw [if_neg hup, if_neg hge]
  rfl

/-- The other two branches: the entry is exchanged and the interval renormalised. -/
theorem adDecode_of_exchange (h : w.InLower arr i ∨ w.upperSize arr i < 0x8000) :
    adDecode E arr i w =
      (renormD E >>= fun _ => pure (w.exchange arr i).bit)
        ({ w with ad := w.narrowed arr i }.setEntry arr i (w.exchange arr i).entry) := by
  unfold adDecode Work.narrowed
  rw [Dec.run_bind, Dec.run_get]
  dsimp only
  by_cases hlow : w.InLower arr i
  · rw [if_pos hlow, if_pos hlow, if_pos hlow, w.exchange_of_lower hlow]
    rfl
  · rw [if_neg hlow, if_pos (h.resolve_left hlow), if_neg hlow, if_neg hlow, w.exchange_of_upper hlow]
    rfl

/-- The narrowed interval is not empty, and where the decode goes on to RENORMD it is below 0x8000. -/
theorem Work.narrowed_a_range (h : w.InLower arr i ∨ w.upperSize arr i < 0x8000) (ha : 0x8000 ≤ w.ad.a.toNat) :
    1 ≤ (w.narrowed arr i).a.toNat ∧ (w.narrowed arr i).a.toNat < 0x8000 := by
  unfold Work.narrowed
  dsimp only
  split
  · have hq := qe_range (w.entry arr i).idx
    exact ⟨hq.1, hq.2.trans_lt (by decide)⟩
  · exact ⟨interval_sub_qe ha _, h.resolve_left ‹_›⟩

/-- A decode that exchanges and completes: the bit and the entry are the exchange's, A is doubled `k` times until it reaches
0x8000, and where CT covers the shifts no byte is read. -/
theorem adDecode_exchange_ok {w' : Work} {d : Bool} (h : w.InLower arr i ∨ w.upperSize arr i < 0x8000)
    (ha : 0x8000 ≤ w.ad.a.toNat) (hct : w.ad.ct.toNat ≤ 8) (hd : adDecode E arr i w = .ok d w') :
    d = (w.exchange arr i).bit ∧ w'.cx = (w.setEntry arr i (w.exchange arr i).entry).cx ∧ w'.built = w.built ∧
      0x8000 ≤ w'.ad.a.toNat ∧
      ∃ k, 1 ≤ k ∧ w'.ad.a.toNat = (w.narrowed arr i).a.toNat * 2 ^ k ∧
        (k ≤ w.ad.ct.toNat →
          w'.ad.c = (w.narrowed arr i).c <<< k ∧ w'.ad.ct.toNat = w.ad.ct.toNat - k ∧ w'.ad.b = w.ad.b ∧
            w'.ad.bp = w.ad.bp) := by
  rw [adDecode_of_exchange h] at hd
  obtain ⟨_, u, hrenorm, hbit⟩ := Dec.bind_ok hd
  obtain ⟨rfl, rfl⟩ := Dec.pure_ok hbit
  obtain ⟨hpos, hlt⟩ := Work.narrowed_a_range h ha
  obtain ⟨-, hcx, hbuilt, ⟨hge, -⟩, hshift⟩ :=
    renormUpTo_ok 16 hrenorm hlt (by dsimp only [Work.setEntry_ad]; omega) hct
  exact ⟨rfl, hcx, hbuilt, hge, hshift⟩

/-! ## At a marker (`41_arith.md` R142, R148) -/

/-- B is 0xFF at position `bp`, and the byte after it is in the window and greater than 0x8F. -/
structure MarkerNext (E : Env) (bp : Word) : Prop where
  low : E.wb ≤ bp.toNat + 1
  high : bp.toNat + 1 < E.we
  code : 0x8F < memByte E.inmem (E.base + (bp.toNat + 1))

/-- A refill there reads no new byte: B and BP stay. -/
theorem byteIn_keeps_marker {bp : Word} (hm : MarkerNext E bp) :
    Keeps (fun w => w.ad.b = 0xFF ∧ w.ad.bp = bp) (fun _ => False) (fun _ => True) (byteIn E) := by
  rintro w ⟨hb, rfl⟩
  unfold byteIn
  rw [Dec.run_bind, Dec.run_get]
  dsimp only
  rw [if_pos hb, Dec.run_bind, inByte_ok hm.low hm.high]
  dsimp only
  rw [if_pos hm.code]
  exact ⟨trivial, hb, rfl⟩

theorem adDecode_keeps_marker {bp : Word} (hm : MarkerNext E bp) (arr : Arr) (i : Nat) :
    Keeps (fun w => w.ad.b = 0xFF ∧ w.ad.bp = bp) (fun _ => False) (fun _ => True) (adDecode E arr i) :=
  adDecode_keeps (byteIn_keeps_marker hm) (fun _ h => h) (fun _ _ _ h => h) fun _ _ h => h

end

/-- The marker ahead of a fed decoder, as the bit decodes of a primitive see it. -/
theorem State.decoderFed.marker {s : State} (h : s.decoderFed) :
    ∃ j, MarkerAt s.streamEnv j ∧ Fed s.streamEnv j s.work := by
  obtain ⟨-, hb, j, hle, hlt, hff, hcode⟩ := h
  exact ⟨j, ⟨Nat.zero_le _, hlt, s.slen.isLt.le, hff, hcode⟩, Nat.zero_le _, hle, hb⟩

/-! ## `AD.CXRESET` (`41_arith.md` R146) -/

theorem cxresetOk_iff {a m : Nat} {b : BitVec 16} :
    cxresetOk a b.toNat m = true ↔ a ≤ 14 ∧ b = 0 ∨ (a = 15 ∨ a = 255) ∧ b.toNat ≤ ceilLog2 m := by
  have hzero : b = 0 ↔ b.toNat = 0 := BitVec.toNat_inj.symm
  rw [hzero]
  unfold cxresetOk
  split
  · rw [decide_eq_true_eq]
    omega
  · split
    · rw [decide_eq_true_eq]
      omega
    · simp only [Bool.false_eq_true, false_iff]
      omega

theorem cxresetCovers_iff {a : Nat} {n : Arr} : cxresetCovers a n = true ↔ a = 255 ∨ arrSel n = a := by
  simp only [cxresetCovers, Bool.or_eq_true, decide_eq_true_eq]

/-- MAXSYMS ≤ 2^63, so every IDLEN in range fits the register (log entry 2). -/
theorem ceilLog2_maxsyms_lt {p : Params} (hp : p.Valid) : ceilLog2 p.maxsyms < 64 := by
  obtain ⟨-, -, -, -, -, -, -, -, hmax, -⟩ := hp
  have htop : ceilLog2 (2 ^ 63) < 64 := by decide
  exact (ceilLog2_mono hmax).trans_lt htop

end Sys2Proof.Machine
end

section
/-! The statements of the family `41_arith.md`. -/

namespace Sys2Proof.Machine

/-- Settles O28: the three cases are `adInitAt_plain`, `adInitAt_stuffed` and `adInitAt_marker`. -/
theorem adInitResult : Obligations.AdInitResult := by
  intro s i hsp hlen b0 b1
  have halign : s.sp.toNat % 8 = 0 := by omega
  have hbyte : s.sp.toNat / 8 = i := by omega
  rw [exec_adInit, execAdInit_of_aligned halign, hbyte]
  have hwide : s.streamEnv.we ≤ 2 ^ 32 := s.slen.isLt.le
  have hff : ((0xFF0000 : Nat) : BitVec 32) = (0xFF : BitVec 32) <<< 16 := by decide
  have hdone (r : ArithRegs) (h : adInitAt s.streamEnv i s.work = .ok () { s.work with ad := r }) :=
    runCommand_commits_decoder (opc := 0x48) (fp := adInitFootprint) (post := fun _ t => { t with advalid := true })
      h rfl rfl rfl rfl
  refine ⟨fun h0 => ?_, fun h0 h1 => ?_, fun h0 h1 => ?_⟩
  · exact hdone _ (adInitAt_plain (Nat.zero_le _) hlen hwide h0)
  · rw [hff]
    exact hdone _ (adInitAt_stuffed (Nat.zero_le _) hlen hwide h0 (BitVec.not_lt.mpr h1))
  · exact hdone _ (adInitAt_marker (Nat.zero_le _) hlen hwide h0 h1)

/-- Settles O29: the check of the boundary is the first, and `adInitAt_error` is the other error. -/
theorem adInitErrors : Obligations.AdInitErrors := by
  intro s
  rw [exec_adInit]
  refine ⟨fun hoff => ?_, fun halign hshort => ?_⟩
  · exact ⟨_, runCommand_of_error (Dec.bind_of_error (Dec.run_require_of_not hoff _ _)), State.raise_raised .., rfl⟩
  · obtain ⟨w, hw, -⟩ := adInitAt_error (E := s.streamEnv) s.work (.inr hshort) s.slen.isLt.le
    rw [execAdInit_of_aligned halign]
    exact ⟨_, runCommand_of_error hw, State.raise_raised .., State.raise_advalid ..⟩

/-- Settles O30, from `adDecode_without_renorm`. -/
theorem adDecodeWithoutRenormalisation : Obligations.AdDecodeWithoutRenormalisation := by
  intro a b s arr harr hb hv e q _ hup hge
  rw [exec_adDecode, execAdDecode_of_checks hv harr hb]
  exact runCommand_commits_decoder (adDecode_without_renorm (BitVec.not_lt.mpr hup) (BitVec.not_lt.mpr hge)) rfl rfl rfl rfl

/-- Settles O31: with a marker ahead the decode completes, and `adDecode_exchange_ok` says how. -/
theorem adDecodeExchange : Obligations.AdDecodeExchange := by
  intro a b s arr harr hb hfed hrise ha hct e row rest lower hexch
  obtain ⟨j, hm, hstart⟩ := hfed.marker
  obtain ⟨d, w, hd, -⟩ := (adDecode_fed hm arr b.toNat).completes hstart
  obtain ⟨rfl, hcx, hbuilt, hge, k, hk, hak, hshift⟩ := adDecode_exchange_ok (w := s.work) hexch ha hct hd
  rw [exec_adDecode, execAdDecode_of_checks hfed.1 harr hb]
  obtain ⟨hhost, hrecord⟩ := commit_frame s (adDecodeFootprint [arr]) w
  have hother (n : Arr) (hn : n ∉ [arr]) : (s.commit (adDecodeFootprint [arr]) w).cx.arr n = s.cx.arr n :=
    (State.commit_arr ..).trans (if_neg hn)
  have hentry (i : Nat) : ((s.commit (adDecodeFootprint [arr]) w).cx.arr arr).entry i =
      if b.toNat = i then (s.work.exchange arr b.toNat).entry else (s.cx.arr arr).entry i := by
    have hcommit := (State.commit_arr s (adDecodeFootprint [arr]) w arr).trans (if_pos (List.mem_singleton_self arr))
    rw [hcommit, hcx, Work.setEntry_arr, if_pos rfl]
    exact CxArray.entry_setEntry _ hrise _ _ _
  have hstd : (s.commit (adDecodeFootprint [arr]) w).stdTab = s.stdTab := by
    rw [State.commit_stdTab, hbuilt]
    exact commitBuilt_zero _
  have hself := (hentry b.toNat).trans (if_pos rfl)
  refine ⟨_, k, runCommand_of_ok hd, ⟨rfl, rfl⟩, ⟨fun hmps => ?_, fun hlps => ?_⟩,
    fun j hj => (hentry j).trans (if_neg (Ne.symm hj)), hk, hak, hge, hshift, hhost, hrecord, ⟨rfl, rfl⟩, rfl, rfl, rfl,
    hfed.1, rfl, hother, rfl, hstd⟩
  · have hx : s.work.exchange arr b.toNat = mpsOutcome e := if_pos hmps
    exact ⟨by rw [hx]; rfl, hself.trans (by rw [hx]; rfl)⟩
  · have hx : s.work.exchange arr b.toNat = lpsOutcome e := if_neg hlps
    exact ⟨by rw [hx]; rfl, hself.trans (by rw [hx]; rfl)⟩

/-- Settles O32: at a marker a refill reads no new byte, so every bit decode keeps B and BP and raises nothing. -/
theorem markerNeverFaults : Obligations.MarkerNeverFaults := by
  intro s hv hb hlen hcode
  have hm : MarkerNext s.streamEnv s.ad.bp := ⟨Nat.zero_le _, hlen, hcode⟩
  have hbit (arr : Arr) (i : Nat) := adDecode_keeps_marker hm arr i
  refine ⟨fun a b arr harr hlt => ?_, fun a h1 h2 => ?_, ?_⟩
  · rw [exec_adDecode, execAdDecode_of_checks hv harr hlt]
    obtain ⟨d, w, ht, hwb, hwbp⟩ := runCommand_completes (hbit arr b.toNat) ⟨hb, rfl⟩
    exact ⟨_, ht, ⟨rfl, rfl⟩, hwb.trans hb.symm, hwbp⟩
  · obtain ⟨arr, harr⟩ := exists_iaArr h1 h2
    rw [exec_iaDecode, execIaDecode_of_checks hv harr]
    obtain ⟨v, w, ht, hwb, hwbp⟩ := runCommand_completes (iaDecode_keeps (hbit arr)) ⟨hb, rfl⟩
    refine ⟨_, ht, ⟨rfl, rfl⟩, ?_⟩
    rw [State.completed_ad, State.putDecoded_ad]
    exact ⟨hwb.trans hb.symm, hwbp⟩
  · rw [exec_iaidDecode, execIaidDecode_of_advalid hv]
    obtain ⟨v, w, ht, hwb, hwbp⟩ := runCommand_completes (iaidDecode_keeps (hbit .iaid) s.idlen.toNat) ⟨hb, rfl⟩
    exact ⟨_, ht, ⟨rfl, rfl⟩, hwb.trans hb.symm, hwbp⟩

/-- Settles O34: the check is the legality, and the arrays covered are cleared. -/
theorem cxresetResult : Obligations.CxresetResult := by
  intro a b s hp legal
  rw [exec_adCxreset]
  unfold execAdCxreset
  refine ⟨fun hlegal => ?_, fun hillegal => ?_⟩
  · have hok := cxresetOk_iff.mpr hlegal
    rw [hok]
    refine ⟨_, runCommand_of_ok (Dec.run_require_true _ _), ?_, ?_, fun n => ⟨fun hn i => ?_, fun h255 hn => ?_⟩⟩
    · rw [State.commit_nothing _ _ rfl]
      rfl
    · dsimp only [State.completed]
      split
      · rfl
      · have hfit := ceilLog2_maxsyms_lt hp
        have hle := cxresetOk_le hok ‹_›
        rw [BitVec.toNat_ofNat, Nat.mod_eq_of_lt (by omega)]
    · dsimp only [State.completed]
      rw [Contexts.arr_mapArr, if_pos (cxresetCovers_iff.mpr hn), CxArray.entry_cleared]
    · dsimp only [State.completed]
      rw [Contexts.arr_mapArr, if_neg (mt cxresetCovers_iff.mp (not_or.mpr ⟨h255, hn⟩))]
  · have hrefuse := Bool.eq_false_iff.mpr (mt cxresetOk_iff.mp hillegal)
    rw [hrefuse]
    exact ⟨_, runCommand_of_error (Dec.run_require_false _ _), State.raise_raised ..⟩

end Sys2Proof.Machine
end

section
/-! SUPPORT. The integer procedures as sequences of bit decodes (`42_intdec.md` R170 to R175): the bits each decodes, the entries
it decodes them with, and the value they spell. -/

namespace Sys2Proof.Machine

/-! ## Numbers of bits -/

/-- One more bit at the low end: how `Bits(n)` collects a value, and how IAID collects PREV (`42_intdec.md` R170, R175). -/
abbrev pushBit (v : Nat) (d : Bool) : Nat := 2 * v + d.toNat

theorem foldl_pushBit (ds : List Bool) (v : Nat) : ds.foldl pushBit v = v * 2 ^ ds.length + numOfBits ds := by
  induction ds generalizing v with
  | nil => exact (Nat.mul_one v).symm
  | cons d ds ih =>
    have hfrom : numOfBits (d :: ds) = pushBit 0 d * 2 ^ ds.length + numOfBits ds := ih (pushBit 0 d)
    rw [List.foldl_cons, ih, hfrom, List.length_cons, pow_succ]
    ring

theorem numOfBits_cons (d : Bool) (ds : List Bool) : numOfBits (d :: ds) = d.toNat * 2 ^ ds.length + numOfBits ds := by
  rw [← Nat.zero_add d.toNat]
  exact foldl_pushBit ds (pushBit 0 d)

theorem numOfBits_lt (ds : List Bool) : numOfBits ds < 2 ^ ds.length := by
  induction ds with
  | nil => exact Nat.one_pos
  | cons d ds ih =>
    rw [numOfBits_cons, List.length_cons, pow_succ]
    cases d <;> simp only [Bool.toNat_false, Bool.toNat_true] <;> omega

/-! ## The context index -/

/-- Every entry that a sequence of decodes uses is below `n`: PREV starts at `prev`, and `next` gives the following one. -/
def PrevBelow (next : Nat → Bool → Nat) (n : Nat) : (prev : Nat) → (ds : List Bool) → Prop
  | _, [] => True
  | prev, d :: ds => prev < n ∧ PrevBelow next n (next prev d) ds

/-- `NextPrev` in the arithmetic of R172's table: the leading bit and the newest eight. -/
theorem nextPrev_eq :
    nextPrev = fun prev d => if prev < 256 then 2 * prev + d.toNat else (2 * prev + d.toNat) % 512 ||| 256 := by
  funext prev d
  unfold nextPrev
  rw [Nat.and_two_pow_sub_one_eq_mod _ 9]

theorem nextPrev_lt (prev : Nat) (d : Bool) : nextPrev prev d < 512 := by
  unfold nextPrev
  split
  · have hd := d.toNat_le
    omega
  · exact Nat.or_lt_two_pow (n := 9) (Nat.and_lt_two_pow _ (by decide)) (by decide)

/-- PREV of an integer stays below 512 (`42_intdec.md` R172). -/
theorem nextPrev_below {prev : Nat} (h : prev < 512) (ds : List Bool) : PrevBelow nextPrev 512 prev ds := by
  induction ds generalizing prev with
  | nil => trivial
  | cons d ds ih => exact ⟨h, ih (nextPrev_lt prev d)⟩

/-- PREV of a symbol ID is a node of a binary tree, and the nodes on a path of inner nodes are below 2^n
(`42_intdec.md` R175). -/
theorem pushBit_below {n prev : Nat} {ds : List Bool} (h : (prev + 1) * 2 ^ ds.length ≤ 2 ^ (n + 1)) :
    PrevBelow pushBit (2 ^ n) prev ds := by
  induction ds generalizing prev with
  | nil => trivial
  | cons d ds ih =>
    rw [List.length_cons, pow_succ, ← Nat.mul_assoc, pow_succ] at h
    have hle : (prev + 1) * 2 ^ ds.length ≤ 2 ^ n := by omega
    have hprev : prev + 1 ≤ (prev + 1) * 2 ^ ds.length := Nat.le_mul_of_pos_right _ (Nat.two_pow_pos _)
    refine ⟨by omega, ih ?_⟩
    calc (pushBit prev d + 1) * 2 ^ ds.length
        ≤ (2 * (prev + 1)) * 2 ^ ds.length := Nat.mul_le_mul_right _ (by have hd := d.toNat_le; simp only [pushBit]; omega)
      _ = 2 * ((prev + 1) * 2 ^ ds.length) := Nat.mul_assoc ..
      _ ≤ 2 ^ (n + 1) := by rw [pow_succ]; omega

/-! ## The procedures -/

section
variable {E : Env} {arr : Arr} {w w' : Work}

theorem iaBitsOnto_bitRun {n prev r v : Nat} (h : iaBitsOnto E arr n prev r w = .ok v w') :
    ∃ ds, ds.length = n ∧ bitRun E arr nextPrev prev ds w w' ∧ v = ds.foldl pushBit r := by
  induction n generalizing prev r w with
  | zero =>
    obtain ⟨rfl, rfl⟩ := Dec.pure_ok h
    exact ⟨[], rfl, rfl, rfl⟩
  | succ n ih =>
    obtain ⟨d, u, hd, h⟩ := Dec.bind_ok h
    obtain ⟨ds, hlen, hrun, hv⟩ := ih h
    exact ⟨d :: ds, congrArg (· + 1) hlen, ⟨u, hd, hrun⟩, hv⟩

/-- The rows of R171 that the remaining ranges give: a leading bit 1 for each range passed over, and the last row when none
is left. -/
def rowsOfRanges : List (Nat × Nat) → List (List Bool × Nat × Nat)
  | [] => [([], 32, 4436)]
  | range :: more => ([false], range) :: (rowsOfRanges more).map fun row => (true :: row.1, row.2)

theorem rowsOfRanges_iaRanges : rowsOfRanges iaRanges = iaRows := rfl

theorem iaMagnitude_bitRun {ranges : List (Nat × Nat)} {prev v : Nat} (h : iaMagnitude E arr ranges prev w = .ok v w') :
    ∃ row val, row ∈ rowsOfRanges ranges ∧ val.length = row.2.1 ∧ bitRun E arr nextPrev prev (row.1 ++ val) w w' ∧
      v = numOfBits val + row.2.2 := by
  induction ranges generalizing prev w with
  | nil =>
    obtain ⟨r, u, hbits, h⟩ := Dec.bind_ok h
    obtain ⟨rfl, rfl⟩ := Dec.pure_ok h
    obtain ⟨val, hlen, hrun, rfl⟩ := iaBitsOnto_bitRun hbits
    exact ⟨_, val, List.mem_singleton_self _, hlen, hrun, rfl⟩
  | cons range more ih =>
    obtain ⟨d, u, hd, h⟩ := Dec.bind_ok h
    cases d with
    | true =>
      obtain ⟨row, val, hrow, hlen, hrun, hv⟩ := ih h
      exact ⟨(true :: row.1, row.2), val, List.mem_cons_of_mem _ (List.mem_map.mpr ⟨row, hrow, rfl⟩), hlen, ⟨u, hd, hrun⟩, hv⟩
    | false =>
      obtain ⟨r, u', hbits, h⟩ := Dec.bind_ok h
      obtain ⟨rfl, rfl⟩ := Dec.pure_ok h
      obtain ⟨val, hlen, hrun, rfl⟩ := iaBitsOnto_bitRun hbits
      exact ⟨([false], range), val, List.mem_cons_self, hlen, ⟨u, hd, hrun⟩, rfl⟩

/-- An integer decode is a sequence of bit decodes whose bits spell its value (`42_intdec.md` R170). -/
theorem iaDecode_bitRun {v : Option Int} (h : iaDecode E arr w = .ok v w') :
    ∃ ds, bitRun E arr nextPrev 1 ds w w' ∧ ds ≠ [] ∧ iaBits ds v := by
  obtain ⟨sign, u, hsign, h⟩ := Dec.bind_ok h
  obtain ⟨m, u', hmag, h⟩ := Dec.bind_ok h
  obtain ⟨rfl, rfl⟩ := Dec.pure_ok h
  obtain ⟨row, val, hrow, hlen, hrun, rfl⟩ := iaMagnitude_bitRun hmag
  rw [rowsOfRanges_iaRanges] at hrow
  refine ⟨sign :: row.1 ++ val, ⟨u, hsign, hrun⟩, List.cons_ne_nil _ _, sign, row, val, hrow, hlen, rfl, ?_⟩
  cases sign <;> rfl

theorem iaidWalk_bitRun {n prev v : Nat} (h : iaidWalk E n prev w = .ok v w') :
    ∃ ds, ds.length = n ∧ bitRun E .iaid pushBit prev ds w w' ∧ v = ds.foldl pushBit prev := by
  induction n generalizing prev w with
  | zero =>
    obtain ⟨rfl, rfl⟩ := Dec.pure_ok h
    exact ⟨[], rfl, rfl, rfl⟩
  | succ n ih =>
    obtain ⟨d, u, hd, h⟩ := Dec.bind_ok h
    obtain ⟨ds, hlen, hrun, hv⟩ := ih h
    exact ⟨d :: ds, congrArg (· + 1) hlen, ⟨u, hd, hrun⟩, hv⟩

/-- A symbol-ID decode is a path of bit decodes down the tree, and its value the path less the leading 1
(`42_intdec.md` R175). -/
theorem iaidDecode_bitRun {n v : Nat} (h : iaidDecode E n w = .ok v w') :
    ∃ ds, bitRun E .iaid pushBit 1 ds w w' ∧ ds.length = n ∧ v = numOfBits ds := by
  obtain ⟨prev, u, hwalk, h⟩ := Dec.bind_ok h
  obtain ⟨rfl, rfl⟩ := Dec.pure_ok h
  obtain ⟨ds, rfl, hrun, rfl⟩ := iaidWalk_bitRun hwalk
  refine ⟨ds, hrun, rfl, ?_⟩
  rw [foldl_pushBit, Nat.one_mul, Nat.add_sub_cancel_left]

end

/-- The values that R171's rows spell are within 2^32 + 4435 of 0 (`42_intdec.md` R174). -/
theorem iaBits_range {ds : List Bool} {v : Int} (h : iaBits ds (some v)) : -4294971731 ≤ v ∧ v ≤ 4294971731 := by
  obtain ⟨sign, row, val, hrow, hlen, -, hv⟩ := h
  have hfit : ∀ row ∈ iaRows, 2 ^ row.2.1 + row.2.2 ≤ 4294971732 := by decide
  have hrange := hfit row hrow
  have hval := numOfBits_lt val
  rw [hlen] at hval
  split at hv
  · cases hv
    omega
  · split at hv <;> cases hv
    omega

/-- RFLAGS.OOB and R0 as `IA.DECODE` writes them: the out-of-band value, or a value in range, which R0 holds
(`42_intdec.md` R170, R174). -/
theorem iaBits_registers {ds : List Bool} {v : Option Int} (h : iaBits ds v) :
    v.isNone = true ∧ v.elim 0 (BitVec.ofInt 64) = 0 ∨
      v.isNone = false ∧ -4294971731 ≤ (v.elim 0 (BitVec.ofInt 64)).toInt ∧
        (v.elim 0 (BitVec.ofInt 64)).toInt ≤ 4294971731 := by
  cases v with
  | none => exact .inl ⟨rfl, rfl⟩
  | some v =>
    have hrange := iaBits_range h
    have hr0 : (BitVec.ofInt 64 v).toInt = v := BitVec.toInt_ofInt_eq_self (by decide) (by omega) (by omega)
    exact .inr ⟨rfl, hr0.symm ▸ hrange⟩

end Sys2Proof.Machine
end

section
/-! SUPPORT. The commands `AD.DECODE`, `IA.DECODE` and `IAID.DECODE` where their bit decodes complete: what they commit, and that
a sequence of bit decodes is the sequence of commands `AD.DECODE`. -/

namespace Sys2Proof.Machine

/-! ## What a sequence of bit decodes leaves -/

/-- `w` differs from `w0` in the decoder registers and array `arr` only. -/
structure Work.DecodedFrom (w0 : Work) (arr : Arr) (w : Work) : Prop where
  sp : w.sp = w0.sp
  built : w.built = w0.built
  others : ∀ n, n ≠ arr → w.cx.arr n = w0.cx.arr n

theorem Work.DecodedFrom.refl (w : Work) (arr : Arr) : w.DecodedFrom arr w := ⟨rfl, rfl, fun _ _ => rfl⟩

section
variable {E : Env} {arr : Arr} {next : Nat → Bool → Nat} {w0 w w' : Work}

theorem adDecode_decodedFrom (w0 : Work) (i : Nat) :
    Keeps (w0.DecodedFrom arr) anyError (fun _ => True) (adDecode E arr i) := by
  refine adDecode_keeps (byteIn_keeps trivial fun _ _ _ _ _ h => { h with }) (fun _ h => { h with })
    (fun _ _ _ h => { h with }) fun w e h => ⟨h.sp, h.built, fun n hn => ?_⟩
  rw [Work.setEntry_arr, if_neg hn.symm, h.others n hn]

theorem bitRun_decodedFrom {prev : Nat} {ds : List Bool} (h : bitRun E arr next prev ds w w')
    (hw : w0.DecodedFrom arr w) : w0.DecodedFrom arr w' := by
  induction ds generalizing prev w with
  | nil => exact h ▸ hw
  | cons d ds ih =>
    obtain ⟨u, hd, hrun⟩ := h
    exact ih hrun ((adDecode_decodedFrom w0 prev).ok hw hd).2

end

/-- `s` with the decoder registers and the arrays of a working state. -/
def State.withDecoder (s : State) (w : Work) : State := { s with ad := w.ad, cx := w.cx }

/-- A command on one array that decoded bits only commits the decoder registers and the array (`10_state.md` R41). -/
theorem State.commit_of_decodedFrom {s : State} {arr : Arr} {w : Work} {fp : Footprint}
    (h : s.work.DecodedFrom arr w) (hsp : fp.sp = false) (had : fp.ad = true) (harrs : fp.arrs = [arr]) :
    s.commit fp w = s.withDecoder w := by
  have hcx : s.cx.mapArr (fun n x => if n ∈ [arr] then w.cx.arr n else x) = w.cx := by
    refine Contexts.ext_arr fun n => ?_
    rw [Contexts.arr_mapArr]
    split
    · rfl
    · exact (h.others n (mt List.mem_singleton.mpr ‹_›)).symm
  have hbuilt : commitBuilt w.built s.stdTab = s.stdTab := by
    rw [h.built]
    exact commitBuilt_zero _
  unfold State.commit State.withDecoder
  rw [hsp, had, harrs, hcx, hbuilt]
  rfl

theorem State.work_withDecoder {s : State} {arr : Arr} {w : Work} (h : s.work.DecodedFrom arr w) :
    (s.withDecoder w).work = w := by
  obtain ⟨sp, ad, cx, built⟩ := w
  obtain ⟨rfl, rfl, -⟩ := h
  rfl

/-- `s.withDecoder w` keeps every array but the one decoded with. -/
theorem State.withDecoder_others {s : State} {arr : Arr} {w : Work} (h : s.work.DecodedFrom arr w) :
    s.OtherArraysKept (s.withDecoder w) [arr] :=
  fun n hn => h.others n (mt List.mem_singleton.mpr hn)

/-! ## The commands where their decodes complete -/

section
variable {s : State} {w : Work}

theorem exec_adDecode_of_ok {a : BitVec 8} {b : BitVec 16} {arr : Arr} {d : Bool} (hv : s.advalid = true)
    (harr : arrOfSel a.toNat = some arr) (hb : b.toNat < arrSize s.idlen.toNat arr)
    (h : adDecode s.streamEnv arr b.toNat s.work = .ok d w) :
    exec (.adDecode a b) s = .next { s.withDecoder w with r0 := BitVec.ofNat 64 d.toNat, status := .done, err := 0 } := by
  have hfrom := ((adDecode_decodedFrom s.work b.toNat).ok (.refl _ _) h).2
  rw [exec_adDecode, execAdDecode_of_checks hv harr hb, runCommand_of_ok h, State.commit_of_decodedFrom hfrom rfl rfl rfl]
  rfl

theorem State.putDecoded_eq (s : State) (v : Option Int) :
    s.putDecoded v = { s with r0 := v.elim 0 (BitVec.ofInt 64), oob := v.isNone } := by
  cases v <;> rfl

theorem exec_iaDecode_of_ok {a : BitVec 8} {arr : Arr} {v : Option Int} (hv : s.advalid = true)
    (harr : iaArr a.toNat = some arr) (h : iaDecode s.streamEnv arr s.work = .ok v w) :
    exec (.iaDecode a) s =
      .next
        { s.withDecoder w with
          r0 := v.elim 0 (BitVec.ofInt 64), oob := v.isNone, status := .done, err := 0 } := by
  obtain ⟨ds, hrun, -⟩ := iaDecode_bitRun h
  rw [exec_iaDecode, execIaDecode_of_checks hv harr, runCommand_of_ok h,
    State.commit_of_decodedFrom (bitRun_decodedFrom hrun (.refl _ _)) rfl rfl rfl, State.putDecoded_eq]
  rfl

theorem exec_iaidDecode_of_ok {v : Nat} (hv : s.advalid = true)
    (h : iaidDecode s.streamEnv s.idlen.toNat s.work = .ok v w) :
    exec .iaidDecode s = .next { s.withDecoder w with r0 := BitVec.ofNat 64 v, status := .done, err := 0 } := by
  obtain ⟨ds, hrun, -⟩ := iaidDecode_bitRun h
  rw [exec_iaidDecode, execIaidDecode_of_advalid hv, runCommand_of_ok h,
    State.commit_of_decodedFrom (bitRun_decodedFrom hrun (.refl _ _)) rfl rfl rfl]
  rfl

/-- A command that ends DONE ran its procedure whole: an error ends ERROR (`60_exceptions.md` R424). -/
theorem runCommand_done {α : Type} {opc : BitVec 8} {fp : Footprint} {body : Dec α} {post : α → State → State} {t : State}
    (h : runCommand opc fp body post s = .next t) (ht : t.status = .done) : ∃ v w, body s.work = .ok v w := by
  obtain ⟨v, w, hbody, -⟩ | ⟨e, w, -, rfl⟩ := runCommand_cases h
  · exact ⟨v, w, hbody⟩
  · exact nomatch ht

theorem exec_iaDecode_done {a : BitVec 8} {t : State} (h : exec (.iaDecode a) s = .next t) (ht : t.status = .done) :
    s.advalid = true ∧ ∃ arr v w, iaArr a.toNat = some arr ∧ iaDecode s.streamEnv arr s.work = .ok v w := by
  rw [exec_iaDecode] at h
  obtain ⟨v, w, hbody⟩ := runCommand_done h ht
  obtain ⟨_, _, hrequire, hbody⟩ := Dec.bind_ok hbody
  obtain ⟨hv, rfl⟩ := Dec.require_ok hrequire
  cases harr : iaArr a.toNat with
  | none =>
    rw [harr] at hbody
    cases hbody
  | some arr =>
    rw [harr] at hbody
    exact ⟨hv, arr, v, w, rfl, hbody⟩

theorem exec_iaidDecode_done {t : State} (h : exec .iaidDecode s = .next t) (ht : t.status = .done) :
    s.advalid = true ∧ ∃ v w, iaidDecode s.streamEnv s.idlen.toNat s.work = .ok v w := by
  rw [exec_iaidDecode] at h
  obtain ⟨v, w, hbody⟩ := runCommand_done h ht
  obtain ⟨_, _, hrequire, hbody⟩ := Dec.bind_ok hbody
  obtain ⟨hv, rfl⟩ := Dec.require_ok hrequire
  exact ⟨hv, v, w, hbody⟩

end

/-- The integer arrays have 512 entries (`10_state.md` R24). -/
theorem arrSize_of_iaArr {k idlen : Nat} {arr : Arr} (h : iaArr k = some arr) : arrSize idlen arr = 512 := by
  have hsel := arrSel_of_arrOfSel (arrOfSel_of_iaArr h)
  have hrange : 2 ≤ k ∧ k ≤ 14 := by
    unfold iaArr at h
    split at h
    · assumption
    · cases h
  subst hsel
  cases arr with
  | gb | gr | iaid => exact absurd hrange (by decide)
  | iadh | iadw | iaex | iaai | iadt | iafs | iads | iait | iari | iardw | iardh | iardx | iardy => rfl

/-- A sequence of bit decodes that stays in its array and whose entries are immediates is the sequence of commands
`AD.DECODE`: the registers it leaves, and R0, STATUS, ERR of the last command if there is one. -/
theorem adRun_of_bitRun {a : BitVec 8} {arr : Arr} {next : Nat → Bool → Nat} {n prev : Nat} {ds : List Bool} {s : State}
    {w : Work} (harr : arrOfSel a.toNat = some arr) (himm : n ≤ 2 ^ 16) (hv : s.advalid = true)
    (hsize : arrSize s.idlen.toNat arr = n) (hbelow : PrevBelow next n prev ds)
    (hrun : bitRun s.streamEnv arr next prev ds s.work w) :
    ∃ r0 status err, adRun a next prev ds s { s.withDecoder w with r0 := r0, status := status, err := err } ∧
      (s.Completed ∨ ds ≠ [] → status = .done ∧ err = 0) := by
  induction ds generalizing prev s with
  | nil => exact hrun ▸ ⟨s.r0, s.status, s.err, rfl, fun h => h.resolve_right (absurd rfl)⟩
  | cons d ds ih =>
    obtain ⟨hprev, hbelow⟩ := hbelow
    obtain ⟨u, hd, hrun⟩ := hrun
    have hb : (BitVec.ofNat 16 prev).toNat = prev := by rw [BitVec.toNat_ofNat, Nat.mod_eq_of_lt (hprev.trans_le himm)]
    have hstep := exec_adDecode_of_ok (b := BitVec.ofNat 16 prev) hv harr (by rwa [hb, hsize]) (by rwa [hb])
    have hfrom := ((adDecode_decodedFrom s.work prev).ok (.refl _ _) hd).2
    rw [← State.work_withDecoder hfrom] at hrun
    obtain ⟨r0, status, err, hrest, hdone⟩ := ih
      (s := { s.withDecoder u with r0 := BitVec.ofNat 64 d.toNat, status := .done, err := 0 }) hv hsize hbelow hrun
    exact ⟨r0, status, err, ⟨_, hstep, rfl, rfl, hrest⟩, fun _ => hdone (.inl ⟨rfl, rfl⟩)⟩

end Sys2Proof.Machine
end

section
/-! The statements of the family `42_intdec.md`. -/

namespace Sys2Proof.Machine

/-- Settles O35: the procedure is a sequence of bit decodes by `iaDecode_bitRun`, and that the sequence of commands by
`adRun_of_bitRun`, as PREV stays below the 512 entries of an integer array. -/
theorem iaDecodeIsAdDecodes : Obligations.IaDecodeIsAdDecodes := by
  intro a s t ht hdone
  obtain ⟨hv, arr, v, w, harr, hdecode⟩ := exec_iaDecode_done ht hdone
  obtain ⟨ds, hrun, hne, hbits⟩ := iaDecode_bitRun hdecode
  obtain ⟨r0, status, err, hcommands, hlast⟩ := adRun_of_bitRun (arrOfSel_of_iaArr harr) (by decide) hv
    (arrSize_of_iaArr harr) (nextPrev_below (by decide) ds) hrun
  obtain ⟨rfl, rfl⟩ := hlast (.inr hne)
  rw [exec_iaDecode_of_ok hv harr hdecode] at ht
  cases ht
  refine ⟨ds, _, v, nextPrev_eq ▸ hcommands, hbits, ?_⟩
  cases v <;> rfl

/-- Settles O36: before a marker every bit decode completes, so the procedure does, and `iaBits_registers` says what its bits
spell. -/
theorem iaDecodeCompletes : Obligations.IaDecodeCompletes := by
  intro a s arr h1 h2 hsel hfed
  have harr : iaArr a.toNat = some arr := (if_pos ⟨h1, h2⟩).trans hsel
  obtain ⟨j, hm, hstart⟩ := hfed.marker
  obtain ⟨v, w, hdecode, -⟩ := (iaDecode_keeps fun i => adDecode_fed hm arr i).completes hstart
  obtain ⟨ds, hrun, -, hbits⟩ := iaDecode_bitRun hdecode
  have hothers := State.withDecoder_others (bitRun_decodedFrom hrun (.refl _ _))
  exact ⟨_, exec_iaDecode_of_ok hfed.1 harr hdecode, ⟨rfl, rfl⟩, iaBits_registers hbits,
    ⟨rfl, rfl, rfl, rfl, rfl, rfl, rfl, rfl, rfl, rfl, fun _ => rfl⟩, ⟨rfl, rfl, rfl⟩, ⟨rfl, rfl⟩, rfl, rfl, hfed.1, rfl,
    hothers, rfl, rfl⟩

/-- Settles O37: the procedure is a path of bit decodes by `iaidDecode_bitRun`; up to IDLEN = 16 its entries are immediates, and
the path is the sequence of commands by `adRun_of_bitRun`. -/
theorem iaidDecodeIsAdDecodes : Obligations.IaidDecodeIsAdDecodes := by
  intro s t ht hdone
  obtain ⟨hv, v, w, hdecode⟩ := exec_iaidDecode_done ht hdone
  obtain ⟨ds, hrun, hlen, rfl⟩ := iaidDecode_bitRun hdecode
  rw [exec_iaidDecode_of_ok hv hdecode] at ht
  cases ht
  refine ⟨⟨ds, w, hrun, hlen, rfl⟩, fun himm => ?_⟩
  have hbelow : PrevBelow pushBit (2 ^ s.idlen.toNat) 1 ds := pushBit_below (by rw [hlen, pow_succ, Nat.mul_comm])
  obtain ⟨r0, status, err, hcommands, -⟩ :=
    adRun_of_bitRun (a := 15) rfl (Nat.pow_le_pow_right (by decide) himm) hv rfl hbelow hrun
  exact ⟨ds, _, hcommands, hlen, rfl⟩

/-- Settles O38: with IDLEN = 0 the procedure decodes nothing; before a marker every bit decode completes, and a path of IDLEN
bits spells a number below 2^IDLEN. -/
theorem iaidDecodeCompletes : Obligations.IaidDecodeCompletes := by
  intro s
  refine ⟨fun hv hzero => ?_, fun hfed => ?_⟩
  · have hnone : iaidDecode s.streamEnv s.idlen.toNat s.work = .ok 0 s.work := by rw [hzero]; rfl
    exact exec_iaidDecode_of_ok hv hnone
  · obtain ⟨j, hm, hstart⟩ := hfed.marker
    obtain ⟨v, w, hdecode, -⟩ := (iaidDecode_keeps (fun i => adDecode_fed hm .iaid i) s.idlen.toNat).completes hstart
    obtain ⟨ds, hrun, hlen, rfl⟩ := iaidDecode_bitRun hdecode
    have hothers := State.withDecoder_others (bitRun_decodedFrom hrun (.refl _ _))
    have hrange : (BitVec.ofNat 64 (numOfBits ds)).toNat < 2 ^ s.idlen.toNat := by
      rw [BitVec.toNat_ofNat, ← hlen]
      exact (Nat.mod_le _ _).trans_lt (numOfBits_lt ds)
    exact ⟨_, exec_iaidDecode_of_ok hfed.1 hdecode, ⟨rfl, rfl⟩, hrange,
      ⟨rfl, rfl, rfl, rfl, rfl, rfl, rfl, rfl, rfl, rfl, fun _ => rfl⟩, ⟨rfl, rfl, rfl⟩, ⟨rfl, rfl⟩, rfl, rfl, rfl, hfed.1,
      rfl, hothers, rfl, rfl⟩

end Sys2Proof.Machine
end

section
/-! SUPPORT. Assigned codes: a line keeps all but its code, every line with a length has one, and codes fit their lengths where
the Kraft sum is at most 1 (`43_huffman.md` R192, R193). -/

namespace Sys2Proof.Machine

/-- A length among the lines with codes is a length among the lines without. -/
theorem exists_preflen_of_mem_assignFrom {t : Table} {m : Line} :
    ∀ {rest seen : Table}, m ∈ assignFrom t seen rest → ∃ l ∈ rest, l.preflen = m.preflen
  | [], _, h => nomatch h
  | l :: rest, seen, h => by
    unfold assignFrom at h
    rcases List.mem_cons.mp h with rfl | h
    · exact ⟨l, List.mem_cons_self .., rfl⟩
    · obtain ⟨k, hk, hlen⟩ := exists_preflen_of_mem_assignFrom h
      exact ⟨k, List.mem_cons_of_mem l hk, hlen⟩

theorem preflen_le_lenMax_of_mem_codesOf {t : Table} {m : Line} (h : m ∈ codesOf t) : m.preflen ≤ lenMax t := by
  obtain ⟨l, hl, hlen⟩ := exists_preflen_of_mem_assignFrom h
  exact hlen ▸ preflen_le_lenMax hl

theorem exists_code_of_mem_assignFrom {t : Table} {m : Line} (h0 : m.preflen ≠ 0) :
    ∀ {rest seen : Table}, m ∈ assignFrom t seen rest → ∃ c, m.code = some c
  | [], _, h => nomatch h
  | l :: rest, seen, h => by
    unfold assignFrom at h
    rcases List.mem_cons.mp h with rfl | h
    · exact ⟨_, if_neg h0⟩
    · exact exists_code_of_mem_assignFrom h0 h

/-- 2^`L` times the Kraft sum of the lines of length 1 .. `j`. -/
def kraftUpTo (L j : Nat) (t : Table) : Nat :=
  (t.map fun l => if l.preflen ≠ 0 ∧ l.preflen ≤ j then 2 ^ (L - l.preflen) else 0).sum

theorem kraftUpTo_zero (L : Nat) (t : Table) : kraftUpTo L 0 t = 0 := by
  refine List.sum_eq_zero fun x hx => ?_
  obtain ⟨l, -, rfl⟩ := List.mem_map.mp hx
  exact if_neg (by omega)

theorem kraftUpTo_succ (L j : Nat) (t : Table) :
    kraftUpTo L (j + 1) t = kraftUpTo L j t + lenCount t (j + 1) * 2 ^ (L - (j + 1)) := by
  rw [lenCount_eq_lenSeen t (Nat.succ_ne_zero j)]
  unfold kraftUpTo lenSeen
  induction t with
  | nil => simp
  | cons l t ih =>
    simp only [List.map_cons, List.sum_cons, List.countP_cons, decide_eq_true_eq, ih]
    by_cases h : l.preflen = j + 1
    · rw [if_pos (by omega), if_neg (by omega), if_pos h, h]
      ring
    · have hiff : (l.preflen ≠ 0 ∧ l.preflen ≤ j + 1) ↔ (l.preflen ≠ 0 ∧ l.preflen ≤ j) := by omega
      rw [if_neg h]
      simp only [hiff]
      ring

/-- The codes up to length `j` take up the share of the 2^`j` words that their Kraft sum says. -/
theorem firstCode_add_lenCount_mul (t : Table) {L j : Nat} (h : j ≤ L) :
    (firstCode t j + lenCount t j) * 2 ^ (L - j) = kraftUpTo L j t := by
  induction j with
  | zero => rw [kraftUpTo_zero]; exact Nat.zero_mul _
  | succ j ih =>
    have hpow : 2 * 2 ^ (L - (j + 1)) = 2 ^ (L - j) := by rw [← pow_succ', show L - (j + 1) + 1 = L - j by omega]
    rw [kraftUpTo_succ, ← ih (by omega), firstCode, Nat.add_mul, Nat.mul_assoc, hpow]

theorem kraftUpTo_le_kraftScaled (t : Table) (j : Nat) : kraftUpTo (lenMax t) j t ≤ kraftScaled t := by
  refine List.sum_le_sum fun l _ => ?_
  by_cases h0 : l.preflen = 0
  · rw [if_neg (by omega)]
    exact Nat.zero_le _
  · rw [if_neg h0]
    split <;> [exact le_refl _; exact Nat.zero_le _]

/-- The codes of a length end before the words of that length do, where the Kraft sum is at most 1. -/
theorem firstCode_add_lenCount_le {t : Table} {j : Nat} (ht : oversubscribed t = false) (h : j ≤ lenMax t) :
    firstCode t j + lenCount t j ≤ 2 ^ j := by
  refine Nat.le_of_mul_le_mul_right (c := 2 ^ (lenMax t - j)) ?_ (Nat.two_pow_pos _)
  rw [firstCode_add_lenCount_mul t h, ← pow_add, Nat.add_sub_cancel' h]
  exact (kraftUpTo_le_kraftScaled t j).trans (Nat.not_lt.mp (of_decide_eq_false ht))

theorem code_lt_of_mem_codesOf {t : Table} (ht : oversubscribed t = false) {m : Line} (hm : m ∈ codesOf t) {c : Nat}
    (hc : m.code = some c) : c < 2 ^ m.preflen :=
  (codeIn_of_mem_assignFrom (seen := []) rfl hm c hc).2.trans_le
    (firstCode_add_lenCount_le ht (preflen_le_lenMax_of_mem_codesOf hm))

end Sys2Proof.Machine
end

section
/-! SUPPORT. The ranges of the standard tables, as a computation over each (`43_huffman.md` R200 to R215). -/

namespace Sys2Proof.Machine

/-- The plain lines of a table, without codes. -/
def plainOf (t : Table) : Table := (t.filter fun l => decide (l.kind = .plain)).map fun l => { l with code := none }

/-- RANGELOW of the first plain line. -/
def rangeStart (t : Table) : Int := ((plainOf t).head?.map Line.rangelow).getD 0

/-- The (PREFLEN, RANGELEN) pairs of the plain lines. -/
def plainFields (t : Table) : List (Nat × Nat) := (plainOf t).map fun l => (l.preflen, l.rangelen.toNat)

/-- One past the last value of plain lines that stand end to end. -/
def rangeEnd (t : Table) : Int := rangeStart t + ((plainFields t).map fun p => (2 : Int) ^ p.2).sum

/-- Each of the fifteen tables has Kraft sum 1 and no unused line, its plain lines stand end to end, and its upper and lower
lines continue them. -/
theorem stdTable_complete {n : Nat} (h1 : 1 ≤ n) (h15 : n ≤ 15) :
    oversubscribed (stdLines n) = false ∧ kraftScaled (stdTable n) = 2 ^ lenMax (stdTable n) ∧
      (∀ l ∈ stdTable n, l.preflen ≠ 0) ∧
      plainOf (stdTable n) = plainLines (rangeStart (stdTable n)) (plainFields (stdTable n)) ∧
      ∀ l ∈ stdTable n, (l.kind = .upper → l.rangelow = rangeEnd (stdTable n)) ∧
        (l.kind = .lower → l.rangelow = rangeStart (stdTable n) - 1) := by
  interval_cases n <;> decide +kernel

end Sys2Proof.Machine
end

section
/-! SUPPORT. The standard-table cache: STDVALID bit by bit, what a use of one table makes of it, and what a command that may not
write the decoder commits (`10_state.md` R36, `43_huffman.md` R198, R218). -/

namespace Sys2Proof.Machine

theorem exec_htStd (a : BitVec 8) (s : State) : exec (.htStd a) s = execHtStd a s := rfl

/-- STDVALID[k] is 1 where STDTAB lists table k, 1 ≤ k ≤ 15 (`10_state.md` R36). -/
theorem State.stdvalid_getLsbD (s : State) (k : Nat) :
    s.stdvalid.getLsbD k = (decide (1 ≤ k ∧ k ≤ 15) && (sparseFind s.stdTab k).isSome) := by
  have turn : ∀ (n i : Nat) (v : BitVec 16), i + n ≤ 16 →
      (loopPure (fun n v => if (sparseFind s.stdTab n).isSome then v ||| BitVec.twoPow 16 n else v) n i v).getLsbD k =
        (v.getLsbD k || (decide (i ≤ k ∧ k < i + n) && (sparseFind s.stdTab k).isSome)) := by
    intro n
    induction n with
    | zero => intro i v _; simp [loopPure, show ¬(i ≤ k ∧ k < i) by omega]
    | succ n ih =>
      intro i v hi
      rw [loopPure, ih (i + 1) _ (by omega)]
      by_cases hik : i = k
      · subst hik
        cases (sparseFind s.stdTab i).isSome <;> simp [show i < 16 by omega]
      · have hrange : (i ≤ k ∧ k < i + (n + 1)) ↔ (i + 1 ≤ k ∧ k < i + 1 + n) := by omega
        have hbit : (if (sparseFind s.stdTab i).isSome then v ||| BitVec.twoPow 16 i else v).getLsbD k =
            v.getLsbD k := by
          split <;> simp [hik]
        rw [hbit]
        simp only [hrange]
  have hrange : (1 ≤ k ∧ k < 1 + 15) ↔ (1 ≤ k ∧ k ≤ 15) := by omega
  have hzero : (0 : BitVec 16).getLsbD k = false := BitVec.getLsbD_zero
  unfold State.stdvalid
  rw [turn 15 1 0 (by decide), hzero, Bool.false_or]
  simp only [hrange]

/-- A table that is listed, or is none of those used, is not constructed. -/
theorem commitBuilt_of_listed {built : BitVec 16} {tab : List (Nat × Table)}
    (h : ∀ k, built.getLsbD k = true → (sparseFind tab k).isSome = true) : commitBuilt built tab = tab := by
  refine loopPure_induct (· = tab) _ 1 16 (fun i t _ _ ht => ?_) 15 1 tab (by decide) (by decide) rfl
  subst ht
  refine if_neg fun hbuild => ?_
  obtain ⟨hbit, hnone⟩ := Bool.and_eq_true_iff.mp hbuild
  rw [← Option.not_isSome, h i hbit] at hnone
  cases hnone

/-- The bit of one table among those used. -/
theorem getLsbD_tableBit {n : Nat} (h15 : n ≤ 15) (k : Nat) : (BitVec.twoPow 16 n).getLsbD k = decide (n = k) := by
  rw [BitVec.getLsbD_twoPow, decide_eq_true (by omega : n < 16), Bool.true_and]

/-- After a use of table `n` the cache lists it, and every other table as before. -/
theorem commitBuilt_twoPow_find {tab : List (Nat × Table)} {n : Nat} (h1 : 1 ≤ n) (h15 : n ≤ 15)
    (hstd : sparseFind tab n = none ∨ sparseFind tab n = some (stdTable n)) (k : Nat) :
    sparseFind (commitBuilt (BitVec.twoPow 16 n) tab) k = if k = n then some (stdTable n) else sparseFind tab k := by
  rw [commitBuilt_find, getLsbD_tableBit h15]
  by_cases hk : k = n
  · subst hk
    rcases hstd with h | h <;> simp [h, h1, h15]
  · simp [hk, Ne.symm hk]

/-- A command that may write neither an array nor the decoder registers commits the cursor and the tables it used. -/
theorem State.commit_tables (s : State) {fp : Footprint} (w : Work) (had : fp.ad = false) (harrs : fp.arrs = []) :
    s.commit fp w =
      { s with
        sp := if fp.sp then BitVec.ofNat 36 w.sp else s.sp
        stdTab := commitBuilt w.built s.stdTab } := by
  unfold State.commit
  rw [had, harrs, Contexts.mapArr_self _ _ fun _ => if_neg List.not_mem_nil]
  rfl

/-- A command starts with no table used. -/
theorem State.work_built_or (s : State) (x : BitVec 16) : s.work.built ||| x = x := BitVec.zero_or

/-- `HT.STD n` uses table `n` and writes nothing else (`43_huffman.md` R198). -/
theorem exec_htStd_of_range {a : BitVec 8} (h1 : 1 ≤ a.toNat) (h15 : a.toNat ≤ 15) (s : State) :
    exec (.htStd a) s =
      .next
        { s with stdTab := commitBuilt (BitVec.twoPow 16 a.toNat) s.stdTab, status := .done, err := 0 } := by
  have hstd : std s.streamEnv a.toNat s.work =
      .ok ((sparseFind s.stdTab a.toNat).getD (stdTable a.toNat))
        { s.work with built := s.work.built ||| BitVec.twoPow 16 a.toNat } := rfl
  rw [exec_htStd]
  unfold execHtStd
  rw [State.work_built_or] at hstd
  rw [decide_eq_true h1, decide_eq_true h15, Bool.and_self,
    runCommand_of_ok ((Dec.bind_of_ok (Dec.run_require_true _ _)).trans hstd), State.commit_tables s _ rfl rfl]
  rfl

end Sys2Proof.Machine
end

section
/-! SUPPORT. `HT.DECODE`: the table it selects, what it commits where its decode completes, and the two ways a decode runs out
(`43_huffman.md` R195 to R199). -/

namespace Sys2Proof.Machine

theorem exec_htDecode (a : BitVec 8) (s : State) : exec (.htDecode a) s = execHtDecode a s := rfl

/-! ## One code of the bound stream -/

/-- The window of a primitive is that of a segment command whose data are the whole bound stream (`40_stream.md` R130). -/
theorem State.streamEnv_eq_segmentEnv (s : State) : s.streamEnv = { s with sp := 0, p1 := s.slen }.segmentEnv := by
  unfold State.streamEnv State.segmentEnv State.windowEnd State.datalen
  simp

/-- A coded value is read back from the bound stream. -/
theorem State.codedAt.read_stream {s : State} {T : Table} {p q : Nat} {v : Option Int} (hT : Table.PrefixFree T)
    (h : s.codedAt T p v q) (hq : q ≤ 8 * s.slen.toNat) (w : Work) :
    htDecode s.streamEnv T { w with sp := p } = .ok v { w with sp := q } := by
  have hwindow : ({ s with sp := 0, p1 := s.slen } : State).inWindow p q :=
    ⟨by simp, by simpa [State.windowEnd, State.datalen] using hq⟩
  rw [State.streamEnv_eq_segmentEnv]
  exact State.codedAt.read (s := { s with sp := 0, p1 := s.slen }) hT h hwindow w

theorem readCodeBit_error {E : Env} {w : Work} (h : 8 * E.we ≤ w.sp) : readCodeBit E w = .error .invalidCode w := by
  unfold readCodeBit
  rw [readBit_error h]

/-- A walk that meets no code of the table runs out of the table or of the window (`43_huffman.md` R197). -/
theorem htWalk_error {E : Env} {T : Table} {p : Nat} (hwb : E.wb ≤ p / 8)
    (hnone : ∀ l ∈ T, ∀ c, l.code = some c → 1 ≤ l.preflen → p + l.preflen ≤ 8 * E.we → E.bitsOnto p l.preflen 0 ≠ c)
    (w : Work) (room len : Nat) :
    ∃ u, htWalk E T room len (E.bitsOnto p len 0) { w with sp := p + len } = .error .invalidCode u := by
  induction room generalizing len with
  | zero => exact ⟨_, rfl⟩
  | succ room ih =>
    unfold htWalk
    by_cases hend : 8 * E.we ≤ p + len
    · exact ⟨_, Dec.bind_of_error (readCodeBit_error hend)⟩
    · rw [Dec.bind_of_ok (readCodeBit_ok (by dsimp only; omega) (by dsimp only; omega)), ← Env.bitsOnto_succ]
      cases hm : lineOfCode T (len + 1) (E.bitsOnto p (len + 1) 0) with
      | none => exact ih (len + 1)
      | some m =>
        have hline := List.find?_some hm
        simp only [Bool.and_eq_true, decide_eq_true_eq] at hline
        obtain ⟨hlen, hcode⟩ := hline
        exact absurd (congrArg (E.bitsOnto p · 0) hlen)
          (hnone m (List.mem_of_find?_eq_some hm) _ hcode (by omega) (by omega))

/-- No code of the table stands at the cursor (`43_huffman.md` R197). -/
theorem htDecode_invalidCode {s : State} {T : Table}
    (hnone : ∀ l ∈ T, ∀ c, l.code = some c → 1 ≤ l.preflen → s.sp.toNat + l.preflen ≤ 8 * s.slen.toNat →
      s.streamNum s.sp.toNat l.preflen ≠ c) (built : BitVec 16) :
    ∃ u, htDecode s.streamEnv T { s.work with built := built } = .error .invalidCode u := by
  simp only [← State.streamEnv_bitsOnto] at hnone
  obtain ⟨u, hu⟩ := htWalk_error (E := s.streamEnv) (Nat.zero_le _) hnone { s.work with built := built } (lenMax T) 0
  exact ⟨u, Dec.bind_of_error hu⟩

/-- The range bits of a line that go past the window (`43_huffman.md` R197). -/
theorem leafValue_error {E : Env} {l : Line} {w : Work} (hwb : E.wb ≤ w.sp / 8) (hcode : w.sp ≤ 8 * E.we)
    (hout : 8 * E.we < w.sp + l.rawBits) : ∃ u, leafValue E l w = .error .unexpectedEndOfData u := by
  have hread := readBits_error hwb hcode hout
  unfold Line.rawBits at hread hout
  unfold leafValue
  cases hk : l.kind with
  | plain | lower | upper =>
    rw [hk] at hread
    exact ⟨_, Dec.bind_of_error hread⟩
  | oob =>
    rw [hk] at hout
    exact absurd hout (by dsimp only; omega)

/-- A code stands at the cursor and the bound stream ends in its range bits (`43_huffman.md` R197). -/
theorem htDecode_unexpectedEnd {s : State} {T : Table} {l : Line} {c : Nat} (hT : Table.PrefixFree T) (hl : l ∈ T)
    (h1 : 1 ≤ l.preflen) (hc : l.code = some c) (hfit : s.sp.toNat + l.preflen ≤ 8 * s.slen.toNat)
    (hbits : s.streamNum s.sp.toNat l.preflen = c) (hout : 8 * s.slen.toNat < s.sp.toNat + l.preflen + l.rawBits)
    (built : BitVec 16) :
    ∃ u, htDecode s.streamEnv T { s.work with built := built } = .error .unexpectedEndOfData u := by
  have hwalk : htWalk s.streamEnv T (lenMax T) 0 0 { s.work with built := built } =
      .ok l { s.work with sp := s.sp.toNat + l.preflen, built := built } :=
    htWalk_ok (E := s.streamEnv) (p := s.sp.toNat) hT hl { s.work with built := built } hc
      ((s.streamEnv_bitsOnto _ _).trans hbits) (Nat.zero_le _) hfit (l.preflen - 1) 0 (lenMax T) (by omega)
      (lt_of_lt_of_le (by omega) (preflen_le_lenMax hl))
  obtain ⟨u, hu⟩ := leafValue_error (E := s.streamEnv) (l := l)
    (w := { s.work with sp := s.sp.toNat + l.preflen, built := built }) (Nat.zero_le _) hfit hout
  exact ⟨u, (Dec.bind_of_ok hwalk).trans hu⟩

/-! ## The command -/

/-- The standard table `HT.DECODE a` uses: none where a = 0. -/
def htTableUsed (a : BitVec 8) : BitVec 16 := if a = 0 then 0 else BitVec.twoPow 16 a.toNat

/-- What STDTAB lists after a use of that table. -/
theorem State.Canonical.find_htTableUsed {a : BitVec 8} {s : State} (hs : s.Canonical) (ha : a.toNat ≤ 15) (k : Nat) :
    sparseFind (commitBuilt (htTableUsed a) s.stdTab) k =
      if k = a.toNat ∧ a ≠ 0 then some (stdTable k) else sparseFind s.stdTab k := by
  unfold htTableUsed
  by_cases h0 : a = 0
  · rw [if_pos h0, commitBuilt_zero, if_neg fun h => h.2 h0]
  · have hpos : 1 ≤ a.toNat := Nat.one_le_iff_ne_zero.mpr fun h => h0 (BitVec.eq_of_toNat_eq h)
    rw [if_neg h0, commitBuilt_twoPow_find hpos ha (hs.std _)]
    by_cases hk : k = a.toNat
    · rw [if_pos hk, if_pos ⟨hk, h0⟩, hk]
    · rw [if_neg hk, if_neg fun h => hk h.1]

/-- The table in slot P0, or the standard table with number a (`43_huffman.md` R199). -/
theorem htDecodeTable_selects {a : BitVec 8} {s : State} {T : Table} (hs : s.Canonical)
    (hslot : a = 0 → s.dst < s.cfg.nslot ∧ s.slot s.dst = .table T) (hstd : a ≠ 0 → T = stdTable a.toNat) :
    htDecodeTable s a.toNat s.work = .ok T { s.work with built := htTableUsed a } := by
  unfold htTableUsed htDecodeTable
  by_cases h0 : a = 0
  · obtain ⟨hdst, htable⟩ := hslot h0
    have hnum : a.toNat = 0 := congrArg BitVec.toNat h0
    rw [if_pos h0, if_pos hnum, decide_eq_true hdst, htable]
    rfl
  · have hnum : a.toNat ≠ 0 := fun h => h0 (BitVec.eq_of_toNat_eq h)
    have huse := std_ok (hs.std a.toNat) s.work
    rw [State.work_built_or] at huse
    rw [if_neg h0, if_neg hnum, hstd h0]
    exact huse

/-- A slot that holds no table (`43_huffman.md` R199). -/
theorem htDecodeTable_of_no_table {s : State} (hdst : s.dst < s.cfg.nslot) (hno : ∀ T, s.slot s.dst ≠ .table T) :
    htDecodeTable s 0 s.work = .error .invalidReference s.work := by
  unfold htDecodeTable
  rw [if_pos rfl, decide_eq_true hdst]
  cases hslot : s.slot s.dst with
  | table T => exact absurd hslot (hno T)
  | empty | symDict | region => rfl

/-- A handle that names no slot (`43_huffman.md` R199). -/
theorem htDecodeTable_of_bad_handle {s : State} (hdst : s.cfg.nslot ≤ s.dst) :
    htDecodeTable s 0 s.work = .error .illegalCommand s.work :=
  Dec.bind_of_error (Dec.run_require_of_not (not_lt.mpr hdst) _ _)

section
variable {a : BitVec 8} {s : State} {T : Table} {u w : Work} {e : CoreError}

/-- What `HT.DECODE` leaves where the decode completes (`43_huffman.md` R199). -/
theorem exec_htDecode_of_ok {v : Option Int} (ha : a.toNat ≤ 15) (htable : htDecodeTable s a.toNat s.work = .ok T w)
    (h : htDecode s.streamEnv T w = .ok v u) :
    exec (.htDecode a) s =
      .next
        { s with
          r0 := v.elim 0 (BitVec.ofInt 64), oob := v.isNone, r1 := BitVec.ofNat 32 (u.sp - w.sp)
          sp := BitVec.ofNat 36 u.sp, stdTab := commitBuilt u.built s.stdTab, status := .done, err := 0 } := by
  have hcount : htDecodeCounted s.streamEnv T w = .ok (v, u.sp - w.sp) u :=
    (Dec.bind_of_ok (Dec.run_get w)).trans ((Dec.bind_of_ok h).trans rfl)
  rw [exec_htDecode]
  unfold execHtDecode
  rw [runCommand_of_check ha, runCommand_of_ok ((Dec.bind_of_ok htable).trans hcount), State.commit_tables s u rfl rfl,
    State.putDecoded_eq]
  rfl

/-- `HT.DECODE` raises what its choice of a table raises. -/
theorem exec_htDecode_of_table_error (ha : a.toNat ≤ 15) (h : htDecodeTable s a.toNat s.work = .error e w) :
    ∃ t, exec (.htDecode a) s = .next t ∧ s.Raised t 0x52 e := by
  rw [exec_htDecode]
  unfold execHtDecode
  rw [runCommand_of_check ha]
  exact ⟨_, runCommand_of_error (Dec.bind_of_error h), State.raise_raised ..⟩

/-- `HT.DECODE` raises what the decode raises. -/
theorem exec_htDecode_of_error (ha : a.toNat ≤ 15) (htable : htDecodeTable s a.toNat s.work = .ok T w)
    (h : htDecode s.streamEnv T w = .error e u) : ∃ t, exec (.htDecode a) s = .next t ∧ s.Raised t 0x52 e := by
  have hcount : htDecodeCounted s.streamEnv T w = .error e u :=
    (Dec.bind_of_ok (Dec.run_get w)).trans (Dec.bind_of_error h)
  rw [exec_htDecode]
  unfold execHtDecode
  rw [runCommand_of_check ha]
  exact ⟨_, runCommand_of_error ((Dec.bind_of_ok htable).trans hcount), State.raise_raised ..⟩

end

theorem Line.value_isNone (l : Line) (raw : Nat) : (l.value raw).isNone = decide (l.kind = .oob) := by
  unfold Line.value
  cases l.kind <;> rfl

end Sys2Proof.Machine
end

section
/-! SUPPORT. `SEG.TABLES`: a table definition that stands in the window is read back (`43_huffman.md` R216, R217). -/

namespace Sys2Proof.Machine

theorem exec_segTables (s : State) : exec .segTables s = execSegTables s := rfl

section
variable {s : State} {htps htrs : Nat} {low high : Int}

/-- A field inside a part of the window is read whole. -/
theorem readBits_within {q r m n : Nat} (hw : s.inWindow q r) (hq : q ≤ m) (hr : m + n ≤ r) (u : Work) :
    readBits s.segmentEnv n { u with sp := m } = .ok (s.streamNum m n) { u with sp := m + n } :=
  readBits_stream ((hw.right hq).left hr) u

theorem readS32_stream {p : Nat} (hw : s.inWindow p (p + 32)) (u : Work) :
    readS32 s.segmentEnv { u with sp := p } = .ok (sext 32 (s.streamNum p 32)) { u with sp := p + 32 } :=
  (Dec.bind_of_ok (readBits_stream hw u)).trans rfl

/-- The lines are read one after the other, until their ranges reach HTHIGH. -/
theorem tableLines_stream (u : Work) {ls : List (Nat × Nat)} :
    ∀ {n p : Nat} {cur : Int} {acc : Table}, s.linesAt htps htrs p ls → tiles high cur ls →
      s.inWindow p (p + ls.length * (htps + htrs)) → ls.length < n →
      (ls ≠ [] → acc.length + ls.length + 2 < s.cfg.maxlines) →
      tableLines s.segmentEnv htps htrs high n cur acc { u with sp := p } =
        .ok (acc ++ plainLines cur ls) { u with sp := p + ls.length * (htps + htrs) } := by
  induction ls with
  | nil =>
    intro n p cur acc _ htile _ hn _
    obtain ⟨n, rfl⟩ : ∃ r, n = r + 1 := ⟨n - 1, by omega⟩
    unfold tableLines plainLines
    rw [if_pos (show high ≤ cur from htile), List.append_nil, List.length_nil, Nat.zero_mul]
    rfl
  | cons line more ih =>
    intro n p cur acc hat htile hw hn hmax
    obtain ⟨l, r⟩ := line
    obtain ⟨hl, hr, hmore⟩ := hat
    obtain ⟨hcur, hr32, htile⟩ := htile
    obtain ⟨n, rfl⟩ : ∃ r, n = r + 1 := ⟨n - 1, by omega⟩
    have hmax := hmax (List.cons_ne_nil _ _)
    rw [List.length_cons] at hw hn hmax
    have hend : p + (more.length + 1) * (htps + htrs) = p + htps + htrs + more.length * (htps + htrs) := by ring
    rw [List.length_cons, hend]
    rw [hend] at hw
    have hroom : acc.length + 3 < s.segmentEnv.cfg.maxlines := by show _ < s.cfg.maxlines; omega
    have hpref := readBits_within (n := htps) hw (Nat.le_refl p) (by omega) u
    have hrange := readBits_within (n := htrs) hw (Nat.le_add_right p htps) (by omega) u
    rw [hl] at hpref
    rw [hr] at hrange
    unfold tableLines plainLines
    rw [if_neg (not_le.mpr hcur)]
    refine (Dec.bind_of_ok (Dec.run_require_of hroom _ _)).trans ((Dec.bind_of_ok hpref).trans
      ((Dec.bind_of_ok hrange).trans ((Dec.bind_of_ok (Dec.run_require_of hr32 _ _)).trans ?_)))
    refine (ih hmore htile (hw.right (by omega)) (by omega) fun _ => ?_).trans ?_
    · rw [List.length_append, List.length_singleton]
      omega
    · rw [List.append_assoc, List.singleton_append]

/-- The lines that close a table definition, as their PREFLEN fields stand from bit `q` on. -/
def State.tailAt (s : State) (q htps : Nat) (low high : Int) (oob : Bool) : Table :=
  [lowerLine (s.streamNum q htps) (low - 1), upperLine (s.streamNum (q + htps) htps) high] ++
    if oob then [oobLine (s.streamNum (q + 2 * htps) htps)] else []

theorem tableTail_stream {q : Nat} {oob : Bool} (u : Work)
    (hw : s.inWindow q (q + (s.tailAt q htps low high oob).length * htps)) :
    tableTail s.segmentEnv htps low high oob { u with sp := q } =
      .ok (s.tailAt q htps low high oob)
        { u with sp := q + (s.tailAt q htps low high oob).length * htps } := by
  have hsecond : q + htps + htps = q + 2 * htps := by ring
  unfold tableTail
  cases oob with
  | false =>
    have hend : s.inWindow q (q + 2 * htps) := hw
    have hlower := readBits_within (n := htps) hend (Nat.le_refl q) (by omega) u
    have hupper := readBits_within (n := htps) hend (Nat.le_add_right q htps) (by omega) u
    rw [hsecond] at hupper
    exact (Dec.bind_of_ok hlower).trans ((Dec.bind_of_ok hupper).trans rfl)
  | true =>
    have hthird : q + 2 * htps + htps = q + 3 * htps := by ring
    have hend : s.inWindow q (q + 3 * htps) := hw
    have hlower := readBits_within (n := htps) hend (Nat.le_refl q) (by omega) u
    have hupper := readBits_within (n := htps) hend (Nat.le_add_right q htps) (by omega) u
    have hoob := readBits_within (n := htps) hend (Nat.le_add_right q (2 * htps)) (by omega) u
    rw [hsecond] at hupper
    rw [hthird] at hoob
    exact (Dec.bind_of_ok hlower).trans ((Dec.bind_of_ok hupper).trans ((Dec.bind_of_ok hoob).trans rfl))

/-- A table definition that stands in the window is read whole (`43_huffman.md` R216). -/
theorem parseTable_stream {ls : List (Nat × Nat)} {p f q : Nat} {t : Table} (hf : s.streamNum p 8 = f)
    (hps : htps = bitField f 3 1 + 1) (hrs : htrs = bitField f 6 4 + 1) (hlow : low = sext 32 (s.streamNum (p + 8) 32))
    (hhigh : high = sext 32 (s.streamNum (p + 40) 32)) (hq : q = p + 72 + ls.length * (htps + htrs))
    (ht : t = plainLines low ls ++ s.tailAt q htps low high (f.testBit 0)) (hf7 : f.testBit 7 = false)
    (hle : low ≤ high) (htile : tiles high low ls) (hmax : ls ≠ [] → ls.length + 2 < s.cfg.maxlines)
    (hat : s.linesAt htps htrs (p + 72) ls)
    (hw : s.inWindow p (q + (s.tailAt q htps low high (f.testBit 0)).length * htps))
    (hfits : oversubscribed t = false) (u : Work) :
    ∃ r, parseTable s.segmentEnv { u with sp := p } = .ok (codesOf t) { u with sp := r } := by
  have hflags : readU8 s.segmentEnv { u with sp := p } = .ok f { u with sp := p + 8 } := by
    rw [← hf]
    exact readBits_within hw (Nat.le_refl p) (by omega) u
  have hreadLow : readS32 s.segmentEnv { u with sp := p + 8 } = .ok low { u with sp := p + 40 } := by
    rw [hlow]
    exact readS32_stream ((hw.right (by omega)).left (by omega)) u
  have hreadHigh : readS32 s.segmentEnv { u with sp := p + 40 } = .ok high { u with sp := p + 72 } := by
    rw [hhigh]
    exact readS32_stream ((hw.right (by omega)).left (by omega)) u
  have hturns : ls.length < s.cfg.maxlines + 1 := by
    by_cases hnil : ls = []
    · rw [hnil]
      exact Nat.succ_pos _
    · have := hmax hnil
      omega
  have hlines := tableLines_stream u (acc := []) hat htile ((hw.right (by omega)).left (by omega)) hturns fun h => by
    have := hmax h
    rwa [List.length_nil, Nat.zero_add]
  rw [List.nil_append, ← hq] at hlines
  have htail := tableTail_stream u (hw.right (by omega))
  refine ⟨8 * ((q + (s.tailAt q htps low high (f.testBit 0)).length * htps + 7) / 8), ?_⟩
  unfold parseTable
  refine (Dec.bind_of_ok hflags).trans ?_
  rw [hf7, ← hps, ← hrs]
  refine (Dec.bind_of_ok (Dec.run_require_true _ _)).trans ((Dec.bind_of_ok hreadLow).trans
    ((Dec.bind_of_ok hreadHigh).trans ((Dec.bind_of_ok (Dec.run_require_of hle _ _)).trans
      ((Dec.bind_of_ok hlines).trans ((Dec.bind_of_ok htail).trans
        ((Dec.bind_of_ok (alignByte_ok _ u)).trans ?_))))))
  rw [← ht]
  exact assignCodes_ok hfits _

/-- What `SEG.TABLES` leaves where its definition is read (`43_huffman.md` R217). -/
theorem exec_segTables_of_ok {t : Table} {w : Work} (hok : s.windowOk = true)
    (h : parseTable s.segmentEnv s.work = .ok t w) (hbuilt : w.built = 0) :
    exec .segTables s =
      .next
        { s.setSlot s.dst (.table t) with
          sp := BitVec.ofNat 36 (8 * s.windowEnd), advalid := false, status := .done, err := 0 } := by
  have hbody : (do
      let t ← parseTable s.segmentEnv
      pure { slot := .table t, idlen := none } : Dec SegmentResult) s.work = .ok { slot := .table t, idlen := none } w :=
    (Dec.bind_of_ok h).trans rfl
  rw [exec_segTables]
  unfold execSegTables
  rw [runSegment_of_ok (readsRef := false) hok nofun hbody, State.commit_tables s w rfl rfl, hbuilt, commitBuilt_zero]
  rfl

end

end Sys2Proof.Machine
end

section
/-! The statements of the family `43_huffman.md`. -/

namespace Sys2Proof.Machine

/-- Settles O39: the command commits one table, and a table that is listed is not constructed again. -/
theorem htStdResult : Obligations.HtStdResult := by
  intro a s hs h1 h15
  have hfind := commitBuilt_twoPow_find h1 h15 (hs.std a.toNat)
  refine ⟨_, exec_htStd_of_range h1 h15 s, rfl, (hfind _).trans (if_pos rfl), fun k hk => (hfind k).trans (if_neg hk),
    BitVec.eq_of_getLsbD_eq fun k _ => ?valid, ?again⟩
  case valid =>
    rw [BitVec.getLsbD_or, State.stdvalid_getLsbD, State.stdvalid_getLsbD, getLsbD_tableBit h15]
    dsimp only
    rw [hfind k]
    by_cases hk : k = a.toNat
    · simp [hk, h1, h15]
    · simp [hk, Ne.symm hk]
  case again =>
    refine (exec_htStd_of_range h1 h15 _).trans ?_
    dsimp only
    rw [commitBuilt_of_listed (tab := commitBuilt _ s.stdTab)]
    intro k hk
    rw [getLsbD_tableBit h15, decide_eq_true_eq] at hk
    rw [hfind, if_pos hk.symm]
    rfl

/-- Settles O40: the lengths and ranges are as `stdTable_complete` computes them, and the codes as those of any table. -/
theorem standardTables : Obligations.StandardTables := by
  intro n h1 h15
  obtain ⟨hfits, hkraft, hused, hplain, hmeet⟩ := stdTable_complete h1 h15
  refine ⟨hkraft, codesOf_prefixFree _, fun l hl => ?_, _, _, _, hplain, rfl, hmeet⟩
  obtain ⟨c, hc⟩ := exists_code_of_mem_assignFrom (hused l hl) hl
  exact ⟨c, hc, code_lt_of_mem_codesOf hfits hl hc⟩

/-- Settles O41: `codesOf_prefixFree` needs no premise, and the codes of a length end before its words do. -/
theorem assignedCodesPrefixFree : Obligations.AssignedCodesPrefixFree := by
  intro t
  exact ⟨codesOf_prefixFree t, fun ht l hl c hc => code_lt_of_mem_codesOf ht hl hc⟩

/-- Settles O42: the line's code and range bits are a coded value, which the decode reads back and the command commits. -/
theorem htDecodeResult : Obligations.HtDecodeResult := by
  intro a s T l c hs ha hslot hstd hT hl h1 hc hbits n hfit raw
  have htable := htDecodeTable_selects hs hslot hstd
  have hcoded : s.codedAt T s.sp.toNat (l.value (s.streamNum (s.sp.toNat + l.preflen) n)) (s.sp.toNat + l.preflen + n) :=
    ⟨l, c, hl, h1, hc, hbits, rfl, rfl⟩
  have hread := hcoded.read_stream hT hfit { s.work with built := htTableUsed a }
  refine ⟨_, exec_htDecode_of_ok ha htable hread, rfl, ?_, rfl, Line.value_isNone l _, ?_, fun h0 => ?_,
    hs.find_htTableUsed ha⟩
  · show BitVec.ofNat 32 (s.sp.toNat + l.preflen + n - s.sp.toNat) = _
    rw [Nat.add_assoc, Nat.add_sub_cancel_left]
  · show (l.value _).elim 0 (BitVec.ofInt 64) = _
    unfold Line.value
    cases l.kind <;> rfl
  · show commitBuilt (htTableUsed a) s.stdTab = s.stdTab
    unfold htTableUsed
    rw [if_pos h0, commitBuilt_zero]

/-- Settles O43: the first two errors come from the choice of the table, the other two from the decode with it. -/
theorem htDecodeErrors : Obligations.HtDecodeErrors := by
  intro a s hs ha _
  refine ⟨fun h0 hdst => ?_, fun h0 hdst hno => ?_, fun T hslot hstd => ⟨fun hnone => ?_, ?_⟩⟩
  · subst h0
    exact exec_htDecode_of_table_error ha (htDecodeTable_of_bad_handle hdst)
  · subst h0
    exact exec_htDecode_of_table_error ha (htDecodeTable_of_no_table hdst hno)
  · obtain ⟨u, hu⟩ := htDecode_invalidCode hnone (htTableUsed a)
    exact exec_htDecode_of_error ha (htDecodeTable_selects hs hslot hstd) hu
  · intro l c hT hl h1 hc hfit hbits n hout
    obtain ⟨u, hu⟩ := htDecode_unexpectedEnd hT hl h1 hc hfit hbits hout (htTableUsed a)
    exact exec_htDecode_of_error ha (htDecodeTable_selects hs hslot hstd) hu

/-- Settles O44: the definition is read whole by `parseTable_stream`, and committed. -/
theorem segTablesResult : Obligations.SegTablesResult := by
  intro s ls hok p f htps htrs low high q tail hf7 hle htile hmax hat hend hfits
  obtain ⟨-, halign, -⟩ := s.windowOk_iff.mp hok
  have hwindow : s.inWindow p (q + tail.length * htps) := ⟨by omega, hend⟩
  obtain ⟨r, hparse⟩ := parseTable_stream (s := s) (t := plainLines low ls ++ tail) rfl rfl rfl rfl rfl rfl rfl hf7 hle
    htile hmax hat hwindow hfits s.work
  exact exec_segTables_of_ok hok hparse rfl

end Sys2Proof.Machine
end

section
/-! SUPPORT. The BM commands: what a loop makes of one observation, what drawing makes of one pixel, and that the BM commands
commit one slot or leave SEGSTORE as it was. -/

namespace Sys2Proof.Machine

/-! ## Drawing (`44_bitmap.md` R244) -/

/-- A loop in which only turn `k` changes what `obs` sees. -/
theorem loopPure_observe {σ α : Type} {f : Nat → σ → σ} {P : σ → Prop} {obs : σ → α} {g : α → α} {k : Int}
    (hP : ∀ i s, P s → P (f i s)) (hturn : ∀ (i : Nat) s, P s → obs (f i s) = if i = k then g (obs s) else obs s) :
    ∀ (n i : Nat) (s : σ), P s → obs (loopPure f n i s) = if i ≤ k ∧ k < i + n then g (obs s) else obs s := by
  intro n
  induction n with
  | zero =>
    intro i s _
    exact (if_neg (by omega)).symm
  | succ n ih =>
    intro i s hs
    rw [loopPure, ih _ _ (hP i s hs), hturn i s hs]
    by_cases hik : i = k
    · rw [if_neg (by omega), if_pos hik, if_pos (by omega)]
    · rw [if_neg hik]
      congr 1
      simp only [eq_iff_iff]
      omega

theorem Bitmap.SameSize.trans {b c d : Bitmap} (h : b.SameSize c) (h' : c.SameSize d) : b.SameSize d :=
  ⟨h.1.trans h'.1, h.2.trans h'.2⟩

section
variable {src d : Bitmap} {x0 y0 u v : Int} {op : CombOp}

/-- One source pixel changes the destination pixel it lies on, and no other. -/
theorem combinePixel_get (i j : Nat) (hu : 0 ≤ u ∧ u < d.w) (hv : 0 ≤ v ∧ v < d.h) :
    (combinePixel src x0 y0 op j i d).get u v =
      if i = u - x0 then if j = v - y0 then op.apply (d.get u v) (src.get (u - x0) (v - y0)) else d.get u v
      else d.get u v := by
  rw [← ite_and]
  unfold combinePixel
  dsimp only
  by_cases hat : (i : Int) = u - x0 ∧ (j : Int) = v - y0
  · rw [if_pos hat, show x0 + i = u by omega, show y0 + j = v by omega, if_pos ⟨hu.1, hu.2, hv⟩,
      Bitmap.get_set d (by omega) (by omega), if_pos (by omega), hat.1, hat.2]
  · rw [if_neg hat]
    split
    · rw [Bitmap.get_set d (by omega) (by omega), if_neg (by omega)]
    · rfl

/-- Row `j` of the source changes the destination pixels it covers. -/
theorem combineRow_get (j : Nat) (hu : 0 ≤ u ∧ u < d.w) (hv : 0 ≤ v ∧ v < d.h) :
    (loopPure (combinePixel src x0 y0 op j) src.w 0 d).get u v =
      if j = v - y0 then
        if 0 ≤ u - x0 ∧ u - x0 < src.w then op.apply (d.get u v) (src.get (u - x0) (v - y0)) else d.get u v
      else d.get u v := by
  have hrow := loopPure_observe (f := combinePixel src x0 y0 op j) (P := (·.SameSize d)) (obs := (·.get u v))
    (g := fun c => if j = v - y0 then op.apply c (src.get (u - x0) (v - y0)) else c) (k := u - x0)
    (fun i c hc => (combinePixel_size src x0 y0 op j i c).trans hc)
    (fun i c hc => combinePixel_get i j (hc.1.symm ▸ hu) (hc.2.symm ▸ hv)) src.w 0 d ⟨rfl, rfl⟩
  rw [hrow, Nat.cast_zero, zero_add]
  split <;> split <;> rfl

/-- Drawing changes the destination pixels the source covers. -/
theorem combine_get (hu : 0 ≤ u ∧ u < d.w) (hv : 0 ≤ v ∧ v < d.h) :
    (combine d src x0 y0 op).get u v =
      if 0 ≤ u - x0 ∧ u - x0 < src.w ∧ 0 ≤ v - y0 ∧ v - y0 < src.h then
        op.apply (d.get u v) (src.get (u - x0) (v - y0))
      else d.get u v := by
  have hrows := loopPure_observe (f := fun j c => loopPure (combinePixel src x0 y0 op j) src.w 0 c)
    (P := (·.SameSize d)) (obs := (·.get u v))
    (g := fun c => if 0 ≤ u - x0 ∧ u - x0 < src.w then op.apply c (src.get (u - x0) (v - y0)) else c) (k := v - y0)
    (fun j c hc => (loopPure_size (fun i e => combinePixel_size src x0 y0 op j i e) _ _ c).trans hc)
    (fun j c hc => combineRow_get j (hc.1.symm ▸ hu) (hc.2.symm ▸ hv)) src.h 0 d ⟨rfl, rfl⟩
  unfold combine
  rw [hrows, Nat.cast_zero, zero_add, ← ite_and]
  congr 1
  simp only [eq_iff_iff]
  omega

end

/-! ## The BM commands -/

theorem newBitmap_of_lt {cfg : Params} {w h : Nat} (hpix : cfg.maxpix < w * h) (fill : Bool) (u : Work) :
    newBitmap cfg w h fill u = .error .unsupportedFeature u :=
  Dec.bind_of_error (Dec.run_require_of_not (not_le.mpr hpix) _ _)

theorem combOpOfCode_of_le {n : Nat} (h : n ≤ 4) : ∃ op, combOpOfCode n = some op := by
  interval_cases n <;> exact ⟨_, rfl⟩

theorem exec_bmNew (a : BitVec 8) (s : State) : exec (.bmNew a) s = execBmNew a s := rfl

theorem exec_bmCombine (a : BitVec 8) (s : State) : exec (.bmCombine a) s = execBmCombine a s := rfl

/-- The check of the handles of `BM.COMBINE` passes where both name a slot. -/
theorem handlesOk_run {s : State} (hdst : s.dst < s.cfg.nslot) (hsrc : s.src < s.cfg.nslot) (w : Work) :
    require (decide (s.dst < s.cfg.nslot) && decide (s.src < s.cfg.nslot)) .illegalCommand w = .ok () w := by
  rw [decide_eq_true hdst, decide_eq_true hsrc]
  rfl

/-- Completing a command that wrote a Region to slot `h` leaves the rest of the state. -/
theorem State.setSlot_completed_region (s : State) (h : Nat) (B : Bitmap) (x y : Word) (op : CombOp) :
    let t := (s.setSlot h (.region B x y op)).completed
    t = { s with segstore := t.segstore, status := .done, err := 0 } ∧ t.slot h = .region B x y op ∧
      s.OtherSlotsKept t h := by
  intro t
  have hslot (k : Nat) : t.slot k = if h = k then .region B x y op else s.slot k :=
    s.slot_setSlot_of_ne_empty h k (v := .region B x y op) nofun
  exact ⟨rfl, (hslot h).trans (if_pos rfl), fun k hk => (hslot k).trans (if_neg hk.symm)⟩

section
variable {opc : BitVec 8} {body : Dec Slot} {s : State}

/-- A BM command that completes writes SEGSTORE[P0] and nothing else (`10_state.md` R41). -/
theorem runBitmap_of_ok {v : Slot} (h : body s.work = .ok v s.work) :
    runCommand opc bitmapFootprint body (fun v t => t.setSlot s.dst v) s = .next (s.setSlot s.dst v).completed := by
  rw [runCommand_of_ok h]
  unfold bitmapFootprint
  rw [State.commit_nothing s s.work rfl]

/-- A BM command that takes an error leaves SEGSTORE (`60_exceptions.md` R425). -/
theorem runBitmap_of_error {e : CoreError} {w : Work} {post : Slot → State → State} (h : body s.work = .error e w) :
    ∃ t, runCommand opc bitmapFootprint body post s = .next t ∧ s.Raised t opc e ∧ t.segstore = s.segstore :=
  ⟨_, runCommand_of_error h, State.raise_raised .., (State.raise_segstore ..).trans (if_neg (by rintro ⟨-, ⟨⟩⟩))⟩

end

end Sys2Proof.Machine
end

section
/-! The statements of the family `44_bitmap.md`. -/

namespace Sys2Proof.Machine

/-- Settles O45: the three checks are the fill, the handle and the capacity, and a filled bitmap has one value. -/
theorem bmNewResult : Obligations.BmNewResult := by
  intro a s ha
  rw [exec_bmNew]
  unfold execBmNew
  rw [runCommand_of_check ha]
  refine ⟨fun hdst hpix => ?_, fun hdst hpix => ?_, fun hdst => runCommand_refused _ _ _ _ s (decide_eq_false (by omega))⟩
  · rw [runCommand_of_check hdst]
    obtain ⟨hframe, hslot, hkept⟩ :=
      s.setSlot_completed_region s.dst (Bitmap.filled s.p1.toNat s.p2.toNat (decide (a = 1))) 0 0 .or
    exact ⟨_, _, runBitmap_of_ok ((Dec.bind_of_ok (newBitmap_of_le hpix _ _)).trans (Dec.run_pure _ _)), hframe, hslot,
      rfl, rfl, fun x y hx hy => Bitmap.get_filled hx hy _, hkept⟩
  · rw [runCommand_of_check hdst]
    exact runBitmap_of_error (Dec.bind_of_error (newBitmap_of_lt hpix _ _))

/-- Settles O46: the checks pass, and `combine_get` says what drawing makes of each pixel. -/
theorem bmCombineResult : Obligations.BmCombineResult := by
  intro a s op D S x y o x' y' o' hop hdst hsrc hD hS
  rw [exec_bmCombine]
  unfold execBmCombine
  rw [hop, hD, hS]
  obtain ⟨hframe, hslot, hkept⟩ := s.setSlot_completed_region s.dst (combine D S s.p2.toInt s.p3.toInt op) x y o
  obtain ⟨hw, hh⟩ := combine_size D S s.p2.toInt s.p3.toInt op
  exact ⟨_, _, runBitmap_of_ok ((Dec.bind_of_ok (handlesOk_run hdst hsrc _)).trans (Dec.run_pure _ _)), hframe, hslot,
    hkept, hw, hh, fun i j hi hj => combine_get (by omega) (by omega)⟩

/-- Settles O47: the handles are the first check of an operator that exists, the two Regions the second. -/
theorem bmCombineErrors : Obligations.BmCombineErrors := by
  intro a s ha
  obtain ⟨op, hop⟩ := combOpOfCode_of_le ha
  rw [exec_bmCombine]
  unfold execBmCombine
  rw [hop]
  refine ⟨fun hbad => ?_, fun hdst hsrc hno => ?_⟩
  · refine runCommand_refused _ _ _ _ s ?_
    rw [← Bool.decide_and, decide_eq_false (by omega)]
  · refine runBitmap_of_error (w := s.work) ((Dec.bind_of_ok (handlesOk_run hdst hsrc _)).trans ?_)
    cases hD : s.slot s.dst with
    | region d x y o =>
      cases hS : s.slot s.src with
      | region b x' y' o' => exact (hno.elim (· _ _ _ _ hD) (· _ _ _ _ hS)).elim
      | empty | symDict | table => rfl
    | empty | symDict | table => rfl

end Sys2Proof.Machine
end

section
/-! SUPPORT. Template contexts as sums of weighted pixels with a bound (`45_generic.md` R262, `46_refinement.md` R292), and a
row that typical prediction copies (`45_generic.md` R264, R265). -/

namespace Sys2Proof.Machine

/-! ## Contexts -/

theorem ofBits_cons (b : Bool) (bs : List Bool) : ofBits (b :: bs) = b.toNat + 2 * ofBits bs := rfl

/-- `acc` plus the bits, bit 0 first, each with twice the weight of the one before it, from `weight` on: a sum as the tables
of R261 and R291 give it. -/
def addBits (acc weight : Nat) : List Bool → Nat
  | [] => acc
  | b :: bs => addBits (acc + weight * b.toNat) (2 * weight) bs

theorem addBits_eq (acc weight : Nat) (bs : List Bool) : addBits acc weight bs = acc + weight * ofBits bs := by
  induction bs generalizing acc weight with
  | nil => rfl
  | cons b bs ih =>
    rw [addBits, ih, ofBits_cons]
    ring

/-- A number is the sum of its weighted bits. -/
theorem ofBits_cons_eq_addBits (b : Bool) (bs : List Bool) : ofBits (b :: bs) = addBits b.toNat 2 bs :=
  (addBits_eq b.toNat 2 bs).symm

theorem ofBits_lt (bs : List Bool) : ofBits bs < 2 ^ bs.length := by
  induction bs with
  | nil => exact Nat.one_pos
  | cons b bs ih =>
    have hb := b.toNat_lt
    rw [ofBits_cons, List.length_cons, Nat.pow_succ]
    omega

/-- A generic context has one bit a position of its template. -/
theorem gctx_lt (B : Bitmap) (x y : Nat) (t : Fin 4) (at_ : AtPixels) :
    gctx B x y t at_ < 2 ^ (gbTemplate t).length :=
  (ofBits_lt _).trans_eq (by rw [List.length_map])

/-- A refinement context has one bit a position of its template, 10 or 13. -/
theorem rctx_lt (p : RefineParams) (B : Bitmap) (x y : Nat) : rctx p B x y < if p.template then 1024 else 8192 := by
  refine (ofBits_lt _).trans_eq ?_
  rw [List.length_map]
  cases p.template <;> rfl

/-! ## A row that typical prediction copies -/

/-- Copying a row leaves every other row. -/
theorem copyRow_get_of_ne {b : Bitmap} {y : Nat} (hy : y < b.h) {v : Int} (hv : v ≠ y) (x : Int) :
    (copyRow y b).get x v = b.get x v :=
  (loopPure_induct (fun c => c.SameSize b ∧ c.get x v = b.get x v) _ 0 b.w
    (fun i c _ hi ⟨hsize, hget⟩ => ⟨hsize.set _ _ _, by
      rw [Bitmap.get_set c (hsize.1.symm ▸ hi) (hsize.2.symm ▸ hy), if_neg fun h => hv h.2, hget]⟩)
    b.w 0 b le_rfl (Nat.zero_add _).le ⟨⟨rfl, rfl⟩, rfl⟩).2

/-- A copied row holds the pixels that stood above it. -/
theorem copyRow_get_row {b : Bitmap} {y x : Nat} (hy : y < b.h) (hx : x < b.w) :
    (copyRow y b).get x y = b.get x ((y : Int) - 1) :=
  ((copyRow_run hy).2 x hx).trans (copyRow_get_of_ne hy (by omega) x)

section
variable {E : Env} {w w' : Work}

/-- Under typical prediction the bit SLTP is the one bit decoded, and it toggles LTP. -/
theorem nextLtp_of_ok {arr : Arr} {cx : Nat} {d : Bool} (h : adDecode E arr cx w = .ok d w') (ltp : Bool) :
    nextLtp E true arr cx ltp w = .ok (ltp ^^ d) w' :=
  Dec.bind_of_ok h

/-- Where LTP becomes 1 the row is copied, with no bit decoded but SLTP. -/
theorem genericRow_of_ltp {t : Fin 4} {on : Bool} {r : RowState} (h : nextLtp E on .gb (sltpCx t) r.ltp w = .ok true w')
    (at_ : AtPixels) (y : Nat) : genericRow E t on at_ y r w = .ok { bm := copyRow y r.bm, ltp := true } w' :=
  Dec.bind_of_ok h

end

end Sys2Proof.Machine
end

section
/-! The statements of the family `45_generic.md`. -/

namespace Sys2Proof.Machine

/-- Settles O49: a context is the number whose bits are the pixels of its template's positions, from bit 0 upwards, so each
position weighs twice the one before it. -/
theorem templateContexts : Obligations.TemplateContexts := by
  intro B x y a1 a2 a3 a4 P
  refine ⟨?_, ?_, ?_, ?_, fun at_ => ?_, ?_⟩
  · exact ofBits_cons_eq_addBits ..
  · exact ofBits_cons_eq_addBits ..
  · exact ofBits_cons_eq_addBits ..
  · exact ofBits_cons_eq_addBits ..
  · exact ⟨gctx_lt B x y 0 at_, gctx_lt B x y 1 at_, gctx_lt B x y 2 at_, gctx_lt B x y 3 at_⟩
  · intro p Q
    refine ⟨fun htemplate hat => ?_, fun htemplate => ?_, rctx_lt p B x y⟩
    · cases p
      cases htemplate
      cases hat
      exact ofBits_cons_eq_addBits ..
    · cases p
      cases htemplate
      exact ofBits_cons_eq_addBits ..

/-- Settles O50: a toggled LTP of 1 leaves the copy of the row above as the row's whole work. -/
theorem typicalRowCopies : Obligations.TypicalRowCopies := by
  intro E t at_ y r w w' d hy hd hltp
  obtain ⟨hw, hh⟩ := copyRow_size y r.bm
  exact ⟨_, genericRow_of_ltp ((nextLtp_of_ok hd r.ltp).trans (by rw [hltp])) at_ y, rfl, hw, hh,
    fun _ hx => copyRow_get_row hy hx, fun x _ hv => copyRow_get_of_ne hy hv x⟩

end Sys2Proof.Machine
end

section
/-! SUPPORT. A refinement pixel under typical prediction, by what `TPGRPix` answers (`46_refinement.md` R294, R295). -/

namespace Sys2Proof.Machine

section
variable {E : Env} {p : RefineParams} {x y : Nat} {w w' : Work}

/-- A predicted pixel takes the predicted value, with no decode. -/
theorem refinePixel_of_tpgrPix_some {v : Bool} (h : tpgrPix p x y = some v) (b : Bitmap) :
    refinePixel E p true y x b w = .ok (b.set x y v) w := by
  unfold refinePixel
  rw [if_pos rfl, h]
  rfl

/-- A pixel that is not predicted is one decode of GR. -/
theorem refinePixel_of_tpgrPix_none {b : Bitmap} {d : Bool} (h : tpgrPix p x y = none)
    (hd : adDecode E .gr (rctx p b x y) w = .ok d w') : refinePixel E p true y x b w = .ok (b.set x y d) w' := by
  unfold refinePixel
  rw [if_pos rfl, h]
  exact Dec.bind_of_ok hd

end

end Sys2Proof.Machine
end

section
/-! The statements of the family `46_refinement.md`. -/

namespace Sys2Proof.Machine

/-- Settles O53: `TPGRPix` answers the centre's value where the neighbourhood is uniform, and one pixel that differs from the
centre makes it answer nothing. -/
theorem typicalRefinementPixel : Obligations.TypicalRefinementPixel := by
  intro E p x y b w
  obtain ⟨hsome, hnone⟩ := tpgrPix_eq p x y
  refine ⟨fun v hv => ?_, fun i j d w' hi hi' hj hj' hne hd => ?_⟩
  · have hcentre : p.refPix x y 0 0 = v := hv 0 0 (by decide) (by decide) (by decide) (by decide)
    have huniform : p.uniform x y := fun i j hi hi' hj hj' => (hv i j hi hi' hj hj').trans hcentre.symm
    exact refinePixel_of_tpgrPix_some ((hsome huniform).trans (by rw [hcentre])) b
  · have hmixed : ¬p.uniform x y := fun h => hne (h i j hi hi' hj hj')
    exact refinePixel_of_tpgrPix_none (hnone hmixed) hd

end Sys2Proof.Machine
end

section
/-! SUPPORT. What a symbol dictionary or text region segment leaves where its procedure completes: the tables used as a list,
and the items that `finishSegment` and `commit` write (`10_state.md` R36, R41, `30_encoding.md` R96). -/

namespace Sys2Proof.Machine

theorem exec_segSd (s : State) : exec .segSd s = execSegSd s := rfl

/-! ## The standard tables used (`43_huffman.md` R198) -/

/-- The set of the standard tables of a list, used one after the other. -/
def tablesUsed (ns : List Nat) : BitVec 16 := ns.foldl (fun built n => built ||| BitVec.twoPow 16 n) 0

theorem getLsbD_tablesUsed {ns : List Nat} (h15 : ∀ n ∈ ns, n ≤ 15) (k : Nat) :
    (tablesUsed ns).getLsbD k = decide (k ∈ ns) := by
  have hfold : ∀ built : BitVec 16,
      (ns.foldl (fun built n => built ||| BitVec.twoPow 16 n) built).getLsbD k = (built.getLsbD k || decide (k ∈ ns)) := by
    induction ns with
    | nil => intro built; simp
    | cons n ns ih =>
      intro built
      rw [List.foldl_cons, ih fun m hm => h15 m (List.mem_cons_of_mem n hm), BitVec.getLsbD_or,
        getLsbD_tableBit (h15 n List.mem_cons_self)]
      simp [eq_comm (a := n), Bool.or_assoc]
  unfold tablesUsed
  rw [hfold, show (0 : BitVec 16).getLsbD k = false from BitVec.getLsbD_zero, Bool.false_or]

/-- After a command that used the tables `ns` the cache lists them, and every other table as before. -/
theorem State.Canonical.find_tablesUsed {s : State} (hs : s.Canonical) {ns : List Nat}
    (hns : ∀ n ∈ ns, 1 ≤ n ∧ n ≤ 15) (k : Nat) :
    sparseFind (commitBuilt (tablesUsed ns) s.stdTab) k =
      if k ∈ ns then some (stdTable k) else sparseFind s.stdTab k := by
  rw [commitBuilt_find, getLsbD_tablesUsed fun n hn => (hns n hn).2]
  by_cases hk : k ∈ ns
  · obtain ⟨h1, h15⟩ := hns k hk
    rcases hs.std k with h | h <;> simp [h, hk, h1, h15]
  · simp [hk]

/-! ## The items written -/

theorem mem_allArrays (n : Arr) : n ∈ allArrays := by cases n <;> decide

/-- A symbol dictionary or text region segment that leaves slot value `v` and IDLEN `n` writes these, SP, ADVALID, the decoder
registers, every context array and STDTAB. -/
theorem finishSegment_symbol_frame (s : State) (w : Work) {v : Slot} (hv : v ≠ .empty) (n : Nat) :
    let t := (s.finishSegment { slot := v, idlen := some n } (s.commit symbolFootprint w)).completed
    t.Completed ∧ t.slot s.dst = v ∧ t.idlen = BitVec.ofNat 6 n ∧ t.sp = BitVec.ofNat 36 (8 * s.windowEnd) ∧
      t.advalid = false ∧ (∀ m, t.cx.arr m = w.cx.arr m) ∧ t.ad = w.ad ∧ t.stdTab = commitBuilt w.built s.stdTab ∧
      s.HostSideKept t ∧ s.RecordKept t ∧ s.ResultsKept t ∧ s.BindingKept t ∧ s.OtherSlotsKept t s.dst := by
  intro t
  obtain ⟨hhost, hrecord⟩ := commit_frame s symbolFootprint w
  have hslot (k : Nat) : t.slot k = if s.dst = k then v else s.slot k :=
    State.slot_setSlot_of_ne_empty (s.commit symbolFootprint w) s.dst k hv
  have harr (m : Arr) : t.cx.arr m = w.cx.arr m := (State.commit_arr ..).trans (if_pos (mem_allArrays m))
  exact ⟨⟨rfl, rfl⟩, (hslot _).trans (if_pos rfl), rfl, rfl, rfl, harr, rfl, rfl, hhost, hrecord, ⟨rfl, rfl, rfl⟩,
    ⟨rfl, rfl⟩, fun k hk => (hslot k).trans (if_neg (Ne.symm hk))⟩

end Sys2Proof.Machine
end

section
/-! The statements of the family `47_symbol_dict.md`. -/

namespace Sys2Proof.Machine

/-- Settles O54: the segment is read whole by `segSd_read`, over prefix-free standard tables, and committed. -/
theorem segSdResult : Obligations.SegSdResult := by
  intro s dh dw classes runs q1 q2 hs hok hrefs husable hdh hdw p all ex hcap hflags hex hnew hclasses hsum htail hnone
    hruns hend
  obtain ⟨-, halign, -⟩ := s.windowOk_iff.mp hok
  have hbody := segSd_read hs husable hdh hdw (codesOf_prefixFree _) (codesOf_prefixFree _) (codesOf_prefixFree _) hcap
    halign rfl hflags hex hnew hclasses hsum htail hnone hruns hend
  obtain ⟨hdone, hslot, hidlen, hsp, hvalid, harr, had, htab, hhost, hrecord, hresults, hbinding, hothers⟩ :=
    finishSegment_symbol_frame s _ (v := .symDict ex none) nofun (ceilLog2 all.length)
  refine ⟨_, (exec_segSd s).trans (runSegment_of_ok hok (fun _ => hrefs) hbody), hdone, hslot, hidlen, hsp, hvalid,
    fun n i => ?arrays, had, fun k => ?tables, hhost, hrecord, hresults, hbinding, hothers⟩
  case arrays => rw [harr, Contexts.arr_mapArr, CxArray.entry_cleared]
  case tables =>
    have hused : k ∈ [4 + dh, 2 + dw, 1, 1] ↔ k ∈ [1, 2 + dw, 4 + dh] := by
      simp only [List.mem_cons, List.not_mem_nil]
      tauto
    have hfind := hs.find_tablesUsed (ns := [4 + dh, 2 + dw, 1, 1])
      (fun n hn => by simp only [List.mem_cons, List.not_mem_nil, or_false] at hn; omega) k
    simp only [hused] at hfind
    rw [htab]
    exact hfind

end Sys2Proof.Machine
end

section
/-! SUPPORT. Taking an error: the segment store after it, and the errors that the procedure of each command can raise
(`60_exceptions.md` R421, R424, R425). -/

namespace Sys2Proof.Machine

/-! ## Taking an error (`60_exceptions.md` R420, R425) -/

theorem CoreError.code_eq_six_iff {e : CoreError} : e.code = 6 ↔ e = .illegalCommand := by cases e <;> decide

/-- What an error leaves of the segment store: the destination of a segment command becomes Empty, except by an
IllegalCommand, and every other slot stays. -/
theorem State.raise_slot {s : State} (hrise : SparseRising s.segstore) (opc : BitVec 8) (fp : Footprint)
    (built : BitVec 16) (e : CoreError) (k : Nat) :
    (s.raise opc fp built e).slot k =
      if e ≠ .illegalCommand ∧ fp.segment = true ∧ s.dst = k then .empty else s.slot k := by
  have hstore := State.raise_segstore s opc fp built e
  by_cases h : e ≠ .illegalCommand ∧ fp.segment = true
  · rw [if_pos h] at hstore
    simp only [State.slot_of_write hrise hstore, h, ne_eq, not_false_eq_true, true_and]
  · rw [if_neg h] at hstore
    rw [State.slot_congr hstore, if_neg fun h' => h ⟨h'.1, h'.2.1⟩]

/-- A command that ends in ERROR took one error, with its own OPC and footprint. -/
theorem exec_raises {i : Instr} {s t : State} (h : exec i s = .next t) (ht : t.status = .error) :
    ∃ e built, t = s.raise i.opc (footprintOf i) built e :=
  (exec_ends h).resolve_right fun hdone => nomatch hdone.status.symm.trans ht

/-! ## The row of a command (`60_exceptions.md` R421) -/

/-- A command that ends in ERROR has in ERR an error that its procedure can raise. -/
theorem runCommand_raises {α : Type} {opc : BitVec 8} {fp : Footprint} {body : Dec α} {post : α → State → State}
    {s t : State} {X : CoreError → Prop} {Q : α → Prop} (h : runCommand opc fp body post s = .next t)
    (ht : t.status = .error) (hbody : Keeps (fun _ => True) X Q body) : ∃ e, t.err = e.code ∧ X e := by
  rcases runCommand_cases h with ⟨v, w, -, rfl⟩ | ⟨e, w, he, rfl⟩
  · cases ht
  · exact ⟨e, (State.raise_raised ..).2.1, (hbody.error trivial he).1⟩

/-- The operand checks of a segment command raise IllegalCommand. -/
theorem runSegment_raises {opc : BitVec 8} {fp : Footprint} {readsRef : Bool} {body : Dec SegmentResult} {s t : State}
    {X : CoreError → Prop} {Q : SegmentResult → Prop} (h : runSegment opc fp readsRef body s = .next t)
    (ht : t.status = .error) (hX : X .illegalCommand) (hbody : Keeps (fun _ => True) X Q body) :
    ∃ e, t.err = e.code ∧ X e :=
  runCommand_raises h ht ((Keeps.require fun _ => hX).bind fun _ _ => (Keeps.require fun _ => hX).bind fun _ _ => hbody)

section
variable {X : CoreError → Prop}

theorem htDecodeCounted_raises {E : Env} (hE : X .unexpectedEndOfData) (hC : X .invalidCode) (T : Table) :
    Keeps (fun _ => True) X (fun _ => True) (htDecodeCounted E T) :=
  Keeps.get.bind fun _ _ => (htDecode_stable StableAll.trivial.toStable hE hC T).bind fun _ _ =>
    Keeps.get.bind fun _ _ => .pure trivial

theorem htDecodeTable_raises (hL : X .illegalCommand) (hR : X .invalidReference) (s : State) (a : Nat) :
    Keeps (fun _ => True) X (fun _ => True) (htDecodeTable s a) := by
  unfold htDecodeTable
  split
  · refine (Keeps.require fun _ => hL).bind fun _ _ => ?_
    cases s.slot s.dst with
    | table T => exact .pure trivial
    | empty | symDict | region => exact .throw hR
  · exact (std_stable .trivial _).mono (fun _ _ => trivial) fun _ h => h

end

/-- A command that ends in ERROR has in ERR an error of its row. -/
theorem exec_mayRaise {i : Instr} {s t : State} (h : exec i s = .next t) (ht : t.status = .error) :
    ∃ e, t.err = e.code ∧ i.mayRaise e = true := by
  have hI : Stable fun _ => True := StableAll.trivial.toStable
  unfold exec at h
  cases i with
  | segSd =>
    exact runSegment_raises h ht rfl (.mono (segSd_stable .trivial _ fun _ _ _ _ _ => trivial) (fun _ h => h) fun _ _ => rfl)
  | segTrInt | segTrImm | segTrImml =>
    exact runSegment_raises h ht rfl (.mono (segTr_stable .trivial _) (fun _ h => h) fun _ _ => rfl)
  | segGrInt | segGrImm | segGrImml => exact runSegment_raises h ht rfl (segGr_stable hI rfl rfl rfl)
  | segRrInt | segRrImm | segRrImml =>
    exact runSegment_raises h ht rfl (segRr_stable hI (by rfl) (by rfl) (by rfl) (by rfl) _)
  | segTables =>
    exact runSegment_raises h ht rfl (Q := fun _ => True)
      (.bind (parseTable_stable hI rfl rfl rfl) fun _ _ => .pure trivial)
  | strmBind => exact runCommand_raises h ht (.require fun _ => rfl)
  | strmSeek => exact runCommand_raises h ht (.bind (.require fun _ => rfl) fun _ _ => seekByte_stable hI _)
  | strmReadbits a =>
    exact runCommand_raises h ht (.bind (.require fun _ => rfl) fun _ _ => readBits_stable hI (by rfl) _)
  | strmAlign => exact runCommand_raises h ht (alignByte_stable hI)
  | adInit => exact runCommand_raises h ht (.bind (.require fun _ => rfl) fun _ _ => adInitAt_stable hI (by rfl) _)
  | adDecode a b =>
    refine runCommand_raises h ht (Q := fun _ => True) (.bind (.require fun _ => rfl) fun _ _ => ?_)
    split
    · exact .throw rfl
    · exact .bind (.require fun _ => rfl) fun _ _ => adDecode_stable hI (by rfl) _ _
  | adCxreset a b => exact runCommand_raises h ht (.require fun _ => rfl)
  | iaDecode a =>
    refine runCommand_raises h ht (Q := fun _ => True) (.bind (.require fun _ => rfl) fun _ _ => ?_)
    split
    · exact .throw rfl
    · exact iaDecode_keeps fun _ => adDecode_stable hI (by rfl) _ _
  | iaidDecode =>
    exact runCommand_raises h ht
      (.bind (.require fun _ => rfl) fun _ _ => iaidDecode_keeps (fun _ => adDecode_stable hI (by rfl) _ _) _)
  | htStd a => exact runCommand_raises h ht (.bind (.require fun _ => rfl) fun _ _ => std_stable .trivial _)
  | htDecode a =>
    exact runCommand_raises h ht
      (.bind (.require fun _ => rfl) fun _ _ => .bind (htDecodeTable_raises (by rfl) (by rfl) s _) fun _ _ =>
        htDecodeCounted_raises (by rfl) (by rfl) _)
  | bmCombine a =>
    refine runCommand_raises h ht (Q := fun _ => True) ?_
    split
    · exact .throw rfl
    · refine .bind (.require fun _ => rfl) fun _ _ => ?_
      split
      · exact .pure trivial
      · exact .throw rfl
  | bmNew a =>
    exact runCommand_raises h ht (Q := fun _ => True)
      (.bind (.require fun _ => rfl) fun _ _ => .bind (.require fun _ => rfl) fun _ _ =>
        .bind (newBitmap_keeps (by rfl) _ _ _) fun _ _ => .pure trivial)

end Sys2Proof.Machine
end

section
/-! SUPPORT. The procedures of the segment commands by one name, and how their commands end (`30_encoding.md` R96,
`60_exceptions.md` R425, R430; `70_reset_and_hazards.md` R461, R466). -/

namespace Sys2Proof.Machine

/-! ## The procedure of a segment command -/

/-- The procedure that a segment command runs on its window; no other command has one. -/
def segmentBody (s : State) : Instr → Dec SegmentResult
  | .segSd => segSd s.segmentEnv s.refSlots
  | .segTrInt | .segTrImm | .segTrImml => segTr s.segmentEnv s.refSlots
  | .segGrInt | .segGrImm | .segGrImml => segGr s.segmentEnv
  | .segRrInt | .segRrImm | .segRrImml => segRr s.segmentEnv s.refSlots
  | .segTables => do
    let t ← parseTable s.segmentEnv
    pure { slot := .table t, idlen := none }
  | .strmBind | .strmSeek | .strmReadbits _ | .strmAlign | .adInit | .adDecode _ _ | .adCxreset _ _ | .iaDecode _
  | .iaidDecode | .htStd _ | .htDecode _ | .bmCombine _ | .bmNew _ => throw .illegalCommand

theorem exec_eq_runSegment {i : Instr} (hi : i.isSegment = true) (s : State) :
    exec i s = runSegment i.opc (footprintOf i) i.readsRef (segmentBody s i) s := by
  cases i with
  | segSd | segTrInt | segTrImm | segTrImml | segGrInt | segGrImm | segGrImml | segRrInt | segRrImm | segRrImml
  | segTables => rfl
  | strmBind | strmSeek | strmReadbits | strmAlign | adInit | adDecode | adCxreset | iaDecode | iaidDecode | htStd
  | htDecode | bmCombine | bmNew => cases hi

/-- A segment command whose procedure raises an error other than IllegalCommand records it, and leaves its destination
Empty and the decoder not valid. -/
theorem exec_segment_error {i : Instr} {s : State} {e : CoreError} {w : Work} (hi : i.isSegment = true)
    (hrise : SparseRising s.segstore) (hw : s.windowOk = true) (hr : s.refsOk = true) (he : e ≠ .illegalCommand)
    (hbody : segmentBody s i s.work = .error e w) :
    ∃ t, exec i s = .next t ∧ s.Raised t i.opc e ∧ t.slot s.dst = .empty ∧ t.advalid = false := by
  have hexec := (exec_eq_runSegment hi s).trans (runSegment_of_error hw (fun _ => hr) hbody)
  refine ⟨_, hexec, State.raise_raised .., ?_, (State.raise_advalid ..).trans (if_neg he)⟩
  rw [State.raise_slot hrise, footprintOf_segment, if_pos ⟨he, hi, rfl⟩]

/-- A segment command that completes leaves its result in its destination. -/
theorem State.finishSegment_slot {s : State} (hrise : SparseRising s.segstore) (r : SegmentResult) (fp : Footprint)
    (w : Work) : (s.finishSegment r (s.commit fp w)).completed.slot s.dst = r.slot :=
  (State.slot_of_write (h := s.dst) hrise rfl _).trans (if_pos rfl)

/-! ## The kinds of the references (`60_exceptions.md` R430) -/

theorem collectRefs_error (u : Work) {slots : List Slot}
    (h : ∃ v ∈ slots, v = .empty ∨ ∃ b x y o, v = .region b x y o) :
    collectRefs slots u = .error .invalidReference u := by
  induction slots with
  | nil => obtain ⟨v, hv, -⟩ := h; cases hv
  | cons v more ih =>
    -- a dictionary or a table passes, so the bad reference is a later one
    have hlater : (∀ b x y o, v ≠ .region b x y o) → v ≠ .empty → collectRefs more u = .error .invalidReference u := by
      intro hregion hempty
      obtain ⟨v', hv', hbad⟩ := h
      rcases List.mem_cons.mp hv' with rfl | hmem
      · rcases hbad with hbad | ⟨b, x, y, o, hbad⟩
        · exact absurd hbad hempty
        · exact absurd hbad (hregion b x y o)
      · exact ih ⟨v', hmem, hbad⟩
    cases v with
    | empty => rfl
    | region => rfl
    | symDict => exact Dec.bind_of_error (hlater nofun nofun)
    | table => exact Dec.bind_of_error (hlater nofun nofun)

/-- The references are one slot `v` where REFN is 1 and REF[0] names that slot. -/
theorem State.refSlots_eq_singleton_iff {s : State} {v : Slot} :
    s.refSlots = [v] ↔ s.refn = 1 ∧ s.slot (s.refAt 0) = v := by
  have hlen : s.refSlots.length = s.refn.toNat := by simp [State.refSlots, State.refHandles]
  constructor
  · intro h
    have hn : s.refn = 1 := BitVec.eq_of_toNat_eq (hlen.symm.trans (by rw [h]; rfl))
    refine ⟨hn, ?_⟩
    unfold State.refSlots State.refHandles at h
    rw [hn] at h
    exact (List.cons.inj h).1
  · rintro ⟨hn, rfl⟩
    unfold State.refSlots State.refHandles
    rw [hn]
    rfl

theorem rrReference_error (u : Work) {slots : List Slot} (h : ∀ b x y o, slots ≠ [.region b x y o]) :
    rrReference slots u = .error .invalidReference u := by
  unfold rrReference
  split
  · exact absurd rfl (h _ _ _ _)
  · rfl

/-! ## A window of no bytes (`70_reset_and_hazards.md` R461) -/

theorem readBits_no_bytes {s : State} (hok : s.windowOk = true) (hlen : s.p1 = 0) {n : Nat} (hn : n ≠ 0) {u : Work}
    (hu : u.sp = s.sp.toNat) :
    readBits s.segmentEnv n u = .error .unexpectedEndOfData { u with sp := 8 * s.windowEnd } := by
  obtain ⟨-, halign, -⟩ := s.windowOk_iff.mp hok
  have hend : s.windowEnd = s.sp.toNat / 8 := by unfold State.windowEnd State.datalen; rw [hlen]; rfl
  have hwb : s.segmentEnv.wb = s.sp.toNat / 8 := rfl
  have hwe : s.segmentEnv.we = s.sp.toNat / 8 := hend
  exact readBits_error (by omega) (by omega) (by omega)

/-- With its references in order, the procedure raises UnexpectedEndOfData at its first header byte. -/
theorem segmentBody_no_bytes {i : Instr} {s : State} (hi : i.isSegment = true) (hok : s.windowOk = true)
    (hlen : s.p1 = 0)
    (hsyms : i = .segSd ∨ i = .segTrInt ∨ i = .segTrImm ∨ i = .segTrImml →
      s.refsUsable ∧ s.refSymbols.length ≤ s.cfg.maxsyms)
    (hregion : i = .segRrInt ∨ i = .segRrImm ∨ i = .segRrImml →
      s.refn = 1 ∧ ∃ b x y o, s.slot (s.refAt 0) = .region b x y o) :
    ∃ w, segmentBody s i s.work = .error .unexpectedEndOfData w := by
  have hread {n : Nat} (hn : n ≠ 0) {u : Work} (hu : u.sp = s.sp.toNat) := readBits_no_bytes hok hlen hn hu
  have hinfo {u : Work} (hu : u.sp = s.sp.toNat) :
      parseRegionInfo s.segmentEnv u = .error .unexpectedEndOfData { u with sp := 8 * s.windowEnd } :=
    Dec.bind_of_error (hread (by decide) hu)
  cases i with
  | segGrInt | segGrImm | segGrImml => exact ⟨_, Dec.bind_of_error (Dec.bind_of_error (hinfo rfl))⟩
  | segTables => exact ⟨_, Dec.bind_of_error (Dec.bind_of_error (hread (n := 8) (by decide) rfl))⟩
  | segRrInt | segRrImm | segRrImml =>
    obtain ⟨hn, b, x, y, o, hslot⟩ := hregion (by simp)
    have href : rrReference s.refSlots s.work = .ok b s.work := by
      rw [State.refSlots_eq_singleton_iff.mpr ⟨hn, hslot⟩]
      rfl
    exact ⟨_, (Dec.bind_of_ok href).trans (Dec.bind_of_error (Dec.bind_of_error (hinfo rfl)))⟩
  | segSd =>
    obtain ⟨refs, hrefs, -⟩ := collectRefs_ok s.work (hsyms (by simp)).1
    exact ⟨_, (Dec.bind_of_ok hrefs).trans (Dec.bind_of_error (Dec.bind_of_error (hread (n := 16) (by decide) rfl)))⟩
  | segTrInt | segTrImm | segTrImml =>
    obtain ⟨husable, hcap⟩ := hsyms (by simp)
    obtain ⟨refs, hrefs, hrefsyms⟩ := collectRefs_ok s.work husable
    have hcap' : refs.syms.length ≤ s.segmentEnv.cfg.maxsyms := by rw [hrefsyms]; exact hcap
    refine ⟨_, (Dec.bind_of_ok hrefs).trans ((Dec.bind_of_ok (Dec.run_require_of hcap' _ _)).trans
      ((Dec.bind_of_ok (Dec.run_modify _ _)).trans (Dec.bind_of_error (Dec.bind_of_error (hinfo rfl)))))⟩
  | strmBind | strmSeek | strmReadbits | strmAlign | adInit | adDecode | adCxreset | iaDecode | iaidDecode | htStd
  | htDecode | bmCombine | bmNew => cases hi

/-! ## Two runs (`70_reset_and_hazards.md` R466) -/

/-- What a segment command takes from the state: the parameters, its operands, the bytes of its window, the values of the
referred slots; and the value of its destination, which a refusal leaves. -/
structure SameSegment (s s' : State) : Prop where
  cfg : s'.cfg = s.cfg
  p0 : s'.p0 = s.p0
  p1 : s'.p1 = s.p1
  refn : s'.refn = s.refn
  ref : s'.ref = s.ref
  sp : s'.sp = s.sp
  slen : s'.slen = s.slen
  byte : ∀ k, s.sp.toNat / 8 ≤ k → k < s.windowEnd → s'.streamByte k = s.streamByte k
  slots : ∀ h ∈ s.refHandles, s'.slot h = s.slot h
  dst : s'.slot s.dst = s.slot s.dst

section
variable {s s' : State} (h : SameSegment s s')
include h

theorem SameSegment.dst_eq : s'.dst = s.dst := congrArg BitVec.toNat h.p0

theorem SameSegment.windowEnd_eq : s'.windowEnd = s.windowEnd := by
  unfold State.windowEnd State.datalen
  rw [h.sp, h.p1]

theorem SameSegment.windowOk_eq : s'.windowOk = s.windowOk := by
  unfold State.windowOk State.datalen
  rw [h.dst_eq, h.cfg, h.sp, h.p1, h.slen]

theorem SameSegment.refHandles_eq : s'.refHandles = s.refHandles := by
  unfold State.refHandles State.refAt
  rw [h.refn, h.ref]

theorem SameSegment.refsOk_eq : s'.refsOk = s.refsOk := by
  unfold State.refsOk
  rw [h.refHandles_eq, h.refn, h.cfg]

theorem SameSegment.refSlots_eq : s'.refSlots = s.refSlots := by
  unfold State.refSlots
  rw [h.refHandles_eq]
  exact List.map_congr_left h.slots

theorem SameSegment.sameInput (hs : s.Canonical) (hs' : s'.Canonical) : SameInput s.segmentEnv s'.segmentEnv where
  wb := congrArg (·.toNat / 8) h.sp
  we := h.windowEnd_eq
  cfg := h.cfg
  byte := h.byte
  tab n t ht := by rcases hs.std n with hn | hn <;> cases hn.symm.trans ht; rfl
  tab' n t ht := by rcases hs'.std n with hn | hn <;> cases hn.symm.trans ht; rfl

/-- The two procedures end in equal results or in equal errors. -/
theorem SameSegment.body (hs : s.Canonical) (hs' : s'.Canonical) (i : Instr) :
    ∃ S, Agree (SameWork False fun _ => False) S (segmentBody s i) (segmentBody s' i) := by
  have hin := h.sameInput hs hs'
  cases i with
  | segSd =>
    unfold segmentBody
    rw [h.refSlots_eq]
    exact ⟨_, segSd_same hin _⟩
  | segTrInt | segTrImm | segTrImml =>
    unfold segmentBody
    rw [h.refSlots_eq]
    exact ⟨_, segTr_same hin _⟩
  | segGrInt | segGrImm | segGrImml => exact ⟨_, segGr_same hin⟩
  | segRrInt | segRrImm | segRrImml =>
    unfold segmentBody
    rw [h.refSlots_eq]
    exact ⟨_, segRr_same hin _⟩
  | segTables => exact ⟨_, (parseTable_same hin).bind fun _ => .pure⟩
  | strmBind | strmSeek | strmReadbits | strmAlign | adInit | adDecode | adCxreset | iaDecode | iaidDecode | htStd
  | htDecode | bmCombine | bmNew => exact ⟨fun _ _ => True, .throw⟩

end

/-- The ends of a segment command from two states that agree on its inputs: both refused, both complete with equal results,
or both in equal errors. -/
theorem SameSegment.ends {s s' : State} (h : SameSegment s s') (hs : s.Canonical) (hs' : s'.Canonical) {i : Instr}
    (hi : i.isSegment = true) :
    (∃ e b b', exec i s = .next (s.raise i.opc (footprintOf i) b e) ∧
        exec i s' = .next (s'.raise i.opc (footprintOf i) b' e)) ∨
      ∃ r w w', exec i s = .next (s.finishSegment r (s.commit (footprintOf i) w)).completed ∧
        exec i s' = .next (s'.finishSegment r (s'.commit (footprintOf i) w')).completed := by
  rw [exec_eq_runSegment hi, exec_eq_runSegment hi]
  by_cases hok : s.windowOk = true ∧ (i.readsRef = true → s.refsOk = true)
  · have hok' : s'.windowOk = true ∧ (i.readsRef = true → s'.refsOk = true) := by
      rwa [h.windowOk_eq, h.refsOk_eq]
    obtain ⟨S, hagree⟩ := h.body hs hs' i
    have hrun := hagree s.work s'.work ⟨congrArg BitVec.toNat h.sp, fun _ => False.elim, False.elim⟩
    cases h1 : segmentBody s i s.work with
    | ok r w =>
      cases h2 : segmentBody s' i s'.work with
      | ok r' w' =>
        rw [h1, h2] at hrun
        obtain ⟨rfl, -⟩ := hrun
        exact .inr ⟨r, w, w', runSegment_of_ok hok.1 hok.2 h1, runSegment_of_ok hok'.1 hok'.2 h2⟩
      | error e' w' => rw [h1, h2] at hrun; exact hrun.elim
    | error e w =>
      cases h2 : segmentBody s' i s'.work with
      | ok r' w' => rw [h1, h2] at hrun; exact hrun.elim
      | error e' w' =>
        rw [h1, h2] at hrun
        subst hrun
        exact .inl ⟨e, _, _, runSegment_of_error hok.1 hok.2 h1, runSegment_of_error hok'.1 hok'.2 h2⟩
  · have hbad : s.windowOk = false ∨ i.readsRef = true ∧ s.refsOk = false := by
      simpa only [not_and_or, Classical.not_imp, Bool.not_eq_true] using hok
    have hbad' : s'.windowOk = false ∨ i.readsRef = true ∧ s'.refsOk = false := by
      rwa [h.windowOk_eq, h.refsOk_eq]
    exact .inl ⟨.illegalCommand, 0, 0, runSegment_refused hbad, runSegment_refused hbad'⟩

end Sys2Proof.Machine
end

section
/-! SUPPORT. Placement: what the tables of R379 say corner by corner (`48_text_region.md` R379). -/

namespace Sys2Proof.Machine

/-- The corner lies on the right edge of a drawn bitmap. -/
abbrev RefCorner.IsRight (c : RefCorner) : Prop := c = .topRight ∨ c = .bottomRight

/-- The corner lies on the bottom edge of a drawn bitmap. -/
abbrev RefCorner.IsBottom (c : RefCorner) : Prop := c = .bottomLeft ∨ c = .bottomRight

theorem advanceS_eq (transposed : Bool) (w h : Nat) :
    advanceS transposed w h = (if transposed then (h : Int) else w) - 1 := by
  cases transposed <;> rfl

/-- The far edge along S is the right one, or the bottom one when transposed. -/
theorem farCorner_iff (transposed : Bool) (c : RefCorner) :
    farCorner transposed c = true ↔ if transposed then c.IsBottom else c.IsRight := by
  cases transposed <;> cases c <;> decide

/-- The bitmap's edge that holds the corner lies at S along S and at T along T. -/
theorem placeAt_corner (transposed : Bool) (c : RefCorner) (s t : Int) (w h : Nat) :
    let xy := placeAt transposed c s t w h
    let u := if transposed then t else s
    let v := if transposed then s else t
    (c.IsRight → xy.1 + w - 1 = u) ∧ (¬c.IsRight → xy.1 = u) ∧ (c.IsBottom → xy.2 + h - 1 = v) ∧
      (¬c.IsBottom → xy.2 = v) := by
  cases transposed <;> cases c <;> simp [placeAt] <;> omega

/-- A far corner: CURS advances, and then the bitmap is drawn there. -/
theorem place_of_far {p : TextParams} (h : farCorner p.transposed p.refCorner = true) (ib : Bitmap) (t : Int)
    (st : TextState) :
    let s := st.curs + advanceS p.transposed ib.w ib.h
    let xy := placeAt p.transposed p.refCorner s t ib.w ib.h
    place p ib t st = { st with reg := combine st.reg ib xy.1 xy.2 p.combOp, curs := s } := by
  unfold place
  simp only [h, if_true]

/-- A near corner: the bitmap is drawn at CURS, which advances then. -/
theorem place_of_near {p : TextParams} (h : ¬farCorner p.transposed p.refCorner = true) (ib : Bitmap) (t : Int)
    (st : TextState) :
    let xy := placeAt p.transposed p.refCorner st.curs t ib.w ib.h
    place p ib t st =
      { st with
        reg := combine st.reg ib xy.1 xy.2 p.combOp, curs := st.curs + advanceS p.transposed ib.w ib.h } := by
  unfold place
  simp only [if_neg h]

end Sys2Proof.Machine
end

section
/-! SUPPORT. The decoder started on a marker, and an arithmetic-coded text region without instances (`41_arith.md` R141 to R145,
`48_text_region.md` R371, R375, R376). -/

namespace Sys2Proof.Machine

/-! ## The first bits after a start on a marker

BYTEIN adds 0xFF00 to C for ever (`41_arith.md` R142), so the bits are the same in every such stream. -/

section
variable {E : Env} {w : Work} {bp : Word} {arr : Arr} {i : Nat}

theorem byteIn_at_marker (hm : MarkerNext E w.ad.bp) (hb : w.ad.b = 0xFF) :
    byteIn E w = .ok () { w with ad := { w.ad with c := w.ad.c + 0xFF00, ct := 8 } } := by
  unfold byteIn
  rw [Dec.run_bind, Dec.run_get]
  dsimp only
  rw [if_pos hb, Dec.run_bind, inByte_ok hm.low hm.high]
  dsimp only
  rw [if_pos hm.code]
  rfl

/-- One turn of RENORMD that needs no refill (`41_arith.md` R143). -/
theorem renormUpTo_shift (n : Nat) (hct : w.ad.ct ≠ 0) :
    renormUpTo E (n + 1) w =
      (if (renormShift w.ad).a < 0x8000 then renormUpTo E n else pure ()) { w with ad := renormShift w.ad } := by
  rw [renormUpTo, Dec.run_bind, Dec.run_get]
  dsimp only
  rw [if_neg hct]
  rfl

/-- One turn of RENORMD that refills first (`41_arith.md` R143). -/
theorem renormUpTo_refill {u : Work} (n : Nat) (hct : w.ad.ct = 0) (hu : byteIn E w = .ok () u) :
    renormUpTo E (n + 1) w =
      (if (renormShift u.ad).a < 0x8000 then renormUpTo E n else pure ()) { u with ad := renormShift u.ad } := by
  rw [renormUpTo, Dec.run_bind, Dec.run_get]
  dsimp only
  rw [if_pos hct]
  exact Dec.bind_of_ok hu

/-- The decoder registers after a start on a marker at `bp` (`41_arith.md` R141). -/
def startedOnMarker (bp : Word) : ArithRegs := { c := 0x7FFF8000, a := 0x8000, ct := 1, b := 0xFF, bp := bp }

/-- The decoder registers after the first bit, decoded with a cleared entry. -/
def firstBitOnMarker (bp : Word) : ArithRegs := { c := 0xA7FBFE00, a := 0xA7FC, ct := 7, b := 0xFF, bp := bp }

/-- RENORMD after the first bit takes two turns: one uses up CT, the other refills. -/
theorem renormD_on_marker (hm : MarkerNext E bp)
    (hw : w.ad = { c := 0x29FE8000, a := 0x29FF, ct := 1, b := 0xFF, bp := bp }) :
    renormD E w = .ok () { w with ad := firstBitOnMarker bp } := by
  have hshift : renormShift w.ad = { c := 0x53FD0000, a := 0x53FE, ct := 0, b := 0xFF, bp := bp } := by
    simp [renormShift, hw]
  have hrefill := byteIn_at_marker (E := E) (w := { w with ad := renormShift w.ad }) (by rw [hshift]; exact hm)
    (by rw [hshift])
  have hshift' : renormShift { renormShift w.ad with c := (renormShift w.ad).c + 0xFF00, ct := 8 } =
      firstBitOnMarker bp := by
    have hc : ((0x53FD0000 : BitVec 32) + 0xFF00) <<< 1 = 0xA7FBFE00 := by decide
    have ha : (0x53FE : BitVec 16) <<< 1 = 0xA7FC := by decide
    have hct : (8 : BitVec 4) - 1 = 7 := by decide
    rw [hshift]
    unfold renormShift
    dsimp only
    rw [hc, ha, hct]
    rfl
  unfold renormD
  rw [renormUpTo_shift 15 (by simp [hw]), if_pos (by simp [hshift]), renormUpTo_refill 14 (by simp [hshift]) hrefill,
    hshift', if_neg (by simp [firstBitOnMarker])]
  rfl

/-- The first bit, with a cleared entry, is 1. -/
theorem adDecode_first_on_marker (hm : MarkerNext E bp) (hw : w.ad = startedOnMarker bp)
    (hentry : w.entry arr i = { idx := 0, mps := false }) :
    adDecode E arr i w =
      .ok true ({ w with ad := firstBitOnMarker bp }.setEntry arr i { idx := 1, mps := true }) := by
  have hq : (w.row arr i).qe = 0x5601 := congrArg (fun e => (qe e.idx).qe) hentry
  have hsize : w.upperSize arr i = 0x29FF := by simp [Work.upperSize, hq, hw, startedOnMarker]
  have hup : ¬w.InLower arr i := by simp [Work.InLower, hq, hw, startedOnMarker]
  have hlt : w.upperSize arr i < 0x8000 := by rw [hsize]; decide
  have hnarrowed : w.narrowed arr i = { c := 0x29FE8000, a := 0x29FF, ct := 1, b := 0xFF, bp := bp } := by
    unfold Work.narrowed
    rw [if_neg hup, if_neg hup, hsize, hq, hw]
    simp [startedOnMarker]
  have hexchange : w.exchange arr i = { bit := true, entry := { idx := 1, mps := true } } := by
    rw [w.exchange_of_upper hup, hentry, hsize]
    decide
  rw [adDecode_of_exchange (.inr hlt), hnarrowed, hexchange]
  exact Dec.bind_of_ok (renormD_on_marker hm rfl)

/-- The second bit, with another cleared entry, is 1 too. -/
theorem adDecode_second_on_marker {w' : Work} {d : Bool} (hw : w.ad = firstBitOnMarker bp)
    (hentry : w.entry arr i = { idx := 0, mps := false }) (hd : adDecode E arr i w = .ok d w') : d = true := by
  have hq : (w.row arr i).qe = 0x5601 := congrArg (fun e => (qe e.idx).qe) hentry
  have hsize : w.upperSize arr i = 0x51FB := by simp [Work.upperSize, hq, hw, firstBitOnMarker]
  have hup : ¬w.InLower arr i := by simp [Work.InLower, hq, hw, firstBitOnMarker]
  obtain ⟨hbit, -⟩ := adDecode_exchange_ok (.inr (by rw [hsize]; decide)) (by simp [hw, firstBitOnMarker])
    (by simp [hw, firstBitOnMarker]) hd
  rw [hbit, w.exchange_of_upper hup, hentry, hsize]
  decide

/-- OOB begins with the bits 1, 0: minus zero is of the first row of R171 (`42_intdec.md` R171, R173). -/
theorem iaBits_none {ds : List Bool} (h : iaBits ds none) : ∃ more, ds = true :: false :: more := by
  obtain ⟨sign, row, val, hrow, -, hds, hv⟩ := h
  have hfirst : ∀ row ∈ iaRows, row.2.2 = 0 → row.1 = [false] := by decide
  cases sign with
  | false => cases hv
  | true =>
    rw [if_neg (by decide)] at hv
    split at hv
    · rw [hfirst row hrow (by omega)] at hds
      exact ⟨val, hds⟩
    · cases hv

/-- An integer decode with a cleared array right after a start on a marker does not give OOB. -/
theorem iaDecode_on_marker_ne_oob (hm : MarkerNext E bp) (hw : w.ad = startedOnMarker bp)
    (hclear : w.cx.arr arr = .cleared) {v : Option Int} {w' : Work} (h : iaDecode E arr w = .ok v w') : v ≠ none := by
  rintro rfl
  have hentry (k : Nat) : w.entry arr k = { idx := 0, mps := false } := by
    unfold Work.entry
    rw [hclear, CxArray.entry_cleared]
  obtain ⟨ds, hrun, -, hbits⟩ := iaDecode_bitRun h
  obtain ⟨more, rfl⟩ := iaBits_none hbits
  obtain ⟨u, hfirst, u', hsecond, -⟩ := hrun
  rw [adDecode_first_on_marker hm hw (hentry 1)] at hfirst
  obtain ⟨-, rfl⟩ := EStateM.Result.ok.inj hfirst
  refine absurd (adDecode_second_on_marker rfl ?_ hsecond) (by decide)
  unfold Work.entry
  rw [Work.setEntry_arr, if_pos rfl, hclear, CxArray.entry_setEntry _ .nil, if_neg (by decide), CxArray.entry_cleared]

end

/-! ## An arithmetic-coded text region without instances -/

section
variable {s : State}

/-- The header of a text region with SBHUFF = 0 and SBREFINE = 0 (`48_text_region.md` R371). -/
theorem parseTextHeader_arithmetic {op : CombOp} {p f : Nat} (tabs : List Table) (u : Work) (hw : s.inWindow p (p + 184))
    (hg : bitField (s.streamNum (p + 128) 8) 7 3 = 0)
    (hop : combOpOfCode (bitField (s.streamNum (p + 128) 8) 2 0) = some op)
    (hpix : s.streamNum p 32 * s.streamNum (p + 32) 32 ≤ s.cfg.maxpix) (hfd : s.streamNum (p + 136) 16 = f)
    (hf0 : f.testBit 0 = false) (hf1 : f.testBit 1 = false) (hf15 : f.testBit 15 = false) :
    parseTextHeader s.segmentEnv tabs { u with sp := p } =
      .ok
        { info :=
            { w := s.streamNum p 32, h := s.streamNum (p + 32) 32, x := s.streamNum (p + 64) 32
              y := s.streamNum (p + 96) 32, op := op }
          flags := f, tables := noTextTables, rat := [], numInstances := s.streamNum (p + 152) 32 }
        { u with sp := p + 184 } := by
  have hflags : readU16 s.segmentEnv { u with sp := p + 136 } = .ok f { u with sp := p + 152 } := by
    rw [← hfd]
    exact readBits_within (n := 16) hw (by omega) (by omega) u
  have hcount : readU32 s.segmentEnv { u with sp := p + 152 } =
      .ok (s.streamNum (p + 152) 32) { u with sp := p + 184 } :=
    readBits_within (n := 32) hw (by omega) (by omega) u
  unfold parseTextHeader
  refine (Dec.bind_of_ok (parseRegionInfo_ok u (hw.left (by omega)) hg hop hpix)).trans ((Dec.bind_of_ok hflags).trans ?_)
  rw [hf0, hf1, hf15]
  refine (Dec.bind_of_ok (Dec.run_require_true _ _)).trans ((Dec.bind_of_ok (Dec.run_pure _ _)).trans ?_)
  exact (Dec.bind_of_ok (Dec.run_pure _ _)).trans ((Dec.bind_of_ok hcount).trans rfl)

/-- With no instances and a strip offset that is no OOB, what is drawn is the region filled with SBDEFPIXEL
(`48_text_region.md` R376). -/
theorem textDecode_no_instances {E : Env} {P : TextParams} {dt : Int} {w w' : Work} (hhuff : P.huff = false)
    (hnum : P.numInstances = 0) (hpix : P.w * P.h ≤ E.cfg.maxpix) (hdt : iaDecode E .iadt w = .ok (some dt) w') :
    textDecode E P w = .ok (Bitmap.filled P.w P.h P.defPixel) w' := by
  have hval : textVal E P P.tables.dt .iadt w = .ok dt w' := by
    unfold textVal textDec
    rw [hhuff]
    exact (Dec.bind_of_ok hdt).trans (needValue_some _ _)
  unfold textDecode
  refine (Dec.bind_of_ok (newBitmap_of_le hpix _ _)).trans ((Dec.bind_of_ok hval).trans ?_)
  rw [hnum]
  rfl

/-- An arithmetic-coded text region without instances whose coded data begins with a marker, read whole
(`48_text_region.md` R375). -/
theorem segTr_read_no_instances {op : CombOp} {f : Nat} (hok : s.windowOk = true) (hrefs : s.refsUsable)
    (hcap : s.refSymbols.length ≤ s.cfg.maxsyms) (hg : bitField (s.streamNum (s.sp.toNat + 128) 8) 7 3 = 0)
    (hop : combOpOfCode (bitField (s.streamNum (s.sp.toNat + 128) 8) 2 0) = some op)
    (hpix : s.streamNum s.sp.toNat 32 * s.streamNum (s.sp.toNat + 32) 32 ≤ s.cfg.maxpix)
    (hfd : s.streamNum (s.sp.toNat + 136) 16 = f) (hf0 : f.testBit 0 = false) (hf1 : f.testBit 1 = false)
    (hf15 : f.testBit 15 = false) (hnum : s.streamNum (s.sp.toNat + 152) 32 = 0)
    (hwe : s.sp.toNat / 8 + 24 < s.windowEnd) (hff : s.streamByte (s.sp.toNat / 8 + 23) = 0xFF)
    (hcode : 0x8F < s.streamByte (s.sp.toNat / 8 + 24)) :
    ∃ v,
      segTr s.segmentEnv s.refSlots s.work =
        .ok
          { slot :=
              .region (Bitmap.filled (s.streamNum s.sp.toNat 32) (s.streamNum (s.sp.toNat + 32) 32) (f.testBit 9))
                (BitVec.ofNat 32 (s.streamNum (s.sp.toNat + 64) 32))
                (BitVec.ofNat 32 (s.streamNum (s.sp.toNat + 96) 32)) op
            idlen := some (ceilLog2 s.refSymbols.length) } v ∧
        v.built = 0 := by
  obtain ⟨-, halign, hfit⟩ := s.windowOk_iff.mp hok
  have hslen := s.slen.isLt
  obtain ⟨refs, hr, hsyms⟩ := collectRefs_ok s.work hrefs
  have hsyms : refs.syms = s.refSymbols := hsyms
  have hwide : s.segmentEnv.we ≤ 2 ^ 32 := by show s.sp.toNat / 8 + s.datalen ≤ 2 ^ 32; omega
  generalize hj : s.sp.toNat / 8 + 23 = j at hff
  have hj' : 8 * j = s.sp.toNat + 184 := by omega
  have hma : MarkerAt s.segmentEnv j :=
    ⟨by show s.sp.toNat / 8 ≤ j; omega, by show j + 1 < s.windowEnd; omega, hwide, hff, by subst hj; exact hcode⟩
  have hbp : (BitVec.ofNat 32 j).toNat = j := by
    have := hma.high
    rw [BitVec.toNat_ofNat, Nat.mod_eq_of_lt (by omega)]
  have hnext : MarkerNext s.segmentEnv (BitVec.ofNat 32 j) := by
    refine ⟨?_, ?_, ?_⟩ <;> rw [hbp]
    exacts [hma.low.trans (Nat.le_succ _), hma.high, hma.code]
  -- every array cleared, the header read, and the decoder started at the marker
  generalize hu : ({ s.work with cx := s.cx.mapArr fun n x => if n ∈ allArrays then .cleared else x } : Work) = u
  have hclear : clearArrays allArrays s.work = .ok () { u with sp := s.sp.toNat } := by
    rw [← hu]
    rfl
  have hcx (n : Arr) : u.cx.arr n = .cleared := by
    rw [← hu]
    exact (Contexts.arr_mapArr _ _ _).trans (if_pos (mem_allArrays n))
  have hhead := parseTextHeader_arithmetic refs.tabs u ⟨by omega, by omega⟩ hg hop hpix hfd hf0 hf1 hf15
  rw [hnum, ← hj'] at hhead
  have hinit : adInitAt s.segmentEnv j { u with sp := 8 * j } =
      .ok () { u with sp := 8 * j, ad := startedOnMarker (BitVec.ofNat 32 j) } :=
    adInitAt_marker hma.low hma.high hwide hma.ff hma.code
  have hopen : openTextData s.segmentEnv false refs.syms.length { u with sp := 8 * j } =
      .ok .raw { u with sp := 8 * j, ad := startedOnMarker (BitVec.ofNat 32 j) } :=
    (Dec.bind_of_ok (cursorByte_ok j u)).trans ((Dec.bind_of_ok hinit).trans rfl)
  -- one integer, the strip offset
  have hfed : Fed s.segmentEnv j { u with sp := 8 * j, ad := startedOnMarker (BitVec.ofNat 32 j) } := by
    unfold Fed startedOnMarker
    rw [hbp]
    exact ⟨hma.low, Nat.le_refl _, hma.ff.symm⟩
  obtain ⟨dt, v, hdt, -, -, hbuilt⟩ := (iaDecode_keeps fun k => adDecode_fed_plain hma .iadt k).completes
    ⟨hfed, by rw [← hu]; rfl⟩
  obtain ⟨dt, rfl⟩ := Option.ne_none_iff_exists'.mp (iaDecode_on_marker_ne_oob hnext
    (w := { u with sp := 8 * j, ad := startedOnMarker (BitVec.ofNat 32 j) }) rfl (hcx .iadt) hdt)
  refine ⟨v, ?_, hbuilt⟩
  unfold segTr
  refine (Dec.bind_of_ok hr).trans ((Dec.bind_of_ok (Dec.run_require_of (by rw [hsyms]; exact hcap) _ _)).trans
    ((Dec.bind_of_ok hclear).trans ((Dec.bind_of_ok hhead).trans ?_)))
  dsimp only
  rw [hf0]
  refine (Dec.bind_of_ok hopen).trans ((Dec.bind_of_ok (textDecode_no_instances ?_ ?_ ?_ hdt)).trans ?_)
  · exact hf0
  · rfl
  · exact hpix
  · rw [hsyms]
    rfl

end

end Sys2Proof.Machine
end

section
/-! The statements of the families `48_text_region.md`, `60_exceptions.md` and `70_reset_and_hazards.md`. -/

namespace Sys2Proof.Machine

/-- Settles O55: the segment is read whole, by `segTr_read_no_instances` or by `segTr_read` over prefix-free tables, and
committed. -/
theorem segTrResult : Obligations.SegTrResult := by
  intro i s op hi hok hrefs husable hcap p W H g f empty ends hg hop hpix hf1 hf15
  have hexec : exec i s = runSegment i.opc symbolFootprint true (segTr s.segmentEnv s.refSlots) s := by
    rcases hi with rfl | rfl | rfl <;> rfl
  refine ⟨fun hf0 hnum hwe hff hcode => ?_, ?_⟩
  · obtain ⟨v, hbody, hbuilt⟩ :=
      segTr_read_no_instances hok husable hcap hg hop hpix rfl hf0 hf1 hf15 hnum hwe hff hcode
    obtain ⟨hdone, hslot, hidlen, hsp, hvalid, -, -, htab, hkept⟩ :=
      finishSegment_symbol_frame s v (v := .region empty _ _ op) nofun (ceilLog2 s.refSymbols.length)
    refine ⟨_, hexec.trans (runSegment_of_ok hok (fun _ => hrefs) hbody), ⟨hdone, hslot, hidlen, hsp, hvalid, hkept⟩, ?_,
      fun x y hx hy => Bitmap.get_filled hx hy _⟩
    rw [htab, hbuilt, commitBuilt_zero]
  · intro fs ds dt lens counts dt0 q q1 q2 tp st lines hf0 hs hfs hds hdt hh hn hrl hlens hnum hsc hdt0 hsyms hlog hcor
      htr hcop hdso hstrips hend
    obtain ⟨-, halign, -⟩ := s.windowOk_iff.mp hok
    have hbody := segTr_read hs husable hcap halign rfl hg hop hpix hf0 hf1 hf15 hfs hds hdt hh hn rfl hrl hlens hnum hsc
      hdt0 hsyms hlog hcor htr hcop hdso hstrips hend (codesOf_prefixFree _) (codesOf_prefixFree _)
      (codesOf_prefixFree _) (codesOf_prefixFree _) (codesOf_prefixFree _)
    obtain ⟨hdone, hslot, hidlen, hsp, hvalid, harr, had, htab, hkept⟩ :=
      finishSegment_symbol_frame s _ (v := .region st.reg _ _ op) nofun (ceilLog2 s.refSymbols.length)
    refine ⟨_, hexec.trans (runSegment_of_ok hok (fun _ => hrefs) hbody), ⟨hdone, hslot, hidlen, hsp, hvalid, hkept⟩, had,
      fun n j => ?arrays, fun k => ?tables⟩
    case arrays => rw [harr, Contexts.arr_mapArr, CxArray.entry_cleared]
    case tables =>
      have hused : k ∈ [6 + fs, 8 + ds, 11 + dt, 14, 14, 14, 14, 1] ↔ k ∈ [1, 6 + fs, 8 + ds, 11 + dt, 14] := by
        simp only [List.mem_cons, List.not_mem_nil, or_false]
        omega
      have hfind := hs.find_tablesUsed (ns := [6 + fs, 8 + ds, 11 + dt, 14, 14, 14, 14, 1])
        (fun n hn => by simp only [List.mem_cons, List.not_mem_nil, or_false] at hn; omega) k
      simp only [hused] at hfind
      rw [htab]
      exact hfind

/-- Settles O56: S_I is CURS, advanced first where the corner is a far one, and `placeAt_corner` reads the table. -/
theorem textPlacement : Obligations.TextPlacement := by
  intro p ib T st c right bottom extent far
  have hadv : st.curs + advanceS p.transposed ib.w ib.h = st.curs + extent - 1 := by
    rw [advanceS_eq, Int.add_sub_assoc]
  have hfar : farCorner p.transposed c = true ↔ far := farCorner_iff ..
  by_cases h : far
  · refine ⟨_, _, _, (place_of_far (hfar.mpr h) ib T st).trans ?_, fun _ => hadv, fun hn => absurd h hn,
      placeAt_corner ..⟩
    rw [hadv]
  · refine ⟨_, _, _, (place_of_near (mt hfar.mp h) ib T st).trans ?_, fun hf => absurd hf h, fun _ => rfl,
      placeAt_corner ..⟩
    rw [hadv]

/-- Settles O13: the error taken is the IllegalCommand, and that changes nothing else. -/
theorem illegalCommandChangesNothing : Obligations.IllegalCommandChangesNothing := by
  intro i s t h ht herr
  obtain ⟨e, built, rfl⟩ := exec_raises h ht
  obtain rfl := CoreError.code_eq_six_iff.mp ((State.raise_raised ..).2.1.symm.trans herr)
  rfl

/-- Settles O14: what an error leaves of each item. -/
theorem errorsLeaveNoPartialResult : Obligations.ErrorsLeaveNoPartialResult := by
  intro i s t hs h ht herr
  obtain ⟨-, -, -, -, ⟨hrise, -⟩, -⟩ := hs
  obtain ⟨e, built, rfl⟩ := exec_raises h ht
  have he : e ≠ .illegalCommand := fun he => herr (CoreError.code_eq_six_iff.mpr he)
  have hslot := State.raise_slot hrise i.opc (footprintOf i) built e
  refine ⟨(State.raise_advalid ..).trans (if_neg he), fun k hk => ?_, ?_, fun hsp => ?_, fun hid => ?_⟩
  · rw [hslot, if_neg fun h' => hk h'.2.2.symm]
  · simp only [hslot, footprintOf_segment, he, ne_eq, not_false_eq_true, true_and, and_true]
  · rw [State.raise_slen]
    exact State.raise_sp_le _ _ _ _ _ hsp
  · rw [State.raise_cfg]
    exact State.raise_idlen_le _ _ _ _ _ hid

/-- Settles O19, from `exec_mayRaise`. -/
theorem commandsRaiseTheirErrors : Obligations.CommandsRaiseTheirErrors := by
  intro i s t h ht
  exact exec_mayRaise h ht

/-- Settles O58: the references are looked at before the window, and an error empties the destination. -/
theorem segmentBadReference : Obligations.SegmentBadReference := by
  intro i s hs hok hrefs hbad
  obtain ⟨-, -, -, -, ⟨hrise, -⟩, -⟩ := hs
  rcases hbad with ⟨hi, h, hmem, hkind⟩ | ⟨hi, hkind⟩
  · have hcollect := collectRefs_error s.work ⟨s.slot h, List.mem_map_of_mem hmem, hkind⟩
    rcases hi with rfl | rfl | rfl | rfl <;>
      exact exec_segment_error rfl hrise hok hrefs nofun (Dec.bind_of_error hcollect)
  · have href : rrReference s.refSlots s.work = .error .invalidReference s.work := by
      refine rrReference_error _ fun b x y o hslots => ?_
      obtain ⟨hn, hslot⟩ := State.refSlots_eq_singleton_iff.mp hslots
      rcases hkind with hkind | hkind
      · exact hkind hn
      · exact hkind b x y o hslot
    rcases hi with rfl | rfl | rfl <;>
      exact exec_segment_error rfl hrise hok hrefs nofun (Dec.bind_of_error href)

/-- Settles O59, from `segmentBody_no_bytes`. -/
theorem segmentOfNoBytes : Obligations.SegmentOfNoBytes := by
  intro i s hi hs hok hrefs hlen hsyms hregion
  obtain ⟨-, -, -, -, ⟨hrise, -⟩, -⟩ := hs
  obtain ⟨w, hbody⟩ := segmentBody_no_bytes hi hok hlen hsyms hregion
  obtain ⟨t, hexec, hraised, hslot, -⟩ := exec_segment_error hi hrise hok hrefs (by decide) hbody
  exact ⟨t, hexec, hraised, hslot⟩

/-- Settles O60: the two runs end alike by `SameSegment.ends`, and each end is read off. -/
theorem segmentDependsOnItsInputs : Obligations.SegmentDependsOnItsInputs := by
  intro i s s' hi hs hs' hcfg hp0 hp1 hrefn href hsp hslen hbyte hslots hdst
  have h : SameSegment s s' := ⟨hcfg, hp0, hp1, hrefn, href, hsp, hslen, hbyte, hslots, hdst⟩
  have hrise : SparseRising s.segstore := hs.2.2.2.2.1.1
  have hrise' : SparseRising s'.segstore := hs'.2.2.2.2.1.1
  rcases h.ends hs hs' hi with ⟨e, b, b', h1, h2⟩ | ⟨r, w, w', h1, h2⟩
  · refine ⟨_, _, h1, h2, rfl, rfl, ?_, fun hdone => nomatch hdone⟩
    rw [State.raise_slot hrise, State.raise_slot hrise', h.dst_eq, hdst]
  · refine ⟨_, _, h1, h2, rfl, rfl, ?_, fun _ => ?_⟩
    · rw [State.finishSegment_slot hrise, ← h.dst_eq, State.finishSegment_slot hrise']
    · rw [State.completed_sp, State.completed_sp, State.finishSegment_sp, State.finishSegment_sp, h.windowEnd_eq]

/-- Settles O10, field by field. -/
theorem hostResets : Obligations.HostResets := by
  intro s rest hs
  refine ⟨{ s with host := rest }.applyReset, ?_, rfl, rfl, rfl, rfl, rfl⟩
  unfold step
  rw [hs]
  rfl

end Sys2Proof.Machine
end
